-- ==== Sys2Proof/Word.lean ====
section
/-! DEFINITION. The bit-vector words the spec reads and writes: bytes, 32-bit registers and 64-bit values (00 R1, R5). -/

namespace Sys2Proof

/-- One byte of memory (R1). -/
abbrev Byte := BitVec 8

/-- A 32-bit register or instruction word. -/
abbrev Word := BitVec 32

/-- A 64-bit value: a register pair, an address operand or a device time (R5). -/
abbrev DWord := BitVec 64

end Sys2Proof
end

