-- ==== Sys2Proof/Config.lean ====
section
/-! DEFINITION. What an implementation fixes and the spec does not: constants with no body, which no proof can see, and the
free values of the model (log 5). -/

namespace Sys2Proof.Config

/-- The stepping in DEVID bits 15:0 (R48): each implementation's own. -/
opaque stepping : BitVec 16

/-- The fused minimum security version of boot stage k (R64). -/
opaque minVersion : Nat → Nat

/-- The SHA-256 hash of the root public key in the boot ROM (R64). -/
opaque rootKeyHash : BitVec 256

/-- Whether `sig` is a valid SLH-DSA-SHA2-128s signature of `msg` under the public key `key` (R64); FIPS 205 is named by
the spec and not given by it. -/
opaque slhVerify (key : BitVec 256) (msg : List Byte) (sig : Nat) : Bool

/-- The signature the device identity key gives to a message (R66): the key is sealed at manufacture. -/
opaque slhSign (msg : List Byte) : Nat

/-- How far copy k of device time stands from the time unit, before R44's bound of 4 ns: layers 0 to 7, slices from 8, the
scheduler's 24. -/
opaque copySkew : Nat → Int

/-- Free value number n: one byte of the gang image format, which is internal to the part (R130). -/
opaque freeByte : Nat → Byte

/-- Free value number n: a 64-bit value the spec leaves open where the machine goes on. -/
opaque freeValue : Nat → DWord

end Sys2Proof.Config
end

