-- ==== Sys2Proof/Syntax.lean ====
section
/-! DEFINITION. The instructions and steps of the machine: one constructor of `Instr` for each row of the opcode table, with the
operand types they carry. Rows without an encoding are steps of the package (95); their operands are what the outside
world or a unit's free choice supplies. -/

namespace Sys2Proof

/-- The format codes of R248. -/
inductive Fmt where
  | i8 | n8 | i16 | n16 | i32 | n32 | f32 | f16 | bf16 | ln6 | ln8 | e8 | i64 | n64
  deriving DecidableEq, Repr

/-- The scopes of R210, narrowest first. -/
inductive Scope where
  | ln | grp | slot | core | pod | lyr | dev | host | fab
  deriving DecidableEq, Repr

/-- The ordering kinds of R211. -/
inductive Ord where
  | weak | rlx | acq | rel | ar
  deriving DecidableEq, Repr

/-- The atomic operations of R366. -/
inductive Aop where
  | swap | cas | add | min | max | and | or | xor | fadd
  deriving DecidableEq, Repr

/-- VER and SC of word 0 (R295 to R297): `k9` is VER 0b01. -/
structure Ctl where
  k9 : Bool
  sc : BitVec 4
  deriving DecidableEq, Repr

/-- Word 0 of an F8 or F12 instruction (R298 to R300): `guard` holds GN and GP when GE is 1. -/
structure Head where
  ctl : Ctl
  guard : Option (Bool × BitVec 4)
  ds : Bool
  nw : Bool
  dreg : BitVec 8
  deriving DecidableEq, Repr

/-- A source field (R301): `imm` holds the field's low five bits, `lit` the literal word it reads (R303). -/
inductive Src where
  | v (r : BitVec 8)
  | s (r : BitVec 6)
  | b (r : BitVec 2)
  | imm (n : BitVec 5)
  | lit (w : Word)
  deriving DecidableEq, Repr

/-- The roles of R13 and R28. -/
inductive Role where
  | compute | memory | fenced | unassigned
  deriving DecidableEq, Repr

/-- The partition profiles of R14. -/
inductive Profile where
  | p8cx | p8c | p6c2m | p4c4m
  deriving DecidableEq, Repr

/-- A clock generator of R21: a layer's, or that of Hull island Hk. -/
inductive Island where
  | layer (n : Nat)
  | hull (k : Nat)
  deriving DecidableEq, Repr

/-- A boot image (R64): its bytes, security version, signer key, the signature of that key by the stage above, its own
signature, and the measurement register it extends. -/
structure BootImage where
  body : List Byte
  version : Nat
  signer : BitVec 256
  signerSig : Nat
  sig : Nat
  mreg : Nat
  deriving DecidableEq, Repr

/-- What the outside supplies at bring-up (R29): images, link training, second-tier capacities in bytes (R55), the cooling
class (R15), failed positions as 36 × layer + 9 × Pod + position (R435), the partition and the target frequencies. -/
structure BringUp where
  images : List BootImage
  hbmTrained : Bool
  cxlTrained : Bool
  expanders : List (Option Nat)
  enhanced : Bool
  failed : List Nat
  profile : Profile
  roles : List Role
  freqs : List (Island × Nat)
  /-- the size the host gives BAR4, as a power of two of 16 GiB (R47) -/
  bar4 : Nat
  deriving DecidableEq, Repr

/-- A flit on the wire (R30): header, encrypted payload, tag. -/
structure WireFlit where
  header : BitVec 128
  body : List Byte
  tag : BitVec 128
  deriving DecidableEq, Repr

/-- A flit a port is asked to send (R31): KIND, CLASS and, for DATA, the payload. -/
structure FlitReq where
  kind : BitVec 4
  cls : BitVec 2
  payload : List Byte
  deriving DecidableEq, Repr

/-- Who writes a register: a host function, the management core, or the service core of a slice (R48, R77). -/
inductive Writer where
  | host
  | manager
  | service (k : Nat)
  deriving DecidableEq, Repr

/-- A register by its block: management offset (R48) or queue page offset (R74, R113). -/
inductive RegAddr where
  | mgmt (off : Nat)
  | queue (q : Nat) (off : Nat)
  deriving DecidableEq, Repr

/-- A register that a host function reads, eight bytes of it (R47): in PF0's BAR0, in a queue page of the function's BAR2, or in
a VF's BAR0. -/
inductive HostReg where
  | mgmt (off : Nat)
  | page (fn page off : Nat)
  | status (fn off : Nat)
  deriving DecidableEq, Repr

/-- A Valob peer's memory access (R148). -/
inductive PeerReq where
  | read (n : Nat)
  | write (bytes : List Byte)
  | fetchAdd (v : DWord)
  deriving DecidableEq, Repr

/-- A move of one page in a FLUSH or a migration (R16, R154): the address of its leaf entry, whether it is a 2 MiB leaf,
and the new frame, or none when there is no free capacity (R17). -/
structure PageMove where
  leaf : Nat
  big : Bool
  frame : Option Nat
  deriving DecidableEq, Repr

/-- A task at dispatch (R117): a launch, or a range task by TASKID. -/
inductive TaskRef where
  | launch (id : Nat)
  | range (id : Nat)
  deriving DecidableEq, Repr

/-- Where an uncorrectable error lies (R235); for a group's core, whether the shadow of its checkpoint is intact (R183). -/
inductive ErrorAt where
  | group (gh : Nat) (intact : Bool)
  | line (pa : Nat)
  | spill (gh : Nat)
  deriving DecidableEq, Repr

/-- A store that reaches its home (R190): an issued store of a lane, by its index among the group's outstanding accesses,
or a store of a service core (R226). -/
inductive StoreBy where
  | lane (gh : Nat) (idx : Nat)
  | service (k : Nat) (pa : Nat) (bytes : List Byte)
  deriving DecidableEq, Repr

/-- What a debug command names (R237). -/
inductive DebugTarget where
  | group (gh : Nat)
  | launch (id : Nat)
  deriving DecidableEq, Repr

/-- A source of time exchanges (R42). -/
inductive TimeFrom where
  | host
  | port (n : Nat)
  deriving DecidableEq, Repr

/-- A failing core, and the groups whose shadow the failure damages (R27, R183). -/
structure CoreLoss where
  core : Nat
  damaged : List Nat
  deriving DecidableEq, Repr

/-- A trained port, and whether the other end has its slot 0 loaded for both directions (R38). -/
structure Trained where
  port : Nat
  peerReady : Bool
  deriving DecidableEq, Repr

/-- A command that takes bytes of its source, and whether the host answers where they are in its memory (R93, R433). -/
structure SourceRead where
  packet : Nat
  answered : Bool
  deriving DecidableEq, Repr

/-- The instructions and steps: one constructor for each row of the opcode table. -/
inductive Instr where
  /- package and layers (01) -/
  | powerOff
  | perstRelease (b : BringUp)
  | applyPartition (p : Profile) (roles : List Role)
  | roleChangeRequest (layer : Nat) (role : Role)
  | layerDrainComplete (layer : Nat) (moves : List PageMove)
  | layerFlushComplete (layer : Nat)
  | layerReenumComplete (layer : Nat)
  | coreFailure (loss : CoreLoss)
  | spareTakeover (core : Nat)
  | freqRequest (island : Island) (c : Nat)
  | relockEnd (island : Island)
  | powerSample (milliwatts : Nat)
  | powerStepDown
  | powerStepUp
  /- links and time (02) -/
  | valobKeyLoad (port : Nat) (transmit : Bool) (slot : Bool) (key : BitVec 256)
  | portEnable (port : Nat) (asid : BitVec 16)
  | portDisable (port : Nat)
  | trainDone (ends : Trained)
  | phyLockLoss (port : Nat) (lostFor : Nat)
  | switch (port : Nat)
  | flitSend (port : Nat) (f : FlitReq)
  | iclimitTimeout (port : Nat)
  | dataFlit (port : Nat) (f : WireFlit)
  | markerFlit (port : Nat) (f : WireFlit)
  | ackFlit (port : Nat) (f : WireFlit)
  | nakFlit (port : Nat) (f : WireFlit)
  | idleFlit (port : Nat) (f : WireFlit)
  | timeFlit (port : Nat) (f : WireFlit) (offset : Int)
  | timeExchange (src : TimeFrom) (offset : Int)
  | tsyncLoss
  | replayTimeout (port : Nat)
  /- host port, second tier and security (03) -/
  | keyWindowRead (reg : HostReg)
  | protectedWrite (off : Nat) (data : DWord)
  | registerWrite (who : Writer) (reg : RegAddr) (data : DWord)
  | apertureAccess (off : Nat) (n : Nat) (write : Option (List Byte))
  | hostTlp (tdi : Nat) (tbit : Bool) (stream : Nat) (intact : Bool)
  | tdispLock (tdi : Nat) (stream : Nat)
  | tdispStart (tdi : Nat)
  | stopInterface (tdi : Nat)
  | cxlPoison (port : Nat) (pa : Nat)
  | cxlLinkDown (port : Nat)
  | accessTableWrite (t : Nat) (k : Nat) (e : BitVec 128)
  | memoryKeyLoad (k : Nat) (key : BitVec 512)
  | memoryKeyErase (k : Nat)
  | setKattr (k : Nat) (shared : Bool) (owner : BitVec 6)
  | copyInKeyLoad (c : Nat) (key : BitVec 256)
  | getMeasurements (nonce : BitVec 256)
  | kspawn (rd rs1 rs2 : BitVec 5)
  /- queues, packets and the Shucker (04): packets by the model's packet number -/
  | hostFetchAdd (fn : Nat) (page : Nat)
  | peerFetchAdd (port : Nat) (peer : Nat) (q : Nat)
  | packetConsume (q : Nat)
  | ringfaultClear (q : Nat)
  | packetStart (p : Nat)
  | launch (p : Nat)
  | range (p : Nat)
  | copy (p : Nat)
  | stream (p : Nat)
  | reduce (p : Nat) (n : Nat)
  | marker (p : Nat)
  | bwait (p : Nat)
  | bwaitWake (p : Nat)
  | raise (p : Nat)
  | endpointResolve (p : Nat)
  | encCopyCheck (r : SourceRead)
  | shuckerLanding (r : SourceRead) (off : Nat) (n : Nat)
  | copyResume (p : Nat)
  | copyDone (p : Nat)
  | mmawAccept (p : Nat)
  | streamTile (p : Nat)
  | stampWrite (p : Nat)
  /- scheduling (05) -/
  | launchRelease (id : Nat)
  | dispatchTranslate (t : TaskRef) (initiator : Nat)
  | admission (handles : List Nat)
  | periodRollover (q : Nat)
  | overrun (q : Nat)
  | steal (thief : Nat) (victim : Nat)
  | groupExit (gh : Nat)
  | preempt (ctx : Nat) (area : Nat) (size : Nat) (deadline : Nat)
  | preemptDeadline (ctx : Nat)
  | contextDrainComplete (ctx : Nat)
  | huskWritten (ctx : Nat) (written : Bool)
  | restore (ctx : Nat) (area : Nat)
  | layerDrainTimeout (layer : Nat) (areas : List (Nat × (Nat × Nat)))
  | spill (gh : Nat)
  | regrowGrant (core : Nat)
  /- contexts, translation and migration (06) -/
  | contextCreate (ctx : Nat) (asid : BitVec 16) (root : Nat) (spill : Nat) (spillLen : Nat)
  | contextDestroy (ctx : Nat)
  | entryWrite (slice : Nat) (pa : Nat) (big : Bool) (entry companion : DWord)
  | shootDown (slice : Nat) (asid : BitVec 16) (va : Nat) (leaf : Nat)
  | shootDownComplete (asid : BitVec 16) (va : Nat)
  | homeFence (leaf : Nat) (big : Bool) (frame : Nat)
  | peerAccess (port : Nat) (peer : Nat) (va : Nat) (r : PeerReq)
  /- the core (07 to 09) -/
  | holdTimeout (gh : Nat) (lane : Nat)
  | starvationLimit (core : Nat) (slot : Nat)
  | icacheFill (core : Nat) (pa : Nat)
  | nodeRecordFill (core : Nat) (pa : Nat)
  | bankRequestServed (core : Nat) (bank : Nat)
  | loadComplete (gh : Nat) (idx : Nat)
  | matrixEntryComplete (core : Nat)
  | uncorrectableError (loc : ErrorAt)
  | homeStore (by_ : StoreBy)
  | pushDepart (slice : Nat) (idx : Nat)
  | pushLanding (idx : Nat)
  | teardownNotice (idx : Nat)
  | mwaitReread (gh : Nat)
  /- debug and trace (10) -/
  | debugHalt (t : DebugTarget)
  | debugResume (t : DebugTarget)
  | debugDrain (t : DebugTarget)
  | debugDrainDone (gh : Nat)
  | hang (id : Nat)
  | setHangt (id : Nat) (microseconds : Nat)
  | sample (core : Nat) (slot : Nat)
  | setSamplePeriod (core : Nat) (slot : Nat) (period : Nat)
  | setTraceRing (unit : Nat) (base : Nat) (size : Nat)
  | setLaneCycleRange (core : Nat) (n : Nat) (base lim : DWord)
  /- control and predicates (14) -/
  | nop (c : Ctl)
  | exit (c : Ctl) (n : BitVec 8)
  | next (c : Ctl) (n : BitVec 8)
  | ret (c : Ctl)
  | trap (c : Ctl) (imm : BitVec 16)
  | tret (h : Head) (act : BitVec 2) (n : BitVec 8) (a : Option Src)
  | yield (c : Ctl)
  | halt (c : Ctl) (code : BitVec 16)
  | icmp (h : Head) (cmb : BitVec 2) (cc : BitVec 3) (ty : Fmt) (a b : Src)
  | fcmp (h : Head) (cmb : BitVec 2) (cc : BitVec 3) (ty : Fmt) (a b : Src)
  | plog (h : Head) (pb pa lut : BitVec 4)
  | pmov (h : Head) (all : Bool) (bit : BitVec 5) (a : Src)
  | prd (h : Head)
  | sel (h : Head) (pn : Bool) (ps : BitVec 4) (ty : Fmt) (a b : Src)
  | pmask (h : Head)
  /- integers (14) -/
  | iadd (h : Head) (sat : Bool) (ty : Fmt) (a b : Src)
  | isub (h : Head) (sat : Bool) (ty : Fmt) (a b : Src)
  | imul (h : Head) (sat : Bool) (ty : Fmt) (a b : Src)
  | imulh (h : Head) (sat : Bool) (ty : Fmt) (a b : Src)
  | imad (h : Head) (sat : Bool) (ty : Fmt) (a b c : Src)
  | idiv (h : Head) (sat : Bool) (ty : Fmt) (a b : Src)
  | irem (h : Head) (sat : Bool) (ty : Fmt) (a b : Src)
  | imin (h : Head) (sat : Bool) (ty : Fmt) (a b : Src)
  | imax (h : Head) (sat : Bool) (ty : Fmt) (a b : Src)
  | iabs (h : Head) (sat : Bool) (ty : Fmt) (a : Src)
  | ineg (h : Head) (sat : Bool) (ty : Fmt) (a : Src)
  | isad (h : Head) (sat : Bool) (ty : Fmt) (a b c : Src)
  | idot4 (h : Head) (sat : Bool) (ty : Fmt) (a b c : Src)
  | iclamp (h : Head) (sat : Bool) (ty : Fmt) (a b c : Src)
  | imulw (h : Head) (sat : Bool) (ty : Fmt) (a b : Src)
  | and (h : Head) (ty : Fmt) (a b : Src)
  | or (h : Head) (ty : Fmt) (a b : Src)
  | xor (h : Head) (ty : Fmt) (a b : Src)
  | not (h : Head) (ty : Fmt) (a : Src)
  | shl (h : Head) (ty : Fmt) (a b : Src)
  | shr (h : Head) (ty : Fmt) (a b : Src)
  | sar (h : Head) (ty : Fmt) (a b : Src)
  | rot (h : Head) (ty : Fmt) (a b : Src)
  | popc (h : Head) (ty : Fmt) (a : Src)
  | clz (h : Head) (ty : Fmt) (a : Src)
  | ctz (h : Head) (ty : Fmt) (a : Src)
  | brev (h : Head) (ty : Fmt) (a : Src)
  | bfx (h : Head) (ty : Fmt) (a b c : Src)
  | bfi (h : Head) (a b c : Src)
  | tern (h : Head) (lut : BitVec 8) (a b c : Src)
  | shf (h : Head) (dir : Bool) (a b c : Src)
  | perm (h : Head) (a b c : Src)
  | mov (h : Head) (ty : Fmt) (a : Src)
  | lea (h : Head) (sh : BitVec 5) (ty : Fmt) (a b : Src)
  | iext (h : Head) (wide : Bool) (ty : Fmt) (a : Src)
  /- float, conversion and lane exchange (15) -/
  | fadd (h : Head) (ty : Fmt) (a b : Src)
  | fsub (h : Head) (ty : Fmt) (a b : Src)
  | fmul (h : Head) (ty : Fmt) (a b : Src)
  | ffma (h : Head) (ty : Fmt) (a b c : Src)
  | fmin (h : Head) (ty : Fmt) (a b : Src)
  | fmax (h : Head) (ty : Fmt) (a b : Src)
  | fsgn (h : Head) (mode : BitVec 2) (ty : Fmt) (a b : Src)
  | hadd2 (h : Head) (ty : Fmt) (a b : Src)
  | hmul2 (h : Head) (ty : Fmt) (a b : Src)
  | hfma2 (h : Head) (ty : Fmt) (a b c : Src)
  | hmin2 (h : Head) (ty : Fmt) (a b : Src)
  | hmax2 (h : Head) (ty : Fmt) (a b : Src)
  | frcp (h : Head) (ty : Fmt) (a : Src)
  | frsq (h : Head) (ty : Fmt) (a : Src)
  | fexp2 (h : Head) (ty : Fmt) (a : Src)
  | flog2 (h : Head) (ty : Fmt) (a : Src)
  | fsqrt (h : Head) (ty : Fmt) (a : Src)
  | fclass (h : Head) (ty : Fmt) (a : Src)
  | fcvt (h : Head) (sf ty : Fmt) (a : Src)
  | icvtf (h : Head) (sf ty : Fmt) (a : Src)
  | fcvti (h : Head) (sf ty : Fmt) (a : Src)
  | qnt (h : Head) (had : BitVec 2) (ty : Fmt) (a b c : Src)
  | dqnt (h : Head) (ty : Fmt) (a b : Src)
  | shfl (h : Head) (seg : BitVec 3) (ty : Fmt) (a b : Src)
  | shflup (h : Head) (seg : BitVec 3) (ty : Fmt) (a b : Src)
  | shfldn (h : Head) (seg : BitVec 3) (ty : Fmt) (a b : Src)
  | shflx (h : Head) (seg : BitVec 3) (ty : Fmt) (a b : Src)
  | bcast (h : Head) (seg : BitVec 3) (ty : Fmt) (a : Src)
  | vote (h : Head) (opr seg : BitVec 3) (a : Src)
  | redi (h : Head) (opr seg : BitVec 3) (ty : Fmt) (a : Src)
  | scani (h : Head) (exc : Bool) (opr seg : BitVec 3) (ty : Fmt) (a : Src)
  | redf (h : Head) (opr seg : BitVec 3) (ty : Fmt) (a : Src)
  | scanf (h : Head) (exc : Bool) (opr seg : BitVec 3) (ty : Fmt) (a : Src)
  /- memory, atomics, standing loads and fences (16) -/
  | lds (h : Head) (sz : BitVec 3) (scope : Scope) (ord : Ord) (sx : Bool) (a : Src)
  | sts (h : Head) (sz : BitVec 3) (scope : Scope) (ord : Ord) (a b : Src)
  | ldx (h : Head) (sz : BitVec 3) (scope : Scope) (ord : Ord) (sx : Bool) (a : Src)
  | stx (h : Head) (sz : BitVec 3) (scope : Scope) (ord : Ord) (a b : Src)
  | atom (h : Head) (aop : Aop) (scope : Scope) (ord : Ord) (ty : Fmt) (a b : Src) (c : Option Src)
  | atoms (h : Head) (aop : Aop) (scope : Scope) (ord : Ord) (ty : Fmt) (a b : Src) (c : Option Src)
  | sub (h : Head) (a b : Src)
  | unsub (h : Head) (a : Src)
  | slrd (h : Head) (a : Src)
  | slwait (h : Head) (spl : Bool) (a b : Src)
  | swinit (h : Head) (a b : Src)
  | swadd (h : Head) (scope : Scope) (a b : Src)
  | swwait (h : Head) (spl : Bool) (scope : Scope) (a b : Src)
  | mwait (h : Head) (spl sp : Bool) (a b c : Src)
  | fence (c : Ctl) (scope : Scope)
  | xfence (c : Ctl) (mask : BitVec 4) (scope : Scope)
  | afence (c : Ctl)
  /- matrix, queues, tasks and system (17) -/
  | mmaLn6 (h : Head) (cz : Bool) (a b : Src)
  | mmaLn8 (h : Head) (cz : Bool) (a b : Src)
  | mmaI8 (h : Head) (cz : Bool) (a b : Src)
  | mmaBf16 (h : Head) (cz : Bool) (a b : Src)
  | mmaF16 (h : Head) (cz : Bool) (a b : Src)
  | had (h : Head) (pts : BitVec 2) (st : BitVec 6)
  | scacc (h : Head) (su : Bool) (st : BitVec 6) (a b : Src)
  | accld (h : Head) (sp : Bool) (a b : Src)
  | accst (h : Head) (sp : Bool) (st : BitVec 6) (a b : Src)
  | accz (c : Ctl) (nm t : BitVec 6)
  | qput (h : Head) (a b : Src)
  | fork (h : Head) (a b c : Src)
  | join (h : Head) (a : Src)
  | gcraise (h : Head) (a : Src)
  | regrow (h : Head) (fld : Bool) (a : Src)
  | sysrd (h : Head) (csr : BitVec 12)
  | syswr (h : Head) (csr : BitVec 12) (a : Src)
  | drain (c : Ctl)
  /- the last rows of the table -/
  | perstAssert
  | unassignedEncoding (w0 : Word)
  | reservedKindFlit (port : Nat) (f : WireFlit)
  | singleBitSoftError
  | pageCopy (leaf : Nat) (big : Bool) (frame : Nat)
  deriving DecidableEq, Repr

end Sys2Proof
end

