-- ==== Sys2Proof/Machine/Bits.lean ====
section
/-! DEFINITION. Bit fields, byte order and the codes of the named fields (R1, R2, R210, R211, R248, R366). -/

namespace Sys2Proof.Machine

/-- Fields (width, value), lowest bits first, as one number. -/
def pack : List (Nat × Nat) → Nat
  | [] => 0
  | (w, v) :: r => v + 2 ^ w * pack r

/-- The fields of the given widths, lowest bits first. -/
def unpack : List Nat → Nat → List Nat
  | [], _ => []
  | w :: r, n => n % 2 ^ w :: unpack r (n / 2 ^ w)

/-- Bits lo to lo + w - 1 of n (R2). -/
def bits (n lo w : Nat) : Nat := n / 2 ^ lo % 2 ^ w

/-- Bit k of n. -/
def bit (n k : Nat) : Bool := n / 2 ^ k % 2 == 1

/-- A Bool as one bit. -/
def flag (b : Bool) : Nat := if b then 1 else 0

/-- The two's-complement value of the low w bits of n (R249). -/
def signed (w n : Nat) : Int :=
  let m := n % 2 ^ w
  if m < 2 ^ (w - 1) then (m : Int) else (m : Int) - (2 ^ w : Nat)

/-- The low w bits of an integer. -/
def wrap (w : Nat) (x : Int) : Nat := (x % ((2 ^ w : Nat) : Int)).toNat

/-- Clamp an integer to lo and hi. -/
def clampInt (lo hi x : Int) : Int := if x < lo then lo else if x > hi then hi else x

/-- Little-endian bytes as a number (R1). -/
def ofBytes : List Byte → Nat
  | [] => 0
  | b :: r => b.toNat + 256 * ofBytes r

/-- n little-endian bytes of a number (R1). -/
def toBytes : Nat → Nat → List Byte
  | 0, _ => []
  | n + 1, x => BitVec.ofNat 8 x :: toBytes n (x / 256)

/-- `from`, `from + 1`, … n numbers. -/
def upFrom : Nat → Nat → List Nat
  | 0, _ => []
  | n + 1, a => a :: upFrom n (a + 1)

/-- n rounded up to a multiple of k, over k. -/
def ceilDiv (n k : Nat) : Nat := (n + k - 1) / k

/-- Number of one bits among the low w bits. -/
def popCount : Nat → Nat → Nat
  | 0, _ => 0
  | w + 1, n => n % 2 + popCount w (n / 2)

/-- The format codes of R248. -/
def fmtCode : Fmt → Nat
  | .i8 => 0 | .n8 => 1 | .i16 => 2 | .n16 => 3 | .i32 => 4 | .n32 => 5 | .f32 => 6
  | .f16 => 7 | .bf16 => 8 | .ln6 => 9 | .ln8 => 10 | .e8 => 11 | .i64 => 12 | .n64 => 13

/-- The format of a code (R248); 14 and 15 name none (R305). -/
def fmtOf : Nat → Option Fmt
  | 0 => some .i8 | 1 => some .n8 | 2 => some .i16 | 3 => some .n16 | 4 => some .i32 | 5 => some .n32
  | 6 => some .f32 | 7 => some .f16 | 8 => some .bf16 | 9 => some .ln6 | 10 => some .ln8
  | 11 => some .e8 | 12 => some .i64 | 13 => some .n64 | _ => none

/-- Bits of a format (R248). -/
def fmtBits : Fmt → Nat
  | .i8 | .n8 | .ln8 | .e8 => 8
  | .i16 | .n16 | .f16 | .bf16 => 16
  | .i32 | .n32 | .f32 => 32
  | .ln6 => 6
  | .i64 | .n64 => 64

/-- The integer formats (R249). -/
def fmtInt : Fmt → Bool
  | .i8 | .n8 | .i16 | .n16 | .i32 | .n32 | .i64 | .n64 => true
  | _ => false

/-- The signed integer formats (R249). -/
def fmtSigned : Fmt → Bool
  | .i8 | .i16 | .i32 | .i64 => true
  | _ => false

/-- The IEEE 754 formats (R250). -/
def fmtFloat : Fmt → Bool
  | .f32 | .f16 | .bf16 => true
  | _ => false

/-- The 64-bit formats. -/
def fmtWide : Fmt → Bool
  | .i64 | .n64 => true
  | _ => false

/-- Registers an operand of a format takes (R304). -/
def fmtRegs (t : Fmt) : Nat := if fmtWide t then 2 else 1

/-- The value of the low bits of n in an integer format (R249). -/
def intOf (t : Fmt) (n : Nat) : Int :=
  if fmtSigned t then signed (fmtBits t) n else ((n % 2 ^ fmtBits t : Nat) : Int)

/-- The scope codes of R210. -/
def scopeCode : Scope → Nat
  | .ln => 0 | .grp => 1 | .slot => 2 | .core => 3 | .pod => 4 | .lyr => 5 | .dev => 6 | .host => 7 | .fab => 8

/-- The scope of a code; 9 to 15 name none (R210). -/
def scopeOf : Nat → Option Scope
  | 0 => some .ln | 1 => some .grp | 2 => some .slot | 3 => some .core | 4 => some .pod | 5 => some .lyr
  | 6 => some .dev | 7 => some .host | 8 => some .fab | _ => none

/-- The ordering-kind codes of R211. -/
def ordCode : Ord → Nat
  | .weak => 0 | .rlx => 1 | .acq => 2 | .rel => 3 | .ar => 4

/-- The ordering kind of a code; 5 to 7 name none (R211). -/
def ordOf : Nat → Option Ord
  | 0 => some .weak | 1 => some .rlx | 2 => some .acq | 3 => some .rel | 4 => some .ar | _ => none

/-- The atomic-operation codes of R366. -/
def aopCode : Aop → Nat
  | .swap => 0 | .cas => 1 | .add => 2 | .min => 3 | .max => 4 | .and => 5 | .or => 6 | .xor => 7 | .fadd => 8

/-- The atomic operation of a code; 9 to 15 name none (R366). -/
def aopOf : Nat → Option Aop
  | 0 => some .swap | 1 => some .cas | 2 => some .add | 3 => some .min | 4 => some .max | 5 => some .and
  | 6 => some .or | 7 => some .xor | 8 => some .fadd | _ => none

/-- The bit of a one-bit field. -/
def flagOf : Nat → Option Bool
  | 0 => some false | 1 => some true | _ => none

/-- A source field's nine bits (R301). -/
def srcCode : Src → Nat
  | .v r => r.toNat
  | .s r => 0x100 + r.toNat
  | .b r => 0x140 + r.toNat
  | .imm n => 0x160 + n.toNat
  | .lit _ => 0x1FF

/-- The operand a source field's nine bits name (R301), with the literal word at hand. -/
def srcOf (f : Nat) (lit : Word) : Option Src :=
  if f < 0x100 then some (.v (BitVec.ofNat 8 f))
  else if f < 0x140 then some (.s (BitVec.ofNat 6 (f - 0x100)))
  else if f < 0x144 then some (.b (BitVec.ofNat 2 (f - 0x140)))
  else if f < 0x160 then none
  else if f < 0x180 then some (.imm (BitVec.ofNat 5 (f - 0x160)))
  else if f = 0x1FF then some (.lit lit)
  else none

/-- The value of a small immediate: the field less 0x170 (R301). -/
def immVal (n : BitVec 5) : Int := (n.toNat : Int) - 16

end Sys2Proof.Machine
end

