-- ==== Sys2Proof/Machine/Sparse.lean ====
section
/-! DEFINITION. Sparse arrays and tables as lists in one canonical form: keys strictly rising, and no entry equal to what an
unlisted key reads as, so that equal contents are equal lists. -/

namespace Sys2Proof.Machine

/-- The element at a key; an unlisted key reads as d. -/
def sget {α : Type} (d : α) : List (Nat × α) → Nat → α
  | [], _ => d
  | (k, v) :: r, a => if k = a then v else if a < k then d else sget d r a

/-- Write one element, removing the entry when it is d. -/
def sset {α : Type} [DecidableEq α] (d : α) : List (Nat × α) → Nat → α → List (Nat × α)
  | [], a, x => if x = d then [] else [(a, x)]
  | (k, v) :: r, a, x =>
    if a < k then (if x = d then (k, v) :: r else (a, x) :: (k, v) :: r)
    else if a = k then (if x = d then r else (a, x) :: r)
    else (k, v) :: sset d r a x

/-- Every key is above b, the keys rise, and no entry is d. -/
def swfFrom {α : Type} [DecidableEq α] (d : α) : Option Nat → List (Nat × α) → Bool
  | _, [] => true
  | b, (k, v) :: r => (match b with | none => true | some b => b < k) && v ≠ d && swfFrom d (some k) r

/-- The canonical form of a sparse array. -/
def swf {α : Type} [DecidableEq α] (d : α) (l : List (Nat × α)) : Bool := swfFrom d none l

/-- The record of a key, if any. -/
def mfind {α : Type} : List (Nat × α) → Nat → Option α
  | [], _ => none
  | (k, v) :: r, a => if k = a then some v else if a < k then none else mfind r a

/-- Insert or replace the record of a key. -/
def mput {α : Type} : List (Nat × α) → Nat → α → List (Nat × α)
  | [], a, x => [(a, x)]
  | (k, v) :: r, a, x =>
    if a < k then (a, x) :: (k, v) :: r
    else if a = k then (a, x) :: r
    else (k, v) :: mput r a x

/-- Remove the record of a key. -/
def mdel {α : Type} : List (Nat × α) → Nat → List (Nat × α)
  | [], _ => []
  | (k, v) :: r, a => if k = a then r else (k, v) :: mdel r a

/-- The keys rise strictly. -/
def mwfFrom {α : Type} : Option Nat → List (Nat × α) → Bool
  | _, [] => true
  | b, (k, _) :: r => (match b with | none => true | some b => b < k) && mwfFrom (some k) r

/-- The canonical form of a table of records. -/
def mwf {α : Type} (l : List (Nat × α)) : Bool := mwfFrom none l

/-- Consecutive elements from a key. -/
def sgets {α : Type} (d : α) (l : List (Nat × α)) : Nat → Nat → List α
  | _, 0 => []
  | a, n + 1 => sget d l a :: sgets d l (a + 1) n

/-- Write consecutive elements from a key. -/
def ssets {α : Type} [DecidableEq α] (d : α) : List (Nat × α) → Nat → List α → List (Nat × α)
  | l, _, [] => l
  | l, a, x :: r => ssets d (sset d l a x) (a + 1) r

/-- Element i of a list of equal things, or d. -/
def nthD {α : Type} (d : α) : List α → Nat → α
  | [], _ => d
  | x :: _, 0 => x
  | _ :: r, n + 1 => nthD d r n

/-- Replace element i of a list. -/
def setNth {α : Type} : List α → Nat → α → List α
  | [], _, _ => []
  | _ :: r, 0, x => x :: r
  | y :: r, n + 1, x => y :: setNth r n x

/-- Remove element i of a list. -/
def dropNth {α : Type} : List α → Nat → List α
  | [], _ => []
  | _ :: r, 0 => r
  | y :: r, n + 1 => y :: dropNth r n

end Sys2Proof.Machine
end

