-- ==== Sys2Proof/Machine/Crypto.lean ====
section
/-! DEFINITION. The ciphers the spec names and does not give (02 R30, R32; 03 R56, R64, R65; 04 R92; 05 R131): AES-256, GCM,
XTS and SHA-256, PRESUMED from their standards FIPS 197, SP 800-38D, IEEE 1619 and FIPS 180-4 (log 6). -/

namespace Sys2Proof.Machine

/-- The AES S-box (FIPS 197), row 0. -/
def sboxRow0 : List Nat := [99, 124, 119, 123, 242, 107, 111, 197, 48, 1, 103, 43, 254, 215, 171, 118]

/-- The AES S-box (FIPS 197), row 1. -/
def sboxRow1 : List Nat := [202, 130, 201, 125, 250, 89, 71, 240, 173, 212, 162, 175, 156, 164, 114, 192]

/-- The AES S-box (FIPS 197), row 2. -/
def sboxRow2 : List Nat := [183, 253, 147, 38, 54, 63, 247, 204, 52, 165, 229, 241, 113, 216, 49, 21]

/-- The AES S-box (FIPS 197), row 3. -/
def sboxRow3 : List Nat := [4, 199, 35, 195, 24, 150, 5, 154, 7, 18, 128, 226, 235, 39, 178, 117]

/-- The AES S-box (FIPS 197), row 4. -/
def sboxRow4 : List Nat := [9, 131, 44, 26, 27, 110, 90, 160, 82, 59, 214, 179, 41, 227, 47, 132]

/-- The AES S-box (FIPS 197), row 5. -/
def sboxRow5 : List Nat := [83, 209, 0, 237, 32, 252, 177, 91, 106, 203, 190, 57, 74, 76, 88, 207]

/-- The AES S-box (FIPS 197), row 6. -/
def sboxRow6 : List Nat := [208, 239, 170, 251, 67, 77, 51, 133, 69, 249, 2, 127, 80, 60, 159, 168]

/-- The AES S-box (FIPS 197), row 7. -/
def sboxRow7 : List Nat := [81, 163, 64, 143, 146, 157, 56, 245, 188, 182, 218, 33, 16, 255, 243, 210]

/-- The AES S-box (FIPS 197), row 8. -/
def sboxRow8 : List Nat := [205, 12, 19, 236, 95, 151, 68, 23, 196, 167, 126, 61, 100, 93, 25, 115]

/-- The AES S-box (FIPS 197), row 9. -/
def sboxRow9 : List Nat := [96, 129, 79, 220, 34, 42, 144, 136, 70, 238, 184, 20, 222, 94, 11, 219]

/-- The AES S-box (FIPS 197), row 10. -/
def sboxRow10 : List Nat := [224, 50, 58, 10, 73, 6, 36, 92, 194, 211, 172, 98, 145, 149, 228, 121]

/-- The AES S-box (FIPS 197), row 11. -/
def sboxRow11 : List Nat := [231, 200, 55, 109, 141, 213, 78, 169, 108, 86, 244, 234, 101, 122, 174, 8]

/-- The AES S-box (FIPS 197), row 12. -/
def sboxRow12 : List Nat := [186, 120, 37, 46, 28, 166, 180, 198, 232, 221, 116, 31, 75, 189, 139, 138]

/-- The AES S-box (FIPS 197), row 13. -/
def sboxRow13 : List Nat := [112, 62, 181, 102, 72, 3, 246, 14, 97, 53, 87, 185, 134, 193, 29, 158]

/-- The AES S-box (FIPS 197), row 14. -/
def sboxRow14 : List Nat := [225, 248, 152, 17, 105, 217, 142, 148, 155, 30, 135, 233, 206, 85, 40, 223]

/-- The AES S-box (FIPS 197), row 15. -/
def sboxRow15 : List Nat := [140, 161, 137, 13, 191, 230, 66, 104, 65, 153, 45, 15, 176, 84, 187, 22]

/-- The AES S-box. -/
def sbox : List (List Nat) :=
  [sboxRow0, sboxRow1, sboxRow2, sboxRow3, sboxRow4, sboxRow5, sboxRow6, sboxRow7, sboxRow8, sboxRow9, sboxRow10, sboxRow11, sboxRow12, sboxRow13, sboxRow14, sboxRow15]

/-- SubBytes of one byte. -/
def subByte (x : Nat) : Nat := nthD 0 (nthD [] sbox (x / 16 % 16)) (x % 16)

/-- The position of a value in a row. -/
def rowFind : List Nat → Nat → Option Nat
  | [], _ => none
  | v :: r, x => if v = x then some 0 else (rowFind r x).map (· + 1)

/-- The position of a value in the S-box from row i on. -/
def boxFind : List (List Nat) → Nat → Nat → Nat
  | [], _, _ => 0
  | r :: t, i, x => match rowFind r x with
    | some j => 16 * i + j
    | none => boxFind t (i + 1) x

/-- The inverse of SubBytes on one byte. -/
def invSubByte (x : Nat) : Nat := boxFind sbox 0 x

/-- Multiplication by x in GF(2^8). -/
def xtime (a : Nat) : Nat := if a ≥ 128 then Nat.xor (2 * a % 256) 0x1B else 2 * a

/-- Multiplication in GF(2^8) by the low n bits of b. -/
def gmul : Nat → Nat → Nat → Nat
  | 0, _, _ => 0
  | n + 1, a, b => Nat.xor (if b % 2 = 1 then a else 0) (gmul n (xtime a) (b / 2))

/-- Bytewise exclusive or. -/
def xorBytes : List Nat → List Nat → List Nat
  | a :: r, b :: s => Nat.xor a b :: xorBytes r s
  | _, _ => []

/-- One column times a circulant row of coefficients. -/
def mixCol (c : List Nat) (m : List Nat) : List Nat :=
  (upFrom 4 0).map fun i => (upFrom 4 0).foldl
    (fun acc j => Nat.xor acc (gmul 8 (nthD 0 c j) (nthD 0 m ((j + 4 - i) % 4)))) 0

/-- MixColumns with the given coefficients, on four columns. -/
def mixCols (m s : List Nat) : List Nat :=
  (upFrom 4 0).flatMap fun k => mixCol ((s.drop (4 * k)).take 4) m

/-- ShiftRows by `d` columns per row. -/
def shiftRows (d : Nat) (s : List Nat) : List Nat :=
  (upFrom 16 0).map fun i => nthD 0 s ((i + 4 * d * (i % 4)) % 16)

/-- The words of the expanded key, newest first; n more words, the next having index i. -/
def keyWords : Nat → Nat → Nat → List (List Nat) → List (List Nat)
  | 0, _, _, ws => ws
  | n + 1, i, rcon, ws =>
    let prev := nthD [] ws 0
    let t := if i % 8 = 0 then
        let r := (prev.drop 1 ++ prev.take 1).map subByte
        xorBytes r [rcon, 0, 0, 0]
      else if i % 8 = 4 then prev.map subByte else prev
    keyWords n (i + 1) (if i % 8 = 0 then xtime rcon else rcon) (xorBytes t (nthD [] ws 7) :: ws)

/-- A list cut into n pieces of k. -/
def pieces {α : Type} : Nat → Nat → List α → List (List α)
  | 0, _, _ => []
  | n + 1, k, l => l.take k :: pieces n k (l.drop k)

/-- The fifteen round keys of AES-256. -/
def roundKeys (key : List Nat) : List (List Nat) :=
  let ws := (keyWords 52 8 1 (pieces 8 4 key).reverse).reverse
  (pieces 15 4 ws).map List.flatten

/-- The middle rounds of encryption and the last. -/
def encRounds : List (List Nat) → List Nat → List Nat
  | [], s => s
  | [k], s => xorBytes (shiftRows 1 (s.map subByte)) k
  | k :: r, s => encRounds r (xorBytes (mixCols [2, 3, 1, 1] (shiftRows 1 (s.map subByte))) k)

/-- AES-256 encryption of a 16-byte block. -/
def aesEnc (key block : List Nat) : List Nat :=
  match roundKeys key with
  | [] => block
  | k :: r => encRounds r (xorBytes block k)

/-- The rounds of decryption. -/
def decRounds : List (List Nat) → List Nat → List Nat
  | [], s => s
  | [k], s => xorBytes ((shiftRows 3 s).map invSubByte) k
  | k :: r, s => decRounds r (mixCols [14, 11, 13, 9] (xorBytes ((shiftRows 3 s).map invSubByte) k))

/-- AES-256 decryption of a 16-byte block. -/
def aesDec (key block : List Nat) : List Nat :=
  match (roundKeys key).reverse with
  | [] => block
  | k :: r => decRounds r (xorBytes block k)

/-- The bytes of a 256-bit key, lowest first. -/
def keyBytes (k : BitVec 256) : List Nat := (toBytes 32 k.toNat).map (·.toNat)

/-- A byte list as numbers. -/
def nats (l : List Byte) : List Nat := l.map (·.toNat)

/-- Numbers as bytes. -/
def bytesOf (l : List Nat) : List Byte := l.map (BitVec.ofNat 8)

/-- A block as a big-endian number, as GHASH reads it. -/
def beNat (l : List Nat) : Nat := l.foldl (fun a b => 256 * a + b) 0

/-- n big-endian bytes of a number. -/
def beBytes (n x : Nat) : List Nat := (nats (toBytes n x)).reverse

/-- Multiplication in the field of GCM: n bits of x from the top. -/
def gcmMul : Nat → Nat → Nat → Nat
  | 0, _, _ => 0
  | n + 1, x, v =>
    Nat.xor (if x / 2 ^ n % 2 = 1 then v else 0)
      (gcmMul n x (if v % 2 = 1 then Nat.xor (v / 2) (0xE1 * 2 ^ 120) else v / 2))

/-- A byte list padded with zeros to a whole number of blocks. -/
def pad16 (l : List Nat) : List Nat := l ++ List.replicate ((16 - l.length % 16) % 16) 0

/-- GHASH under the hash key h. -/
def ghash (h : Nat) (data : List Nat) : Nat :=
  (pieces (data.length / 16) 16 data).foldl (fun y b => gcmMul 128 (Nat.xor y (beNat b)) h) 0

/-- The key stream of GCM from a counter value, n blocks. -/
def gcmStream : Nat → List Nat → List Nat → Nat → List Nat
  | 0, _, _, _ => []
  | n + 1, key, iv, c => aesEnc key (iv ++ beBytes 4 c) ++ gcmStream n key iv (c + 1)

/-- The tag of GCM. -/
def gcmTag (key iv aad ct : List Nat) : List Nat :=
  let h := beNat (aesEnc key (List.replicate 16 0))
  let s := ghash h (pad16 aad ++ pad16 ct ++ beBytes 8 (8 * aad.length) ++ beBytes 8 (8 * ct.length))
  xorBytes (beBytes 16 s) (aesEnc key (iv ++ [0, 0, 0, 1]))

/-- The GCM nonce zext(x, 32) ‖ ctr (R32, R92, R131), its bytes in order of significance. -/
def gcmNonce (x ctr : Nat) : List Nat := beBytes 4 x ++ beBytes 8 ctr

/-- GCM encryption: ciphertext and tag. -/
def gcmEncrypt (key : BitVec 256) (iv : List Nat) (aad pt : List Byte) : List Byte × List Byte :=
  let ct := xorBytes (nats pt) (gcmStream (ceilDiv pt.length 16) (keyBytes key) iv 2)
  (bytesOf ct, bytesOf (gcmTag (keyBytes key) iv (nats aad) ct))

/-- GCM decryption: the plaintext when the tag verifies. -/
def gcmDecrypt (key : BitVec 256) (iv : List Nat) (aad ct tag : List Byte) : Option (List Byte) :=
  if bytesOf (gcmTag (keyBytes key) iv (nats aad) (nats ct)) = tag then
    some (bytesOf (xorBytes (nats ct) (gcmStream (ceilDiv ct.length 16) (keyBytes key) iv 2)))
  else none

/-- Multiplication by alpha of an XTS tweak, held as a little-endian number. -/
def xtsDouble (t : Nat) : Nat :=
  let d := 2 * t
  if d ≥ 2 ^ 128 then Nat.xor (d - 2 ^ 128) 0x87 else d

/-- XTS over the 16-byte blocks of a line, with a block cipher and the tweak of the first block. -/
def xtsBlocks (f : List Nat → List Nat) : List (List Nat) → Nat → List Nat
  | [], _ => []
  | b :: r, t =>
    let tb := nats (toBytes 16 t)
    xorBytes (f (xorBytes b tb)) tb ++ xtsBlocks f r (xtsDouble t)

/-- The data-key half of a memory key (R131): its low 256 bits. -/
def dataKey (k : BitVec 512) : BitVec 256 := k.setWidth 256

/-- The first tweak of line number n (R139). -/
def xtsTweak (k : BitVec 512) (n : Nat) : Nat :=
  ofBytes (bytesOf (aesEnc (keyBytes ((k >>> 256).setWidth 256)) (nats (toBytes 16 n))))

/-- AES-XTS-256 encryption of a 64-byte line (R139). -/
def xtsEnc (k : BitVec 512) (n : Nat) (line : List Byte) : List Byte :=
  bytesOf (xtsBlocks (aesEnc (keyBytes (dataKey k))) (pieces 4 16 (nats line)) (xtsTweak k n))

/-- AES-XTS-256 decryption of a 64-byte line (R139). -/
def xtsDec (k : BitVec 512) (n : Nat) (line : List Byte) : List Byte :=
  bytesOf (xtsBlocks (aesDec (keyBytes (dataKey k))) (pieces 4 16 (nats line)) (xtsTweak k n))

/-- SHA-256 round constants (FIPS 180-4), row 0. -/
def shaRow0 : List Nat := [0x428a2f98, 0x71374491, 0xb5c0fbcf, 0xe9b5dba5, 0x3956c25b, 0x59f111f1, 0x923f82a4, 0xab1c5ed5]

/-- SHA-256 round constants (FIPS 180-4), row 1. -/
def shaRow1 : List Nat := [0xd807aa98, 0x12835b01, 0x243185be, 0x550c7dc3, 0x72be5d74, 0x80deb1fe, 0x9bdc06a7, 0xc19bf174]

/-- SHA-256 round constants (FIPS 180-4), row 2. -/
def shaRow2 : List Nat := [0xe49b69c1, 0xefbe4786, 0xfc19dc6, 0x240ca1cc, 0x2de92c6f, 0x4a7484aa, 0x5cb0a9dc, 0x76f988da]

/-- SHA-256 round constants (FIPS 180-4), row 3. -/
def shaRow3 : List Nat := [0x983e5152, 0xa831c66d, 0xb00327c8, 0xbf597fc7, 0xc6e00bf3, 0xd5a79147, 0x6ca6351, 0x14292967]

/-- SHA-256 round constants (FIPS 180-4), row 4. -/
def shaRow4 : List Nat := [0x27b70a85, 0x2e1b2138, 0x4d2c6dfc, 0x53380d13, 0x650a7354, 0x766a0abb, 0x81c2c92e, 0x92722c85]

/-- SHA-256 round constants (FIPS 180-4), row 5. -/
def shaRow5 : List Nat := [0xa2bfe8a1, 0xa81a664b, 0xc24b8b70, 0xc76c51a3, 0xd192e819, 0xd6990624, 0xf40e3585, 0x106aa070]

/-- SHA-256 round constants (FIPS 180-4), row 6. -/
def shaRow6 : List Nat := [0x19a4c116, 0x1e376c08, 0x2748774c, 0x34b0bcb5, 0x391c0cb3, 0x4ed8aa4a, 0x5b9cca4f, 0x682e6ff3]

/-- SHA-256 round constants (FIPS 180-4), row 7. -/
def shaRow7 : List Nat := [0x748f82ee, 0x78a5636f, 0x84c87814, 0x8cc70208, 0x90befffa, 0xa4506ceb, 0xbef9a3f7, 0xc67178f2]

/-- The SHA-256 round constants. -/
def shaK : List Nat := List.flatten [shaRow0, shaRow1, shaRow2, shaRow3, shaRow4, shaRow5, shaRow6, shaRow7]

/-- The SHA-256 starting value. -/
def shaInit : List Nat := [0x6a09e667, 0xbb67ae85, 0x3c6ef372, 0xa54ff53a, 0x510e527f, 0x9b05688c, 0x1f83d9ab, 0x5be0cd19]

/-- Rotate a 32-bit word right. -/
def rotr (k x : Nat) : Nat := x / 2 ^ k + x % 2 ^ k * 2 ^ (32 - k)

/-- Exclusive or of three words. -/
def xor3 (a b c : Nat) : Nat := Nat.xor (Nat.xor a b) c

/-- The message schedule, newest word first: n more words. -/
def shaSched : Nat → List Nat → List Nat
  | 0, w => w
  | n + 1, w =>
    let x := nthD 0 w 14
    let y := nthD 0 w 1
    let s0 := xor3 (rotr 7 x) (rotr 18 x) (x / 8)
    let s1 := xor3 (rotr 17 y) (rotr 19 y) (y / 1024)
    shaSched n ((nthD 0 w 15 + s0 + nthD 0 w 6 + s1) % 2 ^ 32 :: w)

/-- The rounds of SHA-256 over pairs of constant and message word. -/
def shaRounds : List (Nat × Nat) → List Nat → List Nat
  | [], s => s
  | (k, w) :: r, [a, b, c, d, e, f, g, h] =>
    let s1 := xor3 (rotr 6 e) (rotr 11 e) (rotr 25 e)
    let ch := Nat.xor (Nat.land e f) (Nat.land (Nat.xor e 0xFFFFFFFF) g)
    let t1 := h + s1 + ch + k + w
    let s0 := xor3 (rotr 2 a) (rotr 13 a) (rotr 22 a)
    let mj := xor3 (Nat.land a b) (Nat.land a c) (Nat.land b c)
    shaRounds r [(t1 + s0 + mj) % 2 ^ 32, a, b, c, (d + t1) % 2 ^ 32, e, f, g]
  | _, s => s

/-- SHA-256 of one 64-byte block onto a chaining value. -/
def shaBlock (hs : List Nat) (b : List Nat) : List Nat :=
  let w := (shaSched 48 ((pieces 16 4 b).map beNat).reverse).reverse
  (List.zip hs (shaRounds (List.zip shaK w) hs)).map fun p => (p.1 + p.2) % 2 ^ 32

/-- SHA-256 of a byte string. -/
def sha256Bytes (l : List Byte) : List Byte :=
  let m := nats l ++ [0x80]
  let m := m ++ List.replicate ((120 - m.length % 64) % 64) 0 ++ beBytes 8 (8 * l.length)
  bytesOf (((pieces (m.length / 64) 64 m).foldl shaBlock shaInit).flatMap (beBytes 4))

/-- SHA-256 as a 256-bit value, its first byte lowest. -/
def sha256 (l : List Byte) : BitVec 256 := BitVec.ofNat 256 (ofBytes (sha256Bytes l))

end Sys2Proof.Machine
end

