-- ==== Sys2Proof/Machine/Number.lean ====
section
/-! DEFINITION. Number formats and exact arithmetic (11): roundings, generated NaNs, the elementwise float operations of 15, the
logarithmic formats, quantisation and the matrix sums. Exact reals are integers times a power of two. -/

namespace Sys2Proof.Machine

/-- Precision p of a float format (R251). -/
def fpP : Fmt → Nat
  | .f16 => 11
  | .bf16 => 8
  | _ => 24

/-- Least exponent emin of a float format (R251). -/
def fpEmin : Fmt → Int
  | .f16 => -14
  | _ => -126

/-- The code of +infinity. -/
def fpInf : Fmt → Nat
  | .f16 => 0x7C00
  | .bf16 => 0x7F80
  | _ => 0x7F800000

/-- The sign bit. -/
def fpSign : Fmt → Nat
  | .f16 | .bf16 => 0x8000
  | _ => 0x80000000

/-- A generated NaN (R252): operand 1 is A, 2 is B, 3 is C. -/
def genNaN (t : Fmt) (operand cause : Nat) : Nat :=
  (match t with | .f16 => 0x7E00 | .bf16 => 0x7FC0 | _ => 0x7FC00000) + 16 * operand + cause

/-- Whether a code is negative. -/
def fpNeg (t : Fmt) (n : Nat) : Bool := n / fpSign t % 2 == 1

/-- The magnitude bits of a code. -/
def fpMag (t : Fmt) (n : Nat) : Nat := n % fpSign t

/-- NaN test. -/
def fpIsNaN (t : Fmt) (n : Nat) : Bool := fpMag t n > fpInf t

/-- Infinity test. -/
def fpIsInf (t : Fmt) (n : Nat) : Bool := fpMag t n == fpInf t

/-- Zero test. -/
def fpIsZero (t : Fmt) (n : Nat) : Bool := fpMag t n == 0

/-- An exact value x × 2^e. -/
structure Exact where
  x : Int
  e : Int
  deriving DecidableEq, Repr

/-- The exact value of a finite code (R250). -/
def fpVal (t : Fmt) (n : Nat) : Exact :=
  let fb := fpP t - 1
  let ex := fpMag t n / 2 ^ fb
  let fr := fpMag t n % 2 ^ fb
  let m : Nat := if ex = 0 then fr else fr + 2 ^ fb
  { x := if fpNeg t n then -(m : Int) else m,
    e := fpEmin t - fb + ((if ex = 0 then 0 else ex - 1 : Nat) : Int) }

/-- Product of exact values. -/
def exMul (a b : Exact) : Exact := { x := a.x * b.x, e := a.e + b.e }

/-- Sum of exact values. -/
def exAdd (a b : Exact) : Exact :=
  let e := if a.e ≤ b.e then a.e else b.e
  { x := a.x * ((2 ^ (a.e - e).toNat : Nat) : Int) + b.x * ((2 ^ (b.e - e).toNat : Nat) : Int), e := e }

/-- Negation. -/
def exNeg (a : Exact) : Exact := { a with x := -a.x }

/-- Comparison a < b of exact values. -/
def exLt (a b : Exact) : Bool := (exAdd a (exNeg b)).x < 0

/-- Nearest integer to n / 2^k, ties to even, for n and k naturals (R251). -/
def rneShift (n k : Nat) : Nat :=
  let q := n / 2 ^ k
  let r := n % 2 ^ k
  let h := 2 ^ k
  if 2 * r < h then q else if 2 * r > h then q + 1 else q + q % 2

/-- Nearest integer to an exact value, ties to even (R251). -/
def rneInt (a : Exact) : Int :=
  let m : Nat :=
    if a.e ≥ 0 then a.x.natAbs * 2 ^ a.e.toNat else rneShift a.x.natAbs (-a.e).toNat
  if a.x < 0 then -(m : Int) else m

/-- The magnitude code nearest to m × 2^e, ties to even, infinity beyond the range (R251). -/
def roundMag (t : Fmt) (m : Nat) (e : Int) : Nat :=
  if m = 0 then 0
  else
    let p := fpP t
    let ex0 : Int := (m.log2 : Int) + e
    let ex := if ex0 < fpEmin t then fpEmin t else ex0
    let q := ex - p + 1
    let mant := if q ≤ e then m * 2 ^ (e - q).toNat else rneShift m (q - e).toNat
    let code := (ex - fpEmin t).toNat * 2 ^ (p - 1) + mant
    if code < fpInf t then code else fpInf t

/-- A value rounded once to a format (R251): a zero result keeps the sign of a non-zero value, and an exact zero takes the
given sign (R338). -/
def fpRound (t : Fmt) (a : Exact) (zeroNeg : Bool) : Nat :=
  (if (if a.x = 0 then zeroNeg else a.x < 0) then fpSign t else 0) + roundMag t a.x.natAbs a.e

/-- A value rounded once to F32 under the zero rule of R263: −0 only when every term is −0. -/
def fpRoundSum (a : Exact) (allNegZero : Bool) : Nat :=
  let m := roundMag .f32 a.x.natAbs a.e
  if m = 0 then (if allNegZero then 0x80000000 else 0)
  else (if a.x < 0 then 0x80000000 else 0) + m

/-- Signed infinity. -/
def fpInfS (t : Fmt) (neg : Bool) : Nat := (if neg then fpSign t else 0) + fpInf t

/-- FADD (R338, R340). -/
def fAdd (t : Fmt) (a b : Nat) : Nat :=
  if fpIsNaN t a then genNaN t 1 1
  else if fpIsNaN t b then genNaN t 2 1
  else if fpIsInf t a then
    if fpIsInf t b && fpNeg t a != fpNeg t b then genNaN t 0 3 else fpInfS t (fpNeg t a)
  else if fpIsInf t b then fpInfS t (fpNeg t b)
  else fpRound t (exAdd (fpVal t a) (fpVal t b))
    (fpIsZero t a && fpIsZero t b && fpNeg t a && fpNeg t b)

/-- The code with its sign inverted. -/
def fpFlip (t : Fmt) (n : Nat) : Nat := if fpNeg t n then n - fpSign t else n + fpSign t

/-- FSUB (R340): the effective sign of b is inverted. -/
def fSub (t : Fmt) (a b : Nat) : Nat := fAdd t a (fpFlip t b)

/-- FMUL (R338, R340). -/
def fMul (t : Fmt) (a b : Nat) : Nat :=
  let neg := fpNeg t a != fpNeg t b
  if fpIsNaN t a then genNaN t 1 1
  else if fpIsNaN t b then genNaN t 2 1
  else if (fpIsZero t a && fpIsInf t b) || (fpIsInf t a && fpIsZero t b) then genNaN t 0 4
  else if fpIsInf t a || fpIsInf t b then fpInfS t neg
  else fpRound t (exMul (fpVal t a) (fpVal t b)) neg

/-- FFMA (R338, R340): one rounding of a × b + c. -/
def fFma (t : Fmt) (a b c : Nat) : Nat :=
  let neg := fpNeg t a != fpNeg t b
  if fpIsNaN t a then genNaN t 1 1
  else if fpIsNaN t b then genNaN t 2 1
  else if fpIsNaN t c then genNaN t 3 1
  else if (fpIsZero t a && fpIsInf t b) || (fpIsInf t a && fpIsZero t b) then genNaN t 0 4
  else if fpIsInf t a || fpIsInf t b then
    if fpIsInf t c && fpNeg t c != neg then genNaN t 3 3 else fpInfS t neg
  else if fpIsInf t c then fpInfS t (fpNeg t c)
  else
    let p := exMul (fpVal t a) (fpVal t b)
    fpRound t (exAdd p (fpVal t c)) (p.x == 0 && neg && fpIsZero t c && fpNeg t c)

/-- a orders below b with −0 below +0 (R341), for codes that are not NaN. -/
def fpBelow (t : Fmt) (a b : Nat) : Bool :=
  let key := fun n => if fpNeg t n then -((fpMag t n : Int) + 1) else (fpMag t n : Int)
  key a < key b

/-- FMIN and FMAX (R341): `greater` selects FMAX. -/
def fMinMax (t : Fmt) (greater : Bool) (a b : Nat) : Nat :=
  if fpIsNaN t a then (if fpIsNaN t b then genNaN t 1 1 else b)
  else if fpIsNaN t b then a
  else if greater then (if fpBelow t a b then b else a) else (if fpBelow t b a then b else a)

/-- FSGN (R342): mode 0 COPY, 1 NEG, 2 XOR. -/
def fSgn (t : Fmt) (mode a b : Nat) : Nat :=
  let neg := if mode = 0 then fpNeg t b else if mode = 1 then !fpNeg t b else fpNeg t a != fpNeg t b
  (if neg then fpSign t else 0) + fpMag t a

/-- Floor square root by Newton's method from above. -/
def isqrtLoop : Nat → Nat → Nat → Nat
  | 0, _, x => x
  | k + 1, n, x =>
    let y := (x + n / x) / 2
    if y < x then isqrtLoop k n y else x

/-- Floor square root. -/
def isqrt (n : Nat) : Nat := if n = 0 then 0 else isqrtLoop (n.log2 + 2) n (2 ^ (n.log2 / 2 + 1))

/-- A value strictly between v × 2^e and (v + 1) × 2^e, for a rounding with far fewer bits. -/
def inexact (v e : Int) : Exact := { x := 2 * v + 1, e := e - 1 }

/-- FRCP (R344). -/
def fRcp (a : Nat) : Nat :=
  let neg := fpNeg .f32 a
  if fpIsNaN .f32 a then genNaN .f32 1 1
  else if fpIsInf .f32 a then (if neg then 0x80000000 else 0)
  else if fpIsZero .f32 a then fpInfS .f32 neg
  else
    let v := fpVal .f32 a
    let m := v.x.natAbs
    let q : Nat := 2 ^ 80 / m
    let e := -80 - v.e
    let r : Exact := if 2 ^ 80 % m = 0 then { x := q, e := e } else inexact q e
    fpRound .f32 (if neg then exNeg r else r) neg

/-- The value x × 2^e with e even, for a square root. -/
def evenExp (v : Exact) : Exact := if v.e % 2 = 0 then v else { x := 2 * v.x, e := v.e - 1 }

/-- FSQRT (R344). -/
def fSqrt (a : Nat) : Nat :=
  if fpIsNaN .f32 a then genNaN .f32 1 1
  else if fpIsZero .f32 a then a
  else if fpNeg .f32 a then genNaN .f32 1 5
  else if fpIsInf .f32 a then fpInf .f32
  else
    let v := evenExp (fpVal .f32 a)
    let m := v.x.natAbs * 2 ^ 80
    let r := isqrt m
    let e := v.e / 2 - 40
    fpRound .f32 (if r * r = m then { x := r, e := e } else inexact r e) false

/-- FRSQ (R344). -/
def fRsq (a : Nat) : Nat :=
  if fpIsNaN .f32 a then genNaN .f32 1 1
  else if fpIsZero .f32 a then fpInfS .f32 (fpNeg .f32 a)
  else if fpNeg .f32 a then genNaN .f32 1 5
  else if fpIsInf .f32 a then 0
  else
    let v := evenExp (fpVal .f32 a)
    let m := v.x.natAbs
    let r := isqrt (2 ^ 160 / m)
    let e := -80 - v.e / 2
    fpRound .f32 (if r * r * m = 2 ^ 160 then { x := r, e := e } else inexact r e) false

/-- n binary digits of log2 of f / 2^300, for 1 ≤ f / 2^300 < 2, by repeated squaring; acc holds the digits so far. -/
def logDigits : Nat → Nat → Nat → Nat
  | 0, _, acc => acc
  | n + 1, f, acc =>
    let g := f * f / 2 ^ 300
    if g ≥ 2 ^ 301 then logDigits n (g / 2) (2 * acc + 1) else logDigits n g (2 * acc)

/-- FLOG2 (R344): the digits of an irrational logarithm are cut at 2^-120, far below F32. -/
def fLog2 (a : Nat) : Nat :=
  if fpIsNaN .f32 a then genNaN .f32 1 1
  else if fpIsZero .f32 a then fpInfS .f32 true
  else if fpNeg .f32 a then genNaN .f32 1 5
  else if fpIsInf .f32 a then fpInf .f32
  else
    let v := fpVal .f32 a
    let m := v.x.natAbs
    let l := m.log2
    let ex : Int := (l : Int) + v.e
    if m = 2 ^ l then fpRound .f32 { x := ex, e := 0 } false
    else
      let d := logDigits 120 (m * 2 ^ (300 - l)) 0
      fpRound .f32 (inexact (ex * (2 ^ 120 : Nat) + d) (-120)) false

/-- 2 to the fraction whose remaining n digits are f, each digit's factor the square root of the one before; fixed point
at 2^-300. -/
def expDigits : Nat → Nat → Nat → Nat → Nat
  | 0, _, _, r => r
  | n + 1, f, s, r =>
    let s' := isqrt (s * 2 ^ 300)
    expDigits n (f % 2 ^ n) s' (if f / 2 ^ n % 2 = 1 then r * s' / 2 ^ 300 else r)

/-- FEXP2 (R344). A magnitude below 2^-30 gives 1.0, the nearest F32. -/
def fExp2 (a : Nat) : Nat :=
  let neg := fpNeg .f32 a
  if fpIsNaN .f32 a then genNaN .f32 1 1
  else if fpIsInf .f32 a then (if neg then 0 else fpInf .f32)
  else if fpMag .f32 a < 0x30800000 then 0x3F800000
  else if fpMag .f32 a ≥ 0x43480000 then (if neg then 0 else fpInf .f32)
  else
    let v := fpVal .f32 a
    let k := (-v.e).toNat
    let x : Int := if v.e ≥ 0 then v.x * ((2 ^ v.e.toNat : Nat) : Int) else v.x
    let n := x / ((2 ^ k : Nat) : Int)
    let f := (x % ((2 ^ k : Nat) : Int)).toNat
    if f = 0 then fpRound .f32 { x := 1, e := n } false
    else fpRound .f32 (inexact (expDigits k f (2 ^ 301) (2 ^ 300)) (n - 300)) false

/-- FCLASS (R345). -/
def fClass (t : Fmt) (a : Nat) : Nat :=
  let fb := fpP t - 1
  let neg := fpNeg t a
  let mag := fpMag t a
  if mag > fpInf t then
    let quiet := mag / 2 ^ (fb - 1) % 2 = 1
    let base := genNaN t 0 0
    let gen := !neg && base ≤ mag && mag < base + 64 && 1 ≤ mag % 16 && mag % 16 ≤ 5
    mag % 64 * 2 ^ 16 + (if gen then 2 ^ 10 else 0) + (if quiet then 2 ^ 9 else 2 ^ 8)
  else
    let c := if mag = fpInf t then 7 else if mag ≥ 2 ^ fb then 6 else if mag > 0 then 5 else 4
    2 ^ (if neg then 7 - c else c)

/-- FCVT (R346). -/
def fCvt (t sf : Fmt) (a : Nat) : Nat :=
  if fpIsNaN sf a then genNaN t 1 1
  else if fpIsInf sf a then fpInfS t (fpNeg sf a)
  else fpRound t (fpVal sf a) (fpNeg sf a)

/-- ICVTF (R347). -/
def iCvtF (t : Fmt) (x : Int) : Nat := fpRound t { x := x, e := 0 } false

/-- The least value of an integer format. -/
def intMin (t : Fmt) : Int := if fmtSigned t then -((2 ^ (fmtBits t - 1) : Nat) : Int) else 0

/-- The greatest value of an integer format. -/
def intMax (t : Fmt) : Int :=
  if fmtSigned t then ((2 ^ (fmtBits t - 1) : Nat) : Int) - 1 else ((2 ^ fmtBits t : Nat) : Int) - 1

/-- FCVTI (R348). -/
def fCvtI (t sf : Fmt) (a : Nat) : Int :=
  if fpIsNaN sf a then 0
  else if fpIsInf sf a then (if fpNeg sf a then intMin t else intMax t)
  else clampInt (intMin t) (intMax t) (rneInt (fpVal sf a))

/-- A float comparison (R327): CC 0 EQ, 1 NE, 2 LT, 3 LE, 4 GT, 5 GE, 6 NAN, 7 NUM. -/
def fCmp (t : Fmt) (cc a b : Nat) : Bool :=
  let un := fpIsNaN t a || fpIsNaN t b
  let key := fun n => if fpNeg t n then -(fpMag t n : Int) else (fpMag t n : Int)
  match cc with
  | 0 => !un && key a == key b
  | 1 => un || key a != key b
  | 2 => !un && key a < key b
  | 3 => !un && key a ≤ key b
  | 4 => !un && key a > key b
  | 5 => !un && key a ≥ key b
  | 6 => un
  | _ => !un

/-- The F32, F16 or BF16 encoding of a small immediate (R302). -/
def fpOfInt (t : Fmt) (x : Int) : Nat := fpRound t { x := x, e := 0 } false

/-- The mantissa table of R253: entry q of T8; T6[q] is T8[2q]. -/
def tab8 : Nat → Nat
  | 0 => 65536 | 1 => 71468 | 2 => 77936 | 3 => 84990 | 4 => 92682 | 5 => 101070 | 6 => 110218
  | _ => 120194

/-- Table steps per octave: 4 for LN6, 8 for LN8. -/
def lnN (t : Fmt) : Nat := if t = .ln6 then 4 else 8

/-- The table entry of a format (R253). -/
def lnT (t : Fmt) (q : Nat) : Nat := if t = .ln6 then tab8 (2 * q) else tab8 q

/-- The bits of an LN code below its sign. -/
def lnL (t : Fmt) (c : Nat) : Nat := if t = .ln6 then c % 32 else c % 128

/-- The sign of an LN code. -/
def lnNeg (t : Fmt) (c : Nat) : Bool := if t = .ln6 then c / 32 % 2 == 1 else c / 128 % 2 == 1

/-- The NaN code of an LN format (R254, R255). -/
def lnNaN (t : Fmt) : Nat := if t = .ln6 then 0x20 else 0x80

/-- Whether a code is the NaN code. -/
def lnIsNaN (t : Fmt) (c : Nat) : Bool := lnL t c == 0 && lnNeg t c

/-- The magnitude W(L) extended to every index (R254, R255, R265). -/
def lnW (t : Fmt) (l : Nat) : Exact :=
  { x := lnT t (l % lnN t), e := (l / lnN t : Nat) - (if t = .ln6 then 20 else 24) }

/-- The exact value of an LN code that is not NaN. -/
def lnVal (t : Fmt) (c : Nat) : Exact :=
  if lnL t c = 0 then { x := 0, e := 0 }
  else if lnNeg t c then exNeg (lnW t (lnL t c)) else lnW t (lnL t c)

/-- The product of two LN codes through the table (R258), in units of 2^-24 for LN6 and 2^-32 for LN8. -/
def lnProd (t : Fmt) (a b : Nat) : Int :=
  if lnL t a = 0 ∨ lnL t b = 0 then 0
  else
    let bias : Int := if t = .ln6 then 32 else 128
    let unit : Int := if t = .ln6 then 24 else 32
    let q : Int := (lnL t a : Int) + lnL t b - bias
    let n := q / (lnN t : Int)
    let r := (q % (lnN t : Int)).toNat
    let m : Int := (lnT t r * 2 ^ (n - 16 + unit).toNat : Nat)
    if lnNeg t a != lnNeg t b then -m else m

/-- A product that is −0: a zero whose sign bits differ, an LN zero code counting as +0 (R258, R263). -/
def lnProdNegZero (t : Fmt) (a b : Nat) : Bool :=
  (lnL t a == 0 || lnL t b == 0) && (lnNeg t a != lnNeg t b)

/-- Element k of a 384-byte operand row (R257). -/
def rowElem (t : Fmt) (row : List Byte) (k : Nat) : Nat :=
  let at_ := fun i => (nthD 0 row i).toNat
  if t = .ln6 then bits (at_ (3 * (k / 4)) + 256 * at_ (3 * (k / 4) + 1) + 65536 * at_ (3 * (k / 4) + 2))
    (6 * (k % 4)) 6
  else if fmtBits t = 8 then at_ k
  else at_ (2 * k) + 256 * at_ (2 * k + 1)

/-- The elements of a row (R257): 512, 384 or 192. -/
def rowElems (t : Fmt) (row : List Byte) : List Nat :=
  (upFrom (if t = .ln6 then 512 else if fmtBits t = 8 then 384 else 192) 0).map (rowElem t row)

/-- An element of an LN or I8 MMA (R259, R260, R263). -/
def mmaExact (t : Fmt) (a b : List Nat) (c : Nat) : Nat :=
  let isN := fun x => t != .i8 && lnIsNaN t x
  if a.any isN then genNaN .f32 1 1
  else if b.any isN then genNaN .f32 2 1
  else if fpIsNaN .f32 c then genNaN .f32 3 1
  else if fpIsInf .f32 c then c
  else
    let ps := List.zip a b
    let prod := fun p : Nat × Nat => if t = .i8 then signed 8 p.1 * signed 8 p.2 else lnProd t p.1 p.2
    let s : Exact := { x := ps.foldl (fun acc p => acc + prod p) 0,
                       e := if t = .i8 then 0 else if t = .ln6 then -24 else -32 }
    fpRoundSum (exAdd (fpVal .f32 c) s)
      (c == 0x80000000 && t != .i8 && ps.all fun p => lnProdNegZero t p.1 p.2)

/-- One chunk of eight exact products (R261): none are infinite or NaN; `ps` holds factors of a format. -/
def mmaChunk (t : Fmt) (ps : List (Nat × Nat)) : Nat :=
  let vals := ps.map fun p => exMul (fpVal t p.1) (fpVal t p.2)
  let negz := fun p : Nat × Nat => fpNeg t p.1 != fpNeg t p.2
  if vals.all (·.x == 0) then (if ps.all negz then 0x80000000 else 0)
  else
    let lg := fun v : Exact => (v.x.natAbs.log2 : Int) + v.e
    let top := vals.foldl (fun m v => if v.x = 0 then m else match m with
      | none => some (lg v)
      | some x => some (if x < lg v then lg v else x)) (none : Option Int)
    let u := top.getD 0 - 47
    let cut := fun v : Exact =>
      let m : Nat := if v.e ≥ u then v.x.natAbs * 2 ^ (v.e - u).toNat else v.x.natAbs / 2 ^ (u - v.e).toNat
      if v.x < 0 then -(m : Int) else (m : Int)
    fpRoundSum { x := vals.foldl (fun s v => s + cut v) 0, e := u } false

/-- The infinite sign of a chunk's products, if one is infinite. -/
def chunkInf (t : Fmt) (ps : List (Nat × Nat)) (neg : Bool) : Bool :=
  ps.any fun p => (fpIsInf t p.1 || fpIsInf t p.2) && ((fpNeg t p.1 != fpNeg t p.2) == neg)

/-- The list cut into pieces of eight. -/
def chunks8 {α : Type} : Nat → List α → List (List α)
  | 0, _ => []
  | n + 1, l => l.take 8 :: chunks8 n (l.drop 8)

/-- One step of the accumulator (R261, R262, R263): `acc` and the chunk sum, infinities included. -/
def mmaAccum (acc chunk : Nat) : Nat :=
  if fpIsNaN .f32 acc then acc
  else if fpIsInf .f32 acc then
    if fpIsInf .f32 chunk && fpNeg .f32 chunk != fpNeg .f32 acc then genNaN .f32 3 3 else acc
  else if fpIsInf .f32 chunk then chunk
  else fpRoundSum (exAdd (fpVal .f32 acc) (fpVal .f32 chunk)) (acc == 0x80000000 && chunk == 0x80000000)

/-- An element of a BF16 or F16 MMA (R261, R262). -/
def mmaFloat (t : Fmt) (a b : List Nat) (c : Nat) : Nat :=
  let ps := List.zip a b
  let cs := chunks8 24 ps
  if a.any (fpIsNaN t) then genNaN .f32 1 1
  else if b.any (fpIsNaN t) then genNaN .f32 2 1
  else if fpIsNaN .f32 c then genNaN .f32 3 1
  else if ps.any (fun p => (fpIsZero t p.1 && fpIsInf t p.2) || (fpIsInf t p.1 && fpIsZero t p.2)) then
    genNaN .f32 0 4
  else if cs.any (fun ch => chunkInf t ch false && chunkInf t ch true) then genNaN .f32 0 3
  else cs.foldl (fun acc ch => mmaAccum acc
    (if chunkInf t ch false then fpInfS .f32 false
     else if chunkInf t ch true then fpInfS .f32 true
     else mmaChunk t ch)) c

/-- An element of an MMA in any format (R383). -/
def mmaElem (t : Fmt) (a b : List Nat) (c : Nat) : Nat :=
  if t = .bf16 ∨ t = .f16 then mmaFloat t a b c else mmaExact t a b c

/-- SCACC of one element (R264): S, D, and the E8 scale codes (R256). -/
def scaccElem (s d sa sb : Nat) : Nat :=
  if fpIsNaN .f32 s then genNaN .f32 1 1
  else if sa = 0xFF then genNaN .f32 1 2
  else if sb = 0xFF then genNaN .f32 2 2
  else if fpIsNaN .f32 d then genNaN .f32 3 1
  else if fpIsInf .f32 s then
    if fpIsInf .f32 d && fpNeg .f32 d != fpNeg .f32 s then genNaN .f32 3 3 else s
  else if fpIsInf .f32 d then d
  else
    let x := fpVal .f32 s
    fpRoundSum (exAdd (fpVal .f32 d) { x := x.x, e := x.e + ((sa : Int) - 127) + ((sb : Int) - 127) })
      (s == 0x80000000 && d == 0x80000000)

/-- One output of a Hadamard block (R268, R263). -/
def hadElem (block : List Nat) (k : Nat) : Nat :=
  let terms := List.zip (upFrom block.length 0) block
  let odd := fun j => popCount 6 (Nat.land k j) % 2 == 1
  let sg := fun p : Nat × Nat => odd p.1 != fpNeg .f32 p.2
  if block.any (fpIsNaN .f32) then genNaN .f32 1 1
  else
    let pos := terms.any fun p => fpIsInf .f32 p.2 && !sg p
    let neg := terms.any fun p => fpIsInf .f32 p.2 && sg p
    if pos && neg then genNaN .f32 0 3
    else if pos then fpInfS .f32 false
    else if neg then fpInfS .f32 true
    else fpRoundSum (terms.foldl (fun acc p =>
        exAdd acc (if odd p.1 then exNeg (fpVal .f32 p.2) else fpVal .f32 p.2)) { x := 0, e := 0 })
      (terms.all fun p => fpIsZero .f32 p.2 && sg p)

/-- DQNT (R267). -/
def dqnt (t : Fmt) (code e : Nat) : Nat :=
  if lnIsNaN t code then genNaN .f32 1 1
  else if e = 0xFF then genNaN .f32 2 2
  else if lnL t code = 0 then 0
  else
    let v := lnVal t code
    fpRound .f32 { v with e := v.e + ((e : Int) - 127) } false

/-- The normalisation offset h of R265, in table steps (R266). -/
def qntOffset (t : Fmt) (had : Nat) : Nat :=
  (if had = 0 then 0 else 6 + 2 * had) * (if t = .ln6 then 1 else 2)

/-- The greatest log index (R265). -/
def lnMax (t : Fmt) : Nat := if t = .ln6 then 31 else 127

/-- |x| × 2^-(e - 127) of an F32 code that is finite. -/
def qntY (x e : Nat) : Exact :=
  let v := fpVal .f32 x
  { x := (v.x.natAbs : Int), e := v.e - ((e : Int) - 127) }

/-- The input overflows the largest magnitude at a scale (R265). -/
def qntOver (t : Fmt) (h e x : Nat) : Bool :=
  if fpIsNaN .f32 x then false
  else if fpIsInf .f32 x then true
  else exLt (lnW t (lnMax t + h)) (qntY x e)

/-- The least t up to n for which no input overflows, else n (R265). -/
def qntRetry (t : Fmt) (h e : Nat) (xs : List Nat) : Nat → Nat → Nat
  | 0, k => k
  | n + 1, k => if xs.any (qntOver t h (e + k)) then qntRetry t h e xs n (k + 1) else k

/-- The candidate magnitude of index L: 0 for L = 0 (R265). -/
def qntMag (t : Fmt) (h l : Nat) : Exact := if l = 0 then { x := 0, e := 0 } else lnW t (l + h)

/-- The nearest index to y among 0 to n, ties to the even index (R265): `best` is the nearest below. -/
def qntNearest (t : Fmt) (h : Nat) (y : Exact) : Nat → Nat → Nat
  | 0, best => best
  | n + 1, best =>
    let cand := lnMax t - n
    let mid := exAdd (qntMag t h best) (qntMag t h cand)
    let y2 : Exact := { y with e := y.e + 1 }
    if exLt mid y2 || (!exLt y2 mid && cand % 2 == 0) then qntNearest t h y n cand else best

/-- One code of a block (R265) at scale e. -/
def qntCode (t : Fmt) (h e x : Nat) : Nat :=
  let sign := if fpNeg .f32 x then lnNaN t else 0
  if fpIsNaN .f32 x then lnNaN t
  else if qntOver t h e x then sign + lnMax t
  else
    let l := qntNearest t h (qntY x e) (lnMax t) 0
    if l = 0 then 0 else sign + l

/-- QNT of a block (R265): the codes, the scale used, SAT. -/
def qntBlock (t : Fmt) (had e : Nat) (xs : List Nat) : List Nat × Nat × Bool :=
  if e = 0xFF then (xs.map fun _ => lnNaN t, 0xFF, false)
  else
    let h := qntOffset t had
    let k := qntRetry t h e xs (if 254 - e < 4 then 254 - e else 4) 0
    (xs.map (qntCode t h (e + k)), e + k, xs.any (qntOver t h (e + k)))

/-- Six-bit codes packed four to three bytes (R94). -/
def packLn6 : List Nat → List Byte
  | a :: b :: c :: d :: r => toBytes 3 (a + 64 * b + 4096 * c + 262144 * d) ++ packLn6 r
  | _ => []

/-- comb of R358. -/
def redComb (x y : Nat) : Nat :=
  if fpIsNaN .f32 x then x
  else if fpIsNaN .f32 y then y
  else fAdd .f32 x y

end Sys2Proof.Machine
end

