-- ==== Sys2Proof/Machine/State.lean ====
section
/-! DEFINITION. The state of the machine as plain data: everything the spec gives the part, the model's agenda, and reset. -/

namespace Sys2Proof.Machine

/-- Why a step stops with a fault. The spec reports every error of the part as a trap, a kill, a status or a refused
access, all of which are next states, so no step raises one. -/
inductive Fault where
  /-- Raised by no step; safe. -/
  | unused
  deriving DecidableEq, Repr

/-- Why a step is refused. -/
inductive Refusal where
  /-- Raised by an arm of exec whose instruction has no meaning yet; safe. -/
  | notModelled (mnemonic : String)
  deriving DecidableEq, Repr

/-- One frame of a path (R164, R281): node index, child index or callee, and the function whose tree holds the node
(0xFFFF for a trap frame). -/
structure Frame where
  node : Nat
  child : Nat
  fn : Nat
  deriving DecidableEq, Repr

/-- Where a lane stands: at an offset of a leaf, or within enter or advance of R275, waiting for a node record (R278). -/
inductive Pos where
  | leaf (node off : Nat)
  | enter (node : Nat) (priv : Bool)
  | advance (priv : Bool)
  deriving DecidableEq, Repr

/-- The destination saved at a trap (R323). -/
inductive SavedDst where
  | nothing
  | vec (r n : Nat)
  | pred (r : Nat)
  deriving DecidableEq, Repr

/-- What a trap frame saves (R232, R277, R323): the path, the offset after the trapping instruction, and its
destination. -/
structure SavedPath where
  frames : List Frame
  pos : Pos
  after : Nat
  dst : SavedDst
  deriving DecidableEq, Repr

/-- A lane trap (R228). -/
structure Trap where
  code : Nat
  addr1 : Nat
  addr2 : Option Nat
  info : Nat
  deriving DecidableEq, Repr

/-- A trap that its lane has not yet taken (R236, R238): the trap, the place it saves, and whether its instruction issued
privately. -/
structure HeldTrap where
  trap : Trap
  place : SavedPath
  priv : Bool
  deriving DecidableEq, Repr

/-- A hold at the exit of a parting node (R170): its ancestors' frames, the node, and the cycle it began. -/
structure Hold where
  above : List Frame
  node : Nat
  since : Nat
  deriving DecidableEq, Repr

/-- An entry of the loop buffer (R167). -/
structure Buffered where
  node : Nat
  off : Nat
  bytes : Nat
  deriving DecidableEq, Repr

/-- A lane of a group. The innermost frame stands first. -/
structure Lane where
  present : Bool
  exited : Bool
  frames : List Frame
  pos : Pos
  held : Option Hold
  /-- in a wait or fence of the group (R169) -/
  waiting : Bool
  /-- scratchpad requests of a private issue not yet complete (R175) -/
  own : Nat
  lastIssue : Nat
  starved : Bool
  buffer : List Buffered
  saved : Option SavedPath
  /-- TREC0 to TREC15 (R232), empty outside a handler -/
  trec : List DWord
  /-- traps raised and not yet taken, in order: they are taken at the end of the cycle, or at resume where the group halts
  (R236, R238) -/
  pendTrap : List HeldTrap
  deriving DecidableEq, Repr

/-- What a load or atomic writes when it is performed. -/
structure LoadDst where
  ds : Bool
  nw : Bool
  reg : Nat
  regs : Nat
  /-- bytes of the access, and whether a narrow load is sign-extended (R364) -/
  size : Nat
  sx : Bool
  /-- the lane waits for its own request (R175) -/
  priv : Bool
  /-- the latches' live region ends at this write (R172, R297) -/
  lr : Bool
  deriving DecidableEq, Repr

/-- The operation of an outstanding device access (R365, R367). -/
inductive AccOp where
  | load
  | store
  | atom (aop : Aop) (ty : Fmt) (b c : Nat)
  deriving DecidableEq, Repr

/-- An outstanding access of a lane to device memory: its bytes' physical addresses and keys, the data stored, the held
bytes a load found (R181), the destination, and the instruction's place for a POISON trap. -/
structure Access where
  ticket : Nat
  lane : Nat
  op : AccOp
  ord : Ord
  scope : Scope
  va : Nat
  pas : List (Nat × Nat)
  data : List Byte
  held : List (Option Byte)
  dst : LoadDst
  place : SavedPath
  deriving DecidableEq, Repr

/-- A held byte (R181): value, lane, virtual address and key of the store that supplied it. -/
structure HeldByte where
  val : Byte
  lane : Nat
  va : Nat
  key : Nat
  deriving DecidableEq, Repr

/-- The service of a scratchpad request (R175, R364, R367, R194, R202, R203, R281, R350). -/
inductive SpadOp where
  | load
  | store (data : List Byte)
  | atom (aop : Aop) (ty : Fmt) (b c : Nat)
  | slrd
  | swinit (target : Nat)
  | swadd (n : Nat)
  | frame (data : List Byte)
  | qnt (ty : Fmt) (had : Nat) (scale : Nat) (out : Nat)
  deriving DecidableEq, Repr

/-- A scratchpad request of a lane: the group that issued it, the scratchpad it reaches, and the offset. -/
structure BankReq where
  ticket : Nat
  gh : Nat
  lane : Nat
  target : Nat
  off : Nat
  size : Nat
  /-- bytes of the access before this request's, when it spans chunks (R364) -/
  skip : Nat
  op : SpadOp
  ord : Ord
  dst : LoadDst
  latch : Nat
  deriving DecidableEq, Repr

/-- Bytes of a load that spans chunks, served and waiting for the rest (R364): ticket, lane, place in the access. -/
structure Half where
  ticket : Nat
  lane : Nat
  skip : Nat
  bytes : List Byte
  deriving DecidableEq, Repr

/-- An entry of a group's subscription list (R186). -/
structure ListedSub where
  slot : Nat
  pa : Nat
  deriving DecidableEq, Repr

/-- A lane's wait on a scratchpad word (R205): target group, offset, the value it waits to lose, and the first other value
it observed (R206). -/
structure SpadWatch where
  lane : Nat
  target : Nat
  off : Nat
  want : Nat
  got : Option Nat
  deriving DecidableEq, Repr

/-- A lane's wait on a device word (R205): virtual and physical address, key, the value it waits to lose, whether an entry
is armed at the word's home, and the first other value it observed (R206). -/
structure WordWatch where
  lane : Nat
  va : Nat
  pa : Nat
  key : Nat
  want : Nat
  armed : Bool
  got : Option Nat
  deriving DecidableEq, Repr

/-- What a wait of a group's lanes is for (R195, R204, R205, R369, R370, R378, R396, R398, R407). -/
inductive WaitFor where
  /-- lane, slot offset, expected PSEQ -/
  | slot (l : List (Nat × Nat × Nat))
  /-- lane, target group, offset, generation -/
  | sync (l : List (Nat × Nat × Nat × Nat))
  | spad (l : List SpadWatch)
  | word (l : List WordWatch)
  /-- the counter's virtual and physical address and key; whether a home entry is armed, and whether it was seen at zero -/
  | counter (va pa key : Nat) (armed zero : Bool)
  /-- earlier loads and stores of the lanes, and earlier matrix entries of the group, where set -/
  | fence (loads stores matrix : Bool)
  | drain (pushes : List Nat)
  /-- pushes toward these slots must land; each lane's status; and the slots that then leave the list -/
  | subs (slots : List Nat) (status : List (Nat × Nat)) (ends : List Nat)
  /-- FLD, new value, granules wanted -/
  | grow (accn : Bool) (value : Nat) (delta : Nat)
  | shrink (accn : Bool) (value : Nat)
  deriving DecidableEq, Repr

/-- A wait: the lanes at its path, those that take part, the instruction's head, its length, and the destination a trap of
one of its lanes saves. -/
structure Wait where
  ticket : Nat
  lanes : List Nat
  who : List Nat
  what : WaitFor
  spill : Bool
  /-- a wake event came while the gang was spilled (R207) -/
  woken : Bool
  head : Head
  len : Nat
  dst : SavedDst
  deriving DecidableEq, Repr

/-- A checkpoint in force (R180): node and depth, and what a rollback restores (R183). -/
structure Checkpoint where
  ticket : Nat
  node : Nat
  depth : Nat
  lanes : List Lane
  preds : List (Nat × BitVec 16)
  sregs : List (Nat × Word)
  vregs : List (Nat × Word)
  tiles : List (Nat × Word)
  spad : List (Nat × Byte)
  pitw : Word
  deriving DecidableEq, Repr

/-- Where a group is (R110, R133, R130). -/
inductive Place where
  | resident (core slot block pos : Nat)
  | spilled
  | saved
  deriving DecidableEq, Repr

/-- The task a group belongs to: a launch, or a part of a range task. -/
inductive Owner where
  | launch (id : Nat)
  | part (id : Nat)
  deriving DecidableEq, Repr

/-- A copy-fault attribution of the cycle in progress (R236): the lane that waits on the paused copy, its path and offset,
and the faulting address. -/
structure Attrib where
  lane : Nat
  frames : List Frame
  off : Nat
  va : Nat
  deriving DecidableEq, Repr

/-- A group: its place in the launch (R107), its registers (R163), its Pit contents (R161) and its control state. -/
structure Group where
  ctx : Nat
  owner : Owner
  gindex : Nat
  gang : Nat
  x : Nat
  y : Nat
  z : Nat
  stage : Nat
  member : Nat
  width : Nat
  place : Place
  /-- holds its lane block's turn (R110) -/
  turn : Bool
  pitw : Word
  subfail : Word
  extsel : Word
  traptree : Word
  /-- CSRs written in the cycle in progress, which read as written from its end on (R406) -/
  csrNext : List (Nat × Word)
  sregs : List (Nat × Word)
  vregs : List (Nat × Word)
  preds : List (Nat × BitVec 16)
  latches : List (Nat × Option DWord)
  tiles : List (Nat × Word)
  spad : List (Nat × Byte)
  lanes : List Lane
  /-- for each register, the copies into it whose bytes have not all landed there (R86, R174) -/
  vbusy : List (Nat × Nat)
  counter : Nat
  pend : List Access
  held : List (Nat × HeldByte)
  ck : Option Checkpoint
  subs : List ListedSub
  waits : List Wait
  halted : Bool
  /-- a HALT accepted, which takes effect at the next cycle boundary (R237) -/
  halting : Bool
  /-- passes its turn at the end of the cycle (R110, R236, R324) -/
  yielding : Bool
  /-- copy faults to be attributed at the end of the cycle (R236) -/
  attribs : List Attrib
  /-- debug DRAIN in force, and its answer still to come (R239) -/
  drained : Bool
  drainWait : Bool
  /-- standing-load SUBs of R285 whose first push has not landed -/
  starting : List Nat
  lastPath : List Frame
  lastOff : Nat
  lastCount : Nat
  /-- the cycle of the group's last issue, if it has issued (R241) -/
  issuedAt : Option Nat
  /-- the latest DTIME a lane has read, if one has (R406) -/
  lastTime : Option DWord
  halves : List Half
  /-- scratchpad bytes of the gang that the group's matrix array may still read as they were, since no XFENCE has joined their
  writes to it, by `byteKey`: the old byte plus one (R217, log 9) -/
  behind : List (Nat × Nat)
  deriving DecidableEq, Repr

/-- An operand kept by the matrix array (R179): target group, offset, format and bytes. -/
structure KeptOp where
  gh : Nat
  off : Nat
  ty : Fmt
  bytes : List Byte
  deriving DecidableEq, Repr

/-- The operation of a matrix queue entry (R383, R386, R387, R389, R390). Scratchpad operands name the target group and
the offset; a device row holds its virtual address and each byte's physical address and key, with the held byte a load
found. -/
inductive MatOp where
  | mma (ty : Fmt) (cz : Bool) (ga a gb b : Nat)
  | had (n st : Nat)
  | scaccVec (st ga a gb b : Nat)
  | scaccUni (st sa sb : Nat)
  | accldSpad (rows : List (Nat × Nat))
  | accldDev (rows : List (Nat × List ((Nat × Nat) × Option Byte)))
  | accstSpad (st : Nat) (rows : List (Nat × Nat))
  | accstDev (st : Nat) (rows : List (Nat × List (Nat × Nat)))
  | accz (n : Nat)
  deriving DecidableEq, Repr

/-- An entry of the matrix queue (R178): group, destination tile (none when suppressed), the operand bytes fetched so far
(R384), and the lanes that a trap at its memory diverts (R153, R380). -/
structure MatEntry where
  ticket : Nat
  gh : Nat
  tile : Option Nat
  op : MatOp
  fetched : Option (List Byte × List Byte)
  lanes : List (Nat × SavedPath)
  deriving DecidableEq, Repr

/-- A core (07). -/
structure Core where
  /-- queued requests by bank; each is the list of lane requests merged into it (R175) -/
  banks : List (Nat × List (List BankReq))
  port : List (List BankReq)
  mq : List MatEntry
  /-- of the last entries of the queue, those accepted in the cycle in progress: who offered each, slot 0, slot 1 or 2 for
  the Shucker (R385) -/
  mqNew : List Nat
  keptA : Option KeptOp
  keptB : Option KeptOp
  /-- lines present in the instruction cache, by physical line number (R166) -/
  icache : List Nat
  /-- records present in the node cache, by physical address (R278) -/
  nodes : List Nat
  /-- for slots 0 and 1: sampling period, the residency position last sampled, and the cycle of the last sample (R241) -/
  period : List Nat
  sampled : List Nat
  sampledAt : List Nat
  /-- by slot, the cycle of the last broadcast issue and the slot lanes its instruction uses (R168) -/
  bcast : List (Nat × (Nat × List Nat))
  /-- LCBASE and LCLIM (R243) -/
  lcRanges : List (Nat × (DWord × DWord))
  /-- lane cycles counted, by slot × 102 + class × 17 + bin, and by slot × 64 + slot lane the class and bin of the cycle in
  progress (R243) -/
  lcCount : List (Nat × Nat)
  lcNow : List (Nat × Nat)
  /-- fenced (R27), or failed and waiting for its spare (R26) -/
  fenced : Bool
  failing : Bool
  deriving DecidableEq, Repr

/-- An extent (R151). -/
structure Extent where
  vg : Nat
  pg : Nat
  n : Nat
  key : Nat
  x : Bool
  a : Bool
  w : Bool
  r : Bool
  deriving DecidableEq, Repr

/-- What dispatch reads and builds for a task (R117, R118, R270): the header, the argument words, the extent table, and
the leaf entries it pinned (R145). -/
structure Program where
  image : Nat
  nfunc : Nat
  nnode : Nat
  treelen : Nat
  textva : Nat
  textlen : Nat
  ctva : Nat
  ctlen : Nat
  rodva : Nat
  rodlen : Nat
  words : List Word
  data : List Extent
  code : List (Option Extent)
  /-- scratchpad records as offset and contents (R284), standing-load records as slot and word address (R285) -/
  spads : List (Nat × List Byte)
  slots : List (Nat × Nat)
  root : Nat
  pins : List Nat
  deriving DecidableEq, Repr

/-- A join counter: by physical word with its key and pinned leaf (R437), or by virtual address of a context, translated
for a service core at each use (R71). -/
inductive Counter where
  | fixed (pa key leaf : Nat)
  | virt (ctx va service : Nat)
  deriving DecidableEq, Repr

/-- A launch (R87, R105, R107, R124). -/
structure Launch where
  ctx : Nat
  queue : Nat
  pkt : Option Nat
  seq : Nat
  image : Nat
  args : Nat
  start : DWord
  gx : Nat
  gy : Nat
  gz : Nat
  func : Nat
  pitw : Word
  width : Nat
  members : Nat
  stages : Nat
  total : Nat
  nextGang : Nat
  exited : Nat
  lastLayer : Option Nat
  held : Bool
  prog : Option Program
  /-- KSPAWN's arguments, its counter and the core that interrupts on zero (R72, R73) -/
  kargs : List Word
  join : Option Counter
  irq : Option Nat
  hangt : Nat
  lastIssue : Nat
  hangs : Nat
  /-- RESET has killed a group of it (R127) -/
  killed : Bool
  /-- layers that have received a dispatch translation (R145) -/
  acc : List Nat
  deriving DecidableEq, Repr

/-- A range task (R88, R119, R395), by TASKID. -/
structure RangeTask where
  ctx : Nat
  queue : Nat
  pkt : Option Nat
  image : Nat
  args : Nat
  func : Nat
  pitw : Word
  width : Nat
  join : Option Counter
  joinVa : Nat
  prog : Option Program
  parts : Nat
  /-- groups that have exited, and HI and NEXT of the task's first part once it has ended (R130) -/
  exited : Nat
  ended : Nat × Nat
  /-- RESET has killed a group of it (R127) -/
  killed : Bool
  acc : List Nat
  deriving DecidableEq, Repr

/-- A part of a range task on a deque (R119 to R123). -/
structure Part where
  task : Nat
  core : Nat
  lo : Nat
  next : Nat
  hi : Nat
  groups : Nat
  deriving DecidableEq, Repr

/-- A queue's page (R74 to R76, R113). -/
structure Queue where
  wridx : DWord
  rdidx : DWord
  ringbase : DWord
  enable : Bool
  hostp : Bool
  peerp : Bool
  size : Nat
  ctx : Nat
  errcnt : Nat
  stamplost : Bool
  ringfault : Bool
  lasterr : Nat
  period : Nat
  budget : Nat
  pstart : DWord
  used : Nat
  /-- a group of the queue has been resident in the nanosecond in progress (R114) -/
  lit : Bool
  ovrcnt : Nat
  demoted : Bool
  deriving DecidableEq, Repr

/-- Where a consumed packet stands (R83, R102). -/
inductive Phase where
  | waiting
  | started
  | running
  | finished (status value : Nat)
  deriving DecidableEq, Repr

/-- A step of a Shucker command, or the write of a stamp, that waits for a group that is away (R85, R207): its handle, the piece
or the number of elements, and whether the host answers a read of its memory. -/
structure Late where
  gh : Nat
  off : Nat
  n : Nat
  answered : Bool
  deriving DecidableEq, Repr

/-- The progress of a Shucker command (R90 to R98, R103). -/
structure Cmd where
  /-- bytes not yet landed, as offset and length -/
  todo : List (Nat × Nat)
  paused : Option Nat
  resolved : Bool
  /-- the staging buffer of a confidential copy, once its check has passed, and the leaves it pinned (R92) -/
  stage : Option (List Byte)
  pins : List Nat
  /-- MMAW offered to the matrix array (R91) -/
  mmaw : Bool
  /-- STREAM: the layout record, and the generations read at the start, FULL and EMPTY of each slot (R94, R96) -/
  layout : Nat
  gens : List (Nat × Nat)
  /-- STREAM: the layout record has been read (R94) -/
  read : Bool
  /-- the command set the scoreboard bits of its SPACE 3 destination (R86) -/
  marked : Bool
  /-- tiles or elements done -/
  next : Nat
  satur : Bool
  /-- a collective step that has begun (R244) -/
  coll : Bool
  /-- the groups that the command has resolved, by handle: task, gang and member (R85) -/
  bound : List (Nat × (Owner × Nat × Nat))
  /-- steps that wait for a group that is away -/
  late : List Late
  deriving DecidableEq, Repr

/-- A consumed packet (R81 to R83). -/
structure Packet where
  queue : Nat
  slot : Nat
  body : BitVec 512
  phase : Phase
  cmd : Cmd
  deriving DecidableEq, Repr

/-- The states of R126. -/
inductive CtxState where
  | run | drain | reset | save | saved | restore | lost
  deriving DecidableEq, Repr

/-- What a Husk holds, kept by the machine beside the image in memory (R129, R130). -/
structure Husk where
  area : Nat
  counter : DWord
  queues : List (Nat × Queue)
  /-- by core, the context's parts on its deque -/
  deques : List (Nat × List Nat)
  deriving DecidableEq, Repr

/-- A context (R126, R141). -/
structure Context where
  asid : BitVec 16
  root : Nat
  spill : Nat
  spillLen : Nat
  state : CtxState
  area : Nat
  areaLen : Nat
  /-- device-time units left of the deadline (R126) -/
  deadline : Nat
  wasReset : Bool
  savectr : DWord
  /-- when SAVE began (R129) -/
  saveTime : DWord
  husk : Option Husk
  deriving DecidableEq, Repr

/-- What a 64-byte line of HBM or the second tier holds (R139): never written, plaintext, or encrypted under key
material. -/
inductive LineKey where
  | fresh
  | plain
  | under (k : BitVec 512)
  deriving DecidableEq, Repr

/-- A memory key and its KATTR (R62). -/
structure MemKey where
  mat : BitVec 512
  valid : Bool
  shared : Bool
  owner : Nat
  deriving DecidableEq, Repr

/-- A copy-in key (R92). -/
structure CopyKey where
  key : BitVec 256
  loaded : Bool
  ictr : DWord
  deriving DecidableEq, Repr

/-- A push not yet departed (R191), or departed and not landed: value, count, and release mark. -/
structure Push where
  val : DWord
  count : Nat
  first : Bool
  release : Bool
  deriving DecidableEq, Repr

/-- An entry of a home subscription table (R186): a subscription, or an armed wait of MWAIT or JOIN. -/
structure Sub where
  pa : Nat
  gh : Nat
  slot : Nat
  armed : Bool
  pseq : Nat
  push : Option Push
  deriving DecidableEq, Repr

/-- A push on its way (R191). -/
structure Flying where
  gh : Nat
  slot : Nat
  push : Push
  deriving DecidableEq, Repr

/-- The states of R38. -/
inductive LinkState where
  | down | train | keywait | up
  deriving DecidableEq, Repr

/-- A key slot of a port (R33, R36): key, IC, and the greatest IC accepted in each group of flit kinds. -/
structure KeySlot where
  key : BitVec 256
  loaded : Bool
  ic : Nat
  seenData : Option Nat
  seenCtl : Option Nat
  deriving DecidableEq, Repr

/-- A flit in the replay buffer, with its resend count (R37). -/
structure Kept where
  seq : Nat
  flit : WireFlit
  resent : Nat
  marker : Bool
  deriving DecidableEq, Repr

/-- A Valob port (R30 to R41). -/
structure Port where
  state : LinkState
  enable : Bool
  downWhy : Nat
  authFail : Nat
  swBusy : Bool
  rekey : Bool
  txSlot : Bool
  rxSlot : Bool
  tx : List KeySlot
  rx : List KeySlot
  sendSeq : Nat
  wantSeq : Nat
  ackSeq : Nat
  replay : List Kept
  /-- flits sent, in order: the wire towards the peer -/
  wire : List WireFlit
  /-- device time of the last ACKSEQ advance, and of the stop at 2^44 (R34, R37) -/
  lastAck : Nat
  stopped : Option Nat
  /-- payloads accepted -/
  got : List (List Byte)
  /-- requests sent that have no response yet (R39) -/
  requests : Nat
  rxAsid : BitVec 16
  /-- the MARKER of a switch-over is still to be sent (R35) -/
  markerDue : Bool
  /-- the other end has slot 0 loaded for both directions (R38) -/
  peerReady : Bool
  /-- device time at the first header byte of the last TIME flit sent, and accepted (R43) -/
  timeSent : DWord
  timeSeen : DWord
  deriving DecidableEq, Repr

/-- The states of R52. -/
inductive TdiState where
  | unlocked | locked | run | error
  deriving DecidableEq, Repr

/-- A TDI (R52). -/
structure Tdi where
  state : TdiState
  stream : Nat
  deriving DecidableEq, Repr

/-- The states of R16 and R28. -/
inductive LayerState where
  | active | drain | flush | reenum | off
  deriving DecidableEq, Repr

/-- A clock generator (R21 to R23): code, target code, relock in progress with its end, and the request waiting. -/
structure Clock where
  code : Nat
  target : Nat
  relock : Option Nat
  waiting : Option Nat
  deriving DecidableEq, Repr

/-- A layer (R12, R16, R28, R45). -/
structure Layer where
  role : Role
  newRole : Option Role
  state : LayerState
  since : Nat
  clock : Clock
  cyc : DWord
  rcy : DWord
  /-- clock phase below one cycle, in units of 1/2621440 -/
  phase : Nat
  /-- Pods whose spare has replaced a failed core (R26), and Pods that have no spare (R435) -/
  spareUsed : List (Nat × Bool)
  noSpare : List (Nat × Bool)
  deriving DecidableEq, Repr

/-- A service core (R67), with the registers of the RISC-V privileged architecture (log 3). -/
structure Service where
  x : List (Nat × DWord)
  pc : DWord
  mode : Nat
  mepc : DWord
  mcause : DWord
  mtval : DWord
  mtvec : DWord
  mstatus : DWord
  /-- the other CSRs that hold what was written, by number -/
  csrs : List (Nat × DWord)
  /-- instructions retired -/
  instret : DWord
  /-- LR's reservation: the 8-byte word it lies in, and the bytes of the access -/
  resv : Option (Nat × Nat)
  /-- KSPAWN's interrupt is pending (R73) -/
  irq : Bool
  deriving DecidableEq, Repr

/-- A trace ring (R244, R245). -/
structure Ring where
  base : Nat
  size : Nat
  widx : DWord
  rseq : Nat
  deriving DecidableEq, Repr

/-- A message to the outside: an answer or a mailbox entry (R228, R238). -/
inductive Message where
  /-- a management status in the mailbox: 1 BUSY, 2 THERMAL, 3 BADFREQ, 4 NOSPACE, 5 LOCKED, 6 BADHUSK, 7 REPLAY -/
  | status (code : Nat)
  /-- a management trap: code and number (R228) -/
  | trap (code arg : Nat)
  /-- a layer-role-change event to a context, with its failure flag (R16, R17) -/
  | roleChange (ctx layer : Nat) (failed : Bool)
  /-- data answered to a host function -/
  | hostData (bytes : List Byte)
  | hostIndex (v : DWord)
  | unsupported
  | peerData (port : Nat) (bytes : List Byte)
  | peerStatus (port status : Nat)
  | linkdown (port : Nat)
  | halt (gh status outst pendtrap htime : Nat)
  | drained (gh outst : Nat)
  | report (bytes : List Byte) (sig : Nat)
  | correctable
  | cxl (port : Nat)
  | ringFault (q : Nat)
  | ready
  deriving DecidableEq, Repr

/-- Package-wide state of the management logic (01, 03, 10). -/
structure Pkg where
  power : Bool
  rdy : Bool
  accviol : Bool
  enhanced : Bool
  profile : Option Profile
  apbase : DWord
  seccap : DWord
  hull : List (Nat × Clock)
  /-- role changes a partition still asks for (R14, R16) -/
  plan : List (Nat × Role)
  overCap : Bool
  underSince : Nat
  lastStep : Nat
  correctable : Nat
  mreg : List (Nat × BitVec 256)
  versions : List Nat
  /-- CXL capacities in bytes, links that are up, and recorded errors (R55, R57) -/
  cxlCap : List (Nat × Nat)
  cxlUp : List (Nat × Bool)
  cxlError : List (Nat × Bool)
  /-- the management mailbox (R48) -/
  mailbox : List (Nat × Byte)
  /-- key bytes that the management core has written into the key windows, by offset (R48) -/
  window : List (Nat × Byte)
  /-- the queues assigned to each context, in the order of assignment (R47) -/
  assigned : List (Nat × List Nat)
  /-- the size of BAR4, as a power of two of 16 GiB (R47) -/
  bar4 : Nat
  out : List Message
  deriving DecidableEq, Repr

/-- The time unit (R42, R43, R50). -/
structure TimeUnit where
  now : DWord
  tsrc : Nat
  tport : Nat
  tsync : Bool
  tlost : Bool
  /-- offset still to be slewed, in device-time units -/
  slew : Int
  /-- units passed since the last valid exchange -/
  quiet : Nat
  /-- rate correction held, in parts per million, and its remainder below one unit -/
  ppm : Int
  part : Int
  deriving DecidableEq, Repr

/-- A shoot-down in progress (R147). -/
structure ShootDown where
  asid : BitVec 16
  va : Nat
  leaf : Nat
  targets : List Nat
  deriving DecidableEq, Repr

/-- The issue in progress: the groups and lanes standing at one path, with the instruction's address, first word and
length; or the service core that executes. -/
structure Issue where
  core : Nat
  slot : Nat
  parts : List (Nat × List Nat)
  priv : Bool
  addr : Nat
  word0 : Nat
  len : Nat
  bytes : Nat
  /-- false where a fetch fault left the instruction without all its bytes (R231) -/
  whole : Bool
  service : Nat
  /-- the scheduler's intake is full (R72) -/
  busy : Bool
  deriving DecidableEq, Repr

/-- What happens next. -/
inductive Occurrence where
  | event (i : Instr)
  | issue (core slot : Nat)
  | priv (core slot lane : Nat)
  /-- a service core executes; whether the intake is full then (R72) -/
  | service (k : Nat) (busy : Bool)
  deriving DecidableEq, Repr

/-- An item of the agenda: the device-time units that pass first, then what happens (log 4). -/
structure Agendum where
  after : Nat
  what : Occurrence
  deriving DecidableEq, Repr

/-- The state of the machine. -/
structure State where
  pkg : Pkg
  time : TimeUnit
  layers : List (Nat × Layer)
  ports : List (Nat × Port)
  tdis : List (Nat × Tdi)
  keys : List (Nat × MemKey)
  copyKeys : List (Nat × CopyKey)
  /-- access tables by target × 64 + entry (R58, R59) -/
  tables : List (Nat × BitVec 128)
  services : List (Nat × Service)
  queues : List (Nat × Queue)
  packets : List (Nat × Packet)
  contexts : List (Nat × Context)
  launches : List (Nat × Launch)
  tasks : List (Nat × RangeTask)
  rangeParts : List (Nat × Part)
  deques : List (Nat × List Nat)
  lastBackground : Nat
  groups : List (Nat × Group)
  cores : List (Nat × Core)
  /-- physical memory (R136): an unlisted byte reads 0 (log 2) -/
  mem : List (Nat × Byte)
  lines : List (Nat × LineKey)
  poison : List (Nat × Bool)
  /-- second-tier lines whose expander reported poison (R57) -/
  cxlBad : List (Nat × Bool)
  /-- frame key plus one of each 64 KiB granule, 0 for none (R436) -/
  frameKeys : List (Nat × Nat)
  /-- host memory reached by DMA, by bus address (R84) -/
  hostMem : List (Nat × Byte)
  /-- memory of the packages behind the Valob ports, by port × 2^57 + address (R84) -/
  peerMem : List (Nat × Byte)
  subs : List Sub
  flying : List Flying
  notices : List (Nat × Nat)
  shoots : List ShootDown
  rings : List (Nat × Ring)
  /-- the next packet, launch, task and part numbers -/
  fresh : Nat
  /-- order of issue of accesses -/
  ticket : Nat
  /-- number of the next free value (log 5) -/
  free : Nat
  issue : Issue
  agenda : List Agendum
  deriving DecidableEq, Repr

/-- A clock at 0.35 GHz (R29). -/
def Clock.reset : Clock := { code := 0, target := 0, relock := none, waiting := none }

/-- A layer at reset (R28). -/
def Layer.reset : Layer :=
  { role := .unassigned, newRole := none, state := .active, since := 0, clock := Clock.reset, cyc := 0, rcy := 0,
    phase := 0, spareUsed := [], noSpare := [] }

/-- An unloaded key slot (R33). -/
def KeySlot.reset : KeySlot := { key := 0, loaded := false, ic := 0, seenData := none, seenCtl := none }

/-- A port at reset (R41). -/
def Port.reset : Port :=
  { state := .down, enable := false, downWhy := 0, authFail := 0, swBusy := false, rekey := false, txSlot := false,
    rxSlot := false, tx := [KeySlot.reset, KeySlot.reset], rx := [KeySlot.reset, KeySlot.reset], sendSeq := 0,
    wantSeq := 0, ackSeq := 0xFFFF, replay := [], wire := [], lastAck := 0, stopped := none, got := [],
    requests := 0, rxAsid := 0, markerDue := false, peerReady := false, timeSent := 0, timeSeen := 0 }

/-- A TDI at reset (R52). -/
def Tdi.reset : Tdi := { state := .unlocked, stream := 0 }

/-- A memory key at reset (R62). -/
def MemKey.reset : MemKey := { mat := 0, valid := false, shared := false, owner := 0 }

/-- A copy-in key at reset (R92). -/
def CopyKey.reset : CopyKey := { key := 0, loaded := false, ictr := 0 }

/-- A service core at reset: machine mode, all registers zero (log 3). -/
def Service.reset : Service :=
  { x := [], pc := 0, mode := 3, mepc := 0, mcause := 0, mtval := 0, mtvec := 0, mstatus := 0, csrs := [],
    instret := 0, resv := none, irq := false }

/-- A queue at reset (R75, R76, R113). -/
def Queue.reset : Queue :=
  { wridx := 0, rdidx := 0, ringbase := 0, enable := false, hostp := false, peerp := false, size := 0, ctx := 0,
    errcnt := 0, stamplost := false, ringfault := false, lasterr := 0, period := 0, budget := 0, pstart := 0,
    used := 0, lit := false, ovrcnt := 0, demoted := false }

/-- A core at reset. -/
def Core.reset : Core :=
  { banks := [], port := [], mq := [], mqNew := [], keptA := none, keptB := none, icache := [], nodes := [], period := [0, 0],
    sampled := [0, 0], sampledAt := [0, 0], bcast := [], lcRanges := [], lcCount := [], lcNow := [], fenced := false, failing := false }

/-- A trace ring that is not set up (R244). -/
def Ring.reset : Ring := { base := 0, size := 0, widx := 0, rseq := 0 }

/-- A command that has not begun. -/
def Cmd.reset : Cmd :=
  { todo := [], paused := none, resolved := false, stage := none, pins := [], mmaw := false, layout := 0, gens := [],
    read := false, marked := false, next := 0, satur := false, coll := false, bound := [], late := [] }

/-- No issue in progress. -/
def Issue.reset : Issue :=
  { core := 0, slot := 0, parts := [], priv := false, addr := 0, word0 := 0, len := 0, bytes := 0, whole := true,
    service := 0, busy := false }

/-- Management logic of a package without power (R25, R49, R65). -/
def Pkg.reset : Pkg :=
  { power := false, rdy := false, accviol := false, enhanced := false, profile := none, apbase := 0, seccap := 0,
    hull := [], plan := [], overCap := false, underSince := 0, lastStep := 0, correctable := 0, mreg := [],
    versions := [], cxlCap := [], cxlUp := [], cxlError := [], mailbox := [], window := [],
    assigned := [], bar4 := 0, out := [] }

/-- The time unit at reset (R50). -/
def TimeUnit.reset : TimeUnit :=
  { now := 0, tsrc := 0, tport := 0, tsync := false, tlost := false, slew := 0, quiet := 0, ppm := 0, part := 0 }

/-- The machine right after reset: without power until the host restores it and releases PERST# (R25, R29). -/
def State.reset : State :=
  { pkg := Pkg.reset, time := TimeUnit.reset, layers := [], ports := [], tdis := [], keys := [], copyKeys := [],
    tables := [], services := [], queues := [], packets := [], contexts := [], launches := [], tasks := [],
    rangeParts := [], deques := [], lastBackground := 4096, groups := [], cores := [], mem := [], lines := [],
    poison := [], cxlBad := [], frameKeys := [], hostMem := [], peerMem := [], subs := [], flying := [], notices := [],
    shoots := [], rings := [], fresh := 1, ticket := 0, free := 0, issue := Issue.reset, agenda := [] }

end Sys2Proof.Machine
end

