-- ==== Sys2Proof/Machine/Memory.lean ====
section
/-! DEFINITION. Physical memory, keys, page tables and access tables (03 R58 to R63, 06). -/

namespace Sys2Proof.Machine

/-- What lies at a physical address (R136, R137). -/
inductive Region where
  | mgmt (off : Nat)
  | queue (q off : Nat)
  | hbm
  | layer (n off : Nat)
  | tier2 (off : Nat)
  | hole
  deriving DecidableEq, Repr

/-- The layer, at reset where none is recorded. -/
def layerAt (s : State) (n : Nat) : Layer := sget Layer.reset s.layers n

/-- The core, at reset where none is recorded. -/
def coreAt (s : State) (c : Nat) : Core := sget Core.reset s.cores c

/-- Replace a core. -/
def setCore (s : State) (c : Nat) (x : Core) : State := { s with cores := sset Core.reset s.cores c x }

/-- Replace a layer. -/
def setLayer (s : State) (n : Nat) (x : Layer) : State := { s with layers := sset Layer.reset s.layers n x }

/-- Replace the group of a handle. -/
def setGroup (s : State) (gh : Nat) (g : Group) : State := { s with groups := mput s.groups gh g }

/-- Change the group of a handle, where there is one. -/
def onGroup (s : State) (gh : Nat) (f : Group → Group) : State :=
  match mfind s.groups gh with
  | none => s
  | some g => setGroup s gh (f g)

/-- The queue, at reset where none is recorded. -/
def queueAt (s : State) (q : Nat) : Queue := sget Queue.reset s.queues q

/-- Replace a queue. -/
def setQueue (s : State) (q : Nat) (x : Queue) : State := { s with queues := sset Queue.reset s.queues q x }

/-- The port, at reset where none is recorded. -/
def portAt (s : State) (n : Nat) : Port := sget Port.reset s.ports n

/-- Replace a port. -/
def setPort (s : State) (n : Nat) (x : Port) : State := { s with ports := sset Port.reset s.ports n x }

/-- The ports run: a relock of H6 stops them (R40). -/
def portsRun (s : State) : Bool := (sget Clock.reset s.pkg.hull 6).relock.isNone

/-- A port that is UP and runs. -/
def portUp (s : State) (n : Nat) : Bool := n < 16 && (portAt s n).state == .up && portsRun s

/-- Send a message to the outside. -/
def emit (s : State) (m : Message) : State := { s with pkg := { s.pkg with out := s.pkg.out ++ [m] } }

/-- Offsets of a layer window that hold memory (R137): the store, and the Pit of each core that is not fenced. -/
def layerOffOk (s : State) (n off : Nat) : Bool :=
  if off < 0x8000000 then true
  else if off < 0xC000000 then !(coreAt s (32 * n + (off - 0x8000000) / 0x200000)).fenced
  else false

/-- The physical address map (R136). -/
def region (s : State) (pa : Nat) : Region :=
  if 0xF00000000 ≤ pa ∧ pa < 0xF04000000 then .mgmt (pa - 0xF00000000)
  else if 0xF10000000 ≤ pa ∧ pa < 0xF11000000 then .queue ((pa - 0xF10000000) / 0x1000) (pa % 0x1000)
  else if 0x010000000000 ≤ pa ∧ pa < 0x018000000000 then .hbm
  else if 0x020000000000 ≤ pa ∧ pa < 0x020080000000 then
    let n := (pa - 0x020000000000) / 0x10000000
    let off := pa % 0x10000000
    if (layerAt s n).role = .memory ∧ (layerAt s n).state ≠ .off ∧ layerOffOk s n off then .layer n off else .hole
  else if 0x040000000000 ≤ pa ∧ pa - 0x040000000000 < s.pkg.seccap.toNat then .tier2 (pa - 0x040000000000)
  else .hole

/-- Memory that holds bytes: HBM, populated layer memory, or the populated second tier. -/
def isMemory : Region → Bool
  | .hbm | .layer .. | .tier2 .. => true
  | _ => false

/-- Regions held as ciphertext at rest (R139). -/
def isCipher : Region → Bool
  | .hbm | .tier2 .. => true
  | _ => false

/-- The home slice of a physical location (R138). -/
def homeOf (pa : Nat) : Nat := pa / 0x1000 % 16

/-- A line's stored bytes under one key as they read under another (R139, R436): equal keys, and lines never written, read
as they stand. -/
def viewAs (have_ want : LineKey) (n : Nat) (line : List Byte) : List Byte :=
  if have_ = want ∨ have_ = .fresh then line
  else
    let raw := match have_ with
      | .under k => xtsEnc k n line
      | _ => line
    match want with
    | .under k => xtsDec k n raw
    | _ => raw

/-- The key view of a key index. -/
def keyView (s : State) (k : Nat) : LineKey := .under (sget MemKey.reset s.keys k).mat

/-- A key still serves accesses at homes (R63). -/
def keyLive (s : State) (k : Nat) : Bool := (sget MemKey.reset s.keys k).valid

/-- A byte of memory read under a key view (R139); layer memory holds plaintext. -/
def cellAs (s : State) (want : LineKey) (pa : Nat) : Byte :=
  let have_ := sget LineKey.fresh s.lines (pa / 64)
  if !isCipher (region s pa) || have_ == want || have_ == .fresh then sget 0 s.mem pa
  else nthD 0 (viewAs have_ want (pa / 64) (sgets 0 s.mem (64 * (pa / 64)) 64)) (pa % 64)

/-- A physical byte written under a key view (R139): the rest of its line is carried to that key. Writes of data to
registers and holes are dropped (R49, R77, R136). -/
def writeAs (s : State) (want : LineKey) (pa : Nat) (b : Byte) : State :=
  let have_ := sget LineKey.fresh s.lines (pa / 64)
  if !isMemory (region s pa) then s
  else if !isCipher (region s pa) then { s with mem := sset 0 s.mem pa b }
  else if have_ = want then { s with mem := sset 0 s.mem pa b }
  else
    let base := 64 * (pa / 64)
    let line := viewAs have_ want (pa / 64) (sgets 0 s.mem base 64)
    { s with mem := sset 0 (ssets 0 s.mem base line) pa b,
             lines := sset LineKey.fresh s.lines (pa / 64) want }

/-- Write consecutive bytes under a key view. -/
def writeSpan (s : State) (want : LineKey) : Nat → List Byte → State
  | _, [] => s
  | pa, b :: r => writeSpan (writeAs s want pa b) want (pa + 1) r

/-- The frame key of a granule plus one, 0 for none (R436). -/
def frameKey (s : State) (pa : Nat) : Nat := sget 0 s.frameKeys (pa / 65536)

/-- The view an access that passes through no leaf takes (R436), or none where its key is not VALID. -/
def frameView (s : State) (pa : Nat) : Option LineKey :=
  match frameKey s pa with
  | 0 => some .plain
  | k + 1 => if (sget MemKey.reset s.keys k).valid then some (keyView s k) else none

/-- A Hull register read as 64 bits, at a queue page offset (R74 to R76, R113); `hw` is HEADWAIT. -/
def queueReg (s : State) (hw : Bool) (q off : Nat) : Nat :=
  let x := queueAt s q
  let en := x.enable && x.size ≤ 10
  if off = 0 then x.wridx.toNat
  else if off = 8 then x.rdidx.toNat
  else if off = 0x10 then pack [(6, x.ctx), (10, 0), (4, x.size), (9, 0), (1, flag x.peerp), (1, flag x.hostp),
    (1, flag en)]
  else if off = 0x18 then x.ringbase.toNat
  else if off = 0x20 then
    pack [(8, x.lasterr), (1, flag hw), (1, flag x.ringfault),
      (1, flag x.stamplost), (5, 0), (16, x.errcnt)]
  else if off = 0x40 then x.period
  else if off = 0x48 then x.budget
  else if off = 0x50 then x.pstart.toNat
  else if off = 0x58 then x.used
  else if off = 0x60 then
    pack [(1, flag (x.period ≠ 0 && x.budget ≠ 0 && !x.demoted)), (1, flag x.demoted), (14, 0), (16, x.ovrcnt)]
  else 0

/-- LSTATn (R28). -/
def lstat (s : State) (n : Nat) : Nat :=
  let l := layerAt s n
  let off := l.state = .off
  let st := match l.state with | .active => 0 | .drain => 1 | .flush => 2 | .reenum => 3 | .off => 4
  let role := match l.role with | .compute => 0 | .memory => 1 | .fenced => 2 | .unassigned => 3
  pack [(2, role), (2, 0), (3, st), (1, if off then 0 else flag l.clock.relock.isSome),
    (5, if off then 0 else l.clock.code), (3, 0),
    (4, flag (sget false l.spareUsed 0) + 2 * flag (sget false l.spareUsed 1)
      + 4 * flag (sget false l.spareUsed 2) + 8 * flag (sget false l.spareUsed 3))]

/-- VSTATn (R41). -/
def vstat (s : State) (n : Nat) : Nat :=
  let p := portAt s n
  let st := match p.state with | .down => 0 | .train => 1 | .keywait => 2 | .up => 3
  pack [(2, st), (1, flag p.enable), (1, flag p.rxSlot), (1, flag p.txSlot), (1, 0), (1, flag p.rekey),
    (1, flag p.swBusy), (8, p.authFail), (4, p.downWhy)]

/-- TCTL (R50). -/
def tctl (s : State) : Nat :=
  pack [(2, s.time.tsrc), (2, 0), (4, s.time.tport), (1, flag s.time.tsync), (1, flag s.time.tlost)]

/-- KATTRk (R62). -/
def kattr (s : State) (k : Nat) : Nat :=
  let x := sget MemKey.reset s.keys k
  pack [(6, x.owner), (24, 0), (1, flag x.shared), (1, flag x.valid)]

/-- A byte of the management register block as the host reads it (R48, R49): key windows read zero. -/
def mgmtByte (s : State) (off : Nat) : Byte :=
  let sel := fun (v : Nat) (k : Nat) => BitVec.ofNat 8 (v / 256 ^ k)
  if off < 4 then sel (pack [(16, Config.stepping.toNat), (16, 0x4B09)]) off
  else if off < 8 then sel (flag s.pkg.rdy + 2 * flag s.pkg.accviol) (off - 4)
  else if 0x1000 ≤ off ∧ off < 0x1020 then sel (lstat s ((off - 0x1000) / 4)) (off % 4)
  else if 0x1040 ≤ off ∧ off < 0x1080 then sel (vstat s ((off - 0x1040) / 4)) (off % 4)
  else if 0x1080 ≤ off ∧ off < 0x1084 then sel (tctl s) (off % 4)
  else if 0x1088 ≤ off ∧ off < 0x1090 then sel s.pkg.apbase.toNat (off % 8)
  else if 0x1090 ≤ off ∧ off < 0x1098 then sel s.pkg.seccap.toNat (off % 8)
  else if 0x12000 ≤ off ∧ off < 0x12100 then sel (kattr s ((off - 0x12000) / 4)) (off % 4)
  else if 0x1000000 ≤ off ∧ off < 0x1000000 + 0x400 * 55 then
    let i := (off - 0x1000000) / 16
    sel (sget 0 s.tables i).toNat (off % 16)
  else if 0x100000 ≤ off ∧ off < 0x110000 then sget 0 s.pkg.mailbox (off - 0x100000)
  else 0

/-- A slot of the queue is claimed and not consumed (R76). -/
def claimed (s : State) (q : Nat) : Bool := (queueAt s q).rdidx.toNat < (queueAt s q).wridx.toNat

/-- A byte that a walk reads, by an access that passes through no leaf (R136, R436). -/
def readFrame (s : State) (pa : Nat) : Byte :=
  match region s pa with
  | .hole => 0xFF
  | .mgmt off => mgmtByte s off
  | .queue q off => BitVec.ofNat 8 (queueReg s (claimed s q) q (off / 8 * 8) / 256 ^ (off % 8))
  | _ => match frameView s pa with
    | some v => cellAs s v pa
    | none => 0xFF

/-- n bytes read by such accesses, as a number. -/
def readFrames (s : State) (pa n : Nat) : Nat := ofBytes ((upFrom n pa).map (readFrame s))

/-- What a walk finds (R144): an unmapped page, a page not resident, or a leaf entry and its page's first byte. -/
inductive Walk where
  | unmapped
  | absent (leaf : Nat)
  | leaf (pa : Nat) (entry : Nat) (frame : Nat)
  deriving DecidableEq, Repr

/-- The next table of a pointer entry, if it is one (R142, R144); `wide` asks for 8 KiB alignment. -/
def tableOf (s : State) (wide : Bool) (pa : Nat) : Option Nat :=
  let e := readFrames s pa 8
  let t := bits e 9 43 * 512
  if bits e 0 1 = 1 ∧ bits e 1 8 = 0 ∧ bits e 52 12 = 0 ∧ (!wide || t % 8192 == 0) then some t else none

/-- A leaf entry (R143, R144). -/
def leafAt (s : State) (big : Bool) (va pa : Nat) : Walk :=
  let e := readFrames s pa 8
  let frame := bits e 16 36 * 65536
  if bits e 0 1 = 0 ∨ bits e 2 1 = 0 ∨ bits e 7 1 = 1 ∨ bits e 52 6 ≠ 0 then .unmapped
  else if bits e 1 1 = 0 then .absent pa
  else if big && frame % 0x200000 ≠ 0 then .unmapped
  else
    let g := frame + (if big then va % 0x200000 / 65536 * 65536 else 0)
    if region s g = .hole then .unmapped else .leaf pa e g

/-- The walk of five levels (R141). -/
def walk (s : State) (root va : Nat) : Walk :=
  if root % 8192 ≠ 0 then .unmapped
  else match tableOf s true (root + 16 * bits va 48 9) with
    | none => .unmapped
    | some t1 => match tableOf s true (t1 + 16 * bits va 39 9) with
      | none => .unmapped
      | some t2 => match tableOf s true (t2 + 16 * bits va 30 9) with
        | none => .unmapped
        | some t3 =>
          let p3 := t3 + 16 * bits va 21 9
          if bits (readFrames s p3 8) 2 1 = 1 then leafAt s true va p3
          else match tableOf s false p3 with
            | none => .unmapped
            | some t4 => leafAt s false va (t4 + 16 * bits va 16 5)

/-- HEADWAIT (R76, R81): the slot at RDIDX is claimed and its TYPE byte, read through the context, is zero. -/
def headWait (s : State) (q : Nat) : Bool :=
  let x := queueAt s q
  let va := x.ringbase.toNat + 64 * (x.rdidx.toNat % 2 ^ (6 + x.size))
  claimed s q && match mfind s.contexts x.ctx with
    | none => false
    | some c => match walk s c.root va with
      | .leaf _ e f => cellAs s (keyView s (bits e 58 6)) (f + va % 65536) == 0
      | _ => false

/-- A physical byte read under a key view: memory (R139), a register of the Hull (R48, R74), or a hole (R136). -/
def readAs (s : State) (want : LineKey) (pa : Nat) : Byte :=
  match region s pa with
  | .hole => 0xFF
  | .mgmt off => mgmtByte s off
  | .queue q off => BitVec.ofNat 8 (queueReg s (headWait s q) q (off / 8 * 8) / 256 ^ (off % 8))
  | _ => cellAs s want pa

/-- The kinds of an access: read, write, atomic, fetch (R143, R228). -/
structure Kinds where
  r : Bool
  w : Bool
  a : Bool
  x : Bool
  deriving DecidableEq, Repr

/-- The INFO bits of kinds (R228). -/
def kindsInfo (k : Kinds) : Nat := flag k.r + 2 * flag k.w + 4 * flag k.a + 8 * flag k.x

/-- A leaf grants every kind asked (R143). -/
def leafGrants (e : Nat) (k : Kinds) : Bool :=
  (!k.r || bit e 3) && (!k.w || bit e 4) && (!k.a || bit e 5) && (!k.x || bit e 6)

/-- The kinds read, write, atomic. -/
def kRead : Kinds := { r := true, w := false, a := false, x := false }
def kWrite : Kinds := { r := false, w := true, a := false, x := false }
def kAtomic : Kinds := { r := false, w := false, a := true, x := false }

/-- The key of a leaf may serve a context (R63). -/
def keyServes (s : State) (k ctx : Nat) : Bool :=
  let m := sget MemKey.reset s.keys k
  m.valid && (m.owner == ctx || m.shared)

/-- The initiator IDs of R60. -/
def initCore (c : Nat) : Nat := c
def initShucker (i : Nat) : Nat := 0x100000 + i
def initService (k : Nat) : Nat := 0x200000 + k
def initHost (f : Nat) : Nat := 0x300000 + f
def initPeer (port pkg : Nat) : Nat := 0x400000 + pkg % 4096 * 16 + port % 16

/-- The CXL port whose expander serves a second-tier offset (R55). -/
def cxlPortOf (s : State) (off : Nat) : Nat :=
  let c := fun n => sget 0 s.pkg.cxlCap n
  if off < c 0 then 0 else if off < c 0 + c 1 then 1 else if off < c 0 + c 1 + c 2 then 2 else 3

/-- The access-table target of a physical address (R58). -/
def targetOf (s : State) (pa : Nat) : Nat :=
  match region s pa with
  | .tier2 off => 16 + cxlPortOf s off
  | _ => homeOf pa

/-- One valid entry of a target matches, covers the bytes and grants the kind: bit 1 R, 2 W, 3 A, 4 P (R59, R61). -/
def tableGrants (s : State) (t init lo hi kindBit : Nat) : Bool :=
  (upFrom 64 0).any fun i =>
    let e := (sget 0 s.tables (64 * t + i)).toNat
    bit e 0 && bit e kindBit && bits e 32 24 == init && bits e 56 36 * 65536 ≤ lo && hi < (bits e 92 36 + 1) * 65536

/-- Each 4 KiB that n bytes touch is permitted by the table of its own target. -/
def runsPermitted (s : State) (init kindBit : Nat) : Nat → Nat → Nat → Bool
  | 0, _, n => n == 0
  | fuel + 1, pa, n =>
    n == 0 ||
      (let m := Nat.min n (4096 - pa % 4096)
       tableGrants s (targetOf s pa) init pa (pa + m - 1) kindBit && runsPermitted s init kindBit fuel (pa + m) (n - m))

/-- The access tables permit an access to n bytes (R61). -/
def tablePermits (s : State) (init pa n kindBit : Nat) : Bool := runsPermitted s init kindBit (n / 4096 + 2) pa n

/-- Why a translation gives no access (R103, R118). -/
inductive Refused where
  | absent
  | fault
  | denied
  deriving DecidableEq, Repr

/-- The context bound to an ASID, if it is live. -/
def ctxOfAsid (s : State) (a : BitVec 16) : Option Nat :=
  (s.contexts.find? fun p => p.2.asid == a).map (·.1)

/-- Translate one byte for a context and initiator (R63, R103, R144): the physical address, key and leaf. -/
def translate (s : State) (ctx init va n : Nat) (k : Kinds) (kindBit : Nat) : Except Refused (Nat × Nat × Nat) :=
  match mfind s.contexts ctx with
  | none => .error .fault
  | some c =>
    if va ≥ 2 ^ 57 then .error .fault
    else match walk s c.root va with
      | .unmapped => .error .fault
      | .absent _ => .error .absent
      | .leaf p e f =>
        let key := bits e 58 6
        let pa := f + va % 65536
        if !leafGrants e k || !keyServes s key ctx then .error .fault
        else if !tablePermits s init pa n kindBit then .error .denied
        else .ok (pa, key, p)

/-- Set bits of a leaf's companion word (R145). -/
def markLeaf (s : State) (leaf mask : Nat) : State :=
  let pa := leaf + 8
  match frameView s pa with
  | none => s
  | some v => writeSpan s v pa (toBytes 8 (Nat.lor (readFrames s pa 8) mask))

/-- PINS of a leaf (R145). -/
def pinsOf (s : State) (leaf : Nat) : Nat := readFrames s (leaf + 14) 2

/-- Change PINS of a leaf by one operation at its home (R145, R146). -/
def setPins (s : State) (leaf n : Nat) : State :=
  match frameView s leaf with
  | none => s
  | some v => writeSpan s v (leaf + 14) (toBytes 2 n)

/-- Pin a page. -/
def pinLeaf (s : State) (leaf : Nat) : State := setPins s leaf (pinsOf s leaf + 1)

/-- Unpin a page. -/
def unpinLeaf (s : State) (leaf : Nat) : State := setPins s leaf (pinsOf s leaf - 1)

/-- The companion bits a Shucker of a layer sets: ACC, and DIRTY for a write (R145). -/
def accMask (layer : Option Nat) (write : Bool) : Nat :=
  (match layer with | some n => 2 ^ n | none => 0) + (if write then 0x200 else 0)

/-- Memory marked uncorrectable at a line (R235). -/
def poisoned (s : State) (pa : Nat) : Bool := sget false s.poison (pa / 64)

/-- The layer of a core (R60). -/
def layerOfCore (c : Nat) : Nat := c / 32

/-- Memory of a layer whose clock relocks: the FIFOs into it stall (R22). -/
def homeStalls (s : State) (pa : Nat) : Bool :=
  match region s pa with
  | .layer n _ => (layerAt s n).clock.relock.isSome
  | _ => false

/-- Group of a handle that is resident or spilled (R84). -/
def groupAt (s : State) (gh : Nat) : Option Group :=
  match mfind s.groups gh with
  | some g => if g.place = .saved then none else some g
  | none => none

/-- The core of a resident group. -/
def coreOf (g : Group) : Option Nat :=
  match g.place with
  | .resident c _ _ _ => some c
  | _ => none

/-- A core's layer stalls traffic into it during a relock (R22, R200). -/
def stalled (s : State) (g : Group) : Bool :=
  match coreOf g with
  | some c => (layerAt s (layerOfCore c)).clock.relock.isSome
  | none => true

/-- Some 4 KiB block that n bytes lie in stalls. -/
def spanStalls (s : State) (pa n : Nat) : Bool :=
  (upFrom ((pa % 4096 + n + 4095) / 4096) (pa / 4096)).any fun b => homeStalls s (4096 * b)

/-- Some byte of an access lies in memory that stalls. -/
def homesStall (s : State) (pas : List (Nat × Nat)) : Bool := pas.any fun p => homeStalls s p.1

/-- Bytes of a group's scratchpad, its path spill area included (R161). -/
def spadSize (g : Group) : Nat := bits g.pitw.toNat 13 8 * 16384

/-- Scratchpad bytes below the path spill area (R160 to R162). -/
def spadLimit (g : Group) : Nat :=
  bits g.pitw.toNat 13 8 * 16384 - 64 * bits g.pitw.toNat 21 3 * g.width

/-- Vector registers per lane (R159). -/
def nvOf (g : Group) : Nat := 8 * (bits g.pitw.toNat 0 5 + 1)

/-- Accumulator tiles (R159). -/
def tilesOf (g : Group) : Nat := 4 * bits g.pitw.toNat 8 5

/-- Frames a lane's path may hold (R228). -/
def depthMax (g : Group) : Nat := 24 + 8 * bits g.pitw.toNat 21 3

/-- Pit granules of a partition word and width (R160). -/
def granules (pitw w : Nat) : Nat :=
  (ceilDiv (8 * (bits pitw 0 5 + 1) * w * 4) 16384 + bits pitw 8 5 + bits pitw 13 8) * (1 + bits pitw 24 1)

/-- The partition-word checks of R160. -/
def pitwOk (pitw w : Nat) : Bool :=
  bits pitw 25 7 == 0 && bits pitw 5 3 == 0 && bits pitw 8 5 ≤ 16 && bits pitw 13 8 ≤ 128
    && granules pitw w ≤ 128 && 64 * bits pitw 21 3 * w ≤ bits pitw 13 8 * 16384

/-- Granules of a core that resident groups hold (R161). -/
def granulesUsed (s : State) (c : Nat) : Nat :=
  s.groups.foldl (fun n p => if coreOf p.2 = some c then n + granules p.2.pitw.toNat p.2.width else n) 0

/-- Copy k of device time (R44): within 4 ns of the time unit. -/
def localTime (s : State) (k : Nat) : DWord := s.time.now + BitVec.ofInt 64 (clampInt (-262144) 262144 (Config.copySkew k))

/-- Device time since a reading of the time unit, in units (R5). -/
def elapsed (s : State) (t : Nat) : Nat := (s.time.now - BitVec.ofNat 64 t).toNat

end Sys2Proof.Machine
end

