-- ==== Sys2Proof/Machine/Watch.lean ====
section
/-! DEFINITION. Lanes of groups, the traps they raise (R236), and stores at their homes as those that watch a word see them: looks
of waits (R153, R205, R206), pushes of subscriptions (R189 to R191), reservations, and trace records (R244). -/

namespace Sys2Proof.Machine

/-- A lane that is absent. -/
def absentLane : Lane :=
  { present := false, exited := false, frames := [], pos := .advance false, held := none, waiting := false, own := 0,
    lastIssue := 0, starved := false, buffer := [], saved := none, trec := [], pendTrap := [] }

/-- Lane i of a group, by group position. -/
def laneAt (g : Group) (i : Nat) : Lane := nthD absentLane g.lanes i

/-- Replace lane i of a group. -/
def setLane (g : Group) (i : Nat) (l : Lane) : Group := { g with lanes := setNth g.lanes i l }

/-- A lane that runs: present and not exited. -/
def liveLane (l : Lane) : Bool := l.present && !l.exited

/-- The place a trap saves for a lane that stands at an instruction of the given length (R232, R323). -/
def placeWith (ln : Lane) (len : Nat) (d : SavedDst) : SavedPath :=
  { frames := ln.frames, pos := ln.pos, after := (match ln.pos with | .leaf _ o => o + len | _ => 0), dst := d }

/-- Raise a lane trap: it waits in its lane for the end of the cycle (R236), and the lane issues nothing until then. -/
def divert (s : State) (gh lane : Nat) (t : Trap) (sv : SavedPath) (priv : Bool) : State :=
  match mfind s.groups gh with
  | none => s
  | some g =>
    let l := laneAt g lane
    if !liveLane l then s
    else setGroup s gh (setLane g lane { l with pendTrap := l.pendTrap ++ [{ trap := t, place := sv, priv := priv }] })

/-- The value of n bytes from a physical address under a view. -/
def homeNum (s : State) (v : LineKey) (pa n : Nat) : Nat := ofBytes ((upFrom n pa).map (readAs s v))

/-- Mark the waits that an event wakes, in a group that is spilled or saved (R207). -/
def markWoken (s : State) (gh : Nat) (f : Wait → Bool) : State :=
  match mfind s.groups gh with
  | none => s
  | some g =>
    if (coreOf g).isSome then s
    else setGroup s gh { g with waits := g.waits.map fun w => if f w then { w with woken := true } else w }

/-- A wait on subscription slots. -/
def isSlotWait (w : Wait) : Bool := match w.what with | .slot _ => true | _ => false

/-- A wait on scratchpad words. -/
def isSpadWait (w : Wait) : Bool := match w.what with | .spad _ => true | _ => false

/-- A wait on sync words. -/
def isSyncWait (w : Wait) : Bool := match w.what with | .sync _ => true | _ => false

/-- A wait that a push waiting at its home wakes: on a slot, or on a scratchpad word (R207). -/
def isPushWait (w : Wait) : Bool := isSlotWait w || isSpadWait w

/-- The held byte of a group at a physical address (R181). -/
def heldAt (g : Group) (pa : Nat) : Option Byte := (mfind g.held pa).map (·.val)

/-- A word as a lane of the group reads it: held bytes in place of memory (R181), unless its key has been erased (R153) or
a byte of it is marked uncorrectable (R228, R376). -/
def lookWord (s : State) (g : Group) (va pa key : Nat) : Except Trap Nat :=
  let at_ := upFrom 8 pa
  if at_.all fun a => (heldAt g a).isSome then .ok (ofBytes (at_.map fun a => (heldAt g a).getD 0))
  else if !keyLive s key then .error { code := 0x03, addr1 := va, addr2 := none, info := 1 }
  else if at_.any fun a => (heldAt g a).isNone && poisoned s a then
    .error { code := 0x09, addr1 := va, addr2 := none, info := 0 }
  else .ok (ofBytes (at_.map fun a => (heldAt g a).getD (readAs s (keyView s key) a)))

/-- One look of a lane at its word: the first value that differs is kept (R206). -/
def lookOne (s : State) (g : Group) (w : WordWatch) : Except Trap WordWatch :=
  match lookWord s g w.va w.pa w.key with
  | .error t => .error t
  | .ok v => .ok (if w.got.isNone && v ≠ w.want then { w with got := some v } else w)

/-- The lanes' looks that a wait makes, those of the words that `sel` chooses: the wait after, and the lanes that trap. -/
def lookWait (s : State) (g : Group) (sel : Nat → Bool → Bool) (w : Wait) : Wait × List (Nat × Trap) :=
  match w.what with
  | .word l =>
    let on := fun x : WordWatch => sel x.pa x.armed && x.got.isNone && w.who.contains x.lane
    ({ w with what := .word (l.map fun x =>
        if on x then (match lookOne s g x with | .ok y => y | .error _ => x) else x) },
      l.filterMap fun x =>
        if on x then (match lookOne s g x with | .ok _ => none | .error t => some (x.lane, t)) else none)
  | .counter va pa key armed zero =>
    if !sel pa armed || zero then (w, [])
    else if !keyLive s key then (w, w.who.map fun i => (i, { code := 0x03, addr1 := va, addr2 := none, info := 1 }))
    else ({ w with what := .counter va pa key armed (homeNum s (keyView s key) pa 8 == 0) }, [])
  | _ => (w, [])

/-- A wait's looks at its words, in a resident group: a lane whose look is refused or finds a marked byte takes its trap
(R153, R205, R206, R376). -/
def lookAt (sel : Nat → Bool → Bool) (gh ticket : Nat) (s : State) : State :=
  match mfind s.groups gh with
  | none => s
  | some g =>
    match g.waits.find? fun w => w.ticket == ticket with
    | none => s
    | some w =>
      let r := lookWait s g sel w
      let s1 := setGroup s gh { g with waits := g.waits.map fun x => if x.ticket == ticket then r.1 else x }
      r.2.foldl (fun st q => match mfind st.groups gh with
        | none => st
        | some g1 => divert st gh q.1 q.2 (placeWith (laneAt g1 q.1) w.len w.dst) false) s1

/-- Every wait's looks at the words that `sel` chooses. -/
def lookGroup (sel : Nat → Bool → Bool) (gh : Nat) (s : State) : State :=
  match mfind s.groups gh with
  | none => s
  | some g => (g.waits.map (·.ticket)).foldl (fun st t => lookAt sel gh t st) s

/-- A store reaches an armed wait: a resident group looks at the word, and one that is away has its wake event (R206,
R207). -/
def notifyArmed (s : State) (x : Sub) : State :=
  if ((mfind s.groups x.gh).bind coreOf).isSome then lookAt (fun pa armed => armed && pa == x.pa) x.gh x.slot s
  else markWoken s x.gh fun w => w.ticket == x.slot

/-- A store's push for one subscription: a new one, or merged into the undeparted one (R189, R191). -/
def pushInto (val : DWord) (release : Bool) (p : Option Push) : Push :=
  match p with
  | none => { val := val, count := 1, first := false, release := release }
  | some q => { q with val := val, count := q.count + 1, release := q.release || release }

/-- A service core's reservation lies in the word at a physical address. -/
def reserved (pa : Nat) (x : Service) : Bool := match x.resv with | some r => r.1 == pa | none => false

/-- A store to a word ends the reservations on it (log 3). -/
def breakResv (s : State) (pa : Nat) : State :=
  if s.services.any fun p => reserved pa p.2 then
    { s with services := s.services.foldl (fun m p =>
        if reserved pa p.2 then sset Service.reset m p.1 { p.2 with resv := none } else m) s.services }
  else s

/-- A store that writes the word at a physical address reaches its subscriptions and armed waits (R189, R190, R206,
R207). -/
def notifySubs (s : State) (v : LineKey) (pa : Nat) (release : Bool) : State :=
  if s.subs.all fun x => x.pa ≠ pa then s
  else
    let val := BitVec.ofNat 64 (homeNum s v pa 8)
    let hit := fun x : Sub => if x.pa = pa && !x.armed then { x with push := some (pushInto val release x.push) } else x
    let s1 := { s with subs := s.subs.map hit }
    (s.subs.filter fun x => x.pa = pa).foldl
      (fun st x => if x.armed then notifyArmed st x else markWoken st x.gh isPushWait) s1

/-- A store that writes the word at a physical address, seen by all that watch the word. -/
def notifyWord (s : State) (v : LineKey) (pa : Nat) (release : Bool) : State := notifySubs (breakResv s pa) v pa release

/-- The words that n bytes from a physical address touch. -/
def wordsOf (pa n : Nat) : List Nat :=
  if n = 0 then [] else (upFrom ((pa + n - 1) / 8 - pa / 8 + 1) (pa / 8)).map (8 * ·)

/-- A store at its home: consecutive bytes written under a view, then pushed (R139, R189). -/
def storeHome (s : State) (v : LineKey) (pa : Nat) (bytes : List Byte) (release : Bool) : State :=
  (wordsOf pa bytes.length).foldl (fun st w => notifyWord st v w release) (writeSpan s v pa bytes)

/-- A store that passes through no leaf (R436), in runs of one granule: a run whose frame key is not VALID is dropped. -/
def storeFrames : Nat → State → Nat → List Byte → State
  | 0, s, _, _ => s
  | fuel + 1, s, pa, l =>
    if l.isEmpty then s
    else
      let m := 65536 - pa % 65536
      let s1 := match frameView s pa with
        | none => s
        | some v => storeHome s v pa (l.take m) false
      storeFrames fuel s1 (pa + m) (l.drop m)

/-- Scattered bytes stored as one store to each word they touch: (physical address, key, value), each word's bytes
together (R189). -/
def storeBytes (s : State) (l : List (Nat × Nat × Byte)) (release : Bool) : State :=
  let s1 := l.foldl (fun st p => writeAs st (keyView st p.2.1) p.1 p.2.2) s
  let words := (l.map fun p => (8 * (p.1 / 8), p.2.1)).eraseDups
  words.foldl (fun st w => notifyWord st (keyView st w.2) w.1 release) s1

/-- Append a record to a trace ring (R244, R245): header, then the body padded to whole 32-byte units, stored in the ring's
memory like any store (R189), from its start again past its end. -/
def traceRecord (s : State) (unit type src : Nat) (body : List Byte) : State :=
  let r := sget Ring.reset s.rings unit
  if r.size = 0 then s
  else
    let units := ceilDiv (16 + body.length) 32
    let hdr := toBytes 8 (localTime s unit).toNat ++ toBytes 4 r.rseq ++ toBytes 1 type ++ toBytes 1 units ++ toBytes 2 src
    let rec_ := hdr ++ body ++ List.replicate (32 * units - 16 - body.length) 0
    let off := r.widx.toNat % r.size
    let room := r.size - off
    let s1 := storeFrames 2 s (r.base + off) (rec_.take room)
    let s2 := storeFrames 2 s1 r.base (rec_.drop room)
    let r' := { r with widx := r.widx + BitVec.ofNat 64 (32 * units), rseq := (r.rseq + 1) % 2 ^ 32 }
    { s2 with rings := sset Ring.reset s2.rings unit r' }

/-- The mark of byte `off` of group t's scratchpad (R217). -/
def byteKey (t off : Nat) : Nat := t * 2 ^ 21 + off

/-- Note bytes as they were, unless older ones are noted already (R217). -/
def noteOld (m : List (Nat × Nat)) (t off : Nat) (old : List Byte) : List (Nat × Nat) :=
  (List.zip (upFrom old.length off) old).foldl
    (fun m p => if sget 0 m (byteKey t p.1) = 0 then sset 0 m (byteKey t p.1) (p.2.toNat + 1) else m) m

/-- Bytes that are read as they stand from now on. -/
def dropOld (m : List (Nat × Nat)) (t off n : Nat) : List (Nat × Nat) :=
  (upFrom n off).foldl (fun m o => sset 0 m (byteKey t o) 0) m

/-- Two groups are of one gang (R109). -/
def mates (g h : Group) : Bool := h.owner == g.owner && h.gang == g.gang

/-- Before group w's lanes, or its matrix array, write n bytes of group t's scratchpad: the arrays of the gang's groups may still
read them as they were (R217), but not w's own where program order joins the write to it (R219) or the array wrote it. -/
def leaveBehind (s : State) (w : Nat) (array : Bool) (t off n : Nat) : State :=
  match mfind s.groups t with
  | none => s
  | some g =>
    if w = t && s.groups.all (fun p => p.1 == t || !mates g p.2) then s
    else
      let old := (upFrom n off).map (sget 0 g.spad)
      let f := fun (p : Nat × Group) =>
        if p.1 == w && (w == t || array) then { p.2 with behind := dropOld p.2.behind t off n }
        else if mates g p.2 then { p.2 with behind := noteOld p.2.behind t off old }
        else p.2
      { s with groups := s.groups.map fun p => (p.1, f p) }

/-- The Shucker lands n bytes in group t's scratchpad: R219 and R91 join its landings to the matrix arrays of those that await
them, so none reads what was there before. -/
def catchUp (s : State) (t off n : Nat) : State :=
  if s.groups.all fun p => p.2.behind.isEmpty then s
  else { s with groups := s.groups.map fun p => (p.1, { p.2 with behind := dropOld p.2.behind t off n }) }

/-- Bytes of a scratchpad as a group's matrix array reads them: one that may be behind is the old byte or the new, by a free value
(R217; log 9). -/
def seenBy (s : State) (reader t off : Nat) (l : List Byte) : State × List Byte :=
  match mfind s.groups reader with
  | none => (s, l)
  | some g =>
    if g.behind.isEmpty then (s, l)
    else ({ s with free := s.free + l.length }, (List.zip (upFrom l.length 0) l).map fun p =>
      match sget 0 g.behind (byteKey t (off + p.1)) with
      | 0 => p.2
      | k + 1 => if (Config.freeByte (s.free + p.1)).toNat % 2 = 0 then p.2 else BitVec.ofNat 8 k)

/-- An XFENCE of a group joins the core and matrix classes at a scope that takes in its gang (R210, R220): its array reads every
byte as it stands. -/
def joinPaths (s : State) (gh : Nat) (scope : Scope) : State :=
  let one := match mfind s.groups gh with
    | some g => s.groups.all fun p => !mates g p.2 || coreOf p.2 == coreOf g
    | none => true
  match scope with
  | .ln | .grp | .slot => s
  | .core => if one then onGroup s gh fun g => { g with behind := [] } else s
  | _ => onGroup s gh fun g => { g with behind := [] }

end Sys2Proof.Machine
end

