-- ==== Sys2Proof/Machine/Ops.lean ====
section
/-! DEFINITION. Shared operations on groups and lanes: translation through extents (R153), paths and the walk of the tree (R273,
R275, R279, R281), holds (R170), trap records, diversion into a handler and kills (R230 to R234), and the return from a
handler (R233, R323). -/

namespace Sys2Proof.Machine

/-- The program of a group's task (R117). -/
def progOf (s : State) (g : Group) : Option Program :=
  match g.owner with
  | .launch id => (mfind s.launches id).bind (·.prog)
  | .part id => (mfind s.rangeParts id).bind fun q => (mfind s.tasks q.task).bind (·.prog)

/-- The function of a group's task. -/
def funcOf (s : State) (g : Group) : Nat :=
  match g.owner with
  | .launch id => match mfind s.launches id with | some l => l.func | none => 0
  | .part id => match (mfind s.rangeParts id).bind fun q => mfind s.tasks q.task with
    | some t => t.func
    | none => 0

/-- The task number two lanes must share to stand at one path (R164): launches even, range tasks odd. -/
def taskOf (s : State) (g : Group) : Nat :=
  match g.owner with
  | .launch id => 2 * id
  | .part id => match mfind s.rangeParts id with | some q => 2 * q.task + 1 | none => 1

/-- An extent grants every kind asked (R151). -/
def extGrants (e : Extent) (k : Kinds) : Bool :=
  (!k.r || e.r) && (!k.w || e.w) && (!k.a || e.a) && (!k.x || e.x)

/-- The physical address and key of a byte in one extent (R151, R153). -/
def extByte (e : Extent) (k : Kinds) (va : Nat) : Option (Nat × Nat) :=
  let gr := va / 65536
  if extGrants e k && e.vg ≤ gr && gr < e.vg + e.n then
    some ((e.pg + (gr - e.vg)) * 65536 + va % 65536, e.key)
  else none

/-- The first extent that grants a byte. -/
def extFind (k : Kinds) (va : Nat) : List Extent → Option (Nat × Nat)
  | [] => none
  | e :: r => match extByte e k va with
    | some x => some x
    | none => extFind k va r

/-- The extents of a program, data then code (R151, R152). -/
def extentsOf (p : Program) : List Extent := p.data ++ p.code.filterMap id

/-- Translate n bytes, or the first byte that fails (R153, R365). -/
def extSpan (l : List Extent) (k : Kinds) : Nat → Nat → Except Nat (List (Nat × Nat))
  | 0, _ => .ok []
  | n + 1, va =>
    if va ≥ 2 ^ 57 then .error va
    else match extFind k va l with
      | none => .error va
      | some x => match extSpan l k n (va + 1) with
        | .error v => .error v
        | .ok r => .ok (x :: r)

/-- Translate n bytes that must lie in one extent (R153): atomics and words. -/
def extWord (l : List Extent) (k : Kinds) (n va : Nat) : Except Nat (List (Nat × Nat)) :=
  if va + n > 2 ^ 57 then .error va
  else match l.find? fun e => (extByte e k va).isSome && (extByte e k (va + n - 1)).isSome with
    | none => .error va
    | some e => extSpan [e] k n va

/-- Bytes at translated addresses, each under its key. -/
def readPas (s : State) (l : List (Nat × Nat)) : List Byte := l.map fun p => readAs s (keyView s p.2) p.1

/-- The code extents (R152). -/
def codeOf (p : Program) : List Extent := p.code.filterMap id

/-- The tree image's code extent (R152). -/
def treeOf (p : Program) : List Extent := (p.code.take 1).filterMap id

/-- A number read through code extents, or the first byte that fails. -/
def readIn (s : State) (l : List Extent) (k : Kinds) (va n : Nat) : Except Nat Nat :=
  match extSpan l k n va with
  | .error v => .error v
  | .ok l => .ok (ofBytes (readPas s l))

/-- A number read through the code extents, or the first byte that fails. -/
def readCode (s : State) (p : Program) (k : Kinds) (va n : Nat) : Except Nat Nat := readIn s (codeOf p) k va n

/-- The kinds of a fetch. -/
def kFetch : Kinds := { r := false, w := false, a := false, x := true }

/-- The address of node record i (R271). -/
def nodeVa (p : Program) (i : Nat) : Nat := p.image + 64 + 32 * p.nfunc + 16 * i

/-- The record of node i as a 128-bit number, read within the tree image's extent (R273). -/
def nodeRec (s : State) (p : Program) (i : Nat) : Except Nat Nat := readIn s (treeOf p) kFetch (nodeVa p i) 16

/-- KIND of node i, 0 where its record cannot be read. -/
def nodeKind (s : State) (p : Program) (i : Nat) : Nat :=
  match nodeRec s p i with
  | .ok r => bits r 0 4
  | .error _ => 0

/-- The line of a translated byte is in the instruction cache (R166). -/
def lineIn (c : Core) (x : Nat × Nat) : Bool := c.icache.contains (x.1 / 64)

/-- The first of consecutive bytes whose line would have to be filled under an erased key (R153). -/
def fillRefused (s : State) (c : Core) : Nat → List (Nat × Nat) → Option Nat
  | _, [] => none
  | va, x :: r => if lineIn c x || keyLive s x.2 then fillRefused s c (va + 1) r else some va

/-- Translate n bytes for a fetch: the first byte outside the code extents or refused by its home. -/
def fetchSpan (s : State) (p : Program) (c : Core) (a n : Nat) : Except Nat (List (Nat × Nat)) :=
  match extSpan (codeOf p) kFetch n a with
  | .error v => .error v
  | .ok l => match fillRefused s c a l with
    | some v => .error v
    | none => .ok l

/-- A number fetched (R153), or the first byte that fails. -/
def readFetch (s : State) (p : Program) (c : Core) (a n : Nat) : Except Nat Nat :=
  match fetchSpan s p c a n with
  | .error v => .error v
  | .ok l => .ok (ofBytes (readPas s l))

/-- The address of a function's entry (R271). -/
def funcVa (p : Program) (f : Nat) : Nat := p.image + 64 + 32 * f

/-- ROOT and DMAX of a function (R271). -/
def funcEntry (s : State) (p : Program) (f : Nat) : Nat × Nat :=
  match readCode s p kFetch (funcVa p f) 4 with
  | .ok r => (bits r 0 16, bits r 16 8)
  | .error _ => (0xFFFF, 0)

/-- A lane whose root has finished (R278). -/
def endedLane (l : Lane) : Bool :=
  l.present && l.exited && l.frames.isEmpty && match l.pos with
    | .advance _ => true
    | _ => false

/-- A lane of a killed group is no lane whose root has finished. -/
def killedPos (p : Pos) : Pos :=
  match p with
  | .advance _ => .leaf 0xFFFF 0
  | _ => p

/-- The slot lane number of group position i (R110, R353). -/
def slotLane (g : Group) (i : Nat) : Nat :=
  match g.place with
  | .resident _ _ b _ => b * g.width + i
  | _ => i

/-- A predicate k(n) of a lane. -/
def predAt (g : Group) (lane n : Nat) : Bool := bit (sget 0 g.preds lane).toNat n

/-- A vector register of a lane. -/
def vregAt (g : Group) (lane r : Nat) : Word := sget 0 g.vregs (256 * lane + r)

/-- The frame of a call: of a CALL or CALLI node, or a trap frame (R279). -/
def isCallFrame (s : State) (p : Program) (f : Frame) : Bool :=
  f.node = 0xFFFF || (let k := nodeKind s p f.node; k = 4 || k = 5)

/-- Fc: frames above the innermost call frame (R279). -/
def frameFc (s : State) (p : Program) : List Frame → Nat
  | [] => 0
  | f :: r => if isCallFrame s p f then 0 else frameFc s p r + 1

/-- A parting node: CHOICE, LOOP or CALLI (R170). -/
def isParting (s : State) (p : Program) (f : Frame) : Bool :=
  f.node ≠ 0xFFFF && (let k := nodeKind s p f.node; k = 2 || k = 3 || k = 5)

/-- What a lane's walk leaves for its group: checkpointed nodes entered or iterated with their depth (R180), frame spills
and fills as spill-area frame number and its bytes (R281), and whether a handler ended. -/
structure WalkLog where
  hits : List (Nat × Nat)
  frames : List (Nat × Option Frame)
  tret : Bool
  deriving DecidableEq, Repr

/-- An empty log. -/
def WalkLog.none : WalkLog := { hits := [], frames := [], tret := false }

/-- Push a frame (R281): above 24 frames, the frame that leaves slot state is spilled. -/
def pushFrame (l : Lane) (log : WalkLog) (f : Frame) : Lane × WalkLog :=
  let fs := f :: l.frames
  let log' := if fs.length > 24 then { log with frames := log.frames ++ [(fs.length - 25, fs[24]?)] } else log
  ({ l with frames := fs }, log')

/-- Log the return of a frame from the spill area by a pop that leaves n frames (R281). -/
def logFill (n : Nat) (log : WalkLog) : WalkLog :=
  if n ≥ 24 then { log with frames := log.frames ++ [(n - 24, none)] } else log

/-- Pop a frame (R170, R281): at 24 frames or above one returns from the spill area; a parting node leaves a hold. -/
def popFrame (s : State) (p : Program) (now : Nat) (l : Lane) (log : WalkLog) : Lane × WalkLog :=
  match l.frames with
  | [] => (l, log)
  | f :: r =>
    ({ l with frames := r,
              held := if isParting s p f then some { above := r, node := f.node, since := now } else l.held },
      logFill r.length log)

/-- Pop n frames. -/
def popFrames (s : State) (p : Program) (now : Nat) : Nat → Lane → WalkLog → Lane × WalkLog
  | 0, l, log => (l, log)
  | n + 1, l, log =>
    let r := popFrame s p now l log
    popFrames s p now n r.1 r.2

/-- One step of a walk: the lane moves, stands at a leaf, exits, waits for a record, or traps. -/
inductive WalkStep where
  | more (l : Lane) (log : WalkLog)
  | done (l : Lane) (log : WalkLog)
  | blocked (node : Nat)
  | trap (t : Trap)
  deriving DecidableEq, Repr

/-- The predicate a node tests (R272): k(PRED) xor NEG. -/
def nodePred (g : Group) (lane r : Nat) : Bool := predAt g lane (bits r 44 4) != bit r 41

/-- The checks of a record on entry (R273). -/
def nodeOk (g : Group) (p : Program) (r : Nat) : Bool :=
  let idx := fun n => n < p.nnode && n ≠ 0xFFFF
  let kids := fun n : Nat => 1 ≤ n && idx (bits r 8 16 + n - 1)
  let ck := bit r 4
  bits r 5 3 == 0 &&
  match bits r 0 4 with
  | 1 => kids (bits r 24 16) && bits r 40 88 == 0
  | 2 => kids (bits r 24 16) && !ck && bits r 42 2 == 0 && bits r 56 72 == 0 &&
      (if bit r 40 then !bit r 41 && bits r 44 4 == 0 && bits r 48 8 < nvOf g
       else bits r 24 16 ≤ 2 && bits r 48 8 == 0)
  | 3 => idx (bits r 8 16) && bits r 24 16 == 0 && bits r 42 2 == 0 && bits r 48 80 == 0
  | 4 => !ck && bits r 24 104 == 0
  | 5 => !ck && bits r 8 2 == 0 && bits r 40 8 == 0 && bits r 56 72 == 0 && bits r 48 8 < nvOf g
      && bits r 8 32 + 4 ≤ p.ctlen
  | 6 => !ck && bits r 8 2 == 0 && bits r 53 75 == 0 && 4 ≤ bits r 40 13 && bits r 40 13 ≤ 4096
      && bits r 40 13 % 4 == 0 && bits r 8 32 + bits r 40 13 ≤ p.textlen
  | _ => false

/-- A trap raised while entering a node (R273). -/
def nodeTrap (p : Program) (n code info : Nat) : Trap := { code := code, addr1 := nodeVa p n, addr2 := none, info := info }

/-- EXTENT of a fetch made while entering a node: the record's address, and the lowest address that failed (R153, R228,
R273). -/
def nodeExtent (p : Program) (n v : Nat) : Trap := { code := 0x03, addr1 := nodeVa p n, addr2 := some v, info := 8 }

/-- The record of node i is present in the core's cache (R278). -/
def nodeIn (c : Core) (p : Program) (i : Nat) : Bool :=
  match extFind kFetch (nodeVa p i) (treeOf p) with
  | some x => c.nodes.contains x.1
  | none => true

/-- What keeps a lane from a node record: nothing; its absence from the cache (R278); or its home's refusal of a fill whose
key has been erased (R153). -/
def nodeBar (s : State) (c : Core) (p : Program) (i : Nat) : Option WalkStep :=
  if nodeIn c p i then none
  else if (extFind kFetch (nodeVa p i) (treeOf p)).any fun x => keyLive s x.2 then some (.blocked i)
  else some (.trap (nodeExtent p i (nodeVa p i)))

/-- What keeps a lane from the records of some frames, outermost last; a trap frame has none. -/
def framesBar (s : State) (c : Core) (p : Program) : List Frame → Option WalkStep
  | [] => none
  | f :: r =>
    if f.node = 0xFFFF then framesBar s c p r
    else match nodeBar s c p f.node with
      | some w => some w
      | none => framesBar s c p r

/-- The frames up to the innermost call frame, which is the last of them. -/
def callSpan (s : State) (p : Program) : List Frame → List Frame
  | [] => []
  | f :: r => if isCallFrame s p f then [f] else f :: callSpan s p r

/-- call of R275; a fetch of the callee's entry that fails raises EXTENT (R153, R273). -/
def callNode (s : State) (g : Group) (p : Program) (c : Core) (l : Lane) (log : WalkLog) (n f rec_ : Nat) (fn : Nat)
    (priv : Bool) : WalkStep :=
  let e := funcEntry s p f
  let d := l.frames.length + 1 + e.2
  if f ≥ p.nfunc then .trap (nodeTrap p n 0x01 (rec_ % 2 ^ 32))
  else match fetchSpan s p c (funcVa p f) 4 with
  | .error v => .trap (nodeExtent p n v)
  | .ok _ =>
  if d > depthMax g then .trap (nodeTrap p n 0x07 d)
  else
    let r := pushFrame l log { node := n, child := f, fn := fn }
    .more { r.1 with pos := .enter e.1 priv } r.2

/-- The function whose tree holds a lane's current node (R281): that of the innermost call frame, or the root's. -/
def currentFn (s : State) (p : Program) (root : Nat) : List Frame → Nat
  | [] => root
  | f :: r => if isCallFrame s p f then f.child else currentFn s p root r

/-- A vector register of a lane has a value on its way (R173, R174). -/
def regPending (g : Group) (lane r : Nat) : Bool :=
  sget 0 g.vbusy (256 * lane + r) != 0 ||
  g.pend.any fun a => a.lane == lane && a.op != .store && !a.dst.ds && !a.dst.nw &&
    a.dst.reg ≤ r && r < a.dst.reg + a.dst.regs

/-- A walk must wait for the register it reads (R276): outstanding scratchpad requests count for the whole group. -/
def walkWaits (g : Group) (l : Lane) (lane r : Nat) : Bool :=
  l.own ≠ 0 || g.counter ≠ 0 || regPending g lane r

/-- One step of enter (R275), with the call table of R282. -/
def enterStep (s : State) (g : Group) (p : Program) (c : Core) (root lane : Nat) (l : Lane) (log : WalkLog)
    (n : Nat) (priv : Bool) : WalkStep :=
  match nodeRec s p n with
  | .error v => .trap (nodeExtent p n v)
  | .ok r =>
    match nodeBar s c p n with
    | some w => w
    | none =>
    if n ≥ p.nnode ∨ n = 0xFFFF ∨ !nodeOk g p r then .trap (nodeTrap p n 0x01 (r % 2 ^ 32))
    else if (bits r 0 4 == 5 || bits r 0 4 == 2 && bit r 40) && walkWaits g l lane (bits r 48 8) then .blocked n
    else
      let fn := currentFn s p root l.frames
      let deep := l.frames.length + 1 > depthMax g
      let push := fun (ch nxt : Nat) =>
        if deep then WalkStep.trap (nodeTrap p n 0x07 (l.frames.length + 1))
        else
          let x := pushFrame l log { node := n, child := ch, fn := fn }
          let log' := if bit r 4 then { x.2 with hits := x.2.hits ++ [(n, x.1.frames.length)] } else x.2
          .more { x.1 with pos := .enter nxt priv } log'
      let skip := WalkStep.more { l with pos := .advance priv } log
      match bits r 0 4 with
      | 1 => push 0 (bits r 8 16)
      | 2 =>
        let ch := if bit r 40 then (vregAt g lane (bits r 48 8)).toNat else if nodePred g lane r then 0 else 1
        if ch < bits r 24 16 then push ch (bits r 8 16 + ch) else skip
      | 3 => if bit r 40 || nodePred g lane r then push 0 (bits r 8 16) else skip
      | 4 => callNode s g p c l log n (bits r 8 16) r fn priv
      | 5 =>
        let tab := bits r 8 32
        let i := (vregAt g lane (bits r 48 8)).toNat
        match readFetch s p c (p.ctva + tab) 4 with
        | .error v => .trap (nodeExtent p n v)
        | .ok cnt =>
          if cnt = 0 ∨ cnt > 65535 ∨ tab + 4 + 2 * cnt > p.ctlen then .trap (nodeTrap p n 0x01 (r % 2 ^ 32))
          else if i ≥ cnt then .trap { code := 0x08, addr1 := 0, addr2 := none, info := i }
          else match readFetch s p c (p.ctva + tab + 4 + 2 * i) 2 with
            | .error v => .trap (nodeExtent p n v)
            | .ok f => callNode s g p c l log n f r fn priv
      | _ => .done { l with pos := .leaf n 0 } log

/-- The lane after its handler's frame is popped to the saved path (R233). -/
def leaveHandler (l : Lane) (sv : SavedPath) : Lane :=
  { l with frames := sv.frames, pos := sv.pos, saved := none, trec := [], held := none }

/-- The bytes of a leaf (R272), read when the lane entered it (R275). -/
def leafLen (s : State) (p : Program) (n : Nat) : Nat :=
  match nodeRec s p n with
  | .ok r => bits r 40 13
  | .error _ => 0

/-- The position after an instruction of a leaf: the next offset, or advance at the leaf's end (R275). -/
def afterInstr (s : State) (p : Program) (priv : Bool) (n off : Nat) : Pos :=
  if off ≥ leafLen s p n then .advance priv else .leaf n off

/-- SKIP of a saved path (R233, R277). -/
def skipPos (s : State) (p : Program) (sv : SavedPath) (priv : Bool) : Pos :=
  match sv.pos with
  | .leaf n _ => afterInstr s p priv n sv.after
  | _ => .advance priv

/-- One step of advance (R275). -/
def advanceStep (s : State) (g : Group) (p : Program) (c : Core) (now lane : Nat) (l : Lane) (log : WalkLog)
    (priv : Bool) : WalkStep :=
  match l.frames with
  | [] => .done { l with exited := true } log
  | f :: rest =>
    if f.node = 0xFFFF then
      match l.saved with
      | none => .done { l with exited := true } log
      | some sv =>
        let l' := leaveHandler l sv
        .more { l' with pos := skipPos s p sv priv } { logFill rest.length log with tret := true }
    else match nodeBar s c p f.node, nodeRec s p f.node with
      | some w, _ => w
      | none, .error v => .trap (nodeExtent p f.node v)
      | none, .ok r =>
        let leave :=
          let x := popFrame s p now l log
          WalkStep.more { x.1 with pos := .advance priv } x.2
        match bits r 0 4 with
        | 1 =>
          if f.child + 1 < bits r 24 16 then
            .more { l with frames := { f with child := f.child + 1 } :: rest,
                           pos := .enter (bits r 8 16 + f.child + 1) priv } log
          else leave
        | 3 =>
          if nodePred g lane r then
            .more { l with pos := .enter (bits r 8 16) priv }
              (if bit r 4 then { log with hits := log.hits ++ [(f.node, l.frames.length)] } else log)
          else leave
        | _ => leave

/-- The end of a walk: the lane stands, waits, or traps where it stood. -/
inductive Walked where
  | stands (l : Lane) (log : WalkLog)
  | trapped (l : Lane) (log : WalkLog) (t : Trap)
  deriving DecidableEq, Repr

/-- Walk a lane from enter or advance until it stands at an instruction, exits, waits for a record or traps (R275, R277,
R278); a walk longer than the bound goes on at the lane's next turn. -/
def walkLoop (s : State) (g : Group) (p : Program) (c : Core) (root now lane : Nat) : Nat → Lane → WalkLog → Walked
  | 0, l, log => .stands l log
  | n + 1, l, log =>
    if l.exited then .stands l log
    else
      let r := match l.pos with
        | .leaf .. => WalkStep.done l log
        | .enter nd priv => enterStep s g p c root lane l log nd priv
        | .advance priv => advanceStep s g p c now lane l log priv
      match r with
      | .more l' log' => walkLoop s g p c root now lane n l' log'
      | .done l' log' => .stands l' log'
      | .blocked _ => .stands l log
      | .trap t => .trapped l log t

/-- Steps a walk takes before it is continued later. -/
def walkBound : Nat := 400

/-- The cycle count of a core's layer (R45). -/
def cycOf (s : State) (core : Nat) : Nat := (layerAt s (layerOfCore core)).cyc.toNat

/-- The frames of a record: at most 24, outermost of them first, as 4-byte words (R230). -/
def recordFrames (fs : List Frame) : List Byte :=
  let l := (fs.take 24).reverse
  l.flatMap (fun f => toBytes 2 f.node ++ toBytes 2 f.child) ++ List.replicate (96 - 4 * l.length) 0

/-- A trap record (R230). -/
def trapRecord (s : State) (gh : Nat) (g : Group) (lane : Nat) (frames : List Frame) (off : Nat) (priv : Bool)
    (flags code : Nat) (t : Trap) : List Byte :=
  let core := match g.place with | .resident c _ _ _ => c | _ => 0
  let slot := match g.place with | .resident _ sl _ _ => sl | _ => 0
  toBytes 1 code ++ toBytes 1 (slotLane g lane % 64 + 64 * slot + 128 * flag priv) ++ toBytes 1 frames.length
    ++ toBytes 1 (flags + flag t.addr2.isSome) ++ toBytes 2 (funcOf s g) ++ toBytes 2 off ++ toBytes 2 gh
    ++ toBytes 2 core ++ toBytes 4 t.info ++ toBytes 8 t.addr1 ++ toBytes 8 (t.addr2.getD 0)
    ++ recordFrames frames

/-- An ERROR record in a ring (R244). -/
def errorRecord (s : State) (unit : Nat) (record : List Byte) : State :=
  traceRecord s unit 2 unit (List.replicate 16 0 ++ record)

/-- The ring of a group's layer. -/
def layerRing (g : Group) : Nat := match coreOf g with | some c => layerOfCore c | none => 0

/-- End a group (R234): its lanes exit, its waits and held stores are discarded, and an ERROR record names the lane; an access
already issued is still performed. -/
def killGroup (s : State) (gh : Nat) (lane : Nat) (frames : List Frame) (off : Nat) (priv : Bool) (code : Nat)
    (t : Trap) : State :=
  match mfind s.groups gh with
  | none => s
  | some g =>
    let s1 := errorRecord s (layerRing g) (trapRecord s gh g lane frames off priv 4 code t)
    setGroup s1 gh { g with lanes := g.lanes.map (fun l => { l with exited := true, waiting := false, pendTrap := [], pos := killedPos l.pos }),
                            waits := [], held := [], ck := none, halted := false, halting := false }

/-- Invalidate a lane's latches (R172). -/
def dropLatches (g : Group) (lane : Nat) : Group :=
  { g with latches := (upFrom 4 (4 * lane)).foldl (fun m k => sset none m k none) g.latches }

/-- Take a lane out of the group's waits (R362). -/
def leaveWaits (g : Group) (lane : Nat) : Group :=
  { g with waits := g.waits.map fun w =>
      { w with lanes := w.lanes.filter (· ≠ lane), who := w.who.filter (· ≠ lane) } }

/-- A request of the lane for its spill area (R281). -/
def frameReq (s : State) (gh : Nat) (g : Group) (lane : Nat) (priv : Bool) (p : Nat × Option Frame) : BankReq :=
  { ticket := s.ticket, gh := gh, lane := lane, target := gh,
    off := spadLimit g + 64 * bits g.pitw.toNat 21 3 * lane + 8 * p.1, size := 8, skip := 0,
    op := match p.2 with
      | some f => .frame (toBytes 2 f.node ++ toBytes 2 f.child ++ toBytes 2 f.fn ++ [0, 0])
      | none => .frame [],
    ord := .weak,
    dst := { ds := false, nw := true, reg := 0, regs := 0, size := 8, sx := false, priv := priv, lr := false },
    latch := 4 }

/-- The bank of a scratchpad offset (R175). -/
def bankOf (off : Nat) : Nat := bits off 5 6

/-- The requests of a bank's queue. -/
def bankQueue (c : Core) (b : Nat) : List (List BankReq) := sget [] c.banks b

/-- The bank of a merged request. -/
def bankOfReq : List BankReq → Nat
  | [] => 0
  | r :: _ => bankOf r.off

/-- Put a request at its bank, or at the port while the queue is full or others wait there for the bank (R175). -/
def enqueue (c : Core) (r : List BankReq) : Core :=
  let b := bankOfReq r
  if (bankQueue c b).length < 8 && c.port.all (fun x => bankOfReq x ≠ b) then
    { c with banks := sset [] c.banks b (bankQueue c b ++ [r]) }
  else { c with port := c.port ++ [r] }

/-- Requests at the port enter the queues that have room, in their order (R175). -/
def feedPort (c : Core) : Core := c.port.foldl enqueue { c with port := [] }

/-- Issue a request to the core that holds its target, counting it for the group, or for the lane that issues privately
(R175, R177). -/
def issueReq (s : State) (r : List BankReq) : State :=
  match r with
  | [] => s
  | q :: _ =>
    match mfind s.groups q.gh, (mfind s.groups q.target).bind coreOf with
    | some g, some c =>
      let g' := if q.dst.priv then
          let l := laneAt g q.lane
          setLane g q.lane { l with own := l.own + 1 }
        else { g with counter := g.counter + 1 }
      setCore (setGroup s q.gh g') c (enqueue (coreAt s c) r)
    | _, _ => s

/-- Set a lane down after a walk, with its frame requests and the end of a handler (R172, R281). -/
def settleLane (s : State) (gh lane : Nat) (l : Lane) (log : WalkLog) (priv : Bool) : State :=
  match mfind s.groups gh with
  | none => s
  | some g =>
    let g1 := setLane g lane l
    let g2 := if log.tret then dropLatches g1 lane else g1
    (log.frames.map fun f => [frameReq s gh g lane priv f]).foldl issueReq (setGroup s gh g2)

/-- Run a lane's walk and set it down; a trap inside enter diverts it (R277), and its handler's root is walked in turn. -/
def moveLane (s : State) (gh lane : Nat) (l : Lane) (log : WalkLog) (priv : Bool)
    (onTrap : State → Lane → Trap → State) : State × List (Nat × Nat) :=
  match mfind s.groups gh with
  | none => (s, [])
  | some g =>
    match progOf s g, coreOf g with
    | some p, some c =>
      match walkLoop s g p (coreAt s c) (funcOf s g) (cycOf s c) lane walkBound l log with
      | .stands l' log' => (settleLane s gh lane l' log' priv, log'.hits)
      | .trapped l' log' t => (onTrap (settleLane s gh lane l' log' priv) l' t, log'.hits)
    | _, _ => (s, [])

/-- Take a lane trap (R228 to R234, R280): the record goes to TREC, the latches become invalid, a trap frame is pushed and
the lane starts at the handler's root; without a usable handler the group is killed. A fetch of the handler's entry that
fails is a trap of a lane in a handler (R153, R234). -/
def takeTrap (s : State) (gh lane : Nat) (x : HeldTrap) : State :=
  match mfind s.groups gh with
  | none => s
  | some g =>
    let l := laneAt g lane
    let sv := x.place
    let t := x.trap
    let off := match sv.pos with | .leaf _ o => o | _ => 0
    match progOf s g with
    | none => s
    | some p =>
      let h := bits g.traptree.toNat 0 16
      let e := funcEntry s p h
      if !liveLane l then s
      else if l.saved.isSome then killGroup s gh lane sv.frames off x.priv 0x23 { t with info := t.code }
      else if !bit g.traptree.toNat 31 || h ≥ p.nfunc then
        killGroup s gh lane sv.frames off x.priv 0x22 { t with info := t.code }
      else match coreOf g with
      | none => s
      | some k => match fetchSpan s p (coreAt s k) (funcVa p h) 4 with
      | .error v =>
        killGroup s gh lane sv.frames off x.priv 0x23 { code := 0x03, addr1 := funcVa p h, addr2 := some v, info := 0x03 }
      | .ok _ =>
      if sv.frames.length + 1 + e.2 > depthMax g then
        killGroup s gh lane sv.frames off x.priv 0x23 { t with info := 0x07 }
      else
        let rec_ := trapRecord s gh g lane sv.frames off x.priv 0 t.code t
        let trec := (upFrom 16 0).map fun i => BitVec.ofNat 64 (ofBytes ((rec_.drop (8 * i)).take 8))
        let l0 : Lane := { l with saved := some sv, trec := trec, held := none, waiting := false, frames := sv.frames }
        let y := pushFrame l0 WalkLog.none { node := 0xFFFF, child := h, fn := 0xFFFF }
        let s1 := setGroup s gh (leaveWaits (dropLatches g lane) lane)
        (moveLane s1 gh lane { y.1 with pos := .enter e.1 x.priv } y.2 x.priv fun s2 l2 t2 =>
          killGroup s2 gh lane l2.frames 0 x.priv 0x23 { t2 with info := t2.code }).1

/-- A group has something for the end of its cycle. -/
def endsCycle (g : Group) : Bool :=
  g.halting || !g.halted && g.lanes.any (fun l => !l.pendTrap.isEmpty) || !g.attribs.isEmpty || g.yielding || !g.csrNext.isEmpty

/-- Take the traps that a lane has pending, in their order (R236). -/
def takeLane (s : State) (gh lane : Nat) : State :=
  match mfind s.groups gh with
  | none => s
  | some g =>
    (laneAt g lane).pendTrap.foldl (fun st x => takeTrap st gh lane x)
      (setGroup s gh (setLane g lane { laneAt g lane with pendTrap := [] }))

/-- Take a group's pending traps, lowest lane first (R236). -/
def takePending (s : State) (gh : Nat) : State :=
  match mfind s.groups gh with
  | none => s
  | some g => (upFrom g.lanes.length 0).foldl (fun st i => takeLane st gh i) s

/-- A trap that a lane's outstanding access or matrix entry raises after the lane has gone on (R153, R228): its lane is
diverted from the place of that instruction, even where its root has finished meanwhile. -/
def divertLate (s : State) (gh lane : Nat) (t : Trap) (place : SavedPath) : State :=
  match mfind s.groups gh with
  | none => s
  | some g =>
    let l := laneAt g lane
    if liveLane l then divert s gh lane t place false
    else if endedLane l then divert (setGroup s gh (setLane g lane { l with exited := false })) gh lane t place false
    else s

/-- Divert a lane that trapped inside a walk: nothing is saved for SKIPV (R277, R323). -/
def divertWalk (gh lane : Nat) (priv : Bool) (s : State) (l : Lane) (t : Trap) : State :=
  divert s gh lane t { frames := l.frames, pos := l.pos, after := 0, dst := .nothing } priv

/-- Walk a lane and set it down, trapping as R277 gives. -/
def walkLane (s : State) (gh lane : Nat) (l : Lane) (log : WalkLog) (priv : Bool) : State × List (Nat × Nat) :=
  moveLane s gh lane l log priv (divertWalk gh lane priv)

/-- Another live lane of the group stands below a frame of the node a hold names (R170). -/
def holdStands (g : Group) (lane : Nat) (h : Hold) : Bool :=
  (List.zip (upFrom g.lanes.length 0) g.lanes).any fun q =>
    q.1 ≠ lane && liveLane q.2 &&
      match q.2.frames.drop (q.2.frames.length - (h.above.length + 1)) with
      | f :: r => q.2.frames.length ≥ h.above.length + 1 && f.node == h.node && r == h.above
      | [] => false

/-- The lanes from position i on, without the holds that no other lane of the group keeps standing (R170). -/
def releaseFrom (g : Group) : Nat → List Lane → List Lane
  | _, [] => []
  | i, l :: r =>
    (match l.held with
      | some h => if holdStands g i h then l else { l with held := none }
      | none => l) :: releaseFrom g (i + 1) r

/-- Release the holds that no lane keeps standing (R170). -/
def settleHolds (s : State) (gh : Nat) : State :=
  match mfind s.groups gh with
  | none => s
  | some g => setGroup s gh { g with lanes := releaseFrom g 0 g.lanes }

end Sys2Proof.Machine
end

