-- ==== Sys2Proof/Machine/Home.lean ====
section
/-! DEFINITION. Shared operations on results, homes and waits: register and scratchpad writes with their checkpoint copies (R180),
stores at their homes with pushes (R189 to R191), outstanding accesses (R214, R361, R365, R367), held-store commits and
checkpoints (R180 to R183), and the completion of waits (R195, R204 to R206, R369, R370, R378, R396, R398, R407). -/

namespace Sys2Proof.Machine

/-- Change the checkpoint's copies, where one is in force. -/
def onCk (g : Group) (both : Bool) (f : Checkpoint → Checkpoint) : Group :=
  if both then { g with ck := g.ck.map f } else g

/-- A result of an access issued before the checkpoint is part of what a rollback restores (R183). -/
def beforeCk (g : Group) (ticket : Nat) : Bool :=
  match g.ck with
  | some c => ticket < c.ticket
  | none => false

/-- Write one vector register of a lane. -/
def setV (g : Group) (both : Bool) (lane r : Nat) (w : Word) : Group :=
  onCk { g with vregs := sset 0 g.vregs (256 * lane + r) w } both fun c =>
    { c with vregs := sset 0 c.vregs (256 * lane + r) w }

/-- Write one scalar register. -/
def setS (g : Group) (both : Bool) (r : Nat) (w : Word) : Group :=
  onCk { g with sregs := sset 0 g.sregs r w } both fun c => { c with sregs := sset 0 c.sregs r w }

/-- Write a predicate of a lane. -/
def setK (g : Group) (lane k : Nat) (b : Bool) : Group :=
  let old := (sget 0 g.preds lane).toNat
  let new := old - flag (bit old k) * 2 ^ k + flag b * 2 ^ k
  { g with preds := sset 0 g.preds lane (BitVec.ofNat 16 new) }

/-- Write n registers from r, low word first (R304). -/
def setVs (g : Group) (both : Bool) (lane r : Nat) : Nat → Nat → Group
  | 0, _ => g
  | n + 1, v => setVs (setV g both lane r (BitVec.ofNat 32 v)) both lane (r + 1) n (v / 2 ^ 32)

/-- Write n scalar registers from r. -/
def setSs (g : Group) (both : Bool) (r : Nat) : Nat → Nat → Group
  | 0, _ => g
  | n + 1, v => setSs (setS g both r (BitVec.ofNat 32 v)) both (r + 1) n (v / 2 ^ 32)

/-- Write a lane's latch and mark it valid (R172); it holds the low 64 bits (R304). -/
def setLatch (g : Group) (lane b v : Nat) : Group :=
  { g with latches := sset none g.latches (4 * lane + b) (some (BitVec.ofNat 64 v)) }

/-- Write a result of n registers into a lane: its vector registers, unless suppressed or scalar, and its latch (R172,
R300). -/
def putLane (h : Head) (n : Nat) (latch : Option Nat) (g : Group) (p : Nat × Nat) : Group :=
  let g1 := if h.nw || h.ds then g else setVs g false p.1 h.dreg.toNat n p.2
  match latch with
  | some b => setLatch g1 p.1 b p.2
  | none => g1

/-- Write the results of an issue, given in lane order: under DS = 1 the scalar registers take the first (R300). -/
def putResults (g : Group) (h : Head) (n : Nat) (latch : Option Nat) (vals : List (Nat × Nat)) : Group :=
  let g1 := match vals with
    | (_, v) :: _ => if h.ds && !h.nw then setSs g false h.dreg.toNat n v else g
    | [] => g
  vals.foldl (putLane h n latch) g1

/-- Write predicates, unless suppressed. -/
def putPreds (g : Group) (h : Head) (vals : List (Nat × Nat)) : Group :=
  if h.nw then g else vals.foldl (fun g p => setK g p.1 h.dreg.toNat (p.2 % 2 == 1)) g

/-- Write scratchpad bytes of a group (R180: into both copies where `both` says so). -/
def putSpad (g : Group) (both : Bool) (off : Nat) (bytes : List Byte) : Group :=
  onCk { g with spad := ssets 0 g.spad off bytes } both fun c => { c with spad := ssets 0 c.spad off bytes }

/-- Scratchpad bytes of a group. -/
def spadBytes (g : Group) (off n : Nat) : List Byte := sgets 0 g.spad off n

/-- A number in a group's scratchpad. -/
def spadNum (g : Group) (off n : Nat) : Nat := ofBytes (spadBytes g off n)

/-- The value an atomic writes, or none where it writes nothing (R366, R367). -/
def atomNew (aop : Aop) (t : Fmt) (old b c : Nat) : Option Nat :=
  let w := fmtBits t
  match aop with
  | .swap => some b
  | .cas => if old = c then some b else none
  | .add => some ((old + b) % 2 ^ w)
  | .min => some (if intOf t old < intOf t b then old else b)
  | .max => some (if intOf t old > intOf t b then old else b)
  | .and => some (Nat.land old b)
  | .or => some (Nat.lor old b)
  | .xor => some (Nat.xor old b)
  | .fadd =>
    some (if fpIsNaN .f32 b then genNaN .f32 2 1
      else if fpIsNaN .f32 old then genNaN .f32 3 1
      else fAdd .f32 old b)

/-- Extend a load's bytes to the registers it writes (R364). -/
def loadValue (d : LoadDst) (n : Nat) : Nat :=
  if d.size ≤ 2 && d.sx then wrap 32 (signed (8 * d.size) n) else n

/-- Write the value of a completed load or atomic (R172, R300, R364); under LR = 1 the live region of the lane's latches
ends after it (R297). -/
def putLoad (g : Group) (both : Bool) (lane : Nat) (d : LoadDst) (latch v : Nat) : Group :=
  let g1 := if d.nw then g
    else if d.ds then setSs g both d.reg d.regs v
    else setVs g both lane d.reg d.regs v
  let g2 := if latch < 4 then setLatch g1 lane latch v else g1
  if d.lr then dropLatches g2 lane else g2

/-- Two runs of physical bytes overlap. -/
def pasOverlap (a b : List (Nat × Nat)) : Bool := a.any fun x => b.any fun y => x.1 == y.1

/-- An ordering kind that acquires. -/
def isAcq (o : Ord) : Bool := match o with | .acq | .ar => true | _ => false

/-- An ordering kind that releases. -/
def isRel (o : Ord) : Bool := match o with | .rel | .ar => true | _ => false

/-- An access comes before another one of the same lane or issue and must be performed first: same-lane overlap (R214), an
unperformed acquire, or a later release (R361); lanes of one issue in increasing order (R362); and a scalar destination
takes the lowest lane first (R300). -/
def mustPrecede (sameGroup : Bool) (e a : Access) (lower : Bool) : Bool :=
  if sameGroup && e.lane == a.lane && e.ticket < a.ticket then
    pasOverlap e.pas a.pas || isAcq e.ord || isRel a.ord
  else if e.ticket = a.ticket && lower then
    (pasOverlap e.pas a.pas && (e.op != .load || a.op != .load)) || (sameGroup && a.dst.ds && !a.dst.nw)
  else false

/-- An outstanding access may be performed now. -/
def mayPerform (s : State) (gh : Nat) (g : Group) (a : Access) : Bool :=
  s.groups.all fun p =>
    p.2.pend.all fun e =>
      !mustPrecede (p.1 == gh) e a (slotLane p.2 e.lane < slotLane g a.lane)

/-- After a lane's value of an issue into a scalar register is written, the issue's other lanes write only latches
(R300). -/
def scalarTaken (g : Group) (a : Access) : Group :=
  if a.dst.ds && !a.dst.nw then
    { g with pend := g.pend.map fun e => if e.ticket = a.ticket then { e with dst := { e.dst with nw := true } } else e }
  else g

/-- The first byte of an access whose key has been erased (R153): a byte that the group holds reaches no home (R181). -/
def erasedAt (s : State) (va : Nat) : List ((Nat × Nat) × Option Byte) → Option Nat
  | [] => none
  | p :: r => if p.2.isSome || keyLive s p.1.2 then erasedAt s (va + 1) r else some va

/-- Bytes that all go to their homes. -/
def homeward (pas : List (Nat × Nat)) : List ((Nat × Nat) × Option Byte) := pas.map fun p => (p, none)

/-- The kinds an access asks, as INFO (R228). -/
def accInfo : AccOp → Nat
  | .load => 1
  | .store => 2
  | .atom .. => 4

/-- The bytes a load returns: held bytes in place of memory (R181). -/
def accBytes (s : State) (a : Access) : List Byte :=
  (List.zip a.pas a.held).map fun p => match p.2 with
    | some b => b
    | none => readAs s (keyView s p.1.2) p.1.1

/-- Some byte that the access takes from memory is marked uncorrectable (R228). -/
def accPoisoned (s : State) (a : Access) : Bool :=
  (List.zip a.pas a.held).any fun p => p.2.isNone && poisoned s p.1.1

/-- A trap of an access, taken by its lane (R153, R365). -/
def accTrap (s : State) (gh : Nat) (a : Access) (t : Trap) : State := divertLate s gh a.lane t a.place

/-- Perform one outstanding access of a group (R365, R367). -/
def performAccess (s : State) (gh idx : Nat) : State :=
  match mfind s.groups gh with
  | none => s
  | some g =>
    match g.pend[idx]? with
    | none => s
    | some a =>
      let s0 := setGroup s gh { g with pend := dropNth g.pend idx }
      match erasedAt s a.va (List.zip a.pas a.held) with
      | some va => accTrap s0 gh a { code := 0x03, addr1 := va, addr2 := none, info := accInfo a.op }
      | none =>
        if a.op != .store && accPoisoned s a then
          accTrap s0 gh a { code := 0x09, addr1 := a.va, addr2 := none, info := 0 }
        else
          let both := beforeCk g a.ticket
          let write := fun (st : State) (v : Nat) => match mfind st.groups gh with
            | none => st
            | some g1 => setGroup st gh (putLoad (scalarTaken g1 a) both a.lane a.dst 2 v)
          match a.op with
          | .load => write s0 (loadValue a.dst (ofBytes (accBytes s a)))
          | .store => storeBytes s0 ((List.zip a.pas a.data).map fun p => (p.1.1, p.1.2, p.2)) (isRel a.ord)
          | .atom aop t b c =>
            let old := ofBytes (accBytes s a)
            let s1 := match atomNew aop t old b c with
              | some w => storeBytes s0 ((List.zip a.pas (toBytes a.pas.length w)).map fun p => (p.1.1, p.1.2, p.2))
                  (isRel a.ord)
              | none => s0
            write s1 old

/-- Perform every outstanding access of a group, oldest first. -/
def performAll (gh : Nat) : Nat → State → State
  | 0, s => s
  | n + 1, s => performAll gh n (performAccess s gh 0)

/-- The number of a group's outstanding accesses. -/
def pendCount (s : State) (gh : Nat) : Nat := match mfind s.groups gh with | some g => g.pend.length | none => 0

/-- Held bytes whose key has been erased are not written at a commit; an error record names the first (R153). -/
def refuseHeld (s : State) (gh : Nat) (g : Group) (l : List (Nat × HeldByte)) : State :=
  match l.find? fun p => !keyLive s p.2.key with
  | none => s
  | some p =>
    let t : Trap := { code := 0x03, addr1 := p.2.va, addr2 := none, info := 2 }
    let ln := laneAt g p.2.lane
    let off := match ln.pos with | .leaf _ o => o | _ => 0
    errorRecord s (layerRing g) (trapRecord s gh g p.2.lane ln.frames off false 0 0x03 t)

/-- Commit a group's held stores (R182): its earlier accesses are performed, then every held byte as a relaxed store. -/
def commitHeld (s : State) (gh : Nat) : State :=
  let s1 := performAll gh (pendCount s gh) s
  match mfind s1.groups gh with
  | none => s1
  | some g =>
    if g.held = [] then s1
    else
      let s2 := setGroup s1 gh { g with held := [] }
      let s3 := refuseHeld s2 gh g g.held
      storeBytes s3 ((g.held.filter fun p => keyLive s1 p.2.key).map fun p => (p.1, p.2.key, p.2.val)) false

/-- A commit of the group would meet memory that a relock stalls (R22). -/
def commitStalls (s : State) (g : Group) : Bool :=
  homesStall s (g.held.map fun p => (p.1, p.2.key)) || g.pend.any fun a => homesStall s a.pas

/-- What may commit held stores waits while a commit would stall (R22, R180). -/
def commitWaits (s : State) (g : Group) : Bool := bit g.pitw.toNat 24 && commitStalls s g

/-- Record a checkpoint at a group's present state (R180): accesses from the given ticket on come after it. -/
def recordCk (s : State) (gh node depth ticket : Nat) : State :=
  match mfind s.groups gh with
  | none => s
  | some g =>
    let c : Checkpoint :=
      { ticket := ticket, node := node, depth := depth, lanes := g.lanes, preds := g.preds, sregs := g.sregs,
        vregs := g.vregs, tiles := g.tiles, spad := g.spad, pitw := g.pitw }
    setGroup s gh { g with ck := some c }

/-- Take a checkpoint (R180): commit, then record. -/
def takeCk (s : State) (gh node depth ticket : Nat) : State := recordCk (commitHeld s gh) gh node depth ticket

/-- The commit and new checkpoint forced before certain instructions (R182). -/
def forceCommit (s : State) (gh : Nat) : State :=
  match mfind s.groups gh with
  | none => s
  | some g => match g.ck with
    | none => s
    | some c => takeCk s gh c.node c.depth s.ticket

/-- Commit without a new checkpoint, ending the one in force (R182). -/
def endCk (s : State) (gh : Nat) : State :=
  let s1 := commitHeld s gh
  match mfind s1.groups gh with
  | none => s1
  | some g => setGroup s1 gh { g with ck := none }

/-- A lane stands inside the node of a checkpoint. -/
def insideCk (c : Checkpoint) (l : Lane) : Bool :=
  !l.exited && l.frames.length ≥ c.depth &&
    (match l.frames.drop (l.frames.length - c.depth) with | f :: _ => f.node == c.node | [] => false)

/-- The checkpoint work of a broadcast move (R180, R182): the interval ends when the moved lanes have all left the node, and
a checkpointed node entered or iterated takes a new checkpoint where PITW.CK is 1. A move that enters several takes that of
the last, the innermost. -/
def afterMove (s : State) (gh : Nat) (lanes : List Nat) (wasIn : Bool) (hits : List (Nat × Nat)) : State :=
  match mfind s.groups gh with
  | none => s
  | some g =>
    let left := match g.ck with
      | some c => wasIn && !(lanes.any fun i => insideCk c (laneAt g i))
      | none => false
    let s1 := if left then endCk s gh else s
    match hits.eraseDups.getLast? with
    | none => s1
    | some (n, d) => if bit g.pitw.toNat 24 then takeCk s1 gh n d (s1.ticket + 1) else s1

/-- Some of the lanes stand inside the checkpointed node. -/
def anyInside (g : Group) (lanes : List Nat) : Bool :=
  match g.ck with
  | some c => lanes.any fun i => insideCk c (laneAt g i)
  | none => false

/-- A lane's walk stands within a private issue (R278). -/
def inPriv (s : State) (gh i : Nat) : Bool :=
  match mfind s.groups gh with
  | some g => match (laneAt g i).pos with
    | .enter _ p => p
    | .advance p => p
    | _ => false
  | none => false

/-- Continue the walks of a group's lanes that waited for a record or a register (R276, R278). -/
def resumeWalks (s : State) (gh : Nat) : State :=
  match mfind s.groups gh with
  | none => s
  | some g =>
    let todo := (upFrom g.lanes.length 0).filter fun i =>
      let l := laneAt g i
      liveLane l && !l.waiting && l.own == 0 && l.pendTrap.isEmpty && (match l.pos with | .leaf .. => false | _ => true)
    if todo.isEmpty || g.halted || commitWaits s g then s
    else
      let wasIn := anyInside g (todo.filter fun i => !inPriv s gh i)
      let r := todo.foldl (fun (acc : State × List (Nat × Nat)) i =>
        match mfind acc.1.groups gh with
        | none => acc
        | some g1 =>
          let p := inPriv acc.1 gh i
          let w := walkLane acc.1 gh i (laneAt g1 i) WalkLog.none p
          (w.1, if p then acc.2 else acc.2 ++ w.2)) (s, [])
      afterMove r.1 gh (todo.filter fun i => !inPriv s gh i) wasIn r.2

/-- Move a lane on past an instruction of the given length at its leaf (R275). -/
def passInstr (s : State) (gh lane len : Nat) (priv : Bool) : State × List (Nat × Nat) :=
  match mfind s.groups gh with
  | none => (s, [])
  | some g =>
    let l := laneAt g lane
    if !liveLane l then (s, [])
    else match l.pos, progOf s g with
    | .leaf n o, some p =>
      let l' := { l with pos := afterInstr s p priv n (o + len), waiting := false }
      walkLane s gh lane l' WalkLog.none priv
    | _, _ => (s, [])

/-- Move several lanes on, with the checkpoint work of the move. -/
def passLanes (s : State) (gh len : Nat) (priv : Bool) (lanes : List Nat) : State :=
  let wasIn := match mfind s.groups gh with | some g => !priv && anyInside g lanes | none => false
  let r := lanes.foldl (fun (acc : State × List (Nat × Nat)) i =>
    let w := passInstr acc.1 gh i len priv
    (w.1, acc.2 ++ w.2)) (s, [])
  if priv then r.1 else afterMove r.1 gh lanes wasIn r.2

/-- End the latches' live region in the lanes of an instruction with LR = 1 (R172, R297). -/
def endLive (c : Ctl) (lanes : List Nat) (g : Group) : Group :=
  if c.k9 && bit c.sc.toNat 2 then lanes.foldl dropLatches g else g

/-- LR of an instruction: the latches' live region ends when it completes (R172, R297). -/
def lrBit (c : Ctl) : Bool := c.k9 && bit c.sc.toNat 2

/-- The Y bit of an instruction (R296, R297). -/
def yieldBit (c : Ctl) : Bool := bit c.sc.toNat 3

/-- The Y-independent priority hint (R296, R297). -/
def prioOf (c : Ctl) : Nat := if c.k9 then bits c.sc.toNat 0 2 else 0

/-- Remove one occurrence. -/
def eraseOne (x : Nat) : List Nat → List Nat
  | [] => []
  | y :: r => if y = x then r else y :: eraseOne x r

/-- Free the home entries that a wait armed (R206). -/
def freeArms (s : State) (gh ticket : Nat) : State :=
  { s with subs := s.subs.filter fun x => !(x.armed && x.gh == gh && x.slot == ticket) }

/-- A slot leaves its group's list (R196, R198). -/
def unlist (s : State) (gh slot : Nat) : State :=
  onGroup { s with notices := s.notices.filter fun n => !(n.1 == gh && n.2 == slot) } gh fun g =>
    { g with subs := g.subs.filter fun x => x.slot ≠ slot }

/-- Keep the first values that differ of the waits on scratchpad words (R206). -/
def lookSpad (s : State) (w : Wait) : Wait :=
  match w.what with
  | .spad l => { w with what := .spad (l.map fun x =>
      match mfind s.groups x.target with
      | none => x
      | some t =>
        let v := spadNum t x.off 8
        if x.got.isNone && v ≠ x.want then { x with got := some v } else x) }
  | _ => w

/-- After a write to scratchpad every resident wait on scratchpad words looks at them (R206). -/
def watchSpad (s : State) : State :=
  (s.groups.filter fun p => (coreOf p.2).isSome && p.2.waits.any isSpadWait).foldl (fun st p =>
    onGroup st p.1 fun g => { g with waits := g.waits.map (lookSpad st) }) s

/-- Every lane request at the banks and ports. -/
def bankReqs (s : State) : List BankReq := s.cores.flatMap fun c => (c.2.banks.flatMap fun b => b.2.flatten) ++ c.2.port.flatten

/-- A request that gives its lane a value, or that combines one with its word: the loads and atomics of scratchpad. -/
def isLoadReq (r : BankReq) : Bool :=
  match r.op with
  | .load | .atom .. | .slrd | .swadd _ | .qnt .. => true
  | _ => false

/-- The tiles that a matrix entry reads or writes (R174, R398). -/
def entryTiles (e : MatEntry) : List Nat :=
  (match e.tile, e.op with
    | some t, .accz n => upFrom n t
    | some t, _ => [t]
    | none, _ => []) ++
  match e.op with
  | .had _ t | .scaccVec t .. | .scaccUni t .. | .accstSpad t _ | .accstDev t _ => [t]
  | _ => []

/-- A wait's values, where its condition holds in every lane that takes part; the number is that of registers, then the
latch. -/
def waitDone (s : State) (gh : Nat) (g : Group) (w : Wait) : Option (Nat × Option Nat × List (Nat × Nat)) :=
  let inWho := fun (l : Nat) => w.who.contains l
  match w.what with
  | .slot l =>
    let live := fun off => g.subs.any fun x => x.slot == off
    let l' := l.filter fun p => inWho p.1
    if l'.all fun p => spadNum g (p.2.1 + 8) 4 ≠ p.2.2 || !live p.2.1 then
      some (2, some 2, l'.map fun p => (p.1, spadNum g (p.2.1 + 8) 4 + 2 ^ 32 * flag (live p.2.1)))
    else none
  | .sync l =>
    let l' := l.filter fun p => inWho p.1
    let gen := fun (t off : Nat) => match mfind s.groups t with | some x => spadNum x (off + 8) 4 | none => 0
    if l'.all fun p => (gen p.2.1 p.2.2.1 + 2 ^ 32 - p.2.2.2) % 2 ^ 32 < 2 ^ 31 then
      some (1, some 2, l'.map fun p => (p.1, gen p.2.1 p.2.2.1))
    else none
  | .spad l =>
    let l' := l.filter fun p => inWho p.lane
    if l'.all fun p => p.got.isSome then some (2, some 2, l'.map fun p => (p.lane, p.got.getD 0)) else none
  | .word l =>
    let l' := l.filter fun p => inWho p.lane
    if l'.all fun p => p.got.isSome then some (2, some 2, l'.map fun p => (p.lane, p.got.getD 0)) else none
  | .counter _ _ _ _ zero => if zero || w.who.isEmpty then some (0, none, []) else none
  | .fence ld st m =>
    if g.pend.all (fun a => !(w.lanes.contains a.lane && a.ticket < w.ticket && (if a.op == .load then ld else st))) &&
        (!m || s.cores.all fun c => c.2.mq.all fun e => !(e.gh == gh && e.ticket < w.ticket)) then
      some (0, none, [])
    else none
  | .drain pushes =>
    if pushes.isEmpty && g.pend.all (fun a => a.op == .store || !(a.ticket < w.ticket)) &&
        g.waits.all (fun x => !(x.ticket < w.ticket && match x.what with | .subs .. => true | _ => false)) &&
        (bankReqs s).all (fun r => !(r.gh == gh && r.ticket < w.ticket && isLoadReq r)) &&
        s.cores.all fun c => c.2.mq.all fun e => !(e.gh == gh && e.ticket < w.ticket) then
      some (0, none, [])
    else none
  | .subs slots st _ => if slots.isEmpty then some (1, some 0, st.filter fun p => inWho p.1) else none
  | .grow .. => none
  | .shrink accn v =>
    let busy := if accn then
        s.cores.any fun c => c.2.mq.any fun e => e.gh == gh &&
          ((entryTiles e).any (4 * v ≤ ·) || e.ticket < w.ticket)
      else g.pend.any (fun a => a.op != .store && !a.dst.ds && !a.dst.nw && a.dst.reg + a.dst.regs > 8 * (v + 1))
        || g.vbusy.any (fun b => b.1 % 256 ≥ 8 * (v + 1))
        || (bankReqs s).any fun r => r.gh == gh && !r.dst.ds && !r.dst.nw && decide (r.dst.reg + r.dst.regs > 8 * (v + 1))
    if busy then none else some (0, none, w.who.map fun i => (i, 1))

/-- PITW with VN or ACCN replaced (R398). -/
def pitwWith (pitw : Nat) (accn : Bool) (v : Nat) : Nat :=
  if accn then pitw - bits pitw 8 5 * 256 + v * 256 else pitw - bits pitw 0 5 + v

/-- Remove the registers or tiles that a new PITW no longer names (R398). -/
def trimTo (g : Group) (pitw : Word) : Group :=
  let nv := 8 * (bits pitw.toNat 0 5 + 1)
  let nt := 4 * bits pitw.toNat 8 5
  { g with pitw := pitw, vregs := g.vregs.filter (fun p => p.1 % 256 < nv),
           tiles := g.tiles.filter (fun p => p.1 / 1024 < nt) }

/-- Complete a wait: its results are written, and its lanes go on (R195, R204, R205, R378). -/
def endWait (s : State) (gh : Nat) (g : Group) (w : Wait) (r : Nat × Option Nat × List (Nat × Nat)) : State :=
  let g1 := { g with waits := g.waits.filter (fun x => x.ticket ≠ w.ticket) }
  let g2 := match w.what with
    | .subs _ _ ends => putResults { g1 with subs := g1.subs.filter fun x => !ends.contains x.slot } w.head r.1 r.2.1 r.2.2
    | .shrink accn v => putPreds (trimTo g1 (BitVec.ofNat 32 (pitwWith g.pitw.toNat accn v))) w.head r.2.2
    | .grow .. => putPreds g1 w.head r.2.2
    | _ => if r.1 = 0 then g1 else putResults g1 w.head r.1 r.2.1 r.2.2
  let g3 := endLive w.head.ctl w.lanes g2
  let s1 := freeArms (setGroup s gh g3) gh w.ticket
  passLanes s1 gh w.len false w.lanes

/-- Re-check a resident group's waits, and complete those whose condition holds; the lanes of a halted group, or of one whose
layer relocks (R22), stay. -/
def wakeGroup (s : State) (gh : Nat) : State :=
  match mfind s.groups gh with
  | none => s
  | some g =>
    if (coreOf g).isNone then s
    else
      let s0 := setGroup s gh { g with waits := g.waits.map (lookSpad s) }
      if g.halted || stalled s g || commitWaits s g then s0
      else g.waits.foldl (fun st w =>
        match mfind st.groups gh with
        | none => st
        | some g1 =>
          match g1.waits.find? fun x => x.ticket == w.ticket with
          | none => st
          | some w1 => match waitDone st gh g1 w1 with
            | some r => endWait st gh g1 w1 r
            | none => st) s0

/-- Re-check every wait. -/
def wake (s : State) : State :=
  (s.groups.filter fun p => p.2.waits ≠ []).foldl (fun st p => wakeGroup st p.1) s

/-- Begin a wait in lanes of a group. -/
def beginWait (s : State) (gh : Nat) (w : Wait) : State :=
  match mfind s.groups gh with
  | none => s
  | some g =>
    let g1 := w.lanes.foldl (fun g i => setLane g i { laneAt g i with waiting := true }) g
    setGroup s gh { g1 with waits := g1.waits ++ [w] }

/-- Entries of a home's subscription table in use (R186). -/
def tableUse (s : State) (pa : Nat) : Nat := (s.subs.filter fun x => homeOf x.pa == homeOf pa).length

/-- Entries of a home's subscription table (R186). -/
def tableSize : Nat := 32768

/-- Land a push in its slot as one bank operation (R188, R192); a checkpoint's copy takes it too. -/
def landPush (g : Group) (slot : Nat) (p : Push) : Group :=
  let old := spadNum g slot 16
  let pseq := if p.first then p.count % 2 ^ 32 else (bits old 64 32 + p.count) % 2 ^ 32
  let ovr := !p.first && (bit old 97 || bit old 96)
  let coal := p.count > 1 || !p.first && bit old 98
  putSpad g true slot (toBytes 16 (pack [(64, p.val.toNat), (32, pseq), (1, 1), (1, flag ovr), (1, flag coal)]))

/-- Drop entries of the matrix queue, and of those accepted in the cycle (R183, R385). -/
def keepEntries (c : Core) (f : MatEntry → Bool) : Core :=
  { c with mq := c.mq.filter f,
           mqNew := ((List.zip (c.mq.drop (c.mq.length - c.mqNew.length)) c.mqNew).filter fun p => f p.1).map (·.2) }

/-- Roll a group back to its checkpoint (R183): what it restores, what it discards, and the accesses issued before it that
are still outstanding; other groups' requests enter the room that is left (R175). A lane that stood in a wait that has ended since executes the waiting instruction again. -/
def rollback (s : State) (gh : Nat) (g : Group) (c : Checkpoint) : State :=
  let keep := fun r : List BankReq => match r with | q :: _ => !(q.gh == gh && q.ticket ≥ c.ticket) | [] => false
  let prune := fun x : Core => feedPort (keepEntries
    { x with banks := (x.banks.map fun b => (b.1, b.2.filter keep)).filter (fun b => !b.2.isEmpty),
             port := x.port.filter keep } fun e => !(e.gh == gh && e.ticket ≥ c.ticket))
  let cores := s.cores.map fun p => (p.1, prune p.2)
  let own := fun (i : Nat) => (cores.flatMap fun p => (p.2.banks.flatMap (·.2)) ++ p.2.port).countP fun r =>
    match r with | q :: _ => q.gh == gh && q.lane == i && q.dst.priv | [] => false
  let waits := g.waits.filter fun w => w.ticket < c.ticket
  let lanes := (List.zip (upFrom c.lanes.length 0) c.lanes).map fun q =>
    { q.2 with buffer := [], own := own q.1, pendTrap := [],
               waiting := q.2.waiting && waits.any fun w => w.lanes.contains q.1 }
  let counter := (cores.flatMap fun p => (p.2.banks.flatMap (·.2)) ++ p.2.port).countP fun r =>
    match r with | q :: _ => q.gh == gh && !q.dst.priv | [] => false
  let g1 := { g with lanes := lanes, preds := c.preds, sregs := c.sregs, vregs := c.vregs, tiles := c.tiles,
                     spad := c.spad, pitw := c.pitw, latches := [], held := [], counter := counter,
                     halves := g.halves.filter (fun h => h.ticket < c.ticket),
                     pend := g.pend.filter (fun a => a.ticket < c.ticket),
                     waits := waits }
  let s1 := (g.waits.filter fun w => w.ticket ≥ c.ticket).foldl (fun st w => freeArms st gh w.ticket) s
  setGroup (s.cores.foldl (fun st p => setCore st p.1 (prune p.2)) s1) gh g1

end Sys2Proof.Machine
end

