-- ==== Sys2Proof/Machine/Legal.lean ====
section
/-! DEFINITION. The layout of every encoded instruction: its opcode map row (R312), its fields (R298, R305) and the
operands it reads, and from them which instructions are legal (R299 to R307, R315 and each instruction's own rules). -/

namespace Sys2Proof.Machine

/-- The destination kinds of R300: `vec n` is the V kind with n consecutive registers. -/
inductive Dest where
  | none
  | vec (n : Nat)
  | pred
  | tile
  deriving DecidableEq, Repr

/-- An instruction laid out: row of the opcode map and field contents, lowest bits first. -/
structure Layout where
  op : Nat
  words : Nat
  ctl : Ctl
  fx : List (Nat × Nat)
  head : Head
  a : Option Src
  b : Option Src
  c : Option Src
  /-- registers each source reads (R304) -/
  ra : Nat
  rb : Nat
  rc : Nat
  moda : List (Nat × Nat)
  modb : List (Nat × Nat)
  dest : Dest
  latch : Option Nat
  /-- group-class under R169, before R300's rule for DS = 1 -/
  grp : Bool
  deriving DecidableEq, Repr

/-- A head for instructions that have none. -/
def noHead (c : Ctl) : Head := { ctl := c, guard := none, ds := false, nw := false, dreg := 0 }

/-- An F4 instruction (R298). -/
def layF4 (op : Nat) (c : Ctl) (fx : List (Nat × Nat)) (grp : Bool) : Layout :=
  { op := op, words := 1, ctl := c, fx := fx, head := noHead c, a := none, b := none, c := none,
    ra := 1, rb := 1, rc := 1, moda := [], modb := [], dest := .none, latch := none, grp := grp }

/-- An F8 instruction (R298). -/
def layF8 (op : Nat) (h : Head) (dest : Dest) (latch : Option Nat) (grp : Bool)
    (a b : Option Src) (ra rb : Nat) (moda : List (Nat × Nat)) : Layout :=
  { op := op, words := 2, ctl := h.ctl, fx := [], head := h, a := a, b := b, c := none,
    ra := ra, rb := rb, rc := 1, moda := moda, modb := [], dest := dest, latch := latch, grp := grp }

/-- An F12 instruction (R298). -/
def layF12 (op : Nat) (h : Head) (dest : Dest) (latch : Option Nat) (grp : Bool)
    (a b c : Option Src) (ra rb rc : Nat) (moda modb : List (Nat × Nat)) : Layout :=
  { op := op, words := 3, ctl := h.ctl, fx := [], head := h, a := a, b := b, c := c,
    ra := ra, rb := rb, rc := rc, moda := moda, modb := modb, dest := dest, latch := latch, grp := grp }

/-- Integer arithmetic of two sources (R332). -/
def layInt2 (op : Nat) (h : Head) (sat : Bool) (t : Fmt) (a b : Src) : Layout :=
  layF8 op h (.vec (fmtRegs t)) (some 0) false (some a) (some b) (fmtRegs t) (fmtRegs t)
    [(4, fmtCode t), (1, flag sat), (9, 0)]

/-- Integer arithmetic of one source (R332). -/
def layInt1 (op : Nat) (h : Head) (sat : Bool) (t : Fmt) (a : Src) : Layout :=
  layF8 op h (.vec (fmtRegs t)) (some 0) false (some a) none (fmtRegs t) 1
    [(4, fmtCode t), (1, flag sat), (9, 0)]

/-- Integer arithmetic of three 32-bit sources into one register (R332). -/
def layInt3 (op : Nat) (h : Head) (sat : Bool) (t : Fmt) (a b c : Src) : Layout :=
  layF12 op h (.vec 1) (some 0) false (some a) (some b) (some c) 1 1 1
    [(4, fmtCode t), (1, flag sat), (9, 0)] [(23, 0)]

/-- Logic of two sources (R334); shift amounts are one register. -/
def layLog2 (op : Nat) (h : Head) (t : Fmt) (a b : Src) (rb : Nat) : Layout :=
  layF8 op h (.vec (fmtRegs t)) (some 0) false (some a) (some b) (fmtRegs t) rb [(4, fmtCode t), (10, 0)]

/-- Logic of one source into n registers (R334). -/
def layLog1 (op : Nat) (h : Head) (t : Fmt) (n : Nat) (a : Src) : Layout :=
  layF8 op h (.vec n) (some 0) false (some a) none (fmtRegs t) 1 [(4, fmtCode t), (10, 0)]

/-- Float arithmetic of two sources (R339). -/
def layFlt2 (op : Nat) (h : Head) (t : Fmt) (a b : Src) : Layout :=
  layF8 op h (.vec 1) (some 1) false (some a) (some b) 1 1 [(4, fmtCode t), (10, 0)]

/-- Float arithmetic of three sources (R339). -/
def layFlt3 (op : Nat) (h : Head) (t : Fmt) (a b c : Src) : Layout :=
  layF12 op h (.vec 1) (some 1) false (some a) (some b) (some c) 1 1 1 [(4, fmtCode t), (10, 0)] [(23, 0)]

/-- Float functions of one source (R339). -/
def layFlt1 (op : Nat) (h : Head) (latch : Nat) (t : Fmt) (a : Src) : Layout :=
  layF8 op h (.vec 1) (some latch) false (some a) none 1 1 [(4, fmtCode t), (10, 0)]

/-- Conversions (R339). -/
def layConv (op : Nat) (h : Head) (latch : Nat) (sf t : Fmt) (a : Src) : Layout :=
  layF8 op h (.vec (fmtRegs t)) (some latch) false (some a) none (fmtRegs sf) 1
    [(4, fmtCode t), (4, fmtCode sf), (6, 0)]

/-- Lane exchange and reductions (R354). -/
def layExch (op : Nat) (h : Head) (n latch : Nat) (tyCode ra : Nat) (seg opr : BitVec 3) (exc : Bool)
    (a : Src) (b : Option Src) : Layout :=
  layF8 op h (.vec n) (some latch) true (some a) b ra 1
    [(4, tyCode), (3, seg.toNat), (3, opr.toNat), (1, flag exc), (3, 0)]

/-- Registers a load or store of a size moves (R363). -/
def szRegs (sz : BitVec 3) : Nat := if sz = 3 then 2 else if sz = 4 then 4 else 1

/-- Data access (R363). -/
def layMem (op : Nat) (h : Head) (grp : Bool) (dest : Dest) (latch : Option Nat) (sz : BitVec 3)
    (scope : Scope) (ord : Ord) (sx : Bool) (a : Src) (b : Option Src) (ra : Nat) : Layout :=
  layF8 op h dest latch grp (some a) b ra (szRegs sz)
    [(1, flag sx), (3, 0), (3, ordCode ord), (4, scopeCode scope), (3, sz.toNat)]

/-- Atomics (R366). -/
def layAtom (op : Nat) (h : Head) (aop : Aop) (scope : Scope) (ord : Ord) (t : Fmt) (a b : Src)
    (c : Option Src) (ra : Nat) : Layout :=
  layF12 op h (.vec (fmtRegs t)) (some 2) true (some a) (some b) c ra (fmtRegs t) (fmtRegs t)
    [(4, fmtCode t), (3, ordCode ord), (4, scopeCode scope), (3, 0)] [(4, aopCode aop), (19, 0)]

/-- MMA (R381). -/
def layMma (op : Nat) (h : Head) (cz : Bool) (a b : Src) : Layout :=
  layF8 op h .tile none true (some a) (some b) 1 1 [(1, flag cz), (13, 0)]

/-- Registers a CSR takes (R400, R401): 1 or 2, or none where the number is not listed. -/
def csrRegs (n : Nat) : Option Nat :=
  if n ≤ 3 ∨ (8 ≤ n ∧ n ≤ 0xD) ∨ n = 0x10 ∨ n = 0x11 ∨ n = 0x18 ∨ n = 0x20 then some 1
  else if n = 0x19 ∨ n = 0x1A ∨ (0x30 ≤ n ∧ n ≤ 0x3F) ∨ (0x40 ≤ n ∧ n ≤ 0x42) then some 2
  else none

/-- The layout of each encoded instruction (R312 and the tables of 14 to 17). -/
def layout : Instr → Option Layout
  | .nop c => some (layF4 0x01 c [(16, 0)] false)
  | .exit c n => some (layF4 0x02 c [(8, n.toNat), (8, 0)] false)
  | .next c n => some (layF4 0x03 c [(8, n.toNat), (8, 0)] false)
  | .ret c => some (layF4 0x04 c [(16, 0)] false)
  | .trap c imm => some (layF4 0x05 c [(16, imm.toNat)] false)
  | .tret h act n a => some (layF8 0x06 h (.vec 1) none false a none 1 1 [(2, act.toNat), (8, n.toNat), (4, 0)])
  | .yield c => some (layF4 0x07 c [(16, 0)] true)
  | .halt c code => some (layF4 0x08 c [(16, code.toNat)] true)
  | .icmp h cmb cc t a b => some (layF8 0x09 h .pred none false (some a) (some b) (fmtRegs t) (fmtRegs t)
      [(4, fmtCode t), (3, cc.toNat), (2, cmb.toNat), (5, 0)])
  | .fcmp h cmb cc t a b => some (layF8 0x0A h .pred none false (some a) (some b) 1 1
      [(4, fmtCode t), (3, cc.toNat), (2, cmb.toNat), (5, 0)])
  | .plog h pb pa lut => some (layF8 0x0B h .pred none false none none 1 1
      [(4, lut.toNat), (4, pa.toNat), (4, pb.toNat), (2, 0)])
  | .pmov h all bit a => some (layF8 0x0C h .pred none false (some a) none 1 1
      [(5, bit.toNat), (1, flag all), (8, 0)])
  | .prd h => some (layF8 0x0D h (.vec 1) (some 0) false none none 1 1 [(14, 0)])
  | .sel h pn ps t a b => some (layF8 0x0E h (.vec (fmtRegs t)) (some 0) false (some a) (some b) (fmtRegs t)
      (fmtRegs t) [(4, fmtCode t), (4, ps.toNat), (1, flag pn), (5, 0)])
  | .pmask h => some (layF8 0x34 h (.vec 2) (some 0) true none none 1 1 [(14, 0)])
  | .iadd h sat t a b => some (layInt2 0x10 h sat t a b)
  | .isub h sat t a b => some (layInt2 0x11 h sat t a b)
  | .imul h sat t a b => some (layInt2 0x12 h sat t a b)
  | .imulh h sat t a b => some (layInt2 0x13 h sat t a b)
  | .imad h sat t a b c => some (layF12 0x14 h (.vec (fmtRegs t)) (some 0) false (some a) (some b) (some c)
      (fmtRegs t) (fmtRegs t) (fmtRegs t) [(4, fmtCode t), (1, flag sat), (9, 0)] [(23, 0)])
  | .idiv h sat t a b => some (layInt2 0x15 h sat t a b)
  | .irem h sat t a b => some (layInt2 0x16 h sat t a b)
  | .imin h sat t a b => some (layInt2 0x17 h sat t a b)
  | .imax h sat t a b => some (layInt2 0x18 h sat t a b)
  | .iabs h sat t a => some (layInt1 0x19 h sat t a)
  | .ineg h sat t a => some (layInt1 0x1A h sat t a)
  | .isad h sat t a b c => some (layInt3 0x1B h sat t a b c)
  | .idot4 h sat t a b c => some (layInt3 0x1C h sat t a b c)
  | .iclamp h sat t a b c => some (layInt3 0x1D h sat t a b c)
  | .imulw h sat t a b => some (layF8 0x1E h (.vec 2) (some 0) false (some a) (some b) 1 1
      [(4, fmtCode t), (1, flag sat), (9, 0)])
  | .and h t a b => some (layLog2 0x20 h t a b (fmtRegs t))
  | .or h t a b => some (layLog2 0x21 h t a b (fmtRegs t))
  | .xor h t a b => some (layLog2 0x22 h t a b (fmtRegs t))
  | .not h t a => some (layLog1 0x23 h t (fmtRegs t) a)
  | .shl h t a b => some (layLog2 0x24 h t a b 1)
  | .shr h t a b => some (layLog2 0x25 h t a b 1)
  | .sar h t a b => some (layLog2 0x26 h t a b 1)
  | .rot h t a b => some (layLog2 0x27 h t a b 1)
  | .bfx h t a b c => some (layF12 0x28 h (.vec 1) (some 0) false (some a) (some b) (some c) 1 1 1
      [(4, fmtCode t), (10, 0)] [(23, 0)])
  | .bfi h a b c => some (layF12 0x29 h (.vec 1) (some 0) false (some a) (some b) (some c) 1 1 1
      [(14, 0)] [(23, 0)])
  | .popc h t a => some (layLog1 0x2A h t 1 a)
  | .clz h t a => some (layLog1 0x2B h t 1 a)
  | .ctz h t a => some (layLog1 0x2C h t 1 a)
  | .brev h t a => some (layLog1 0x2D h t 1 a)
  | .tern h lut a b c => some (layF12 0x2E h (.vec 1) (some 0) false (some a) (some b) (some c) 1 1 1
      [(8, lut.toNat), (6, 0)] [(23, 0)])
  | .shf h dir a b c => some (layF12 0x2F h (.vec 1) (some 0) false (some a) (some b) (some c) 1 1 1
      [(1, flag dir), (13, 0)] [(23, 0)])
  | .mov h t a => some (layF8 0x30 h (.vec (fmtRegs t)) (some 0) false (some a) none (fmtRegs t) 1
      [(4, fmtCode t), (10, 0)])
  | .lea h sh t a b => some (layF8 0x31 h (.vec (fmtRegs t)) (some 0) false (some a) (some b) (fmtRegs t) 1
      [(4, fmtCode t), (5, sh.toNat), (5, 0)])
  | .iext h wide t a => some (layF8 0x32 h (.vec (if wide then 2 else 1)) (some 0) false (some a) none
      (fmtRegs t) 1 [(4, fmtCode t), (1, flag wide), (9, 0)])
  | .perm h a b c => some (layF12 0x33 h (.vec 1) (some 0) false (some a) (some b) (some c) 1 1 1
      [(14, 0)] [(23, 0)])
  | .fadd h t a b => some (layFlt2 0x40 h t a b)
  | .fsub h t a b => some (layFlt2 0x41 h t a b)
  | .fmul h t a b => some (layFlt2 0x42 h t a b)
  | .ffma h t a b c => some (layFlt3 0x43 h t a b c)
  | .fmin h t a b => some (layFlt2 0x44 h t a b)
  | .fmax h t a b => some (layFlt2 0x45 h t a b)
  | .fsgn h mode t a b => some (layF8 0x46 h (.vec 1) (some 1) false (some a) (some b) 1 1
      [(4, fmtCode t), (2, mode.toNat), (8, 0)])
  | .fcvt h sf t a => some (layConv 0x47 h 1 sf t a)
  | .icvtf h sf t a => some (layConv 0x48 h 1 sf t a)
  | .fcvti h sf t a => some (layConv 0x49 h 0 sf t a)
  | .qnt h had t a b c => some (layF12 0x4A h (.vec 1) (some 0) false (some a) (some b) (some c) 1 1 1
      [(4, fmtCode t), (2, had.toNat), (8, 0)] [(23, 0)])
  | .dqnt h t a b => some (layFlt2 0x4B h t a b)
  | .frcp h t a => some (layFlt1 0x4C h 3 t a)
  | .frsq h t a => some (layFlt1 0x4D h 3 t a)
  | .fexp2 h t a => some (layFlt1 0x4E h 3 t a)
  | .flog2 h t a => some (layFlt1 0x4F h 3 t a)
  | .fsqrt h t a => some (layFlt1 0x50 h 3 t a)
  | .fclass h t a => some (layFlt1 0x51 h 0 t a)
  | .hadd2 h t a b => some (layFlt2 0x52 h t a b)
  | .hmul2 h t a b => some (layFlt2 0x53 h t a b)
  | .hfma2 h t a b c => some (layFlt3 0x54 h t a b c)
  | .hmin2 h t a b => some (layFlt2 0x55 h t a b)
  | .hmax2 h t a b => some (layFlt2 0x56 h t a b)
  | .shfl h seg t a b => some (layExch 0x60 h (fmtRegs t) 0 (fmtCode t) (fmtRegs t) seg 0 false a (some b))
  | .shflup h seg t a b => some (layExch 0x61 h (fmtRegs t) 0 (fmtCode t) (fmtRegs t) seg 0 false a (some b))
  | .shfldn h seg t a b => some (layExch 0x62 h (fmtRegs t) 0 (fmtCode t) (fmtRegs t) seg 0 false a (some b))
  | .shflx h seg t a b => some (layExch 0x63 h (fmtRegs t) 0 (fmtCode t) (fmtRegs t) seg 0 false a (some b))
  | .bcast h seg t a => some (layExch 0x64 h (fmtRegs t) 0 (fmtCode t) (fmtRegs t) seg 0 false a none)
  | .vote h opr seg a => some (layExch 0x65 h 2 0 0 1 seg opr false a none)
  | .redi h opr seg t a => some (layExch 0x66 h (fmtRegs t) 0 (fmtCode t) (fmtRegs t) seg opr false a none)
  | .redf h opr seg t a => some (layExch 0x67 h 1 1 (fmtCode t) 1 seg opr false a none)
  | .scani h exc opr seg t a => some (layExch 0x68 h (fmtRegs t) 0 (fmtCode t) (fmtRegs t) seg opr exc a none)
  | .scanf h exc opr seg t a => some (layExch 0x69 h 1 1 (fmtCode t) 1 seg opr exc a none)
  | .lds h sz scope ord sx a => some (layMem 0x70 h false (.vec (szRegs sz)) (some 2) sz scope ord sx a none 1)
  | .sts h sz scope ord a b => some (layMem 0x71 h false .none none sz scope ord false a (some b) 1)
  | .ldx h sz scope ord sx a => some (layMem 0x72 h true (.vec (szRegs sz)) (some 2) sz scope ord sx a none 2)
  | .stx h sz scope ord a b => some (layMem 0x73 h true .none none sz scope ord false a (some b) 2)
  | .atom h aop scope ord t a b c => some (layAtom 0x74 h aop scope ord t a b c 2)
  | .atoms h aop scope ord t a b c => some (layAtom 0x75 h aop scope ord t a b c 1)
  | .sub h a b => some (layF8 0x80 h (.vec 1) (some 0) true (some a) (some b) 1 2 [(14, 0)])
  | .unsub h a => some (layF8 0x81 h (.vec 1) (some 0) true (some a) none 1 1 [(14, 0)])
  | .slrd h a => some (layF8 0x82 h (.vec 4) (some 2) false (some a) none 1 1 [(14, 0)])
  | .slwait h spl a b => some (layF8 0x83 h (.vec 2) (some 2) true (some a) (some b) 1 1
      [(11, 0), (1, flag spl), (2, 0)])
  | .swinit h a b => some (layF8 0x84 h .none none true (some a) (some b) 1 1 [(14, 0)])
  | .swadd h scope a b => some (layF8 0x85 h .none none true (some a) (some b) 1 1
      [(7, 0), (4, scopeCode scope), (3, 0)])
  | .swwait h spl scope a b => some (layF8 0x86 h (.vec 1) (some 2) true (some a) (some b) 1 1
      [(7, 0), (4, scopeCode scope), (1, flag spl), (2, 0)])
  | .mwait h spl sp a b c => some (layF12 0x87 h (.vec 2) (some 2) true (some a) (some b) (some c)
      (if sp then 1 else 2) 2 1 [(11, 0), (1, flag spl), (2, 0)] [(1, flag sp), (22, 0)])
  | .fence c scope => some (layF4 0x88 c [(4, scopeCode scope), (12, 0)] true)
  | .xfence c mask scope => some (layF4 0x89 c [(4, scopeCode scope), (4, mask.toNat), (8, 0)] true)
  | .afence c => some (layF4 0x8A c [(16, 0)] true)
  | .mmaLn6 h cz a b => some (layMma 0xA0 h cz a b)
  | .mmaLn8 h cz a b => some (layMma 0xA1 h cz a b)
  | .mmaI8 h cz a b => some (layMma 0xA2 h cz a b)
  | .mmaBf16 h cz a b => some (layMma 0xA3 h cz a b)
  | .mmaF16 h cz a b => some (layMma 0xA4 h cz a b)
  | .had h pts st => some (layF8 0xA5 h .tile none true none none 1 1 [(6, st.toNat), (2, pts.toNat), (6, 0)])
  | .scacc h su st a b => some (layF8 0xA6 h .tile none true (some a) (some b) 1 1
      [(6, st.toNat), (1, flag su), (7, 0)])
  | .accld h sp a b => some (layF8 0xA7 h .tile none true (some a) (some b) (if sp then 2 else 1) 1
      [(6, 0), (1, flag sp), (7, 0)])
  | .accst h sp st a b => some (layF8 0xA8 h .none none true (some a) (some b) (if sp then 2 else 1) 1
      [(6, st.toNat), (1, flag sp), (7, 0)])
  | .accz c nm t => some (layF4 0xA9 c [(6, t.toNat), (6, nm.toNat), (4, 0)] true)
  | .qput h a b => some (layF12 0xB0 h (.vec 2) (some 0) true (some a) (some b) none 1 1 1 [(14, 0)] [(23, 0)])
  | .fork h a b c => some (layF12 0xB1 h .pred none true (some a) (some b) (some c) 1 2 2 [(14, 0)] [(23, 0)])
  | .join h a => some (layF8 0xB2 h .none none true (some a) none 2 1 [(14, 0)])
  | .gcraise h a => some (layF8 0xB3 h .none none true (some a) none 1 1 [(14, 0)])
  | .regrow h fld a => some (layF8 0xB4 h .pred none true (some a) none 1 1 [(1, flag fld), (13, 0)])
  | .sysrd h csr => some (layF8 0xC0 h (.vec ((csrRegs csr.toNat).getD 1)) (some 0) false none none 1 1
      [(12, csr.toNat), (2, 0)])
  | .syswr h csr a => some (layF8 0xC1 h .none none true (some a) none 1 1 [(12, csr.toNat), (2, 0)])
  | .drain c => some (layF4 0xC2 c [(16, 0)] true)
  | .powerOff | .perstRelease .. | .applyPartition .. | .roleChangeRequest .. | .layerDrainComplete ..
  | .layerFlushComplete .. | .layerReenumComplete .. | .coreFailure .. | .spareTakeover .. | .freqRequest ..
  | .relockEnd .. | .powerSample .. | .powerStepDown | .powerStepUp | .valobKeyLoad .. | .portEnable ..
  | .portDisable .. | .trainDone .. | .phyLockLoss .. | .switch .. | .flitSend .. | .iclimitTimeout ..
  | .dataFlit .. | .markerFlit .. | .ackFlit .. | .nakFlit .. | .idleFlit .. | .timeFlit .. | .timeExchange ..
  | .tsyncLoss | .replayTimeout .. | .keyWindowRead .. | .protectedWrite .. | .registerWrite ..
  | .apertureAccess .. | .hostTlp .. | .tdispLock .. | .tdispStart .. | .stopInterface .. | .cxlPoison ..
  | .cxlLinkDown .. | .accessTableWrite .. | .memoryKeyLoad .. | .memoryKeyErase .. | .setKattr ..
  | .copyInKeyLoad .. | .getMeasurements .. | .kspawn .. | .hostFetchAdd .. | .peerFetchAdd ..
  | .packetConsume .. | .ringfaultClear .. | .packetStart .. | .launch .. | .range .. | .copy .. | .stream ..
  | .reduce .. | .marker .. | .bwait .. | .bwaitWake .. | .raise .. | .endpointResolve .. | .encCopyCheck ..
  | .shuckerLanding .. | .copyResume .. | .copyDone .. | .mmawAccept .. | .streamTile .. | .stampWrite ..
  | .launchRelease .. | .dispatchTranslate .. | .admission .. | .periodRollover .. | .overrun .. | .steal ..
  | .groupExit .. | .preempt .. | .preemptDeadline .. | .contextDrainComplete .. | .huskWritten ..
  | .restore .. | .layerDrainTimeout .. | .spill .. | .regrowGrant .. | .contextCreate .. | .contextDestroy ..
  | .entryWrite .. | .shootDown .. | .shootDownComplete .. | .homeFence .. | .peerAccess .. | .holdTimeout ..
  | .starvationLimit .. | .icacheFill .. | .nodeRecordFill .. | .bankRequestServed .. | .loadComplete ..
  | .matrixEntryComplete .. | .uncorrectableError .. | .homeStore .. | .pushDepart .. | .pushLanding ..
  | .teardownNotice .. | .mwaitReread .. | .debugHalt .. | .debugResume .. | .debugDrain ..
  | .debugDrainDone .. | .hang .. | .setHangt .. | .sample .. | .setSamplePeriod .. | .setTraceRing ..
  | .setLaneCycleRange .. | .perstAssert | .unassignedEncoding .. | .reservedKindFlit ..
  | .singleBitSoftError | .pageCopy .. => none

/-- A source names registers of a legal group of n (R304, and R363 for four registers). -/
def srcOk (n : Nat) : Src → Bool
  | .v r => r.toNat % n == 0
  | .s r => r.toNat % n == 0
  | _ => n ≤ 2

/-- The destination field is legal (R300). -/
def destOk (h : Head) : Dest → Bool
  | .none => !h.ds && !h.nw && h.dreg == 0
  | .vec n =>
    if h.nw then !h.ds && h.dreg == 0
    else h.dreg.toNat % n == 0 && (!h.ds || h.dreg.toNat + n ≤ 64)
  | .pred => !h.ds && (if h.nw then h.dreg == 0 else h.dreg.toNat < 16)
  | .tile => !h.ds && (if h.nw then h.dreg == 0 else h.dreg.toNat < 64)

/-- The literal words an instruction's sources read. -/
def litsOf (l : Layout) : List Word :=
  [l.a, l.b, l.c].filterMap fun
    | some (.lit w) => some w
    | _ => none

/-- The five MMA opcodes (R303). -/
def isMmaOp (op : Nat) : Bool := 0xA0 ≤ op && op ≤ 0xA4

/-- Every literal reads the one literal word, and only where R303 permits it. -/
def litOk (l : Layout) : Bool :=
  match litsOf l with
  | [] => true
  | w :: r => l.words == 2 && !isMmaOp l.op && r.all (· == w)

/-- The checks every layout passes (R299 to R304). -/
def layoutOk (l : Layout) : Bool :=
  (if l.words == 1 then true else destOk l.head l.dest)
  && (l.a.all (srcOk l.ra)) && (l.b.all (srcOk l.rb)) && (l.c.all (srcOk l.rc)) && litOk l

/-- A literal fits a narrow operand format (R302, R337). -/
def litFits (t : Fmt) : Src → Bool
  | .lit w => fmtBits t ≥ 32 || w.toNat < 2 ^ fmtBits t
  | _ => true

/-- TY of SEL, MOV and the shuffles (R330, R336, R354). -/
def moveTy : Fmt → Bool
  | .i32 | .n32 | .f32 | .i64 | .n64 => true
  | _ => false

/-- TY of the logic instructions, REDI and SCANI (R334, R354). -/
def logicTy : Fmt → Bool
  | .i32 | .n32 | .i64 | .n64 => true
  | _ => false

/-- LN6 or LN8. -/
def lnTy : Fmt → Bool
  | .ln6 | .ln8 => true
  | _ => false

/-- No small immediate (R343). -/
def notImm : Src → Bool
  | .imm _ => false
  | _ => true

/-- ORD and SCOPE of a load (R211, R361). -/
def loadOrdOk (o : Ord) (sc : Scope) : Bool :=
  match o with
  | .weak => sc == .ln
  | .rlx | .acq => true
  | .rel | .ar => false

/-- ORD and SCOPE of a store (R211, R361). -/
def storeOrdOk (o : Ord) (sc : Scope) : Bool :=
  match o with
  | .weak => sc == .ln
  | .rlx | .rel => true
  | .acq | .ar => false

/-- The checks of an atomic (R366). -/
def atomOk (aop : Aop) (o : Ord) (t : Fmt) (c : Option Src) : Bool :=
  o != .weak && c.isSome == (aop == .cas) &&
  (match aop with
   | .swap | .cas => moveTy t
   | .fadd => t == .f32
   | .add | .min | .max | .and | .or | .xor => logicTy t)

/-- Two sources of a type: literals fit (R302). -/
def fits2 (t : Fmt) (a b : Src) : Bool := litFits t a && litFits t b

/-- The rules of each instruction for its own fields (14 to 17). -/
def fieldsOk : Instr → Bool
  | .tret h act n a => h.nw && (act == 3 || n == 0) && (a.isSome == (act == 2))
  | .icmp _ cmb cc t a b => cmb.toNat < 3 && cc.toNat < 6 && fmtInt t && fits2 t a b
  | .fcmp _ cmb _ t a b => cmb.toNat < 3 && fmtFloat t && fits2 t a b
  | .pmov h all _ _ => !all || h.dreg == 0
  | .sel _ _ _ t _ _ => moveTy t
  | .iadd _ _ t a b | .isub _ _ t a b | .imul _ _ t a b | .idiv _ _ t a b => fmtInt t && fits2 t a b
  | .imulh _ sat t a b | .irem _ sat t a b | .imin _ sat t a b | .imax _ sat t a b =>
    fmtInt t && !sat && fits2 t a b
  | .imad _ _ t _ _ _ => fmtInt t
  | .iabs _ _ t a | .ineg _ _ t a => fmtInt t && litFits t a
  | .isad _ sat t _ _ _ | .iclamp _ sat t _ _ _ => fmtInt t && !fmtWide t && !sat
  | .idot4 _ _ t _ _ _ => t == .i8 || t == .n8
  | .imulw _ sat t _ _ => (t == .i32 || t == .n32) && !sat
  | .and _ t _ _ | .or _ t _ _ | .xor _ t _ _ | .shl _ t _ _ | .shr _ t _ _ | .sar _ t _ _ | .rot _ t _ _ =>
    logicTy t
  | .not _ t _ | .popc _ t _ | .clz _ t _ | .ctz _ t _ => logicTy t
  | .brev _ t _ => t == .i32 || t == .n32
  | .bfx _ t _ _ _ => t == .i32 || t == .n32
  | .mov _ t _ => moveTy t
  | .lea _ _ t _ _ => logicTy t
  | .iext _ _ t a => fmtInt t && litFits t a
  | .fadd _ t a b | .fsub _ t a b | .fmul _ t a b | .fmin _ t a b | .fmax _ t a b => fmtFloat t && fits2 t a b
  | .ffma _ t _ _ _ => fmtFloat t
  | .fsgn _ mode t a b => mode.toNat < 3 && fmtFloat t && fits2 t a b
  | .hadd2 _ t a b | .hmul2 _ t a b | .hmin2 _ t a b | .hmax2 _ t a b =>
    (t == .f16 || t == .bf16) && notImm a && notImm b
  | .hfma2 _ t a b c => (t == .f16 || t == .bf16) && notImm a && notImm b && notImm c
  | .frcp _ t _ | .frsq _ t _ | .fexp2 _ t _ | .flog2 _ t _ | .fsqrt _ t _ => t == .f32
  | .fclass _ t a => fmtFloat t && litFits t a
  | .fcvt _ sf t a => fmtFloat t && fmtFloat sf && litFits sf a
  | .icvtf _ sf t a => fmtFloat t && fmtInt sf && litFits sf a
  | .fcvti _ sf t a => fmtInt t && fmtFloat sf && litFits sf a
  | .qnt _ _ t _ _ _ => lnTy t
  | .dqnt _ t _ _ => lnTy t
  | .shfl _ _ t _ _ | .shflup _ _ t _ _ | .shfldn _ _ t _ _ | .shflx _ _ t _ _ => moveTy t
  | .bcast _ _ t _ => moveTy t
  | .vote _ opr _ _ => opr.toNat < 4
  | .redi _ opr _ t _ | .scani _ _ opr _ t _ => opr.toNat < 6 && logicTy t
  | .redf _ opr _ t _ | .scanf _ _ opr _ t _ => opr.toNat < 3 && t == .f32
  | .lds _ sz sc o sx _ | .ldx _ sz sc o sx _ => sz.toNat < 5 && loadOrdOk o sc && (!sx || sz.toNat < 2)
  | .sts _ sz sc o _ _ | .stx _ sz sc o _ _ => sz.toNat < 5 && storeOrdOk o sc
  | .atom _ aop _ o t _ _ c | .atoms _ aop _ o t _ _ c => atomOk aop o t c
  | .xfence _ mask _ => 2 ≤ popCount 4 mask.toNat
  | .mmaLn6 h .. | .mmaLn8 h .. | .mmaI8 h .. | .mmaBf16 h .. | .mmaF16 h .. => !h.nw
  | .had _ pts _ => pts != 0
  | .sysrd _ csr => (csrRegs csr.toNat).isSome
  | .syswr _ csr _ => csr == 0x18 || csr == 0x20
  | _ => true

/-- An instruction is legal when its fields take values their rules define (R306); steps without an encoding always are. -/
def legal (i : Instr) : Bool :=
  match layout i with
  | none => true
  | some l => layoutOk l && fieldsOk i

end Sys2Proof.Machine
end

