-- ==== Sys2Proof/Machine/Operands.lean ====
section
/-! DEFINITION. Guards, sources and destinations of instructions in a lane (R162, R172, R173, R299 to R304). -/

namespace Sys2Proof.Machine

/-- A lane of a group in the state at issue. -/
structure Here where
  st : State
  gh : Nat
  g : Group
  lane : Nat
  deriving DecidableEq, Repr

/-- ILLOP of the instruction at issue (R228). -/
def illop (s : State) : Trap := { code := 0x01, addr1 := s.issue.addr, addr2 := none, info := s.issue.word0 }

/-- STALE of a latch (R228). -/
def stale (s : State) (b : Nat) : Trap := { code := 0x02, addr1 := s.issue.addr, addr2 := none, info := b }

/-- INTDIV (R228). -/
def intdiv (s : State) : Trap := { code := 0x04, addr1 := s.issue.addr, addr2 := none, info := 0 }

/-- MISALIGN of an address (R228). -/
def misalign (a n : Nat) : Trap := { code := 0x06, addr1 := a, addr2 := none, info := n }

/-- SPRANGE of a scratchpad address (R228, R360). -/
def sprange (a : Nat) : Trap := { code := 0x05, addr1 := a, addr2 := none, info := 0 }

/-- EXTENT at a virtual address for kinds (R228). -/
def extentTrap (va : Nat) (k : Kinds) : Trap := { code := 0x03, addr1 := va, addr2 := none, info := kindsInfo k }

/-- SWTRAP with its immediate (R228, R321). -/
def swtrap (s : State) (imm : Nat) : Trap := { code := 0x0A, addr1 := s.issue.addr, addr2 := none, info := imm }

/-- The guard of an instruction in a lane (R299). -/
def guardOn (g : Group) (lane : Nat) (h : Head) : Bool :=
  match h.guard with
  | none => true
  | some (gn, gp) => predAt g lane gp.toNat != gn

/-- The registers of a source lie below NV (R162, R304). -/
def srcIn (g : Group) (n : Nat) : Option Src → Bool
  | some (.v r) => r.toNat + n ≤ nvOf g
  | _ => true

/-- The destination lies in the group's partition (R162, R300). -/
def destIn (g : Group) (h : Head) : Dest → Bool
  | .vec n => h.nw || h.ds || h.dreg.toNat + n ≤ nvOf g
  | .tile => h.nw || h.dreg.toNat < tilesOf g
  | _ => true

/-- Every register an instruction names lies in the group's partition (R162). -/
def partOk (g : Group) (l : Layout) : Bool :=
  srcIn g l.ra l.a && srcIn g l.rb l.b && srcIn g l.rc l.c && destIn g l.head l.dest

/-- A small immediate as an operand (R302). -/
def immOf (t : Fmt) (n : BitVec 5) : Nat :=
  if fmtFloat t then fpOfInt t (immVal n) else if fmtWide t then wrap 64 (immVal n) else wrap 32 (immVal n)

/-- A literal as an operand (R302). -/
def litVal (t : Fmt) (w : Word) : Nat := if t = .i64 then wrap 64 (signed 32 w.toNat) else w.toNat

/-- n consecutive registers as a number, low word first (R304). -/
def regsNum (rd : Nat → Word) (r : Nat) : Nat → Nat
  | 0 => 0
  | n + 1 => (rd r).toNat + 2 ^ 32 * regsNum rd (r + 1) n

/-- n registers of a source read as a number; latches give their low 32 n bits (R301, R304). -/
def rdRegs (h : Here) (n : Nat) (t : Fmt) : Src → Except Trap Nat
  | .v r => .ok (regsNum (vregAt h.g h.lane) r.toNat n)
  | .s r => .ok (regsNum (fun k => sget 0 h.g.sregs k) r.toNat n)
  | .b r => match sget none h.g.latches (4 * h.lane + r.toNat) with
    | none => .error (stale h.st r.toNat)
    | some d => .ok (d.toNat % 2 ^ (32 * n))
  | .imm k => .ok (immOf t k)
  | .lit w => .ok (litVal t w)

/-- A source read in a format (R302, R304, R316). -/
def rd (h : Here) (t : Fmt) (x : Src) : Except Trap Nat := rdRegs h (fmtRegs t) t x

/-- A 32-bit unsigned source. -/
def rdN (h : Here) (x : Src) : Except Trap Nat := rd h .n32 x

/-- A 64-bit unsigned source or address. -/
def rdD (h : Here) (x : Src) : Except Trap Nat := rd h .n64 x

/-- What a lane makes of an instruction. -/
inductive Out where
  | off
  | trap (t : Trap)
  | val (v : Nat)
  deriving DecidableEq, Repr

/-- A lane's part of an instruction that acts lane by lane (R162, R299). -/
def laneOut (l : Layout) (f : Here → Except Trap Nat) (h : Here) : Out :=
  if !guardOn h.g h.lane l.head then .off
  else if !partOk h.g l then .trap (illop h.st)
  else match f h with
    | .error t => .trap t
    | .ok v => .val v

/-- The destination a trap saves (R323). -/
def savedDst (l : Layout) : SavedDst :=
  if l.words = 1 || l.head.nw || l.head.ds then .nothing
  else match l.dest with
    | .vec n => .vec l.head.dreg.toNat n
    | .pred => .pred l.head.dreg.toNat
    | _ => .nothing

/-- The place saved when a lane traps at the instruction at issue (R232, R323). -/
def placeOf (s : State) (ln : Lane) (d : SavedDst) : SavedPath := placeWith ln s.issue.len d

/-- The values of the lanes that completed, in lane order. -/
def valsOf (outs : List (Nat × Out)) : List (Nat × Nat) :=
  outs.filterMap fun p => match p.2 with
    | .val v => some (p.1, v)
    | _ => none

/-- The lanes that trapped. -/
def trapsOf (outs : List (Nat × Out)) : List (Nat × Trap) :=
  outs.filterMap fun p => match p.2 with
    | .trap t => some (p.1, t)
    | _ => none

/-- Where a scratchpad address leads (R360): the target group's handle and the offset, for n bytes. -/
def resolveSpad (s : State) (gh : Nat) (g : Group) (a n : Nat) : Option (Nat × Nat) :=
  let off := bits a 0 21
  if bits a 29 3 ≠ 0 ∨ bits a 21 3 ≠ 0 then none
  else if !bit a 28 then
    if bits a 24 4 = 0 ∧ off + n ≤ spadLimit g then some (gh, off) else none
  else
    match s.groups.find? fun p =>
        p.2.ctx == g.ctx && p.2.owner == g.owner && p.2.gang == g.gang && p.2.member == bits a 24 4 with
    | none => none
    | some q =>
      if (q.2.lanes.any liveLane) && off + n ≤ spadLimit q.2 && (q.1 == gh || (coreOf q.2).isSome) then
        some (q.1, off) else none

/-- The lowest-numbered lane of an issue that takes part, by group in issue order (R380). -/
def firstOn (g : Group) (h : Head) (lanes : List Nat) : Option Nat := lanes.find? fun i => guardOn g i h

end Sys2Proof.Machine
end

