-- ==== Sys2Proof/Machine/Flags.lean ====
section
/-! DEFINITION. Comparisons, predicate combination and saturation: the flag computations of the machine (R317, R327 to R329). -/

namespace Sys2Proof.Machine

/-- An integer comparison (R327): 0 EQ, 1 NE, 2 LT, 3 LE, 4 GT, 5 GE. -/
def intCmp (cc : Nat) (a b : Int) : Bool :=
  match cc with
  | 0 => a == b
  | 1 => a != b
  | 2 => a < b
  | 3 => a ≤ b
  | 4 => a > b
  | _ => a ≥ b

/-- A predicate combined with its old value (R327): 0 SET, 1 AND, 2 OR. -/
def combine (cmb : Nat) (old t : Bool) : Bool :=
  match cmb with
  | 0 => t
  | 1 => old && t
  | _ => old || t

/-- An exact integer brought into a format: wrapped or saturated (R317). -/
def intoFmt (t : Fmt) (sat : Bool) (x : Int) : Int :=
  if sat then clampInt (intMin t) (intMax t) x else intOf t (wrap (fmtBits t) x)

/-- The 32 or 64 bits an integer result is written as (R317). -/
def intBits (t : Fmt) (x : Int) : Nat := wrap (if fmtWide t then 64 else 32) x

/-- An integer result's bits from its exact value (R317). -/
def intResult (t : Fmt) (sat : Bool) (x : Int) : Nat := intBits t (intoFmt t sat x)

/-- A source read as an integer of a format (R316). -/
def rdInt (h : Here) (t : Fmt) (x : Src) : Except Trap Int := (rd h t x).map (intOf t)

/-- A source read as the bits of a format (R337). -/
def rdBits (h : Here) (t : Fmt) (x : Src) : Except Trap Nat := (rd h t x).map (· % 2 ^ fmtBits t)

end Sys2Proof.Machine
end

