-- ==== Sys2Proof/WellFormed.lean ====
section
/-! DEFINITION. Well-formed instructions: those whose fields all take values the spec defines (R306). -/

namespace Sys2Proof

/-- An instruction is well formed when every check of decoding accepts it (R299 to R307). -/
def WellFormed (i : Instr) : Prop := Machine.legal i = true

end Sys2Proof
end

