-- ==== Sys2Proof/Decode.lean ====
section
/-! DEFINITION. The decoder (R295 to R307, R313; R70 for KSPAWN), total on any bits and rejecting by name, and the encoder. -/

namespace Sys2Proof

open Sys2Proof.Machine

/-- Why a word sequence is no instruction (R307): each reason raises ILLOP. -/
inductive DecodeError where
  /-- LEN is 0b11 (R295). -/
  | length
  /-- VER is 0b10 or 0b11 (R295). -/
  | version
  /-- The OP value is unassigned (R313). -/
  | opcode
  /-- LEN names fewer bytes than the OP's base (R307). -/
  | short
  /-- A literal where none is permitted (R303). -/
  | literal
  /-- LEN differs from the length the literal rule requires (R303). -/
  | mismatch
  /-- GE is 0 and GN or GP is not zero (R299). -/
  | guard
  /-- A field holds a value it does not define, or a reserved bit or unread source is not zero (R301, R306). -/
  | field
  /-- The fields break a rule of the instruction (R300, R304, 14 to 17). -/
  | illegal
  deriving DecidableEq, Repr

namespace Machine

/-- The words of each OP's base length (R312), or none where it is unassigned (R313). -/
def baseWords (op : Nat) : Option Nat :=
  if op = 0 then none
  else if op ≤ 0x05 then some 1
  else if op = 0x06 then some 2
  else if op ≤ 0x08 then some 1
  else if op ≤ 0x0E then some 2
  else if op = 0x0F then none
  else if op ≤ 0x13 then some 2
  else if op = 0x14 then some 3
  else if op ≤ 0x1A then some 2
  else if op ≤ 0x1D then some 3
  else if op = 0x1E then some 2
  else if op = 0x1F then none
  else if op ≤ 0x27 then some 2
  else if op ≤ 0x29 then some 3
  else if op ≤ 0x2D then some 2
  else if op ≤ 0x2F then some 3
  else if op ≤ 0x32 then some 2
  else if op = 0x33 then some 3
  else if op = 0x34 then some 2
  else if op ≤ 0x3F then none
  else if op ≤ 0x42 then some 2
  else if op = 0x43 then some 3
  else if op ≤ 0x49 then some 2
  else if op = 0x4A then some 3
  else if op ≤ 0x53 then some 2
  else if op = 0x54 then some 3
  else if op ≤ 0x56 then some 2
  else if op ≤ 0x5F then none
  else if op ≤ 0x69 then some 2
  else if op ≤ 0x6F then none
  else if op ≤ 0x73 then some 2
  else if op ≤ 0x75 then some 3
  else if op ≤ 0x7F then none
  else if op ≤ 0x86 then some 2
  else if op = 0x87 then some 3
  else if op ≤ 0x8A then some 1
  else if op ≤ 0x9F then none
  else if op ≤ 0xA8 then some 2
  else if op = 0xA9 then some 1
  else if op ≤ 0xAF then none
  else if op ≤ 0xB1 then some 3
  else if op ≤ 0xB4 then some 2
  else if op ≤ 0xBF then none
  else if op ≤ 0xC1 then some 2
  else if op = 0xC2 then some 1
  else none

/-- The fields of a word sequence before its OP gives them meaning: sources by their nine bits (R298). -/
structure Raw where
  ctl : Ctl
  fx : Nat
  head : Head
  a : Nat
  b : Nat
  c : Nat
  moda : Nat
  modb : Nat
  lit : Word
  deriving DecidableEq, Repr

/-- A source that is read. -/
def rdSrc (r : Raw) (f : Nat) : Option Src := srcOf f r.lit

/-- A source that is not read must be zero (R301). -/
def noSrc (f : Nat) : Option Unit := if f = 0 then some () else none

/-- The guard from GE, GN and GP (R299). -/
def guardOf (gp gn ge : Nat) : Option (Option (Bool × BitVec 4)) :=
  if ge = 1 then some (some (gn == 1, BitVec.ofNat 4 gp))
  else if gp = 0 ∧ gn = 0 then some none
  else none

/-- OP 0x00 to 0x0F: control and predicates (14). -/
def fields0 (op : Nat) (r : Raw) : Option Instr :=
  match op with
  | 1 =>
    match unpack [16] r.fx with
    | [0] => some (.nop r.ctl)
    | _ => none
  | 2 =>
    match unpack [8, 8] r.fx with
    | [n, 0] => some (.exit r.ctl (BitVec.ofNat 8 n))
    | _ => none
  | 3 =>
    match unpack [8, 8] r.fx with
    | [n, 0] => some (.next r.ctl (BitVec.ofNat 8 n))
    | _ => none
  | 4 =>
    match unpack [16] r.fx with
    | [0] => some (.ret r.ctl)
    | _ => none
  | 5 =>
    match unpack [16] r.fx with
    | [n] => some (.trap r.ctl (BitVec.ofNat 16 n))
    | _ => none
  | 6 =>
    match unpack [2, 8, 4] r.moda with
    | [act, n, 0] => do
      let _ ← noSrc r.b
      if act = 2 then do
        let a ← rdSrc r r.a
        pure (.tret r.head (BitVec.ofNat 2 act) (BitVec.ofNat 8 n) (some a))
      else do
        let _ ← noSrc r.a
        pure (.tret r.head (BitVec.ofNat 2 act) (BitVec.ofNat 8 n) none)
    | _ => none
  | 7 =>
    match unpack [16] r.fx with
    | [0] => some (.yield r.ctl)
    | _ => none
  | 8 =>
    match unpack [16] r.fx with
    | [n] => some (.halt r.ctl (BitVec.ofNat 16 n))
    | _ => none
  | 9 =>
    match unpack [4, 3, 2, 5] r.moda with
    | [t, cc, cmb, 0] => do
      let a ← rdSrc r r.a
      let b ← rdSrc r r.b
      let t ← fmtOf t
      pure (.icmp r.head (BitVec.ofNat 2 cmb) (BitVec.ofNat 3 cc) t a b)
    | _ => none
  | 10 =>
    match unpack [4, 3, 2, 5] r.moda with
    | [t, cc, cmb, 0] => do
      let a ← rdSrc r r.a
      let b ← rdSrc r r.b
      let t ← fmtOf t
      pure (.fcmp r.head (BitVec.ofNat 2 cmb) (BitVec.ofNat 3 cc) t a b)
    | _ => none
  | 11 =>
    match unpack [4, 4, 4, 2] r.moda with
    | [lut, pa, pb, 0] => do
      let _ ← noSrc r.a
      let _ ← noSrc r.b
      pure (.plog r.head (BitVec.ofNat 4 pb) (BitVec.ofNat 4 pa) (BitVec.ofNat 4 lut))
    | _ => none
  | 12 =>
    match unpack [5, 1, 8] r.moda with
    | [k, all, 0] => do
      let a ← rdSrc r r.a
      let _ ← noSrc r.b
      let all ← flagOf all
      pure (.pmov r.head all (BitVec.ofNat 5 k) a)
    | _ => none
  | 13 =>
    match unpack [14] r.moda with
    | [0] => do
      let _ ← noSrc r.a
      let _ ← noSrc r.b
      pure (.prd r.head)
    | _ => none
  | 14 =>
    match unpack [4, 4, 1, 5] r.moda with
    | [t, ps, pn, 0] => do
      let a ← rdSrc r r.a
      let b ← rdSrc r r.b
      let t ← fmtOf t
      let pn ← flagOf pn
      pure (.sel r.head pn (BitVec.ofNat 4 ps) t a b)
    | _ => none
  | _ => none

/-- OP 0x10 to 0x1F: integer arithmetic (14). -/
def fields1 (op : Nat) (r : Raw) : Option Instr :=
  match op with
  | 16 =>
    match unpack [4, 1, 9] r.moda with
    | [t, sat, 0] => do
      let a ← rdSrc r r.a
      let b ← rdSrc r r.b
      let t ← fmtOf t
      let sat ← flagOf sat
      pure (.iadd r.head sat t a b)
    | _ => none
  | 17 =>
    match unpack [4, 1, 9] r.moda with
    | [t, sat, 0] => do
      let a ← rdSrc r r.a
      let b ← rdSrc r r.b
      let t ← fmtOf t
      let sat ← flagOf sat
      pure (.isub r.head sat t a b)
    | _ => none
  | 18 =>
    match unpack [4, 1, 9] r.moda with
    | [t, sat, 0] => do
      let a ← rdSrc r r.a
      let b ← rdSrc r r.b
      let t ← fmtOf t
      let sat ← flagOf sat
      pure (.imul r.head sat t a b)
    | _ => none
  | 19 =>
    match unpack [4, 1, 9] r.moda with
    | [t, sat, 0] => do
      let a ← rdSrc r r.a
      let b ← rdSrc r r.b
      let t ← fmtOf t
      let sat ← flagOf sat
      pure (.imulh r.head sat t a b)
    | _ => none
  | 20 =>
    match unpack [4, 1, 9] r.moda, unpack [23] r.modb with
    | [t, sat, 0], [0] => do
      let a ← rdSrc r r.a
      let b ← rdSrc r r.b
      let c ← rdSrc r r.c
      let t ← fmtOf t
      let sat ← flagOf sat
      pure (.imad r.head sat t a b c)
    | _, _ => none
  | 21 =>
    match unpack [4, 1, 9] r.moda with
    | [t, sat, 0] => do
      let a ← rdSrc r r.a
      let b ← rdSrc r r.b
      let t ← fmtOf t
      let sat ← flagOf sat
      pure (.idiv r.head sat t a b)
    | _ => none
  | 22 =>
    match unpack [4, 1, 9] r.moda with
    | [t, sat, 0] => do
      let a ← rdSrc r r.a
      let b ← rdSrc r r.b
      let t ← fmtOf t
      let sat ← flagOf sat
      pure (.irem r.head sat t a b)
    | _ => none
  | 23 =>
    match unpack [4, 1, 9] r.moda with
    | [t, sat, 0] => do
      let a ← rdSrc r r.a
      let b ← rdSrc r r.b
      let t ← fmtOf t
      let sat ← flagOf sat
      pure (.imin r.head sat t a b)
    | _ => none
  | 24 =>
    match unpack [4, 1, 9] r.moda with
    | [t, sat, 0] => do
      let a ← rdSrc r r.a
      let b ← rdSrc r r.b
      let t ← fmtOf t
      let sat ← flagOf sat
      pure (.imax r.head sat t a b)
    | _ => none
  | 25 =>
    match unpack [4, 1, 9] r.moda with
    | [t, sat, 0] => do
      let a ← rdSrc r r.a
      let _ ← noSrc r.b
      let t ← fmtOf t
      let sat ← flagOf sat
      pure (.iabs r.head sat t a)
    | _ => none
  | 26 =>
    match unpack [4, 1, 9] r.moda with
    | [t, sat, 0] => do
      let a ← rdSrc r r.a
      let _ ← noSrc r.b
      let t ← fmtOf t
      let sat ← flagOf sat
      pure (.ineg r.head sat t a)
    | _ => none
  | 27 =>
    match unpack [4, 1, 9] r.moda, unpack [23] r.modb with
    | [t, sat, 0], [0] => do
      let a ← rdSrc r r.a
      let b ← rdSrc r r.b
      let c ← rdSrc r r.c
      let t ← fmtOf t
      let sat ← flagOf sat
      pure (.isad r.head sat t a b c)
    | _, _ => none
  | 28 =>
    match unpack [4, 1, 9] r.moda, unpack [23] r.modb with
    | [t, sat, 0], [0] => do
      let a ← rdSrc r r.a
      let b ← rdSrc r r.b
      let c ← rdSrc r r.c
      let t ← fmtOf t
      let sat ← flagOf sat
      pure (.idot4 r.head sat t a b c)
    | _, _ => none
  | 29 =>
    match unpack [4, 1, 9] r.moda, unpack [23] r.modb with
    | [t, sat, 0], [0] => do
      let a ← rdSrc r r.a
      let b ← rdSrc r r.b
      let c ← rdSrc r r.c
      let t ← fmtOf t
      let sat ← flagOf sat
      pure (.iclamp r.head sat t a b c)
    | _, _ => none
  | 30 =>
    match unpack [4, 1, 9] r.moda with
    | [t, sat, 0] => do
      let a ← rdSrc r r.a
      let b ← rdSrc r r.b
      let t ← fmtOf t
      let sat ← flagOf sat
      pure (.imulw r.head sat t a b)
    | _ => none
  | _ => none

/-- OP 0x20 to 0x2F: logic and bit fields (14). -/
def fields2 (op : Nat) (r : Raw) : Option Instr :=
  match op with
  | 32 =>
    match unpack [4, 10] r.moda with
    | [t, 0] => do
      let a ← rdSrc r r.a
      let b ← rdSrc r r.b
      let t ← fmtOf t
      pure (.and r.head t a b)
    | _ => none
  | 33 =>
    match unpack [4, 10] r.moda with
    | [t, 0] => do
      let a ← rdSrc r r.a
      let b ← rdSrc r r.b
      let t ← fmtOf t
      pure (.or r.head t a b)
    | _ => none
  | 34 =>
    match unpack [4, 10] r.moda with
    | [t, 0] => do
      let a ← rdSrc r r.a
      let b ← rdSrc r r.b
      let t ← fmtOf t
      pure (.xor r.head t a b)
    | _ => none
  | 35 =>
    match unpack [4, 10] r.moda with
    | [t, 0] => do
      let a ← rdSrc r r.a
      let _ ← noSrc r.b
      let t ← fmtOf t
      pure (.not r.head t a)
    | _ => none
  | 36 =>
    match unpack [4, 10] r.moda with
    | [t, 0] => do
      let a ← rdSrc r r.a
      let b ← rdSrc r r.b
      let t ← fmtOf t
      pure (.shl r.head t a b)
    | _ => none
  | 37 =>
    match unpack [4, 10] r.moda with
    | [t, 0] => do
      let a ← rdSrc r r.a
      let b ← rdSrc r r.b
      let t ← fmtOf t
      pure (.shr r.head t a b)
    | _ => none
  | 38 =>
    match unpack [4, 10] r.moda with
    | [t, 0] => do
      let a ← rdSrc r r.a
      let b ← rdSrc r r.b
      let t ← fmtOf t
      pure (.sar r.head t a b)
    | _ => none
  | 39 =>
    match unpack [4, 10] r.moda with
    | [t, 0] => do
      let a ← rdSrc r r.a
      let b ← rdSrc r r.b
      let t ← fmtOf t
      pure (.rot r.head t a b)
    | _ => none
  | 40 =>
    match unpack [4, 10] r.moda, unpack [23] r.modb with
    | [t, 0], [0] => do
      let a ← rdSrc r r.a
      let b ← rdSrc r r.b
      let c ← rdSrc r r.c
      let t ← fmtOf t
      pure (.bfx r.head t a b c)
    | _, _ => none
  | 41 =>
    match unpack [14] r.moda, unpack [23] r.modb with
    | [0], [0] => do
      let a ← rdSrc r r.a
      let b ← rdSrc r r.b
      let c ← rdSrc r r.c
      pure (.bfi r.head a b c)
    | _, _ => none
  | 42 =>
    match unpack [4, 10] r.moda with
    | [t, 0] => do
      let a ← rdSrc r r.a
      let _ ← noSrc r.b
      let t ← fmtOf t
      pure (.popc r.head t a)
    | _ => none
  | 43 =>
    match unpack [4, 10] r.moda with
    | [t, 0] => do
      let a ← rdSrc r r.a
      let _ ← noSrc r.b
      let t ← fmtOf t
      pure (.clz r.head t a)
    | _ => none
  | 44 =>
    match unpack [4, 10] r.moda with
    | [t, 0] => do
      let a ← rdSrc r r.a
      let _ ← noSrc r.b
      let t ← fmtOf t
      pure (.ctz r.head t a)
    | _ => none
  | 45 =>
    match unpack [4, 10] r.moda with
    | [t, 0] => do
      let a ← rdSrc r r.a
      let _ ← noSrc r.b
      let t ← fmtOf t
      pure (.brev r.head t a)
    | _ => none
  | 46 =>
    match unpack [8, 6] r.moda, unpack [23] r.modb with
    | [lut, 0], [0] => do
      let a ← rdSrc r r.a
      let b ← rdSrc r r.b
      let c ← rdSrc r r.c
      pure (.tern r.head (BitVec.ofNat 8 lut) a b c)
    | _, _ => none
  | 47 =>
    match unpack [1, 13] r.moda, unpack [23] r.modb with
    | [d, 0], [0] => do
      let a ← rdSrc r r.a
      let b ← rdSrc r r.b
      let c ← rdSrc r r.c
      let d ← flagOf d
      pure (.shf r.head d a b c)
    | _, _ => none
  | _ => none

/-- OP 0x30 to 0x3F: moves and PMASK (14). -/
def fields3 (op : Nat) (r : Raw) : Option Instr :=
  match op with
  | 48 =>
    match unpack [4, 10] r.moda with
    | [t, 0] => do
      let a ← rdSrc r r.a
      let _ ← noSrc r.b
      let t ← fmtOf t
      pure (.mov r.head t a)
    | _ => none
  | 49 =>
    match unpack [4, 5, 5] r.moda with
    | [t, sh, 0] => do
      let a ← rdSrc r r.a
      let b ← rdSrc r r.b
      let t ← fmtOf t
      pure (.lea r.head (BitVec.ofNat 5 sh) t a b)
    | _ => none
  | 50 =>
    match unpack [4, 1, 9] r.moda with
    | [t, wd, 0] => do
      let a ← rdSrc r r.a
      let _ ← noSrc r.b
      let t ← fmtOf t
      let wd ← flagOf wd
      pure (.iext r.head wd t a)
    | _ => none
  | 51 =>
    match unpack [14] r.moda, unpack [23] r.modb with
    | [0], [0] => do
      let a ← rdSrc r r.a
      let b ← rdSrc r r.b
      let c ← rdSrc r r.c
      pure (.perm r.head a b c)
    | _, _ => none
  | 52 =>
    match unpack [14] r.moda with
    | [0] => do
      let _ ← noSrc r.a
      let _ ← noSrc r.b
      pure (.pmask r.head)
    | _ => none
  | _ => none

/-- OP 0x40 to 0x4F: float (15). -/
def fields4 (op : Nat) (r : Raw) : Option Instr :=
  match op with
  | 64 =>
    match unpack [4, 10] r.moda with
    | [t, 0] => do
      let a ← rdSrc r r.a
      let b ← rdSrc r r.b
      let t ← fmtOf t
      pure (.fadd r.head t a b)
    | _ => none
  | 65 =>
    match unpack [4, 10] r.moda with
    | [t, 0] => do
      let a ← rdSrc r r.a
      let b ← rdSrc r r.b
      let t ← fmtOf t
      pure (.fsub r.head t a b)
    | _ => none
  | 66 =>
    match unpack [4, 10] r.moda with
    | [t, 0] => do
      let a ← rdSrc r r.a
      let b ← rdSrc r r.b
      let t ← fmtOf t
      pure (.fmul r.head t a b)
    | _ => none
  | 67 =>
    match unpack [4, 10] r.moda, unpack [23] r.modb with
    | [t, 0], [0] => do
      let a ← rdSrc r r.a
      let b ← rdSrc r r.b
      let c ← rdSrc r r.c
      let t ← fmtOf t
      pure (.ffma r.head t a b c)
    | _, _ => none
  | 68 =>
    match unpack [4, 10] r.moda with
    | [t, 0] => do
      let a ← rdSrc r r.a
      let b ← rdSrc r r.b
      let t ← fmtOf t
      pure (.fmin r.head t a b)
    | _ => none
  | 69 =>
    match unpack [4, 10] r.moda with
    | [t, 0] => do
      let a ← rdSrc r r.a
      let b ← rdSrc r r.b
      let t ← fmtOf t
      pure (.fmax r.head t a b)
    | _ => none
  | 70 =>
    match unpack [4, 2, 8] r.moda with
    | [t, md, 0] => do
      let a ← rdSrc r r.a
      let b ← rdSrc r r.b
      let t ← fmtOf t
      pure (.fsgn r.head (BitVec.ofNat 2 md) t a b)
    | _ => none
  | 71 =>
    match unpack [4, 4, 6] r.moda with
    | [t, sf, 0] => do
      let a ← rdSrc r r.a
      let _ ← noSrc r.b
      let t ← fmtOf t
      let sf ← fmtOf sf
      pure (.fcvt r.head sf t a)
    | _ => none
  | 72 =>
    match unpack [4, 4, 6] r.moda with
    | [t, sf, 0] => do
      let a ← rdSrc r r.a
      let _ ← noSrc r.b
      let t ← fmtOf t
      let sf ← fmtOf sf
      pure (.icvtf r.head sf t a)
    | _ => none
  | 73 =>
    match unpack [4, 4, 6] r.moda with
    | [t, sf, 0] => do
      let a ← rdSrc r r.a
      let _ ← noSrc r.b
      let t ← fmtOf t
      let sf ← fmtOf sf
      pure (.fcvti r.head sf t a)
    | _ => none
  | 74 =>
    match unpack [4, 2, 8] r.moda, unpack [23] r.modb with
    | [t, hd, 0], [0] => do
      let a ← rdSrc r r.a
      let b ← rdSrc r r.b
      let c ← rdSrc r r.c
      let t ← fmtOf t
      pure (.qnt r.head (BitVec.ofNat 2 hd) t a b c)
    | _, _ => none
  | 75 =>
    match unpack [4, 10] r.moda with
    | [t, 0] => do
      let a ← rdSrc r r.a
      let b ← rdSrc r r.b
      let t ← fmtOf t
      pure (.dqnt r.head t a b)
    | _ => none
  | 76 =>
    match unpack [4, 10] r.moda with
    | [t, 0] => do
      let a ← rdSrc r r.a
      let _ ← noSrc r.b
      let t ← fmtOf t
      pure (.frcp r.head t a)
    | _ => none
  | 77 =>
    match unpack [4, 10] r.moda with
    | [t, 0] => do
      let a ← rdSrc r r.a
      let _ ← noSrc r.b
      let t ← fmtOf t
      pure (.frsq r.head t a)
    | _ => none
  | 78 =>
    match unpack [4, 10] r.moda with
    | [t, 0] => do
      let a ← rdSrc r r.a
      let _ ← noSrc r.b
      let t ← fmtOf t
      pure (.fexp2 r.head t a)
    | _ => none
  | 79 =>
    match unpack [4, 10] r.moda with
    | [t, 0] => do
      let a ← rdSrc r r.a
      let _ ← noSrc r.b
      let t ← fmtOf t
      pure (.flog2 r.head t a)
    | _ => none
  | _ => none

/-- OP 0x50 to 0x5F: float (15). -/
def fields5 (op : Nat) (r : Raw) : Option Instr :=
  match op with
  | 80 =>
    match unpack [4, 10] r.moda with
    | [t, 0] => do
      let a ← rdSrc r r.a
      let _ ← noSrc r.b
      let t ← fmtOf t
      pure (.fsqrt r.head t a)
    | _ => none
  | 81 =>
    match unpack [4, 10] r.moda with
    | [t, 0] => do
      let a ← rdSrc r r.a
      let _ ← noSrc r.b
      let t ← fmtOf t
      pure (.fclass r.head t a)
    | _ => none
  | 82 =>
    match unpack [4, 10] r.moda with
    | [t, 0] => do
      let a ← rdSrc r r.a
      let b ← rdSrc r r.b
      let t ← fmtOf t
      pure (.hadd2 r.head t a b)
    | _ => none
  | 83 =>
    match unpack [4, 10] r.moda with
    | [t, 0] => do
      let a ← rdSrc r r.a
      let b ← rdSrc r r.b
      let t ← fmtOf t
      pure (.hmul2 r.head t a b)
    | _ => none
  | 84 =>
    match unpack [4, 10] r.moda, unpack [23] r.modb with
    | [t, 0], [0] => do
      let a ← rdSrc r r.a
      let b ← rdSrc r r.b
      let c ← rdSrc r r.c
      let t ← fmtOf t
      pure (.hfma2 r.head t a b c)
    | _, _ => none
  | 85 =>
    match unpack [4, 10] r.moda with
    | [t, 0] => do
      let a ← rdSrc r r.a
      let b ← rdSrc r r.b
      let t ← fmtOf t
      pure (.hmin2 r.head t a b)
    | _ => none
  | 86 =>
    match unpack [4, 10] r.moda with
    | [t, 0] => do
      let a ← rdSrc r r.a
      let b ← rdSrc r r.b
      let t ← fmtOf t
      pure (.hmax2 r.head t a b)
    | _ => none
  | _ => none

/-- OP 0x60 to 0x6F: lane exchange (15). -/
def fields6 (op : Nat) (r : Raw) : Option Instr :=
  match op with
  | 96 =>
    match unpack [4, 3, 3, 1, 3] r.moda with
    | [t, seg, 0, 0, 0] => do
      let a ← rdSrc r r.a
      let b ← rdSrc r r.b
      let t ← fmtOf t
      pure (.shfl r.head (BitVec.ofNat 3 seg) t a b)
    | _ => none
  | 97 =>
    match unpack [4, 3, 3, 1, 3] r.moda with
    | [t, seg, 0, 0, 0] => do
      let a ← rdSrc r r.a
      let b ← rdSrc r r.b
      let t ← fmtOf t
      pure (.shflup r.head (BitVec.ofNat 3 seg) t a b)
    | _ => none
  | 98 =>
    match unpack [4, 3, 3, 1, 3] r.moda with
    | [t, seg, 0, 0, 0] => do
      let a ← rdSrc r r.a
      let b ← rdSrc r r.b
      let t ← fmtOf t
      pure (.shfldn r.head (BitVec.ofNat 3 seg) t a b)
    | _ => none
  | 99 =>
    match unpack [4, 3, 3, 1, 3] r.moda with
    | [t, seg, 0, 0, 0] => do
      let a ← rdSrc r r.a
      let b ← rdSrc r r.b
      let t ← fmtOf t
      pure (.shflx r.head (BitVec.ofNat 3 seg) t a b)
    | _ => none
  | 100 =>
    match unpack [4, 3, 3, 1, 3] r.moda with
    | [t, seg, 0, 0, 0] => do
      let a ← rdSrc r r.a
      let _ ← noSrc r.b
      let t ← fmtOf t
      pure (.bcast r.head (BitVec.ofNat 3 seg) t a)
    | _ => none
  | 101 =>
    match unpack [4, 3, 3, 1, 3] r.moda with
    | [0, seg, opr, 0, 0] => do
      let a ← rdSrc r r.a
      let _ ← noSrc r.b
      pure (.vote r.head (BitVec.ofNat 3 opr) (BitVec.ofNat 3 seg) a)
    | _ => none
  | 102 =>
    match unpack [4, 3, 3, 1, 3] r.moda with
    | [t, seg, opr, 0, 0] => do
      let a ← rdSrc r r.a
      let _ ← noSrc r.b
      let t ← fmtOf t
      pure (.redi r.head (BitVec.ofNat 3 opr) (BitVec.ofNat 3 seg) t a)
    | _ => none
  | 103 =>
    match unpack [4, 3, 3, 1, 3] r.moda with
    | [t, seg, opr, 0, 0] => do
      let a ← rdSrc r r.a
      let _ ← noSrc r.b
      let t ← fmtOf t
      pure (.redf r.head (BitVec.ofNat 3 opr) (BitVec.ofNat 3 seg) t a)
    | _ => none
  | 104 =>
    match unpack [4, 3, 3, 1, 3] r.moda with
    | [t, seg, opr, exc, 0] => do
      let a ← rdSrc r r.a
      let _ ← noSrc r.b
      let t ← fmtOf t
      let exc ← flagOf exc
      pure (.scani r.head exc (BitVec.ofNat 3 opr) (BitVec.ofNat 3 seg) t a)
    | _ => none
  | 105 =>
    match unpack [4, 3, 3, 1, 3] r.moda with
    | [t, seg, opr, exc, 0] => do
      let a ← rdSrc r r.a
      let _ ← noSrc r.b
      let t ← fmtOf t
      let exc ← flagOf exc
      pure (.scanf r.head exc (BitVec.ofNat 3 opr) (BitVec.ofNat 3 seg) t a)
    | _ => none
  | _ => none

/-- OP 0x70 to 0x7F: memory and atomics (16). -/
def fields7 (op : Nat) (r : Raw) : Option Instr :=
  match op with
  | 112 =>
    match unpack [1, 3, 3, 4, 3] r.moda with
    | [sx, 0, o, sc, sz] => do
      let a ← rdSrc r r.a
      let _ ← noSrc r.b
      let sx ← flagOf sx
      let o ← ordOf o
      let sc ← scopeOf sc
      pure (.lds r.head (BitVec.ofNat 3 sz) sc o sx a)
    | _ => none
  | 113 =>
    match unpack [1, 3, 3, 4, 3] r.moda with
    | [0, 0, o, sc, sz] => do
      let a ← rdSrc r r.a
      let b ← rdSrc r r.b
      let o ← ordOf o
      let sc ← scopeOf sc
      pure (.sts r.head (BitVec.ofNat 3 sz) sc o a b)
    | _ => none
  | 114 =>
    match unpack [1, 3, 3, 4, 3] r.moda with
    | [sx, 0, o, sc, sz] => do
      let a ← rdSrc r r.a
      let _ ← noSrc r.b
      let sx ← flagOf sx
      let o ← ordOf o
      let sc ← scopeOf sc
      pure (.ldx r.head (BitVec.ofNat 3 sz) sc o sx a)
    | _ => none
  | 115 =>
    match unpack [1, 3, 3, 4, 3] r.moda with
    | [0, 0, o, sc, sz] => do
      let a ← rdSrc r r.a
      let b ← rdSrc r r.b
      let o ← ordOf o
      let sc ← scopeOf sc
      pure (.stx r.head (BitVec.ofNat 3 sz) sc o a b)
    | _ => none
  | 116 =>
    match unpack [4, 3, 4, 3] r.moda, unpack [4, 19] r.modb with
    | [t, o, sc, 0], [p, 0] => do
      let a ← rdSrc r r.a
      let b ← rdSrc r r.b
      let t ← fmtOf t
      let o ← ordOf o
      let sc ← scopeOf sc
      let p ← aopOf p
      if p = .cas then do
        let c ← rdSrc r r.c
        pure (.atom r.head p sc o t a b (some c))
      else do
        let _ ← noSrc r.c
        pure (.atom r.head p sc o t a b none)
    | _, _ => none
  | 117 =>
    match unpack [4, 3, 4, 3] r.moda, unpack [4, 19] r.modb with
    | [t, o, sc, 0], [p, 0] => do
      let a ← rdSrc r r.a
      let b ← rdSrc r r.b
      let t ← fmtOf t
      let o ← ordOf o
      let sc ← scopeOf sc
      let p ← aopOf p
      if p = .cas then do
        let c ← rdSrc r r.c
        pure (.atoms r.head p sc o t a b (some c))
      else do
        let _ ← noSrc r.c
        pure (.atoms r.head p sc o t a b none)
    | _, _ => none
  | _ => none

/-- OP 0x80 to 0x8F: standing loads, sync words, waits and fences (16). -/
def fields8 (op : Nat) (r : Raw) : Option Instr :=
  match op with
  | 128 =>
    match unpack [14] r.moda with
    | [0] => do
      let a ← rdSrc r r.a
      let b ← rdSrc r r.b
      pure (.sub r.head a b)
    | _ => none
  | 129 =>
    match unpack [14] r.moda with
    | [0] => do
      let a ← rdSrc r r.a
      let _ ← noSrc r.b
      pure (.unsub r.head a)
    | _ => none
  | 130 =>
    match unpack [14] r.moda with
    | [0] => do
      let a ← rdSrc r r.a
      let _ ← noSrc r.b
      pure (.slrd r.head a)
    | _ => none
  | 131 =>
    match unpack [11, 1, 2] r.moda with
    | [0, spl, 0] => do
      let a ← rdSrc r r.a
      let b ← rdSrc r r.b
      let spl ← flagOf spl
      pure (.slwait r.head spl a b)
    | _ => none
  | 132 =>
    match unpack [14] r.moda with
    | [0] => do
      let a ← rdSrc r r.a
      let b ← rdSrc r r.b
      pure (.swinit r.head a b)
    | _ => none
  | 133 =>
    match unpack [7, 4, 3] r.moda with
    | [0, sc, 0] => do
      let a ← rdSrc r r.a
      let b ← rdSrc r r.b
      let sc ← scopeOf sc
      pure (.swadd r.head sc a b)
    | _ => none
  | 134 =>
    match unpack [7, 4, 1, 2] r.moda with
    | [0, sc, spl, 0] => do
      let a ← rdSrc r r.a
      let b ← rdSrc r r.b
      let sc ← scopeOf sc
      let spl ← flagOf spl
      pure (.swwait r.head spl sc a b)
    | _ => none
  | 135 =>
    match unpack [11, 1, 2] r.moda, unpack [1, 22] r.modb with
    | [0, spl, 0], [sp, 0] => do
      let a ← rdSrc r r.a
      let b ← rdSrc r r.b
      let c ← rdSrc r r.c
      let spl ← flagOf spl
      let sp ← flagOf sp
      pure (.mwait r.head spl sp a b c)
    | _, _ => none
  | 136 =>
    match unpack [4, 12] r.fx with
    | [s, 0] => do
      let s ← scopeOf s
      pure (.fence r.ctl s)
    | _ => none
  | 137 =>
    match unpack [4, 4, 8] r.fx with
    | [s, m, 0] => do
      let s ← scopeOf s
      pure (.xfence r.ctl (BitVec.ofNat 4 m) s)
    | _ => none
  | 138 =>
    match unpack [16] r.fx with
    | [0] => some (.afence r.ctl)
    | _ => none
  | _ => none

/-- OP 0xA0 to 0xAF: matrix (17). -/
def fieldsA (op : Nat) (r : Raw) : Option Instr :=
  match op with
  | 160 =>
    match unpack [1, 13] r.moda with
    | [cz, 0] => do
      let a ← rdSrc r r.a
      let b ← rdSrc r r.b
      let cz ← flagOf cz
      pure (.mmaLn6 r.head cz a b)
    | _ => none
  | 161 =>
    match unpack [1, 13] r.moda with
    | [cz, 0] => do
      let a ← rdSrc r r.a
      let b ← rdSrc r r.b
      let cz ← flagOf cz
      pure (.mmaLn8 r.head cz a b)
    | _ => none
  | 162 =>
    match unpack [1, 13] r.moda with
    | [cz, 0] => do
      let a ← rdSrc r r.a
      let b ← rdSrc r r.b
      let cz ← flagOf cz
      pure (.mmaI8 r.head cz a b)
    | _ => none
  | 163 =>
    match unpack [1, 13] r.moda with
    | [cz, 0] => do
      let a ← rdSrc r r.a
      let b ← rdSrc r r.b
      let cz ← flagOf cz
      pure (.mmaBf16 r.head cz a b)
    | _ => none
  | 164 =>
    match unpack [1, 13] r.moda with
    | [cz, 0] => do
      let a ← rdSrc r r.a
      let b ← rdSrc r r.b
      let cz ← flagOf cz
      pure (.mmaF16 r.head cz a b)
    | _ => none
  | 165 =>
    match unpack [6, 2, 6] r.moda with
    | [st, pts, 0] => do
      let _ ← noSrc r.a
      let _ ← noSrc r.b
      pure (.had r.head (BitVec.ofNat 2 pts) (BitVec.ofNat 6 st))
    | _ => none
  | 166 =>
    match unpack [6, 1, 7] r.moda with
    | [st, su, 0] => do
      let a ← rdSrc r r.a
      let b ← rdSrc r r.b
      let su ← flagOf su
      pure (.scacc r.head su (BitVec.ofNat 6 st) a b)
    | _ => none
  | 167 =>
    match unpack [6, 1, 7] r.moda with
    | [0, sp, 0] => do
      let a ← rdSrc r r.a
      let b ← rdSrc r r.b
      let sp ← flagOf sp
      pure (.accld r.head sp a b)
    | _ => none
  | 168 =>
    match unpack [6, 1, 7] r.moda with
    | [st, sp, 0] => do
      let a ← rdSrc r r.a
      let b ← rdSrc r r.b
      let sp ← flagOf sp
      pure (.accst r.head sp (BitVec.ofNat 6 st) a b)
    | _ => none
  | 169 =>
    match unpack [6, 6, 4] r.fx with
    | [t, n, 0] => some (.accz r.ctl (BitVec.ofNat 6 n) (BitVec.ofNat 6 t))
    | _ => none
  | _ => none

/-- OP 0xB0 to 0xBF: queues and tasks (17). -/
def fieldsB (op : Nat) (r : Raw) : Option Instr :=
  match op with
  | 176 =>
    match unpack [14] r.moda, unpack [23] r.modb with
    | [0], [0] => do
      let a ← rdSrc r r.a
      let b ← rdSrc r r.b
      let _ ← noSrc r.c
      pure (.qput r.head a b)
    | _, _ => none
  | 177 =>
    match unpack [14] r.moda, unpack [23] r.modb with
    | [0], [0] => do
      let a ← rdSrc r r.a
      let b ← rdSrc r r.b
      let c ← rdSrc r r.c
      pure (.fork r.head a b c)
    | _, _ => none
  | 178 =>
    match unpack [14] r.moda with
    | [0] => do
      let a ← rdSrc r r.a
      let _ ← noSrc r.b
      pure (.join r.head a)
    | _ => none
  | 179 =>
    match unpack [14] r.moda with
    | [0] => do
      let a ← rdSrc r r.a
      let _ ← noSrc r.b
      pure (.gcraise r.head a)
    | _ => none
  | 180 =>
    match unpack [1, 13] r.moda with
    | [fld, 0] => do
      let a ← rdSrc r r.a
      let _ ← noSrc r.b
      let fld ← flagOf fld
      pure (.regrow r.head fld a)
    | _ => none
  | _ => none

/-- OP 0xC0 to 0xCF: system (17). -/
def fieldsC (op : Nat) (r : Raw) : Option Instr :=
  match op with
  | 192 =>
    match unpack [12, 2] r.moda with
    | [csr, 0] => do
      let _ ← noSrc r.a
      let _ ← noSrc r.b
      pure (.sysrd r.head (BitVec.ofNat 12 csr))
    | _ => none
  | 193 =>
    match unpack [12, 2] r.moda with
    | [csr, 0] => do
      let a ← rdSrc r r.a
      let _ ← noSrc r.b
      pure (.syswr r.head (BitVec.ofNat 12 csr) a)
    | _ => none
  | 194 =>
    match unpack [16] r.fx with
    | [0] => some (.drain r.ctl)
    | _ => none
  | _ => none

/-- The instruction of an OP and its fields (R312). -/
def fieldsOf (op : Nat) (r : Raw) : Option Instr :=
  match op / 16 with
  | 0 => fields0 op r
  | 1 => fields1 op r
  | 2 => fields2 op r
  | 3 => fields3 op r
  | 4 => fields4 op r
  | 5 => fields5 op r
  | 6 => fields6 op r
  | 7 => fields7 op r
  | 8 => fields8 op r
  | 10 => fieldsA op r
  | 11 => fieldsB op r
  | 12 => fieldsC op r
  | _ => none

/-- Any source field in use holds 0x1FF (R307). -/
def litUsed (base a b c : Nat) : Bool :=
  base ≠ 1 && (a == 0x1FF || b == 0x1FF || (base == 3 && c == 0x1FF))

/-- The raw fields of the words w0, w1, w2 under a base length, with the guard already read (R298). -/
def rawOf (base : Nat) (k9 : Bool) (w0 w1 w2 : Nat) (g : Option (Bool × BitVec 4)) : Raw :=
  let c : Ctl := { k9 := k9, sc := BitVec.ofNat 4 (bits w0 12 4) }
  { ctl := c, fx := bits w0 16 16,
    head := { ctl := c, guard := g, ds := bit w0 25, nw := bit w0 24, dreg := BitVec.ofNat 8 (bits w0 16 8) },
    a := bits w1 0 9, b := bits w1 9 9, moda := bits w1 18 14,
    c := if base = 3 then bits w2 0 9 else 0, modb := if base = 3 then bits w2 9 23 else 0,
    lit := BitVec.ofNat 32 w2 }

/-- The checks of R307 that follow the guard. -/
def decodeFields (op base : Nat) (k9 : Bool) (w0 w1 w2 : Nat) (g : Option (Bool × BitVec 4)) :
    Except DecodeError Instr :=
  match fieldsOf op (rawOf base k9 w0 w1 w2 g) with
  | none => .error .field
  | some i => if legal i then .ok i else .error .illegal

/-- The decoder on words w0, w1, w2, in the order of R307. -/
def decode3 (w0 w1 w2 : Nat) : Except DecodeError Instr :=
  let len := bits w0 0 2
  let op := bits w0 4 8
  if len = 3 then .error .length
  else if 2 ≤ bits w0 2 2 then .error .version
  else match baseWords op with
    | none => .error .opcode
    | some base =>
      let lit := litUsed base (bits w1 0 9) (bits w1 9 9) (bits w2 0 9)
      if len + 1 < base then .error .short
      else if lit && (base != 2 || isMmaOp op) then .error .literal
      else if len + 1 ≠ (if lit then 3 else base) then .error .mismatch
      else if base = 1 then decodeFields op base (bits w0 2 2 == 1) w0 w1 w2 none
      else match guardOf (bits w0 26 4) (bits w0 30 1) (bits w0 31 1) with
        | none => .error .guard
        | some g => decodeFields op base (bits w0 2 2 == 1) w0 w1 w2 g

/-- Words an instruction takes by its LEN (R295); 1 where LEN is 0b11, since only word 0 is fetched. -/
def lenWords (w0 : Nat) : Nat := if bits w0 0 2 = 3 then 1 else bits w0 0 2 + 1

/-- Word k of a number of 32-bit words, the first lowest. -/
def wordAt (w k : Nat) : Nat := bits w (32 * k) 32

/-- The decoder on an instruction as one number, word 0 lowest: words past LEN are not examined (R307). -/
def decodeNat (w : Nat) : Except DecodeError Instr :=
  let n := lenWords w
  decode3 (wordAt w 0) (if 2 ≤ n then wordAt w 1 else 0) (if 3 ≤ n then wordAt w 2 else 0)

/-- Word 0 of an instruction (R298). -/
def encodeWord0 (l : Layout) (lit : Bool) : Nat :=
  pack ([(2, (if lit then 3 else l.words) - 1), (2, flag l.ctl.k9), (8, l.op), (4, l.ctl.sc.toNat)] ++
    (if l.words = 1 then l.fx
     else [(8, l.head.dreg.toNat), (1, flag l.head.nw), (1, flag l.head.ds)] ++
       (match l.head.guard with
        | none => [(4, 0), (1, 0), (1, 0)]
        | some (gn, gp) => [(4, gp.toNat), (1, flag gn), (1, 1)])))

/-- A source field, zero where it is not read (R301). -/
def encodeSrc : Option Src → Nat
  | none => 0
  | some s => srcCode s

/-- Word 1 (R298). -/
def encodeWord1 (l : Layout) : Nat := pack ([(9, encodeSrc l.a), (9, encodeSrc l.b)] ++ l.moda)

/-- Word 2 of an F12 instruction (R298). -/
def encodeWord2 (l : Layout) : Nat := pack ((9, encodeSrc l.c) :: l.modb)

/-- The words of a laid-out instruction. -/
def encodeLayout (l : Layout) : List Nat :=
  match l.words, litsOf l with
  | 1, _ => [encodeWord0 l false]
  | 2, [] => [encodeWord0 l false, encodeWord1 l]
  | 2, w :: _ => [encodeWord0 l true, encodeWord1 l, w.toNat]
  | _, _ => [encodeWord0 l false, encodeWord1 l, encodeWord2 l]

/-- Words as one number, the first lowest. -/
def ofWords : List Nat → Nat
  | [] => 0
  | w :: r => w + 2 ^ 32 * ofWords r

end Machine

/-- The decoder: a Fergor instruction as one number, word 0 lowest (R307). -/
def decode (w : Nat) : Except DecodeError Instr := Machine.decodeNat w

/-- The words of a well-formed Fergor instruction, or of KSPAWN (R70); no words for a step without an encoding. -/
def encode (i : Instr) : List Nat :=
  match layout i with
  | some l => encodeLayout l
  | none =>
    match i with
    | .kspawn rd rs1 rs2 => [pack [(7, 0x0B), (5, rd.toNat), (3, 0), (5, rs1.toNat), (5, rs2.toNat), (7, 0)]]
    | _ => []

/-- What a service core's word is (R70): KSPAWN, an illegal form under the custom-0 opcode, or a word of the base
instruction set, which the spec does not give. -/
inductive ServiceWord where
  | kspawn (i : Instr)
  | illegal
  | base
  deriving DecidableEq, Repr

/-- The service core's decoder for the custom-0 opcode (R70). -/
def decodeService (w : Nat) : ServiceWord :=
  match unpack [7, 5, 3, 5, 5, 7] w with
  | [0x0B, rd, 0, rs1, rs2, 0] =>
    .kspawn (.kspawn (BitVec.ofNat 5 rd) (BitVec.ofNat 5 rs1) (BitVec.ofNat 5 rs2))
  | [0x0B, _, _, _, _, _] => .illegal
  | _ => .base

/-- The instruction the decoder reads from the table's numbering of bits: a word under opcode custom-0 is a service core's
(R70), since LEN 0b11 makes it no Fergor instruction; every other word is Fergor's (R295). -/
def decodeTableWord (_nbits w : Nat) : Option Instr :=
  match decodeService w with
  | .kspawn i => some i
  | _ =>
    match decode w with
    | .ok i => some i
    | .error _ => none

end Sys2Proof
end

