-- ==== Sys2Proof/Machine/Issue.lean ====
section
/-! DEFINITION. Fetch (R231, R274, R307), readiness and the broadcast choice (R110, R165, R166, R168), the turn of a lane block
(R110, R324), and the shared course of an issue: every instruction's meaning passes through it. -/

namespace Sys2Proof.Machine

/-- What a fetch gives: the lowest address that failed, with the instruction's length and the bytes before that address
where word 0 was fetched (R231), or the instruction's first word, its length in bytes and all its bytes as a number. -/
inductive Fetched where
  | fault (va len bytes : Nat)
  | word (w0 len bytes : Nat)
  deriving DecidableEq, Repr

/-- Fetch the instruction at an address (R231, R307), whether or not its lines are in the instruction cache. -/
def fetchAt (s : State) (p : Program) (c : Core) (a : Nat) : Fetched :=
  match fetchSpan s p c a 4 with
  | .error v => .fault v 0 0
  | .ok l =>
    let w0 := ofBytes (readPas s l)
    let n := 4 * lenWords w0
    match fetchSpan s p c a n with
    | .error v => .fault v n (match fetchSpan s p c a ((v - a) / 4 * 4) with
      | .ok l' => ofBytes (readPas s l')
      | .error _ => w0)
    | .ok l' => .word w0 n (ofBytes (readPas s l'))

/-- The lines of an instruction of n bytes are all in the instruction cache (R166). -/
def fetchHit (p : Program) (c : Core) (a n : Nat) : Bool :=
  match extSpan (codeOf p) kFetch n a with
  | .error _ => true
  | .ok l => l.all (lineIn c)

/-- OFF of a leaf (R272). -/
def leafOff (s : State) (p : Program) (n : Nat) : Nat :=
  match nodeRec s p n with
  | .ok r => bits r 8 32
  | .error _ => 0

/-- The address of a lane's next instruction (R274). -/
def instrVa (s : State) (p : Program) (n off : Nat) : Nat := p.textva + leafOff s p n + off

/-- The instruction of a fetched word: one past its leaf's end, and every reject, raises ILLOP (R274, R307). -/
def instrOf (s : State) (p : Program) (n off : Nat) (w0 len bytes : Nat) : Instr :=
  if off + len > leafLen s p n then .unassignedEncoding (BitVec.ofNat 32 w0)
  else match decodeNat bytes with
    | .ok i => i
    | .error _ => .unassignedEncoding (BitVec.ofNat 32 w0)

/-- SC of an instruction by its word 0 (R296, R297); an illegal VER selects no interpretation. -/
def ctlOfWord (w0 : Nat) : Ctl :=
  if bits w0 2 2 < 2 then { k9 := bits w0 2 2 == 1, sc := BitVec.ofNat 4 (bits w0 12 4) } else { k9 := false, sc := 0 }

/-- The destination kind and register count of an OP (R312), with the count that the width field of word 1 chooses. -/
def mapDest (op w1 : Nat) : Dest :=
  let ty := match fmtOf (bits w1 18 4) with | some t => fmtRegs t | none => 1
  if op ∈ [0x09, 0x0A, 0x0B, 0x0C, 0xB1, 0xB4] then .pred
  else if op ∈ [0xA0, 0xA1, 0xA2, 0xA3, 0xA4, 0xA5, 0xA6, 0xA7] then .tile
  else if op ∈ [0x71, 0x73, 0x84, 0x85, 0xA8, 0xB2, 0xB3, 0xC1] then .none
  else if op ∈ [0x1E, 0x34, 0x65, 0x83, 0x87, 0xB0] then .vec 2
  else if op = 0x82 then .vec 4
  else if op = 0x32 then .vec (1 + bits w1 22 1)
  else if op = 0x70 ∨ op = 0x72 then .vec (szRegs (BitVec.ofNat 3 (bits w1 29 3)))
  else if op = 0xC0 then .vec ((csrRegs (bits w1 18 12)).getD 1)
  else if op ≤ 0x13 ∨ op = 0x14 ∨ (0x15 ≤ op ∧ op ≤ 0x1A) ∨ (0x20 ≤ op ∧ op ≤ 0x27) ∨ op = 0x30 ∨ op = 0x31 ∨
      op = 0x49 ∨ (0x60 ≤ op ∧ op ≤ 0x64) ∨ op = 0x66 ∨ op = 0x68 ∨ op = 0x74 ∨ op = 0x75 then
    .vec (if op = 0x06 ∨ op = 0x0D then 1 else ty)
  else .vec 1

/-- The destination that a trap saves for an instruction that does not decode, by its fetched bytes (R323): none for an F4
instruction or an unassigned OP. -/
def destOfBytes (len bytes : Nat) : SavedDst :=
  let w0 := wordAt bytes 0
  let op := bits w0 4 8
  match baseWords op with
  | none | some 1 => .nothing
  | some _ =>
    if len = 0 ∨ bit w0 24 ∨ bit w0 25 then .nothing
    else match mapDest op (if 8 ≤ len then wordAt bytes 1 else 0) with
      | .vec n => .vec (bits w0 16 8) n
      | .pred => .pred (bits w0 16 8)
      | _ => .nothing

/-- A scalar register has a value on its way (R173). -/
def sPending (g : Group) (r : Nat) : Bool :=
  g.pend.any fun a => a.op != .store && a.dst.ds && !a.dst.nw && a.dst.reg ≤ r && r < a.dst.reg + a.dst.regs

/-- A source waits for its registers (R173, R174). -/
def srcBusy (g : Group) (lane n : Nat) : Option Src → Bool
  | some (.v r) => (upFrom n r.toNat).any (regPending g lane)
  | some (.s r) => (upFrom n r.toNat).any (sPending g)
  | _ => false

/-- A tile is the destination of a queued entry of the group (R174). -/
def tileBusy (s : State) (gh t : Nat) : Bool :=
  s.cores.any fun c => c.2.mq.any fun e => e.gh == gh &&
    match e.op, e.tile with
    | .accz n, some d => d ≤ t && t < d + n
    | _, some d => d == t
    | _, none => false

/-- The destination waits (R174); an MMA with CZ = 1 does not wait for its tile (R383). -/
def destBusy (s : State) (gh : Nat) (g : Group) (lane : Nat) (l : Layout) : Bool :=
  if l.head.nw then false
  else match l.dest with
    | .vec n =>
      if l.head.ds then (upFrom n l.head.dreg.toNat).any (sPending g)
      else (upFrom n l.head.dreg.toNat).any (regPending g lane)
    | .tile => !(isMmaOp l.op && l.moda.head? == some (1, 1)) && tileBusy s gh l.head.dreg.toNat
    | _ => false

/-- The tiles an instruction reads besides its destination (R386 to R390). -/
def readTiles : Instr → List Nat
  | .had _ _ st => [st.toNat]
  | .scacc _ _ st _ _ => [st.toNat]
  | .accst _ _ st _ _ => [st.toNat]
  | .accz _ nm t => upFrom (nm.toNat + 1) t.toNat
  | _ => []

/-- A data or matrix access, a subscription or a wait (R361). -/
def isMemOp (op : Nat) : Bool := 0x70 ≤ op && op ≤ 0x87 || 0xA0 ≤ op && op ≤ 0xA8 || op = 0x4A || 0xB0 ≤ op && op ≤ 0xB2

/-- Instructions that read or write scratchpad, which the group's own matrix entries interlock (R219): loads, stores,
atomics, slots, sync words, QNT, FORK's descriptor, and an MWAIT of space SPAD. -/
def isSpadOp (i : Instr) (op : Nat) : Bool :=
  match i with
  | .mwait _ _ sp .. => sp
  | _ => op = 0x70 || op = 0x71 || op = 0x75 || (0x82 ≤ op && op ≤ 0x86) || op = 0x4A || op = 0xB1

/-- Matrix instructions (R178). -/
def isMatOp (op : Nat) : Bool := 0xA0 ≤ op && op ≤ 0xA9

/-- Instructions that wait for every earlier access of the lane or group (R188, R214, R361, R374, R395, R397). -/
def waitsAll : Instr → Bool
  | .sts _ _ _ o _ _ | .lds _ _ _ o _ _ => isRel o
  | .atoms _ _ _ o .. => isRel o
  | .swadd .. | .sub .. | .unsub .. | .mwait .. | .join .. => true
  | _ => false

/-- Instructions that force a commit (R182). -/
def forcesCommit : Instr → Bool
  | .stx _ _ _ o _ _ => isRel o
  | .sts _ _ _ o _ _ => isRel o
  | .atom .. | .atoms .. | .sub .. | .unsub .. | .swadd .. | .fence .. | .qput .. | .fork .. | .join .. | .gcraise .. =>
    true
  | .xfence _ m _ => bit m.toNat 0
  | _ => false

/-- An entry of the group's in the matrix queue reads or writes its scratchpad (R219). -/
def matTouchesSpad (s : State) (gh : Nat) : Bool :=
  s.cores.any fun c => c.2.mq.any fun e => e.gh == gh &&
    match e.op with
    | .mma .. | .scaccVec .. | .accldSpad .. | .accstSpad .. => true
    | _ => false

/-- Instructions that wait for every earlier access of the group, on whichever path (R395, R397). -/
def waitsGroup : Instr → Bool
  | .fork .. | .gcraise .. => true
  | _ => false

/-- Every earlier access of the group has been performed: of its lanes, of private issues, and of its matrix entries. -/
def groupQuiet (s : State) (gh : Nat) (g : Group) : Bool :=
  g.pend.isEmpty && g.lanes.all (fun l => l.own == 0) && s.cores.all fun c => c.2.mq.all fun e => e.gh != gh

/-- A TRET with a value waits for the registers it reads and for those it writes (R174, R323). -/
def skipvBusy (g : Group) (lane : Nat) : Instr → Bool
  | .tret _ act _ a => act == 2 && match (laneAt g lane).saved with
    | some sv => match sv.dst with
      | .vec r n => srcBusy g lane (Nat.min n 2) a || (upFrom (Nat.min n 2) r).any (regPending g lane)
      | _ => false
    | none => false
  | _ => false

/-- The frames whose node records an instruction's own step reads (R278, R279): EXIT n its n innermost, RET those of its call,
NEXT those down to the loop it names, and TRET EXIT those of the saved path. -/
def neededFrames (s : State) (p : Program) (ln : Lane) : Instr → List Frame
  | .exit _ n => (callSpan s p ln.frames).take n.toNat
  | .next _ n => loopSpan n.toNat (callSpan s p ln.frames)
  | .ret _ => callSpan s p ln.frames
  | .tret _ act n _ => match ln.saved with
    | some sv => if act = 3 then (callSpan s p sv.frames).take n.toNat else []
    | none => []
  | _ => []
where
  loopSpan : Nat → List Frame → List Frame
    | _, [] => []
    | n, f :: r =>
      if nodeKind s p f.node = 3 then (match n with
        | 0 => [f]
        | m + 1 => f :: loopSpan m r)
      else f :: loopSpan n r

/-- What keeps a lane's next instruction from a node record that it reads (R278). -/
def recordBar (s : State) (core : Nat) (g : Group) (lane : Nat) (i : Instr) : Option WalkStep :=
  match progOf s g with
  | none => none
  | some p => framesBar s (coreAt s core) p (neededFrames s p (laneAt g lane) i)

/-- The lane waits for a node record that its next instruction reads (R278). -/
def recordWaits (s : State) (core : Nat) (g : Group) (lane : Nat) (i : Instr) : Bool :=
  match recordBar s core g lane i with
  | some (.blocked _) => true
  | _ => false

/-- An instruction that may commit held stores, by itself or by the move at its end (R180, R182). -/
def mayCommit (s : State) (g : Group) (lane : Nat) (l : Layout) (i : Instr) : Bool :=
  forcesCommit i || (match i with | .stx .. | .exit .. | .next .. | .ret .. | .tret .. => true | _ => false) ||
    match (laneAt g lane).pos, progOf s g with
    | .leaf n o, some p => o + 4 * l.words ≥ leafLen s p n
    | _, _ => false

/-- The virtual address of the device word that an instruction reaches at its home as it issues (R369, R376, R395, R396): none for
other instructions, nor where an operand traps. -/
def wordVa (x : Here) : Instr → Option Nat
  | .sub _ _ b => (rdD x b).toOption
  | .join _ a => (rdD x a).toOption
  | .mwait _ _ false a _ c => match rdD x a, rdN x c with
    | .ok va, .ok vc => some (wrap 64 ((va : Int) + signed 32 vc))
    | _, _ => none
  | .fork _ a _ _ => ((rdN x a).toOption.bind fun va => resolveSpad x.st x.gh x.g va 32).bind fun t =>
    (mfind x.st.groups t.1).bind fun g =>
      let va := spadNum g (t.2 + 16) 8
      if va = 0 then none else some va
  | _ => none

/-- The physical address of that word, or of the one whose subscription the instruction ends (R370). -/
def wordPa (x : Here) (i : Instr) : Option Nat :=
  match i with
  | .unsub _ a => (rdN x a).toOption.bind fun va => (x.g.subs.find? fun e => e.slot == va).map (·.pa)
  | _ => (wordVa x i).bind fun va => (progOf x.st x.g).bind fun p =>
    (extWord (extentsOf p) (match i with | .fork .. => kAtomic | _ => kRead) 8 va).toOption.bind fun l => l.head?.map (·.1)

/-- The lane's next instruction reaches a word whose home a relock stalls (R22). -/
def wordStalls (s : State) (gh : Nat) (g : Group) (lane : Nat) (i : Instr) : Bool :=
  (layout i).any (fun l => guardOn g lane l.head) &&
    (wordPa { st := s, gh := gh, g := g, lane := lane } i).any (homeStalls s)

/-- The lane's next instruction may issue: its operands are clear, and what it must wait for is done (R22, R166, R174, R178,
R278, R361). -/
def clearFor (s : State) (core gh : Nat) (g : Group) (lane : Nat) (i : Instr) : Bool :=
  match layout i with
  | none => true
  | some l =>
    !srcBusy g lane l.ra l.a && !srcBusy g lane l.rb l.b && !srcBusy g lane l.rc l.c && !destBusy s gh g lane l
      && !(readTiles i).any (tileBusy s gh)
      && !(isMatOp l.op && (coreAt s core).mq.length ≥ 4)
      && !skipvBusy g lane i
      && !(isSpadOp i l.op && matTouchesSpad s gh)
      && !(isMemOp l.op && g.pend.any fun a => a.lane == lane && isAcq a.ord && l.op != 0x72 && l.op != 0x73 && l.op != 0x74)
      && !(waitsAll i && g.pend.any fun a => a.lane == lane || l.op ≥ 0xB0)
      && !(waitsGroup i && !groupQuiet s gh g)
      && !(forcesCommit i && g.ck.isSome && !g.pend.isEmpty)
      && !(commitWaits s g && mayCommit s g lane l i)
      && !recordWaits s core g lane i
      && !wordStalls s gh g lane i

/-- A lane may issue: present, not exited, not held, not waiting, with no trap to take, its group running, resident and not
halted, and its group's scratchpad requests complete (R166, R175, R237). -/
def laneFree (g : Group) (l : Lane) : Bool :=
  liveLane l && l.held.isNone && !l.waiting && l.own == 0 && l.pendTrap.isEmpty && g.turn && !g.halted &&
    g.counter == 0 && g.starting.isEmpty

/-- A lane that may issue: group, lane, its position, and its instruction with its words. -/
structure Cand where
  gh : Nat
  lane : Nat
  slane : Nat
  task : Nat
  frames : List Frame
  node : Nat
  off : Nat
  last : Nat
  starved : Bool
  prio : Nat
  deriving DecidableEq, Repr

/-- The priority hint of an instruction whose word 0 is given (R297). -/
def instrPrio (w0 : Nat) : Nat := prioOf (ctlOfWord w0)

/-- A lane's place in the broadcast choice, where it is ready (R166), whether or not its line is in the instruction cache;
one whose fetch faults issues its trap. -/
def candOf (s : State) (c : Nat) (gh : Nat) (g : Group) (lane : Nat) : Option Cand :=
  let l := laneAt g lane
  if !laneFree g l then none
  else match l.pos, progOf s g with
    | .leaf n o, some p =>
      let at0 : Cand :=
        { gh := gh, lane := lane, slane := slotLane g lane, task := taskOf s g, frames := l.frames, node := n,
          off := o, last := l.lastIssue, starved := l.starved, prio := 0 }
      let mk := fun pr : Nat => some { at0 with prio := pr }
      match fetchAt s p (coreAt s c) (instrVa s p n o) with
      | .fault _ len b => mk (if len = 0 then 0 else instrPrio (wordAt b 0))
      | .word w0 len b =>
        let i := instrOf s p n o w0 len b
        if clearFor s c gh g lane i then mk (instrPrio w0) else none
    | _, _ => none

/-- The groups resident in a slot. -/
def slotGroups (s : State) (c slot : Nat) : List (Nat × Group) :=
  s.groups.filter fun p => match p.2.place with | .resident c' sl _ _ => c' == c && sl == slot | _ => false

/-- A slot lane has issued privately in the cycle in progress (R168, R243). -/
def privNow (c : Core) (slot j : Nat) : Bool := (mfind c.lcNow (64 * slot + j)).any fun k => k % 102 / 17 == 1

/-- The ready lanes of a slot that have not issued in the cycle. -/
def slotCands (s : State) (c slot : Nat) : List Cand :=
  ((slotGroups s c slot).flatMap fun p => (upFrom p.2.lanes.length 0).filterMap (candOf s c p.1 p.2)).filter fun x =>
    !privNow (coreAt s c) slot x.slane

/-- Two lanes stand at one path (R164). -/
def samePath (a b : Cand) : Bool := a.task == b.task && a.node == b.node && a.off == b.off && a.frames == b.frames

/-- Child indices from the root come before others (R165). -/
def childLt : List Nat → List Nat → Option Bool
  | a :: r, b :: t => if a < b then some true else if b < a then some false else childLt r t
  | _, _ => none

/-- A path comes first in tree order (R165). -/
def pathLt (a b : Cand) : Bool :=
  match childLt (a.frames.reverse.map (·.child)) (b.frames.reverse.map (·.child)) with
  | some x => x
  | none => a.off < b.off

/-- The least element of a list under a strict order, the earliest of equals. -/
def leastBy {α : Type} (lt : α → α → Bool) : List α → Option α
  | [] => none
  | a :: r => match leastBy lt r with
    | none => some a
    | some b => if lt b a then some b else some a

/-- The greatest of some numbers, 0 for none. -/
def maxNat (l : List Nat) : Nat := l.foldl Nat.max 0

/-- The broadcast choice (R166): a lane at the chosen path. -/
def choose (now : Nat) (l : List Cand) : Option Cand :=
  match leastBy (fun a b => a.last < b.last || a.last == b.last && a.slane < b.slane)
      (l.filter fun c => c.starved || c.last + 256 ≤ now) with
  | some c => some c
  | none =>
    let top := maxNat (l.map (·.prio))
    let l1 := l.filter (·.prio = top)
    let count := fun c : Cand => (l.filter (samePath c)).length
    let most := maxNat (l1.map count)
    let l2 := l1.filter fun c => count c = most
    let first := l2.filter fun c => l2.all fun d => !(d.task == c.task && pathLt d c)
    let low := fun c : Cand => ((l.filter (samePath c)).map (·.slane)).foldl Nat.min c.slane
    leastBy (fun a b => low a < low b) first

/-- Insert an issued instruction into a loop buffer of 48 entries (R167). -/
def bufferInsert (l : Lane) (e : Buffered) : Lane :=
  if l.buffer.any fun x => x.node == e.node && x.off == e.off then l
  else { l with buffer := (l.buffer ++ [e]).drop (l.buffer.length + 1 - 48) }

/-- Two groups of one slot have overlapping lane blocks (R110). -/
def blocksOverlap (a b : Group) : Bool :=
  match a.place, b.place with
  | .resident c sl x _, .resident c' sl' y _ =>
    c == c' && sl == sl' && x * a.width < y * b.width + b.width && y * b.width < x * a.width + a.width
  | _, _ => false

/-- The residency position of a group. -/
def posOf (g : Group) : Nat := match g.place with | .resident _ _ _ p => p | _ => 0

/-- A group has a ready lane (R110, R166), were it its turn: a halt does not bear on readiness, and a lane with a trap to take
goes on at its handler. -/
def groupReady (s : State) (c gh : Nat) (g : Group) : Bool :=
  (upFrom g.lanes.length 0).any fun i =>
    (liveLane (laneAt g i) && !(laneAt g i).pendTrap.isEmpty) ||
      (candOf s c gh { g with turn := true, halted := false } i).isSome

/-- A group loses its lane block (R110): its latches become invalid and its loop buffers empty (R167, R172). -/
def loseBlock (g : Group) : Group :=
  { g with turn := false, latches := [], lanes := g.lanes.map fun l => { l with buffer := [] } }

/-- A group that takes its block's turn (R110). -/
def takeTurn (g : Group) : Group := { g with turn := true }

/-- Groups whose block no running group overlaps start, in residency position (R110). -/
def startFree (s : State) (c slot : Nat) : State :=
  let order := (upFrom 8 0).flatMap fun k => (slotGroups s c slot).filter fun p => posOf p.2 == k
  order.foldl (fun st p =>
    if p.2.turn || (slotGroups st c slot).any (fun q => q.1 ≠ p.1 && q.2.turn && blocksOverlap q.2 p.2) then st
    else onGroup st p.1 takeTurn) s

/-- Pass the turn from a group (R110, R324): to the first resident group after it in residency position, taken cyclically,
whose block overlaps its own and that has a ready lane. Other running groups that its block overlaps lose their blocks too, though they
neither yield nor wait (DESIGN CHOICE, log 49). -/
def passTurn (s : State) (gh : Nat) : State :=
  match mfind s.groups gh with
  | none => s
  | some g =>
    match g.place with
    | .resident c slot _ pos =>
      let others := (slotGroups s c slot).filter fun p =>
        p.1 ≠ gh && blocksOverlap p.2 g && groupReady s c p.1 p.2
      match leastBy (fun (a b : Nat × Group) => (posOf a.2 + 8 - pos) % 8 < (posOf b.2 + 8 - pos) % 8) others with
      | none => s
      | some q =>
        let s1 := (slotGroups s c slot).foldl (fun st p =>
          if p.1 ≠ q.1 && p.2.turn && blocksOverlap p.2 q.2 then onGroup st p.1 loseBlock else st) s
        startFree (onGroup s1 q.1 takeTurn) c slot
    | _ => s

/-- A group passes its turn at the end of the cycle (R110, R236). -/
def askTurn (s : State) (gh : Nat) : State := onGroup s gh fun g => { g with yielding := true }

/-- Mark the issue in one lane: its last cycle of issue, and its loop buffer on broadcast (R167). -/
def noteLane (s : State) (g : Group) (i : Nat) : Group :=
  let l := laneAt g i
  let l1 := { l with lastIssue := cycOf s s.issue.core, starved := false }
  setLane g i (match l.pos with
    | .leaf n o => if s.issue.priv || !s.issue.whole then l1 else bufferInsert l1 { node := n, off := o, bytes := s.issue.bytes }
    | _ => l1)

/-- Mark the path of a broadcast issue for samples (R241), and the number of lanes at it. -/
def notePath (l : Lane) (n : Nat) (g : Group) : Group :=
  { g with lastPath := l.frames, lastOff := (match l.pos with | .leaf _ o => o | _ => 0), lastCount := n }

/-- Restart the watchdog of the issuing group's launch (R240). -/
def noteLaunch (o : Owner) (s : State) : State :=
  match o with
  | .launch id => match mfind s.launches id with
    | some l => { s with launches := mput s.launches id { l with lastIssue := s.time.now.toNat, hangs := 0 } }
    | none => s
  | .part _ => s

/-- Mark the issue in its lanes and its group: last cycle of issue, loop buffers on broadcast (R167), the path of a broadcast
for samples (R241), and the launch's watchdog (R240). -/
def noteIssue (s : State) (gh : Nat) (lanes : List Nat) : State :=
  match mfind s.groups gh with
  | none => s
  | some g =>
    let g1 := { lanes.foldl (noteLane s) g with issuedAt := some (cycOf s s.issue.core) }
    noteLaunch g.owner (setGroup s gh (match lanes with
      | i :: _ => if s.issue.priv then g1 else notePath (laneAt g i) lanes.length g1
      | [] => g1))

/-- The issue's marks in every group that takes part. -/
def noteAll (s : State) : State := s.issue.parts.foldl (fun st p => noteIssue st p.1 p.2) s

/-- Take the turn's passing of a broadcast instruction with Y = 1 (R110, R297). -/
def yieldAfter (s : State) (c : Ctl) : State :=
  if yieldBit c && !s.issue.priv then s.issue.parts.foldl (fun st p => askTurn st p.1) s else s

/-- Raise the traps of a group's lanes, lowest first (R229). -/
def divertAll (s : State) (gh : Nat) (dst : SavedDst) (l : List (Nat × Trap)) : State :=
  l.foldl (fun st p => match mfind st.groups gh with
    | none => st
    | some g => divert st gh p.1 p.2 (placeOf st (laneAt g p.1) dst) st.issue.priv) s

/-- The end of an instruction in the lanes of one group: live regions end (R172), lanes that trapped divert, and the others
go on, with the checkpoint work of a broadcast move. -/
def endGroup (s : State) (gh : Nat) (c : Ctl) (dst : SavedDst) (lanes : List Nat) (traps : List (Nat × Trap)) : State :=
  match mfind s.groups gh with
  | none => s
  | some g =>
    let go := lanes.filter fun i => !(traps.any fun p => p.1 == i)
    let wasIn := !s.issue.priv && anyInside g lanes
    let s1 := setGroup s gh (endLive c lanes g)
    let r := go.foldl (fun (acc : State × List (Nat × Nat)) i =>
      let w := passInstr acc.1 gh i s.issue.len s.issue.priv
      (w.1, acc.2 ++ w.2)) (s1, [])
    let s2 := divertAll r.1 gh dst traps
    settleHolds (if s.issue.priv then s2 else afterMove s2 gh lanes wasIn r.2) gh

/-- A trap raised in every lane of the issue, whatever the guard (R306, R307). -/
def trapAll (s : State) (c : Ctl) (dst : SavedDst) (t : Trap) : State :=
  let s1 := s.issue.parts.foldl (fun st p => endGroup st p.1 c dst p.2 (p.2.map fun i => (i, t))) (noteAll s)
  yieldAfter s1 c

/-- An instruction that acts lane by lane on registers: `f` gives each lane's value, `put` writes the values of a group's
lanes, given in lane order (R162, R229, R299, R300). -/
def runLanes (l : Layout) (f : Here → Except Trap Nat) (put : Group → List (Nat × Nat) → Group) (s : State) : State :=
  let s0 := noteAll s
  let s1 := s.issue.parts.foldl (fun st p =>
    match mfind st.groups p.1 with
    | none => st
    | some g =>
      let outs := p.2.map fun i => (i, laneOut l f { st := st, gh := p.1, g := g, lane := i })
      let st1 := setGroup st p.1 (put g (valsOf outs))
      endGroup st1 p.1 l.head.ctl (savedDst l) p.2 (trapsOf outs)) s0
  yieldAfter s1 l.head.ctl

/-- The checks that come before any meaning (R306): an illegal instruction raises ILLOP in every lane. -/
def checked (i : Instr) (s : State) (k : Layout → State → State) : Host.Outcome State Fault Refusal :=
  match layout i with
  | none => .next s
  | some l =>
    if legal i then .next (k l s) else .next (trapAll s l.head.ctl (savedDst l) (illop s))

/-- An instruction whose result goes to its V destination and its latch. -/
def toRegs (i : Instr) (s : State) (f : Here → Except Trap Nat) : Host.Outcome State Fault Refusal :=
  checked i s fun l => runLanes l f fun g vals =>
    putResults g l.head (match l.dest with | .vec n => n | _ => 1) l.latch vals

/-- An instruction whose result goes to its predicate. -/
def toPred (i : Instr) (s : State) (f : Here → Except Trap Nat) : Host.Outcome State Fault Refusal :=
  checked i s fun l => runLanes l f fun g vals => putPreds g l.head vals

/-- An instruction that acts once per issue (R380): `f` computes, in the lowest-numbered lane that takes part, the state
after its effect or a trap that every such lane raises; the participating lanes are given. -/
def runOnce (l : Layout) (f : Here → List Nat → Except Trap State) (s : State) : State :=
  let s0 := noteAll s
  let s1 := s.issue.parts.foldl (fun st p =>
    match mfind st.groups p.1 with
    | none => st
    | some g =>
      let who := p.2.filter fun i => guardOn g i l.head
      match who with
      | [] => endGroup st p.1 l.head.ctl (savedDst l) p.2 []
      | i :: _ =>
        let h : Here := { st := st, gh := p.1, g := g, lane := i }
        let r := if partOk g l then f h who else .error (illop st)
        match r with
        | .error t => endGroup st p.1 l.head.ctl (savedDst l) p.2 (who.map fun j => (j, t))
        | .ok st1 => endGroup st1 p.1 l.head.ctl (savedDst l) p.2 []) s0
  yieldAfter s1 l.head.ctl

/-- A lane's part of an instruction, none where its guard is false (R162, R299). -/
def laneTry {α : Type} (l : Layout) (f : Here → Except Trap α) (h : Here) : Option (Except Trap α) :=
  if !guardOn h.g h.lane l.head then none
  else if !partOk h.g l then some (.error (illop h.st))
  else some (f h)

/-- What the lanes of a group make of an instruction. -/
def tryLanes {α : Type} (l : Layout) (f : Here → Except Trap α) (st : State) (gh : Nat) (g : Group) (lanes : List Nat) :
    List (Nat × Except Trap α) :=
  lanes.filterMap fun i => (laneTry l f { st := st, gh := gh, g := g, lane := i }).map fun r => (i, r)

/-- The lanes that completed, in lane order. -/
def donesOf {α : Type} (l : List (Nat × Except Trap α)) : List (Nat × α) :=
  l.filterMap fun p => match p.2 with
    | .ok v => some (p.1, v)
    | .error _ => none

/-- The lanes that trapped. -/
def failsOf {α : Type} (l : List (Nat × Except Trap α)) : List (Nat × Trap) :=
  l.filterMap fun p => match p.2 with
    | .ok _ => none
    | .error t => some (p.1, t)

/-- Instructions that write their latch when they complete at a bank or a home (R172). -/
def isLate (l : Layout) : Bool :=
  l.op = 0x70 || l.op = 0x72 || l.op = 0x74 || l.op = 0x75 || l.op = 0x82 || l.op = 0x4A

/-- The control by which the live region ends as the instruction issues: LR is left to the completion of a late one
(R172). -/
def issueCtl (l : Layout) : Ctl :=
  if isLate l && l.head.ctl.k9 then { l.head.ctl with sc := l.head.ctl.sc &&& 0b1011 } else l.head.ctl

/-- In the lanes where a late instruction does nothing, the live region ends at issue (R297). -/
def endOff (l : Layout) (gh : Nat) (lanes who : List Nat) (s : State) : State :=
  if isLate l then onGroup s gh (endLive l.head.ctl (lanes.filter fun i => !who.contains i)) else s

/-- An instruction that acts in each participating lane of a group: `pre` comes first, where a lane takes part (R182), then
`eff` has the effect of the lanes that passed their checks. -/
def runEach {α : Type} (l : Layout) (pre : State → Nat → State) (f : Here → Except Trap α)
    (eff : State → Nat → List (Nat × α) → State) (s : State) : State :=
  let s1 := s.issue.parts.foldl (fun st p =>
    match mfind st.groups p.1 with
    | none => st
    | some g0 =>
      let st0 := if p.2.any fun i => guardOn g0 i l.head then pre st p.1 else st
      match mfind st0.groups p.1 with
      | none => st0
      | some g =>
        let outs := tryLanes l f st0 p.1 g p.2
        endGroup (endOff l p.1 p.2 (outs.map (·.1)) (eff st0 p.1 (donesOf outs))) p.1 (issueCtl l) (savedDst l) p.2
          (failsOf outs)) (noteAll s)
  yieldAfter s1 l.head.ctl

/-- An instruction that begins a wait in the lanes of a group (R169, R195, R204, R205): `mk` makes it from the participating
lanes' parts, with the traps that arise there; lanes that trap divert, lanes whose guard is false wait with the others, and
where no lane takes part the instruction does nothing. -/
def runWaitLate {α : Type} (l : Layout) (pre : State → Nat → State) (f : Here → Except Trap α)
    (mk : State → Nat → List (Nat × α) → (State × Option WaitFor) × List (Nat × Trap)) (spill : Bool) (s : State) :
    State :=
  let s1 := s.issue.parts.foldl (fun st p =>
    match mfind st.groups p.1 with
    | none => st
    | some g0 =>
      let st0 := if p.2.any fun i => guardOn g0 i l.head then pre st p.1 else st
      match mfind st0.groups p.1 with
      | none => st0
      | some g =>
        let outs := tryLanes l f st0 p.1 g p.2
        let who := donesOf outs
        let made := mk st0 p.1 who
        let fails := failsOf outs ++ made.2
        match who, made.1 with
        | [], _ => endGroup st0 p.1 l.head.ctl (savedDst l) p.2 fails
        | _, (st1, none) => endGroup st1 p.1 l.head.ctl (savedDst l) p.2 fails
        | _, (st1, some what) =>
          let ok := fun i : Nat => !(fails.any fun q => q.1 == i)
          let w : Wait :=
            { ticket := st.ticket, lanes := p.2.filter ok, who := (who.map (·.1)).filter ok, what := what,
              spill := spill, woken := false, head := l.head, len := st.issue.len, dst := savedDst l }
          settleHolds (divertAll (beginWait st1 p.1 w) p.1 (savedDst l) fails) p.1) (noteAll s)
  wake (yieldAfter s1 l.head.ctl)

/-- Such an instruction whose traps all arise in its lanes' own checks. -/
def runWait {α : Type} (l : Layout) (pre : State → Nat → State) (f : Here → Except Trap α)
    (mk : State → Nat → List (Nat × α) → State × Option WaitFor) (spill : Bool) (s : State) : State :=
  runWaitLate l pre f (fun st gh who => (mk st gh who, [])) spill s

/-- Nothing before an instruction. -/
def preNone (s : State) (_ : Nat) : State := s

end Sys2Proof.Machine
end

