-- ==== Sys2Proof/Machine/Run.lean ====
section
/-! DEFINITION. Device time and the counters that run with it (R42 to R45, R114, R126), groups as they start (R163), the choice
and fetch of an issue (R166, R168), the lane-cycle counters (R243), and a service core's fetch (R67, R70). -/

namespace Sys2Proof.Machine

/-- The queue a group is charged to (R114). -/
def queueOf (s : State) (g : Group) : Option Nat :=
  match g.owner with
  | .launch id => (mfind s.launches id).map (·.queue)
  | .part id => ((mfind s.rangeParts id).bind fun q => mfind s.tasks q.task).map (·.queue)

/-- Device time after n units of the reference (R42, R43): an offset is slewed at no more than 500 ppm, and without an
offset the last rate correction holds; what a correction leaves below one unit is carried on. -/
def tickTime (t : TimeUnit) (n : Nat) : TimeUnit :=
  let rate : Int := if t.slew ≠ 0 then 500 else t.ppm
  let room : Int := (n : Int) * rate + t.part
  let whole := room / 1000000
  let d : Int := if t.slew ≠ 0 then clampInt (-whole) whole t.slew else whole
  { t with now := t.now + BitVec.ofNat 64 ((n : Int) + d).toNat,
           slew := t.slew - (if t.slew ≠ 0 then d else 0),
           part := if t.slew ≠ 0 && t.slew = d then 0 else room % 1000000,
           quiet := t.quiet + n }

/-- RATIO of a clock code: 1.05 GHz / f, an unsigned 8.24 value rounded to nearest even (R45). -/
def ratioOf (c : Nat) : Nat :=
  let n := 42 * 2 ^ 24
  let d := 14 + c
  let q := n / d
  let r := n % d
  if 2 * r > d ∨ (2 * r = d ∧ q % 2 = 1) then q + 1 else q

/-- A layer's counters after n units of device time (R21, R45): both hold during a relock (R22). -/
def tickLayer (l : Layer) (n : Nat) : Layer :=
  if l.clock.relock.isSome || l.state = .off then l
  else
    let ph := l.phase + n * (14 + l.clock.code)
    let cycles := ph / 2621440
    { l with phase := ph % 2621440, cyc := l.cyc + BitVec.ofNat 64 cycles,
             rcy := l.rcy + BitVec.ofNat 64 (cycles * ratioOf l.clock.code) }

/-- A queue's USED after a passage of time in which some nanoseconds end (R113, R114): each in which one of its groups has
been resident is charged at its end. -/
def tickQueue (s : State) (ns : Nat) (q : Nat) (x : Queue) : Queue :=
  let here := s.groups.any fun p => (coreOf p.2).isSome && queueOf s p.2 == some q
  { x with used := Nat.min (x.used + (if here then ns else if x.lit then Nat.min ns 1 else 0)) (2 ^ 40 - 1),
           lit := here || x.lit && ns == 0 }

/-- The deadline timer of a draining context (R126), suspended while one of its groups is halted. -/
def tickCtx (s : State) (n ctx : Nat) (c : Context) : Context :=
  if c.state = .drain && !(s.groups.any fun p => p.2.ctx == ctx && p.2.halted) then
    { c with deadline := c.deadline - n }
  else c

/-- A launch's watchdog, suspended while one of its groups is halted (R240). -/
def tickLaunch (s : State) (n id : Nat) (l : Launch) : Launch :=
  if s.groups.any fun p => p.2.owner == .launch id && p.2.halted then { l with lastIssue := l.lastIssue + n } else l

/-- A lane at the start of a group (R163). -/
def startLane (present : Bool) (pos : Pos) : Lane :=
  { absentLane with present := present, pos := pos }

/-- A group at its start (R163): registers, tiles and scratchpad zero, predicates 0, latches invalid. -/
def startGroup (ctx : Nat) (owner : Owner) (width : Nat) (pitw : Word) (place : Place) (lanes : List Lane) : Group :=
  { ctx := ctx, owner := owner, gindex := 0, gang := 0, x := 0, y := 0, z := 0, stage := 0, member := 0,
    width := width, place := place, turn := false, pitw := pitw, subfail := 0, extsel := 0, traptree := 0, csrNext := [],
    sregs := [], vregs := [], preds := [], latches := [], tiles := [], spad := [], lanes := lanes, vbusy := [],
    counter := 0, pend := [], held := [], ck := none, subs := [], waits := [], halted := false, drained := false,
    halting := false, yielding := false, attribs := [], drainWait := false, starting := [], lastPath := [], lastOff := 0,
    lastCount := 0, issuedAt := none, lastTime := none, halves := [], behind := [] }

/-- A core with power, whose layer runs, and that is neither fenced nor failing (R22, R25 to R27). -/
def coreRuns (s : State) (c : Nat) : Bool :=
  let l := layerAt s (layerOfCore c)
  s.pkg.power && l.clock.relock.isNone && l.state ≠ .off && !(coreAt s c).fenced && !(coreAt s c).failing

/-- The bin of a lane's next instruction (R243). -/
def lcBin (c : Core) (va : Option Nat) : Nat :=
  match va with
  | none => 16
  | some a => match (upFrom 16 0).find? fun i =>
      match sget (0, 0) c.lcRanges i with
      | (lo, hi) => c.lcRanges.any (fun p => p.1 == i) && lo.toNat ≤ a && a ≤ hi.toNat with
    | some i => i
    | none => 16

/-- The class of a slot lane in a cycle (R243), in which the slot issues on broadcast in `parts`, or issues nothing there and
misses the instruction cache with the lanes of `miss`: 0 active-broadcast, 2 predicated off, 3 masked by divergence, 4 absent,
5 idle; and its next instruction's address. -/
def lcClass (s : State) (c slot : Nat) (parts miss : List (Nat × List Nat)) (h : Option Head) (j : Nat) :
    Nat × Option Nat :=
  let covers := fun g : Group => match g.place with
    | .resident _ _ b _ => b * g.width ≤ j && j < b * g.width + g.width
    | _ => false
  let gs := (slotGroups s c slot).filter fun p => covers p.2
  match (match gs.find? (fun p => p.2.turn) with | some p => some p | none => gs.head?) with
  | none => (5, none)
  | some (gh, g) =>
    let i := j % g.width
    let l := laneAt g i
    let va := match l.pos, progOf s g with
      | .leaf n o, some p => some (instrVa s p n o)
      | _, _ => none
    if !liveLane l then (4, va)
    else match parts.find? fun p => p.1 == gh with
      | some p =>
        if p.2.contains i then
          ((match h with | some hd => if guardOn g i hd then 0 else 2 | none => 0), va)
        else (3, va)
      | none =>
        if (candOf s c gh g i).isSome && !(miss.any fun p => p.1 == gh && p.2.contains i) then (3, va) else (5, va)

/-- The counter of a class and bin of a slot (R243). -/
def lcKey (slot cls bin : Nat) : Nat := slot * 102 + cls * 17 + bin

/-- The counter of a slot lane in a cycle in which the given lanes issue, or miss. -/
def lcKeyOf (s : State) (c slot : Nat) (parts miss : List (Nat × List Nat)) (h : Option Head) (j : Nat) : Nat :=
  let r := lcClass s c slot parts miss h j
  lcKey slot r.1 (lcBin (coreAt s c) r.2)

/-- Add cycles to a lane-cycle counter; those of the last counter of a slot, idle lanes that match no range, are what remains
of its 64 lanes' cycles (R243). -/
def lcAdd (m : List (Nat × Nat)) (key n : Nat) : List (Nat × Nat) :=
  if n = 0 ∨ key % 102 = 101 then m else sset 0 m key (sget 0 m key + n)

/-- A lane-cycle counter as it reads, saturating at 48 bits (R243). -/
def lcValue (s : State) (c slot cls bin : Nat) : Nat :=
  let m := (coreAt s c).lcCount
  let v := if lcKey 0 cls bin = 101 then
      64 * (layerAt s (layerOfCore c)).cyc.toNat - (upFrom 101 (102 * slot)).foldl (fun n k => n + sget 0 m k) 0
    else sget 0 m (lcKey slot cls bin)
  Nat.min v (2 ^ 48 - 1)

/-- Note the classes of a cycle (R243): a broadcast, or one that misses, sets those of every lane of the slot that has not
issued privately in the cycle, and a private issue that of its lane. -/
def lcCycle (s : State) (c slot : Nat) (parts miss : List (Nat × List Nat)) (h : Option Head) (priv : Option Nat) : State :=
  let core := coreAt s c
  let put := fun (m : List (Nat × Nat)) (j : Nat) =>
    if privNow { core with lcNow := m } slot j then m else mput m (64 * slot + j) (lcKeyOf s c slot parts miss h j)
  setCore s c { core with lcNow := match priv with
    | some j => mput core.lcNow (64 * slot + j) (lcKey slot 1 (lcBin core (lcClass s c slot parts miss h j).2))
    | none => (upFrom 64 0).foldl put core.lcNow }

/-- Groups' lanes at the chosen path, in order of slot lane (R166, R362). -/
def partsOf (l : List Cand) : List (Nat × List Nat) :=
  let sorted := (upFrom 64 0).filterMap fun k => l.find? fun c => c.slane == k
  let ghs := (sorted.map (·.gh)).eraseDups
  ghs.map fun gh => (gh, (sorted.filter fun c => c.gh == gh).map (·.lane))

/-- What a slot would issue on broadcast (R166): the chosen path's groups and lanes, its address, and what its fetch
gives; none where no lane is ready. -/
def broadcastOf (s : State) (c slot : Nat) : Option (Cand × List (Nat × List Nat) × Nat × Fetched × Program) :=
  let cands := slotCands s c slot
  match choose (cycOf s c) cands with
  | none => none
  | some x => match (mfind s.groups x.gh).bind (progOf s) with
    | none => none
    | some p =>
      let a := instrVa s p x.node x.off
      some (x, partsOf (cands.filter (samePath x)), a, fetchAt s p (coreAt s c) a, p)

/-- The lanes of a slot's chosen path whose line is not in the instruction cache, and which therefore issue nothing (R166). -/
def missOf (s : State) (c slot : Nat) : List (Nat × List Nat) :=
  match broadcastOf s c slot with
  | some (_, parts, a, .word _ len _, p) => if fetchHit p (coreAt s c) a len then [] else parts
  | _ => []

/-- Count the cycle in progress of a slot's lanes and the cycles after it in which nothing issues, n in all (R243). -/
def lcSlot (s : State) (n c : Nat) (m : List (Nat × Nat)) (slot : Nat) : List (Nat × Nat) :=
  let miss := missOf s c slot
  (upFrom 64 0).foldl (fun m j =>
    let idle := lcKeyOf s c slot [] miss none j
    lcAdd (lcAdd m ((mfind (coreAt s c).lcNow (64 * slot + j)).getD idle) 1) idle (n - 1)) m

/-- A core passes n cycles: those of its slots' lanes are counted (R243), and what it noted of the one in progress ends. -/
def endCycles (s : State) (n c : Nat) : State :=
  let core := coreAt s c
  let slots := (upFrom 2 0).filter fun sl => !(slotGroups s c sl).isEmpty || core.lcNow.any fun p => p.1 / 64 == sl
  if n = 0 then s else setCore s c { core with lcNow := [], mqNew := [], lcCount := slots.foldl (lcSlot s n c) core.lcCount }

/-- Cores that hold a group, or have issued or accepted a matrix entry in the cycle in progress. -/
def busyCores (s : State) : List Nat :=
  (s.groups.filterMap (fun p => coreOf p.2) ++
    (s.cores.filter fun p => !p.2.lcNow.isEmpty || !p.2.mqNew.isEmpty).map (·.1)).eraseDups

/-- Let n units of device time pass; without power nothing runs (R25). -/
def passTime (s : State) (n : Nat) : State :=
  if n = 0 || !s.pkg.power then s
  else
    let t := tickTime s.time n
    let moved := (t.now - s.time.now).toNat
    let ns := (s.time.now.toNat % 65536 + moved) / 65536
    let cycles := fun c : Nat =>
      ((tickLayer (layerAt s (layerOfCore c)) n).cyc - (layerAt s (layerOfCore c)).cyc).toNat
    let s0 := (busyCores s).foldl (fun st c => endCycles st (cycles c) c) s
    let s1 := { s0 with time := t, contexts := s.contexts.map fun (p : Nat × Context) => (p.1, tickCtx s moved p.1 p.2),
                          launches := s.launches.map fun (p : Nat × Launch) => (p.1, tickLaunch s moved p.1 p.2) }
    let s2 := (upFrom 8 0).foldl (fun st k => setLayer st k (tickLayer (layerAt st k) n)) s1
    s2.queues.foldl (fun st p => setQueue st p.1 (tickQueue s ns p.1 p.2)) s2

/-- The head of an encoded instruction, for its guard. -/
def headOf (i : Instr) : Option Head :=
  match layout i with
  | some l => if l.words = 1 then none else some l.head
  | none => none

/-- What an occurrence comes to: no instruction, or an instruction to run. -/
inductive Prepared where
  | idle (s : State)
  | run (i : Instr) (s : State)
  deriving DecidableEq, Repr

/-- Before the choice: turns start or pass where a running group waits (R110), walks go on (R278), and holds end where no
lane of the group is ready (R170). -/
def beforeChoice (s : State) (c slot : Nat) : State :=
  let s1 := startFree s c slot
  let s2 := (slotGroups s1 c slot).foldl (fun st p => settleHolds (resumeWalks st p.1) p.1) s1
  let s3 := (slotGroups s2 c slot).foldl (fun st p =>
    match mfind st.groups p.1 with
    | none => st
    | some g =>
      if (g.lanes.any fun l => l.held.isSome) && !groupReady st c p.1 g then
        setGroup st p.1 { g with lanes := g.lanes.map fun l => { l with held := none } }
      else st) s2
  (slotGroups s3 c slot).foldl (fun st p =>
    match mfind st.groups p.1 with
    | none => st
    | some g => if g.turn && !groupReady st c p.1 g then passTurn st p.1 else st) s3

/-- The slot lanes of a group's block (R110). -/
def blockLanes (g : Group) : List Nat := (upFrom g.width 0).map (slotLane g)

/-- A broadcast instruction that uses every lane of its groups' blocks (R168): lane exchange and group reductions. -/
def usesBlock (i : Instr) : Bool :=
  match layout i with
  | some l => 0x60 ≤ l.op && l.op ≤ 0x69
  | none => false

/-- The slot lanes that a broadcast instruction at a path uses (R168). -/
def usedLanes (s : State) (i : Instr) (parts : List (Nat × List Nat)) : List Nat :=
  parts.flatMap fun p => match mfind s.groups p.1 with
    | none => []
    | some g => if usesBlock i then blockLanes g else p.2.map (slotLane g)

/-- Note a broadcast issue of a slot and the lanes it uses. -/
def noteBcast (s : State) (c slot : Nat) (used : List Nat) : State :=
  let x := coreAt s c
  setCore s c { x with bcast := mput x.bcast slot (cycOf s c, used) }

/-- A slot has made its choice in the cycle in progress (R166): it makes one in a cycle. -/
def chosenNow (s : State) (c slot : Nat) : Bool := (mfind (coreAt s c).bcast slot).any fun p => p.1 == cycOf s c

/-- Choose, fetch and decode a broadcast issue of a slot (R166, R307): a path whose line is not in the instruction cache
issues nothing in the cycle. -/
def prepareIssue (s : State) (c slot : Nat) : Prepared :=
  if !coreRuns s c || chosenNow s c slot then .idle s
  else
    let s1 := beforeChoice s c slot
    match broadcastOf s1 c slot with
    | none => .idle s1
    | some (_, parts, a, .fault v len b, _) =>
      let iss : Issue :=
        { Issue.reset with core := c, slot := slot, parts := parts, addr := a, word0 := wordAt b 0, len := len, whole := false }
      let t : Trap := { code := 0x03, addr1 := a, addr2 := some v, info := 8 }
      let ctl := if len = 0 then { k9 := false, sc := 0 } else ctlOfWord (wordAt b 0)
      let s2 := noteBcast (lcCycle s1 c slot parts [] none none) c slot (usedLanes s1 (.unassignedEncoding 0) parts)
      .idle (trapAll { s2 with issue := iss, ticket := s2.ticket + 1 } ctl (destOfBytes len b) t)
    | some (x, parts, a, .word w0 len b, p) =>
      if !fetchHit p (coreAt s1 c) a len then
        .idle (noteBcast (lcCycle s1 c slot [] parts none none) c slot (usedLanes s1 (.unassignedEncoding 0) parts))
      else
        let i := instrOf s1 p x.node x.off w0 len b
        let iss : Issue :=
          { Issue.reset with core := c, slot := slot, parts := parts, addr := a, word0 := w0, len := len, bytes := b }
        let s2 := noteBcast (lcCycle s1 c slot parts [] (headOf i) none) c slot (usedLanes s1 i parts)
        .run i { s2 with issue := iss, ticket := s2.ticket + 1 }

/-- The cycle's broadcast leaves a slot lane to its own unit (R168): it is not one of the lanes that the broadcast issued in
this cycle used, nor, before one has issued, of those that the chosen path would use. -/
def leftByBroadcast (s : State) (c slot j : Nat) : Bool :=
  match mfind (coreAt s c).bcast slot with
  | some (cyc, used) => if cyc = cycOf s c then !used.contains j else leftByChoice s c slot j
  | none => leftByChoice s c slot j
where
  leftByChoice (s : State) (c slot j : Nat) : Bool :=
    match broadcastOf s c slot with
    | none => true
    | some (_, parts, _, .fault .., _) => !(usedLanes s (.unassignedEncoding 0) parts).contains j
    | some (x, parts, a, .word w0 len b, p) =>
      if fetchHit p (coreAt s c) a len then !(usedLanes s (instrOf s p x.node x.off w0 len b) parts).contains j
      else !(usedLanes s (.unassignedEncoding 0) parts).contains j

/-- A private issue of a slot lane, which issues once in a cycle (R168): its next instruction must be lane-class and in its
loop buffer. -/
def preparePriv (s : State) (c slot j : Nat) : Prepared :=
  if !coreRuns s c || privNow (coreAt s c) slot j then .idle s
  else
    match (slotGroups s c slot).find? fun p => p.2.turn && (upFrom p.2.width 0).any fun i => slotLane p.2 i == j with
    | none => .idle s
    | some (gh, g) =>
      let i := j % g.width
      let l := laneAt g i
      match l.pos, progOf s g with
      | .leaf n o, some p =>
        match l.buffer.find? fun e => e.node == n && e.off == o with
        | none => .idle s
        | some e =>
          let len := 4 * lenWords e.bytes
          let w0 := e.bytes % 2 ^ 32
          let ins := instrOf s p n o w0 len e.bytes
          let lane := match layout ins with
            | some ly => !ly.grp && !(ly.head.ds && ly.words ≠ 1)
            | none => true
          if laneFree g l && lane && clearFor s c gh g i ins && leftByBroadcast s c slot j then
            let s1 := lcCycle s c slot [(gh, [i])] [] (headOf ins) (some j)
            let iss : Issue :=
              { Issue.reset with core := c, slot := slot, parts := [(gh, [i])], priv := true, addr := instrVa s p n o,
                                 word0 := w0, len := len, bytes := e.bytes }
            .run ins { s1 with issue := iss, ticket := s1.ticket + 1 }
          else .idle s
      | _, _ => .idle s

/-- A slot has a path that would issue now. -/
def slotIssues (s : State) (c slot : Nat) : Bool :=
  match broadcastOf (beforeChoice s c slot) c slot with
  | some (_, _, a, .word _ len _, p) => fetchHit p (coreAt s c) a len
  | some _ => true
  | none => false

/-- The lowest core and slot that has a path to issue. -/
def readySlot (s : State) : Option (Nat × Nat) :=
  let places := s.groups.filterMap fun p => match p.2.place with
    | .resident c sl _ _ => if p.2.turn || !(p.2.lanes.all fun l => l.exited) then some (c, sl) else none
    | _ => none
  leastBy (fun a b => a.1 < b.1 || a.1 == b.1 && a.2 < b.2)
    (places.filter fun q => coreRuns s q.1 && slotIssues s q.1 q.2)

end Sys2Proof.Machine
end

