-- ==== Sys2Proof/Machine/Scratch.lean ====
section
/-! DEFINITION. Scratchpad instructions, sync words and the banks that serve them (07 R175 to R177, 08 R194, R201 to R204, 15 R349,
R350, 16 R364, R367, R371, R373 to R375). -/

namespace Sys2Proof.Machine

/-- Split bytes at 32-byte chunks (R364): place in the access, offset and size of each piece. -/
def chunkPieces : Nat → Nat → Nat → Nat → List (Nat × Nat × Nat)
  | 0, _, _, _ => []
  | k + 1, skip, off, n =>
    if n = 0 then []
    else
      let m := Nat.min n (32 - off % 32)
      (skip, off, m) :: chunkPieces k (skip + m) (off + m) (n - m)

/-- Add a lane request to those of its issue: requests for one chunk are merged (R175). -/
def mergeReq (r : BankReq) : List (List BankReq) → List (List BankReq)
  | [] => [[r]]
  | l :: rest =>
    match l with
    | q :: _ => if q.target = r.target ∧ q.off / 32 = r.off / 32 then (l ++ [r]) :: rest else l :: mergeReq r rest
    | [] => mergeReq r rest

/-- The merged requests of an issue. -/
def mergeReqs (l : List BankReq) : List (List BankReq) := l.foldl (fun acc r => mergeReq r acc) []

/-- Issue the requests of an issue's lanes (R175). -/
def issueAll (s : State) (l : List BankReq) : State := (mergeReqs l).foldl issueReq s

/-- The destination of an instruction as an access writes it. -/
def loadDst (l : Layout) (priv : Bool) (size : Nat) (sx : Bool) : LoadDst :=
  match l.dest with
  | .vec n => { ds := l.head.ds, nw := l.head.nw, reg := l.head.dreg.toNat, regs := n, size := size, sx := sx, priv := priv,
                lr := lrBit l.head.ctl }
  | _ => { ds := false, nw := true, reg := 0, regs := 0, size := size, sx := false, priv := priv, lr := false }

/-- Only the lowest lane's request writes a scalar destination (R300). -/
def firstScalar : List (Nat × List BankReq) → List BankReq
  | [] => []
  | (_, l) :: r => l ++ r.flatMap fun p => p.2.map fun q =>
      if q.dst.ds then { q with dst := { q.dst with nw := true } } else q

/-- An addition to a sync word (R202): TARGET, COUNT, GEN and ERR of its 16 bytes. -/
def syncAdd (old n : Nat) : Nat :=
  let target := bits old 0 32
  let count := bits old 32 32
  let gen := bits old 64 32
  if target = 0 then pack [(32, target), (32, count), (32, gen), (1, 1)]
  else pack [(32, target), (32, (count + n) % target), (32, (gen + (count + n) / target) % 2 ^ 32), (1, bits old 96 1)]

/-- Write into a target's scratchpad by a request: another member's write and one issued before the target's checkpoint are
not undone by a rollback (R180), and waits look at it (R206). -/
def putTarget (s : State) (r : BankReq) (off : Nat) (bytes : List Byte) : State :=
  let s := leaveBehind s r.gh false r.target off bytes.length
  match mfind s.groups r.target with
  | none => s
  | some t => watchSpad (setGroup s r.target (putSpad t (r.gh ≠ r.target || beforeCk t r.ticket) off bytes))

/-- Give a request's value to its lane (R172, R175). -/
def giveLoad (s : State) (r : BankReq) (v : Nat) : State :=
  match mfind s.groups r.gh with
  | none => s
  | some g => setGroup s r.gh (putLoad g (beforeCk g r.ticket) r.lane r.dst r.latch v)

/-- The bytes of an access served in pieces, in their order. -/
def joinHalves (n : Nat) (l : List Half) : List Byte :=
  (upFrom n 0).flatMap fun k => (l.filter fun h => h.skip == k).flatMap (·.bytes)

/-- Keep a served piece; once all pieces are served, the bytes of the whole access (R364). -/
def keepHalf (g : Group) (r : BankReq) (bytes : List Byte) : Group × Option (List Byte) :=
  if bytes.length = r.dst.size then (g, some bytes)
  else
    let mine := fun h : Half => h.ticket == r.ticket && h.lane == r.lane
    let l := g.halves.filter mine ++ [{ ticket := r.ticket, lane := r.lane, skip := r.skip, bytes := bytes }]
    if (l.map fun h => h.bytes.length).foldl (· + ·) 0 ≥ r.dst.size then
      ({ g with halves := g.halves.filter fun h => !mine h }, some (joinHalves r.dst.size l))
    else ({ g with halves := g.halves ++ [{ ticket := r.ticket, lane := r.lane, skip := r.skip, bytes := bytes }] }, none)

/-- The values of a QNT block (R349). -/
def qntValues (bytes : List Byte) : List Nat := (upFrom 32 0).map fun i => ofBytes ((bytes.drop (4 * i)).take 4)

/-- The stores of a QNT once its block has been read: 24 bytes of LN6 codes or 32 of LN8 (R349, R350). -/
def qntStores (r : BankReq) (out : Nat) (codes : List Byte) : List BankReq :=
  (chunkPieces codes.length 0 out codes.length).map fun p =>
    { r with off := p.2.1, size := p.2.2, skip := p.1, op := .store ((codes.drop p.1).take p.2.2), latch := 4,
             dst := { r.dst with nw := true } }

/-- Serve one lane's part of a request at its bank (R175, R194, R202, R203, R350, R364, R367). -/
def serveOne (s : State) (r : BankReq) : State :=
  match mfind s.groups r.target with
  | none => s
  | some t =>
    let bytes := spadBytes t r.off r.size
    match r.op with
    | .load =>
      match mfind s.groups r.gh with
      | none => s
      | some g =>
        let k := keepHalf g r bytes
        let s1 := setGroup s r.gh k.1
        match k.2 with
        | none => s1
        | some b => giveLoad s1 r (loadValue r.dst (ofBytes b))
    | .store data => putTarget s r r.off data
    | .atom aop ty b c =>
      let old := ofBytes bytes
      let s1 := match atomNew aop ty old b c with
        | some w => putTarget s r r.off (toBytes r.size w)
        | none => s
      giveLoad s1 r old
    | .slrd =>
      let old := ofBytes bytes
      giveLoad (putTarget s r r.off (toBytes 16 (old - bits old 96 3 * 2 ^ 96))) r old
    | .swinit target => putTarget s r r.off (toBytes 16 (target % 2 ^ 32))
    | .swadd n => putTarget s r r.off (toBytes 16 (syncAdd (ofBytes bytes) n))
    | .frame data => if data.isEmpty then s else putTarget s r r.off data
    | .qnt ty had scale out =>
      match mfind s.groups r.gh with
      | none => s
      | some g =>
        let k := keepHalf g r bytes
        let s1 := setGroup s r.gh k.1
        match k.2 with
        | none => s1
        | some b =>
          let q := qntBlock ty had scale (qntValues b)
          let codes := if ty = .ln6 then packLn6 q.1 else q.1.map (BitVec.ofNat 8)
          let s2 := giveLoad s1 r (q.2.1 + 256 * flag q.2.2)
          (qntStores r out codes).foldl (fun st x => issueReq st [x]) s2

/-- A request is complete (R175): the group's counter, or the private lane's own, goes down by one. -/
def completeReq (s : State) (r : BankReq) : State :=
  match mfind s.groups r.gh with
  | none => s
  | some g =>
    setGroup s r.gh (if r.dst.priv then
        let l := laneAt g r.lane
        setLane g r.lane { l with own := l.own - 1 }
      else { g with counter := g.counter - 1 })

/-- Serve a merged request: its lanes in order, then one completion. -/
def serveReq (s : State) (l : List BankReq) : State :=
  match l with
  | [] => s
  | r :: _ => completeReq (l.foldl serveOne s) r

/-- Take the first request for a bank from the port. -/
def takePort (b : Nat) : List (List BankReq) → Option (List BankReq × List (List BankReq))
  | [] => none
  | r :: rest =>
    if bankOfReq r = b then some (r, rest)
    else (takePort b rest).map fun x => (x.1, r :: x.2)

/-- A bank serves the head of its queue, and a request waiting at the port enters (R175). -/
def serveBank (s : State) (c b : Nat) : State :=
  let core := coreAt s c
  match bankQueue core b with
  | [] => s
  | r :: rest =>
    let core1 := match takePort b core.port with
      | some x => { core with banks := sset [] core.banks b (rest ++ [x.1]), port := x.2 }
      | none => { core with banks := sset [] core.banks b rest }
    serveReq (setCore s c core1) r

/-- Serve everything that arrived at a bank before a landing (R176). -/
def drainBank (c b : Nat) : Nat → State → State
  | 0, s => s
  | n + 1, s => if (bankQueue (coreAt s c) b).isEmpty then s else drainBank c b n (serveBank s c b)

/-- Requests at a core, a bound on how many a bank can serve. -/
def requestsAt (s : State) (c : Nat) : Nat :=
  let x := coreAt s c
  x.port.length + (x.banks.map fun p => p.2.length).foldl (· + ·) 0

/-- Serve what arrived earlier at the banks of n bytes of a group's scratchpad (R176). -/
def drainFor (s : State) (gh off n : Nat) : State :=
  match (mfind s.groups gh).bind coreOf with
  | none => s
  | some c =>
    (chunkPieces n 0 off n).foldl (fun st p => drainBank c (bankOf p.2.1) (requestsAt st c) st) s

/-- BANK_REQUEST_SERVED (R22, R175): nothing while the core's layer relocks. -/
def execBankRequestServed (core bank : Nat) (s : State) : Host.Outcome State Fault Refusal :=
  if (layerAt s (layerOfCore core)).clock.relock.isSome then .next s
  else match bankQueue (coreAt s core) bank with
    | (r :: _) :: _ => .next (wake (resumeWalks (serveBank s core bank) r.gh))
    | _ => .next s

/-- The requests of one access of a lane. -/
def accessReqs (x : Here) (l : Layout) (target off n : Nat) (op : Nat → Nat → SpadOp) (ord : Ord) (sx : Bool)
    (latch : Nat) : List BankReq :=
  (chunkPieces n 0 off n).map fun p =>
    { ticket := x.st.ticket, gh := x.gh, lane := x.lane, target := target, off := p.2.1, size := p.2.2, skip := p.1,
      op := op p.1 p.2.2, ord := ord, dst := loadDst l x.st.issue.priv n sx, latch := latch }

/-- An instruction whose participating lanes each make scratchpad requests. -/
def toBanks (i : Instr) (pre : State → Nat → State) (s : State) (f : Layout → Here → Except Trap (List BankReq)) :
    Host.Outcome State Fault Refusal :=
  checked i s fun l => runEach l pre (f l) fun st _ reqs => issueAll st (firstScalar reqs)

/-- A release forces a held-store commit (R182). -/
def preRel (o : Ord) (s : State) (gh : Nat) : State := if isRel o then forceCommit s gh else s

/-- LDS (R364). -/
def execLds (h : Head) (sz : BitVec 3) (scope : Scope) (ord : Ord) (sx : Bool) (a : Src) (s : State) :
    Host.Outcome State Fault Refusal :=
  toBanks (.lds h sz scope ord sx a) preNone s fun l x => do
    let va ← rdN x a
    match resolveSpad x.st x.gh x.g va (2 ^ sz.toNat) with
    | none => .error (sprange va)
    | some t => .ok (accessReqs x l t.1 t.2 (2 ^ sz.toNat) (fun _ _ => .load) ord sx 2)

/-- The data of a store of a size (R363). -/
def storeData (x : Here) (sz : BitVec 3) (b : Src) : Except Trap (List Byte) :=
  (match sz.toNat with
   | 3 => rdD x b
   | 4 => rdRegs x 4 .n64 b
   | _ => rdN x b).map (toBytes (2 ^ sz.toNat))

/-- STS (R364). -/
def execSts (h : Head) (sz : BitVec 3) (scope : Scope) (ord : Ord) (a b : Src) (s : State) :
    Host.Outcome State Fault Refusal :=
  toBanks (.sts h sz scope ord a b) (preRel ord) s fun l x => do
    let va ← rdN x a
    let data ← storeData x sz b
    match resolveSpad x.st x.gh x.g va (2 ^ sz.toNat) with
    | none => .error (sprange va)
    | some t => .ok (accessReqs x l t.1 t.2 (2 ^ sz.toNat) (fun k n => .store ((data.drop k).take n)) ord false 4)

/-- The compare operand of an atomic, 0 where it is not read (R366). -/
def rdCmp (x : Here) (t : Fmt) : Option Src → Except Trap Nat
  | some c => rd x t c
  | none => .ok 0

/-- ATOMS (R367). -/
def execAtoms (h : Head) (aop : Aop) (scope : Scope) (ord : Ord) (ty : Fmt) (a b : Src) (c : Option Src) (s : State) :
    Host.Outcome State Fault Refusal :=
  toBanks (.atoms h aop scope ord ty a b c) forceCommit s fun l x => do
    let va ← rdN x a
    let vb ← rd x ty b
    let vc ← rdCmp x ty c
    let n := fmtBits ty / 8
    if va % n ≠ 0 then .error (misalign va n)
    else match resolveSpad x.st x.gh x.g va n with
      | none => .error (sprange va)
      | some t => .ok (accessReqs x l t.1 t.2 n (fun _ _ => .atom aop ty vb vc) ord false 2)

/-- A slot or sync word of 16 bytes: alignment, then range (R368, R373). -/
def resolve16 (x : Here) (own : Bool) (va : Nat) : Except Trap (Nat × Nat) :=
  if va % 16 ≠ 0 then .error (misalign va 16)
  else if own && bit va 28 then .error (sprange va)
  else match resolveSpad x.st x.gh x.g va 16 with
    | none => .error (sprange va)
    | some t => .ok t

/-- SLRD (R371). -/
def execSlrd (h : Head) (a : Src) (s : State) : Host.Outcome State Fault Refusal :=
  toBanks (.slrd h a) preNone s fun l x => do
    let va ← rdN x a
    let t ← resolve16 x true va
    .ok (accessReqs x l t.1 t.2 16 (fun _ _ => .slrd) .weak false 2)

/-- SWINIT (R374). -/
def execSwinit (h : Head) (a b : Src) (s : State) : Host.Outcome State Fault Refusal :=
  toBanks (.swinit h a b) preNone s fun l x => do
    let va ← rdN x a
    let vb ← rdN x b
    let t ← resolve16 x false va
    .ok (accessReqs x l t.1 t.2 16 (fun _ _ => .swinit vb) .weak false 4)

/-- SWADD (R374). -/
def execSwadd (h : Head) (scope : Scope) (a b : Src) (s : State) : Host.Outcome State Fault Refusal :=
  toBanks (.swadd h scope a b) forceCommit s fun l x => do
    let va ← rdN x a
    let vb ← rdN x b
    let t ← resolve16 x false va
    .ok (accessReqs x l t.1 t.2 16 (fun _ _ => .swadd vb) .rel false 4)

/-- SWWAIT (R374). -/
def execSwwait (h : Head) (spl : Bool) (scope : Scope) (a b : Src) (s : State) : Host.Outcome State Fault Refusal :=
  checked (.swwait h spl scope a b) s fun l => runWait l preNone
    (fun x => do
      let va ← rdN x a
      let vb ← rdN x b
      let t ← resolve16 x false va
      .ok (t.1, t.2, vb))
    (fun st _ who => (st, some (.sync who))) spl

/-- QNT (R349, R350): the block is read, then quantised and its codes stored. -/
def execQnt (h : Head) (had : BitVec 2) (ty : Fmt) (a b c : Src) (s : State) : Host.Outcome State Fault Refusal :=
  toBanks (.qnt h had ty a b c) preNone s fun l x => do
    let va ← rdN x a
    let vb ← rdN x b
    let vc ← rdN x c
    let n := if ty = .ln6 then 24 else 32
    if va % 4 ≠ 0 then .error (misalign va 4)
    else if vb % 4 ≠ 0 then .error (misalign vb 4)
    else if va + 128 > spadLimit x.g then .error (sprange va)
    else if vb + n > spadLimit x.g then .error (sprange vb)
    else .ok (accessReqs x l x.gh va 128 (fun _ _ => .qnt ty had.toNat (vc % 256) vb) .weak false 0)

end Sys2Proof.Machine
end

