-- ==== Sys2Proof/Machine/Device.lean ====
section
/-! DEFINITION. Device-memory instructions, standing loads, waits and fences, and the steps at homes that complete them (08, 16 R365
to R378). -/

namespace Sys2Proof.Machine

/-- Translate a lane's access (R153): the address and key of each byte. -/
def transBytes (x : Here) (k : Kinds) (n va : Nat) : Except Trap (List (Nat × Nat)) :=
  match progOf x.st x.g with
  | none => .error (extentTrap va k)
  | some p => match extSpan (extentsOf p) k n va with
    | .error v => .error (extentTrap v k)
    | .ok l => .ok l

/-- Translate a word or atomic, which must lie in one extent (R153). -/
def transWord (x : Here) (k : Kinds) (n va : Nat) : Except Trap (List (Nat × Nat)) :=
  match progOf x.st x.g with
  | none => .error (extentTrap va k)
  | some p => match extWord (extentsOf p) k n va with
    | .error v => .error (extentTrap v k)
    | .ok l => .ok l

/-- An access of a lane at issue. -/
def mkAccess (x : Here) (l : Layout) (op : AccOp) (ord : Ord) (scope : Scope) (va : Nat) (pas : List (Nat × Nat))
    (data : List Byte) (dst : LoadDst) : Access :=
  { ticket := x.st.ticket, lane := x.lane, op := op, ord := ord, scope := scope, va := va, pas := pas, data := data,
    held := pas.map fun p => heldAt x.g p.1, dst := dst, place := placeOf x.st (laneAt x.g x.lane) (savedDst l) }

/-- Add outstanding accesses to a group. -/
def addPend (s : State) (gh : Nat) (l : List Access) : State :=
  match mfind s.groups gh with
  | none => s
  | some g => setGroup s gh { g with pend := g.pend ++ l }

/-- The aligned 32-byte chunks that a group's buffer holds (R181). -/
def heldChunks (g : Group) : List Nat := (g.held.map fun p => p.1 / 32).eraseDups

/-- A store of a lane enters the buffer (R181); one that finds it full forces a commit first (R182). -/
def holdStore (s : State) (gh : Nat) (a : Access) : State :=
  match mfind s.groups gh with
  | none => s
  | some g =>
    let new := ((a.pas.map fun p => p.1 / 32).filter fun c => !(heldChunks g).contains c).eraseDups
    let s1 := if (heldChunks g).length + new.length > 128 then forceCommit s gh else s
    match mfind s1.groups gh with
    | none => s1
    | some g1 =>
      let put := fun (m : List (Nat × HeldByte)) (q : (Nat × Nat) × Byte × Nat) =>
        mput m q.1.1 { val := q.2.1, lane := a.lane, va := q.2.2, key := q.1.2 }
      let bytes := List.zip a.pas (List.zip a.data (upFrom a.data.length a.va))
      setGroup s1 gh { g1 with held := bytes.foldl put g1.held }

/-- Stores of an issue: held within a checkpoint interval unless they release, else outstanding (R181, R182, R365). -/
def putStores (s : State) (gh : Nat) (l : List (Nat × Access)) : State :=
  match mfind s.groups gh with
  | none => s
  | some g =>
    l.foldl (fun st p =>
      if g.ck.isSome && !isRel p.2.ord then holdStore st gh p.2 else addPend st gh [p.2]) s

/-- LDX (R365). -/
def execLdx (h : Head) (sz : BitVec 3) (scope : Scope) (ord : Ord) (sx : Bool) (a : Src) (s : State) :
    Host.Outcome State Fault Refusal :=
  checked (.ldx h sz scope ord sx a) s fun l => runEach l preNone
    (fun x => do
      let va ← rdD x a
      let pas ← transBytes x kRead (2 ^ sz.toNat) va
      .ok (mkAccess x l .load ord scope va pas [] (loadDst l false (2 ^ sz.toNat) sx)))
    (fun st gh as_ => addPend st gh (as_.map (·.2)))

/-- STX (R365). -/
def execStx (h : Head) (sz : BitVec 3) (scope : Scope) (ord : Ord) (a b : Src) (s : State) :
    Host.Outcome State Fault Refusal :=
  checked (.stx h sz scope ord a b) s fun l => runEach l (preRel ord)
    (fun x => do
      let va ← rdD x a
      let data ← storeData x sz b
      let pas ← transBytes x kWrite (2 ^ sz.toNat) va
      .ok (mkAccess x l .store ord scope va pas data (loadDst l false (2 ^ sz.toNat) false)))
    putStores

/-- ATOM (R367). -/
def execAtom (h : Head) (aop : Aop) (scope : Scope) (ord : Ord) (ty : Fmt) (a b : Src) (c : Option Src) (s : State) :
    Host.Outcome State Fault Refusal :=
  checked (.atom h aop scope ord ty a b c) s fun l => runEach l forceCommit
    (fun x => do
      let va ← rdD x a
      let vb ← rd x ty b
      let vc ← rdCmp x ty c
      let n := fmtBits ty / 8
      if va % n ≠ 0 then .error (misalign va n)
      else do
        let pas ← transWord x kAtomic n va
        .ok (mkAccess x l (.atom aop ty vb vc) ord scope va pas [] (loadDst l false n false)))
    (fun st gh as_ => addPend st gh (as_.map (·.2)))

/-- After an access of a group was performed: walks and waits go on. -/
def afterAccess (s : State) (gh : Nat) : State := wake (resumeWalks s gh)

/-- LOAD_COMPLETE (R22, R174, R365, R367): an outstanding load or atomic that may be performed; a relock of its layer, or
of one whose memory it reaches, holds it. -/
def execLoadComplete (gh idx : Nat) (s : State) : Host.Outcome State Fault Refusal :=
  match mfind s.groups gh with
  | none => .next s
  | some g => match g.pend[idx]? with
    | none => .next s
    | some a =>
      if a.op != .store && mayPerform s gh g a && !stalled s g && !homesStall s a.pas then
        .next (afterAccess (performAccess s gh idx) gh)
      else .next s

/-- A lane of a SUB: slot, word and key, and whether an earlier lane of the issue names the slot. -/
structure SubLane where
  slot : Nat
  va : Nat
  pa : Nat
  key : Nat
  again : Bool
  deriving DecidableEq, Repr

/-- What the lanes of a SUB have come to: the state, the slots whose first push must land, the lanes' statuses, and the
lanes whose access was refused at its home. -/
structure SubRun where
  st : State
  slots : List Nat
  status : List (Nat × Nat)
  traps : List (Nat × Trap)
  deriving DecidableEq, Repr

/-- The status of a SUB before its home is reached: BUSY, LIMIT, or none (R187, R369). -/
def subList (g : Group) (q : SubLane) : Option Nat :=
  if q.again || g.subs.any fun x => x.slot == q.slot then some 2
  else if g.subs.length ≥ 256 then some 3
  else none

/-- One lane's SUB in lane order (R187, R369): its status, with the entry and the first push where it is OK; a word whose
key has been erased is refused at its home (R153). -/
def subOne (gh : Nat) (r : SubRun) (p : Nat × SubLane) : SubRun :=
  let s := r.st
  let q := p.2
  match mfind s.groups gh with
  | none => r
  | some g =>
    match subList g q with
    | some n => { r with status := r.status ++ [(p.1, n)] }
    | none =>
      if !keyLive s q.key then { r with traps := r.traps ++ [(p.1, extentTrap q.va kRead)] }
      else if tableUse s q.pa ≥ tableSize then { r with status := r.status ++ [(p.1, 1)] }
      else
        let val := BitVec.ofNat 64 (homeNum s (keyView s q.key) q.pa 8)
        let first : Push := { val := val, count := 0, first := true, release := false }
        let e : Sub := { pa := q.pa, gh := gh, slot := q.slot, armed := false, pseq := 0, push := some first }
        let s1 := setGroup s gh { g with subs := g.subs ++ [{ slot := q.slot, pa := q.pa }] }
        { r with st := { s1 with subs := s1.subs ++ [e] }, slots := r.slots ++ [q.slot], status := r.status ++ [(p.1, 0)] }

/-- An earlier lane of the issue whose guard is true names the same slot, whatever becomes of it (R369). -/
def namedBefore (x : Here) (l : Layout) (a : Src) (slot : Nat) : Bool :=
  x.st.issue.parts.any fun p => p.1 == x.gh && (p.2.takeWhile (· ≠ x.lane)).any fun i =>
    guardOn x.g i l.head && match rdN { x with lane := i } a with
      | .ok v => v == slot
      | .error _ => false

/-- SUB (R368, R369). -/
def execSub (h : Head) (a b : Src) (s : State) : Host.Outcome State Fault Refusal :=
  checked (.sub h a b) s fun l => runWaitLate l forceCommit
    (fun x => do
      let va ← rdN x a
      let vb ← rdD x b
      if va % 16 ≠ 0 then .error (misalign va 16)
      else if vb % 8 ≠ 0 then .error (misalign vb 8)
      else do
        let pas ← transWord x kRead 8 vb
        let t ← resolve16 x true va
        let w := pas.headD (0, 0)
        .ok { slot := t.2, va := vb, pa := w.1, key := w.2, again := namedBefore x l a va })
    (fun st gh who =>
      let r := who.foldl (subOne gh) { st := st, slots := [], status := [], traps := [] }
      ((r.st, some (.subs r.slots r.status [])), r.traps)) false

/-- What the lanes of an UNSUB have come to: the state, the slots whose pushes must land, the lanes' statuses, and the slots
ended so far. -/
structure UnsubRun where
  st : State
  slots : List Nat
  status : List (Nat × Nat)
  ends : List Nat
  deriving DecidableEq, Repr

/-- The home removes a group's subscription of a slot; its undeparted push is sent, not discarded (R196). -/
def endSub (s : State) (gh slot : Nat) : State :=
  let mine := fun x : Sub => !x.armed && x.gh == gh && x.slot == slot
  let sent := (s.subs.filter mine).filterMap fun x => x.push.map fun q => { gh := gh, slot := slot, push := q : Flying }
  { s with subs := s.subs.filter (fun x => !mine x), flying := s.flying ++ sent }

/-- Pushes on their way to a slot, once for each. -/
def comingTo (s : State) (gh slot : Nat) : List Nat :=
  (s.flying.filter fun f => f.gh == gh && f.slot == slot).map (·.slot)

/-- One lane's UNSUB in lane order (R196, R370): the entry goes, its undeparted push is sent, and the slot leaves the list
once nothing is on its way to it. -/
def unsubOne (gh : Nat) (r : UnsubRun) (p : Nat × Nat) : UnsubRun :=
  let slot := p.2
  let listed := match mfind r.st.groups gh with | some g => g.subs.any fun x => x.slot == slot | none => false
  if !listed || r.ends.contains slot then { r with status := r.status ++ [(p.1, 4)] }
  else
    let s1 := endSub r.st gh slot
    let waits := comingTo s1 gh slot
    { st := if waits.isEmpty then unlist s1 gh slot else s1, slots := r.slots ++ waits,
      status := r.status ++ [(p.1, 0)], ends := r.ends ++ [slot] }

/-- UNSUB (R370). -/
def execUnsub (h : Head) (a : Src) (s : State) : Host.Outcome State Fault Refusal :=
  checked (.unsub h a) s fun l => runWait l forceCommit
    (fun x => do
      let va ← rdN x a
      let t ← resolve16 x true va
      .ok t.2)
    (fun st gh who =>
      let r := who.foldl (unsubOne gh) { st := st, slots := [], status := [], ends := [] }
      (r.st, some (.subs r.slots r.status r.ends))) false

/-- SLWAIT (R372). -/
def execSlwait (h : Head) (spl : Bool) (a b : Src) (s : State) : Host.Outcome State Fault Refusal :=
  checked (.slwait h spl a b) s fun l => runWait l preNone
    (fun x => do
      let va ← rdN x a
      let vb ← rdN x b
      let t ← resolve16 x true va
      .ok (t.2, vb))
    (fun st _ who => (st, some (.slot who))) spl

/-- A wait has armed an entry for a word. -/
def armedFor (s : State) (gh ticket pa : Nat) : Bool :=
  s.subs.any fun x => x.armed && x.gh == gh && x.slot == ticket && x.pa == pa

/-- Arm an entry of a word's home table for a wait, where the table has room (R206). -/
def armWord (s : State) (gh ticket pa : Nat) : State × Bool :=
  if armedFor s gh ticket pa then (s, true)
  else if tableUse s pa < tableSize then
    ({ s with subs := s.subs ++ [{ pa := pa, gh := gh, slot := ticket, armed := true, pseq := 0, push := none }] }, true)
  else (s, false)

/-- Where an MWAIT's word lies (R376): scratchpad (target, offset) or device memory (virtual and physical address, key). -/
inductive WordAt where
  | spad (target off : Nat)
  | dev (va pa key : Nat)
  deriving DecidableEq, Repr

/-- The word of an MWAIT in a lane, from its base and displacement, checked (R153, R376). -/
def mwaitWord (x : Here) (sp : Bool) (va vc : Nat) : Except Trap WordAt :=
  if sp then
    let w := (va + vc) % 2 ^ 32
    if w % 8 ≠ 0 then .error (misalign w 8)
    else match resolveSpad x.st x.gh x.g w 8 with
      | none => .error (sprange w)
      | some t => .ok (.spad t.1 t.2)
  else
    let w := wrap 64 ((va : Int) + signed 32 vc)
    if w % 8 ≠ 0 then .error (misalign w 8)
    else do
      let pas ← transWord x kRead 8 w
      let p := pas.headD (0, 0)
      let _ ← lookWord x.st x.g w p.1 p.2
      .ok (.dev w p.1 p.2)

/-- One lane's watch of a device word: the value it reads now, and else an armed entry at the home or re-reads (R206). -/
def watchWord (gh : Nat) (acc : State × List WordWatch) (p : Nat × WordAt × Nat) : State × List WordWatch :=
  match p.2.1, mfind acc.1.groups gh with
  | .dev va pa key, some g =>
    let w : WordWatch := { lane := p.1, va := va, pa := pa, key := key, want := p.2.2, armed := false, got := none }
    let w1 := match lookOne acc.1 g w with | .ok y => y | .error _ => w
    if w1.got.isSome then (acc.1, acc.2 ++ [w1])
    else
      let r := armWord acc.1 gh acc.1.ticket pa
      (r.1, acc.2 ++ [{ w1 with armed := r.2 }])
  | _, _ => acc

/-- The wait of an MWAIT (R205, R206): on scratchpad words, or on device words. -/
def mwaitMake (sp : Bool) (s : State) (gh : Nat) (who : List (Nat × WordAt × Nat)) : State × Option WaitFor :=
  if sp then
    (s, some (.spad (who.filterMap fun p => match p.2.1 with
      | .spad t o => some { lane := p.1, target := t, off := o, want := p.2.2, got := none }
      | .dev .. => none)))
  else
    let r := who.foldl (watchWord gh) (s, [])
    (r.1, some (.word r.2))

/-- MWAIT (R376). -/
def execMwait (h : Head) (spl sp : Bool) (a b c : Src) (s : State) : Host.Outcome State Fault Refusal :=
  checked (.mwait h spl sp a b c) s fun l => runWait l preNone
    (fun x => do
      let va ← (if sp then rdN x a else rdD x a)
      let vb ← rdD x b
      let vc ← rdN x c
      let w ← mwaitWord x sp va vc
      .ok (w, vb))
    (mwaitMake sp) spl

/-- A fence in the lanes at its path (R378); `join` says at which scope it joins the core and matrix classes. -/
def runFence (l : Layout) (core loads stores matrix : Bool) (join : Option Scope) (s : State) : State :=
  runWait l (if core then forceCommit else preNone) (fun _ => .ok ())
    (fun st gh _ => ((match join with | some x => joinPaths st gh x | none => st), some (.fence loads stores matrix))) false s

/-- FENCE (R218, R377, R378). -/
def execFence (c : Ctl) (scope : Scope) (s : State) : Host.Outcome State Fault Refusal :=
  checked (.fence c scope) s fun l => runFence l true true true false none

/-- XFENCE (R212, R220, R377, R378): the core class, and the matrix class, where MASK names them. -/
def execXfence (c : Ctl) (mask : BitVec 4) (scope : Scope) (s : State) : Host.Outcome State Fault Refusal :=
  checked (.xfence c mask scope) s fun l =>
    let core := bit mask.toNat 0
    let matrix := bit mask.toNat 2
    runFence l core core core matrix (if core && matrix then some scope else none)

/-- AFENCE (R158, R223, R377, R378): every earlier write of the lanes. -/
def execAfence (c : Ctl) (s : State) : Host.Outcome State Fault Refusal :=
  checked (.afence c) s fun l => runFence l false false true false none

/-- A subscription whose push has departed. -/
def departed (x : Sub) : Sub :=
  { x with push := none, pseq := (x.pseq + (match x.push with | some p => p.count | none => 0)) % 2 ^ 32 }

/-- PUSH_DEPART (R191, R200): an undeparted push of a slice's table, by its index there, to a resident group; toward a layer
that relocks it waits in the stalled FIFO. -/
def execPushDepart (slice idx : Nat) (s : State) : Host.Outcome State Fault Refusal :=
  let at_ := (List.zip (upFrom s.subs.length 0) s.subs).filter fun p => homeOf p.2.pa == slice
  match at_[idx]? with
  | none => .next s
  | some (k, x) =>
    match x.push, mfind s.groups x.gh with
    | some p, some g =>
      if x.armed || (coreOf g).isNone || g.drained then .next s
      else
        .next { s with subs := setNth s.subs k (departed x), flying := s.flying ++ [{ gh := x.gh, slot := x.slot, push := p }] }
    | _, _ => .next s

/-- The landing of a push counts for the waits and starts that await it (R188, R196, R285, R407). -/
def pushLanded (g : Group) (slot : Nat) : Group :=
  let f := fun w : Wait => match w.what with
    | .subs sl st ends => { w with what := .subs (eraseOne slot sl) st ends }
    | .drain sl => { w with what := .drain (eraseOne slot sl) }
    | _ => w
  { g with waits := g.waits.map f, starting := eraseOne slot g.starting }

/-- A slot whose UNSUB awaits no further push leaves the list (R196). -/
def settleSlot (s : State) (gh slot : Nat) : State :=
  let stays := fun w : Wait => match w.what with
    | .subs sl _ ends => ends.contains slot && !sl.contains slot
    | _ => false
  match mfind s.groups gh with
  | none => s
  | some g => if g.waits.any stays then unlist s gh slot else s

/-- Land a departed push that reaches its group's banks: the earlier requests there are served first (R176, R192). -/
def landFlying (s : State) (idx : Nat) (f : Flying) : State :=
  let s1 := drainFor { s with flying := dropNth s.flying idx } f.gh f.slot 16
  match mfind s1.groups f.gh with
  | none => s1
  | some g1 => settleSlot (watchSpad (setGroup s1 f.gh (pushLanded (landPush g1 f.slot f.push) f.slot))) f.gh f.slot

/-- PUSH_LANDING (R192): pushes of one subscription land in order; a stalled FIFO holds it (R200). -/
def execPushLanding (idx : Nat) (s : State) : Host.Outcome State Fault Refusal :=
  match s.flying[idx]? with
  | none => .next s
  | some f =>
    let earlier := (s.flying.take idx).any fun x => x.gh == f.gh && x.slot == f.slot
    match mfind s.groups f.gh with
    | none => .next { s with flying := dropNth s.flying idx }
    | some g =>
      if earlier || stalled s g then .next s else .next (wake (landFlying s idx f))

/-- TEARDOWN_NOTICE (R198): once its earlier pushes have landed, the slot leaves the group's list; for a group that is away
this is a wake event. -/
def execTeardownNotice (idx : Nat) (s : State) : Host.Outcome State Fault Refusal :=
  match s.notices[idx]? with
  | none => .next s
  | some n =>
    if s.flying.any fun f => f.gh == n.1 && f.slot == n.2 then .next s
    else .next (wake (markWoken (unlist { s with notices := dropNth s.notices idx } n.1 n.2) n.1 isSlotWait))

/-- A wait that re-reads a word (R206). -/
def isReread (w : Wait) : Bool :=
  match w.what with
  | .word l => l.any fun x => !x.armed && x.got.isNone
  | .counter _ _ _ armed zero => !armed && !zero
  | _ => false

/-- A wait's word, not yet found, whose home a relock stalls (R22): those that `sel` chooses, by whether an entry is armed. -/
def lookStalls (s : State) (sel : Bool → Bool) (w : Wait) : Bool :=
  match w.what with
  | .word l => l.any fun x => sel x.armed && x.got.isNone && homeStalls s x.pa
  | .counter _ pa _ armed zero => sel armed && !zero && homeStalls s pa
  | _ => false

/-- MWAIT_REREAD (R22, R206, R207): a group reads again its words that have no armed entry; while it is away, the read is its
wake event. -/
def execMwaitReread (gh : Nat) (s : State) : Host.Outcome State Fault Refusal :=
  match mfind s.groups gh with
  | none => .next s
  | some g =>
    if (coreOf g).isNone then .next (markWoken s gh isReread)
    else if g.waits.any (lookStalls s fun armed => !armed) then .next s
    else .next (wakeGroup (lookGroup (fun _ armed => !armed) gh s) gh)

end Sys2Proof.Machine
end

