-- ==== Sys2Proof/Machine/Tasks.lean ====
section
/-! DEFINITION. Shared operations on tasks: the copies of device time (R44), join counters (R73, R123, R437), deques and range tasks
(R88, R120, R394, R395). -/

namespace Sys2Proof.Machine

/-- The scheduler's copy of device time (R44, R105), which is neither a layer's nor a slice's: the model numbers it 24 (DESIGN CHOICE,
log 48). -/
def schedTime (s : State) : DWord := localTime s 24

/-- The physical word of a join counter and its key (R71, R437). -/
def counterAt (s : State) : Counter → Option (Nat × Nat)
  | .fixed pa key _ => some (pa, key)
  | .virt ctx va k => match translate s ctx (initService k) va 8 kAtomic 3 with
    | .ok (pa, key, _) => some (pa, key)
    | .error _ => none

/-- The home of a join counter is in memory that a relock stalls (R22). -/
def counterStalls (s : State) (c : Option Counter) : Bool :=
  match c.bind (counterAt s) with
  | some (pa, _) => homeStalls s pa
  | none => false

/-- Add to a join counter as one atomic at its home (R72, R73, R122, R123, R395): the new value too. Under an erased key its home
refuses it (R63). -/
def addCounter (s : State) (c : Counter) (d : Int) (release : Bool) : State × Option Nat :=
  match counterAt s c with
  | none => (s, none)
  | some (pa, key) =>
    if !keyLive s key then (s, none)
    else
    let v := wrap 64 ((homeNum s (keyView s key) pa 8 : Int) + d)
    (storeHome s (keyView s key) pa (toBytes 8 v) release, some v)

/-- A core's deque: the parts, head first (R120). -/
def dequeAt (s : State) (core : Nat) : List Nat := sget [] s.deques core

/-- Replace a deque. -/
def setDeque (s : State) (core : Nat) (l : List Nat) : State := { s with deques := sset [] s.deques core l }

/-- Entries a deque holds (R120). -/
def dequeSize : Nat := 64

/-- Push a new range task onto the head of a core's deque (R88, R120, R395); its number becomes its TASKID. -/
def pushTask (s : State) (core : Nat) (t : RangeTask) (lo hi : Nat) : State :=
  let id := s.fresh
  let part : Part := { task := id, core := core, lo := lo, next := lo, hi := hi, groups := 0 }
  let s1 := { s with tasks := mput s.tasks id t, rangeParts := mput s.rangeParts (id + 1) part, fresh := id + 2 }
  setDeque s1 core ((id + 1) :: dequeAt s1 core)

/-- A raise of a launch's group count is allowed (R124, R397). -/
def raiseOk (l : Launch) (c : Nat) : Bool :=
  l.members ≠ 0 && c % l.members == 0 && l.stages == 1 && l.total + c < 2 ^ 32

/-- Raise a launch's group count (R124). -/
def raiseLaunch (s : State) (id : Nat) (l : Launch) (c : Nat) : State :=
  { s with launches := mput s.launches id { l with total := l.total + c } }

/-- The leaf entry that maps an address in a context, if any. -/
def leafOf (s : State) (ctx va : Nat) : Option Nat :=
  match mfind s.contexts ctx with
  | none => none
  | some c => match walk s c.root va with
    | .leaf p _ _ => some p
    | _ => none

end Sys2Proof.Machine
end

