-- ==== Sys2Proof/Machine/Queues.lean ====
section
/-! DEFINITION. Queues and their packets: endpoints, consumption, the start of packets, LAUNCH, RANGE, MARKER, BWAIT, RAISE and
stamps (04 R74 to R88, R99 to R104, R437). -/

namespace Sys2Proof.Machine

/-- An endpoint (R84). -/
inductive Endpoint where
  | dev (va : Nat)
  | spad (gh off : Nat)
  | peer (port va : Nat)
  | regs (gh vreg lane0 nl : Nat)
  | host (addr : Nat)
  | bad
  deriving DecidableEq, Repr

/-- The endpoint of 64 bits (R84). -/
def endpointOf (n : Nat) : Endpoint :=
  match bits n 61 3 with
  | 0 => if bits n 57 4 = 0 then .dev (bits n 0 57) else .bad
  | 1 => if bits n 48 13 = 0 ∧ bits n 21 11 = 0 then .spad (bits n 32 16) (bits n 0 21) else .bad
  | 2 => .peer (bits n 57 4) (bits n 0 57)
  | 3 =>
    if bits n 48 13 = 0 ∧ bits n 0 12 = 0 then .regs (bits n 32 16) (bits n 24 8) (bits n 18 6) (bits n 12 6 + 1)
    else .bad
  | 4 => .host (bits n 0 61)
  | _ => .bad

/-- The endpoint is well formed and lies in one of the given spaces, its low bits aligned to n. -/
def endpointIn (spaces : List Nat) (n e : Nat) : Bool :=
  spaces.contains (bits e 61 3) && endpointOf e != .bad && e % n == 0

/-- A packet field of w bits from byte k (R82). -/
def pfield (body k w : Nat) : Nat := bits body (8 * k) w

/-- TYPE, BAR, SWR, SEQ and STAMP (R82). -/
def ptype (body : Nat) : Nat := bits body 0 8
def pbar (body : Nat) : Bool := bit body 8
def pswr (body : Nat) : Bool := bit body 9
def pseqOf (body : Nat) : Nat := bits body 16 48
def pstamp (body : Nat) : Nat := pfield body 8 64

/-- A usable STAMP: 0, or an aligned endpoint in SPACE 0 or 1 (R82). -/
def stampOk (body : Nat) : Bool := pstamp body == 0 || endpointIn [0, 1] 8 (pstamp body)

/-- The limits of LAUNCH (R87). -/
def launchOk (b : Nat) : Bool :=
  pfield b 16 64 % 64 == 0 && pfield b 24 64 % 8 == 0 && pfield b 40 16 ≥ 1 && pfield b 42 16 ≥ 1
    && pfield b 44 16 ≥ 1 && bits b (8 * 48 + 42) 22 == 0 && pfield b 56 64 == 0

/-- The limits of RANGE (R88). -/
def rangeOk (b : Nat) : Bool :=
  pfield b 16 64 % 64 == 0 && pfield b 24 64 % 8 == 0 && pfield b 32 64 < pfield b 40 64 && pfield b 48 64 % 8 == 0
    && bits b (8 * 56 + 18) 14 == 0

/-- The layout of a SPACE 3 destination (R86). -/
def regsOk (len : Nat) : Endpoint → Bool
  | .regs _ vreg lane0 nl => len % (4 * nl) == 0 && vreg + len / (4 * nl) ≤ 256 && lane0 + nl ≤ 64
  | _ => true

/-- LENGTH, ENC and MMAF of a COPY (R89). -/
def copyLen (b : Nat) : Nat := pfield b 32 32
def copyEnc (b : Nat) : Bool := bit b (8 * 32 + 32)
def copyMmaf (b : Nat) : Bool := bit b (8 * 32 + 33)

/-- The limits of COPY (R86, R89). -/
def copyOk (b : Nat) : Bool :=
  endpointIn [0, 1, 2, 4] 1 (pfield b 16 64) && endpointIn [0, 1, 2, 3, 4] 1 (pfield b 24 64)
    && bits b (8 * 32 + 34) 30 == 0
    && (!copyEnc b || (1 ≤ copyLen b && copyLen b ≤ 65536 && endpointIn [0, 1, 3] 1 (pfield b 24 64)))
    && (!copyMmaf b || endpointIn [1] 1 (pfield b 24 64))
    && (!pswr b || endpointIn [1] 16 (pfield b 40 64))
    && regsOk (copyLen b) (endpointOf (pfield b 24 64))

/-- The limits of STREAM that the packet alone decides (R95). -/
def streamOk (b : Nat) : Bool :=
  pfield b 16 64 % 64 == 0 && endpointIn [1] 32 (pfield b 24 64) && endpointIn [1] 16 (pfield b 32 64)
    && pfield b 44 32 ≥ 1 && bits b (8 * 48 + 21) 7 == 0 && bits b (8 * 48 + 33) 31 == 0 && pfield b 56 64 == 0

/-- The limits of REDUCE (R97): the model applies those of SRC and RES whatever OPR is (DESIGN CHOICE, log 30). -/
def reduceOk (b : Nat) : Bool :=
  endpointIn [0, 1, 2] 4 (pfield b 16 64) && endpointIn [0, 1] 16 (pfield b 24 64) && pfield b 32 24 ≥ 1
    && pfield b 35 2 < 3 && bits b (8 * 32 + 26) 6 == 0 && pfield b 37 24 == 0 && endpointIn [0, 1] 4 (pfield b 40 64)
    && pfield b 48 128 == 0

/-- A packet whose fields lie within their limits (R82, R83). Bits 63:56 of BWAIT's bytes 24 to 31 (R100) and bits 63:48 of
RAISE's bytes 16 to 23 (R101) carry no stated meaning: the model takes them as reserved (DESIGN CHOICE, log 30). -/
def packetOk (b : Nat) : Bool :=
  bits b 10 6 == 0 && (!pswr b || ptype b == 3) && stampOk b &&
  match ptype b with
  | 1 => launchOk b
  | 2 => rangeOk b
  | 3 => copyOk b
  | 4 => streamOk b
  | 5 => reduceOk b
  | 6 => pfield b 24 320 == 0
  | 7 => endpointIn [0, 1] 8 (pfield b 16 64) && pfield b 31 8 == 0 && pfield b 32 256 == 0
  | 8 => pfield b 22 16 == 0 && 1 ≤ pfield b 24 32 && pfield b 24 32 ≤ 2 ^ 24 && pfield b 28 288 == 0
  | _ => false

/-- Replace a packet. -/
def setPacket (s : State) (p : Nat) (x : Packet) : State := { s with packets := mput s.packets p x }

/-- The context of a packet's queue. -/
def pktCtx (s : State) (x : Packet) : Nat := (queueAt s x.queue).ctx

/-- The state of a context, if it is live. -/
def ctxState (s : State) (c : Nat) : Option CtxState := (mfind s.contexts c).map (·.state)

/-- The context of the packet runs (R126). -/
def pktRuns (s : State) (x : Packet) : Bool := ctxState s (pktCtx s x) == some .run

/-- Commands of the context go on: it runs or drains (R126). -/
def pktLive (s : State) (x : Packet) : Bool := pktRuns s x || ctxState s (pktCtx s x) == some .drain

/-- The Shucker of a queue's packets and the initiator its controller uses: that of its home slice (log 30). -/
def pktInit (q : Nat) : Nat := initShucker (q % 16)

/-- The trace unit of a queue's home slice (R244). -/
def sliceUnit (q : Nat) : Nat := 8 + q % 16

/-- Unpin the pages a command has pinned (R92, R145). -/
def unpinAll (s : State) (l : List Nat) : State := l.foldl unpinLeaf s

/-- What tells a group from a later one that takes its handle (R84, R85): its task, gang and member. -/
def groupId (g : Group) : Owner × Nat × Nat := (g.owner, g.gang, g.member)

/-- The group of a handle is the one that a command has resolved (R85). -/
def boundTo (c : Cmd) (gh : Nat) (g : Group) : Bool := mfind c.bound gh == some (groupId g)

/-- A register of a group by word of a payload laid out register-major (R86): 256 × lane + register. -/
def wordReg (vreg lane0 nl w : Nat) : Nat := 256 * (lane0 + w % nl) + (vreg + w / nl)

/-- The words of a payload of n bytes that have bytes still to land. -/
def openWords (n : Nat) (todo : List (Nat × Nat)) : List Nat :=
  (upFrom (n / 4) 0).filter fun w => todo.any fun t => t.1 < 4 * w + 4 && 4 * w < t.1 + t.2

/-- Change the counts of copies into some registers. -/
def countRegs (f : Nat → Nat) (regs : List Nat) (g : Group) : Group :=
  { g with vbusy := regs.foldl (fun m k => sset 0 m k (f (sget 0 m k))) g.vbusy }

/-- The registers of a copy's SPACE 3 destination that still wait for bytes of it begin to wait, or no longer wait (R86,
R174): each counts the copies it waits for. -/
def markRegs (s : State) (x : Packet) (f : Nat → Nat) : State :=
  match endpointOf (pfield x.body.toNat 24 64) with
  | .regs gh vreg lane0 nl => match mfind s.groups gh with
    | some g =>
      if boundTo x.cmd gh g then
        setGroup s gh (countRegs f ((openWords (copyLen x.body.toNat) x.cmd.todo).map (wordReg vreg lane0 nl)) g)
      else s
    | none => s
  | _ => s

/-- A packet ends with a status (R76, R83, R102): ERRCNT counts BADPKT, LASTERR keeps what is not OK, the command's pins
go, and registers still waiting for its bytes no longer wait for it (log 31). -/
def finish (s : State) (p : Nat) (status value : Nat) : State :=
  match mfind s.packets p with
  | none => s
  | some x =>
    let s0 := unpinAll s x.cmd.pins
    let s1 := if x.cmd.marked then markRegs s0 x (· - 1) else s0
    let q := queueAt s1 x.queue
    let q' := { q with errcnt := if status = 6 then Nat.min (q.errcnt + 1) 0xFFFF else q.errcnt,
                       lasterr := if status = 1 then q.lasterr else status }
    setPacket (setQueue s1 x.queue q') p
      { x with phase := .finished status value, cmd := { x.cmd with pins := [], todo := [], paused := none, marked := false, late := [] } }

/-- A packet ends with a status whose VALUE is SEQ (R102). -/
def finishSeq (s : State) (p : Nat) (x : Packet) (status : Nat) : State := finish s p status (pseqOf x.body.toNat)

/-- VALUE of a FAULT stamp (R102): bits 56:1 of the address. -/
def faultValue (va : Nat) : Nat := va / 2 % 2 ^ 56

/-- The endpoint fields of a command (R89, R94, R97). -/
def endpointFields (b : Nat) : List Nat :=
  if ptype b = 3 then [pfield b 16 64, pfield b 24 64] ++ (if pswr b then [pfield b 40 64] else [])
  else if ptype b = 4 then [pfield b 24 64, pfield b 32 64]
  else if ptype b = 5 then [pfield b 16 64, pfield b 24 64, pfield b 40 64]
  else []

/-- What an access of a Shucker comes to (R103): its bytes' addresses and keys with the leaves passed, a page not
resident, memory that a relock stalls (R22), or a status with its VALUE, 0 for SEQ. -/
inductive Reach where
  | ok (pas : List (Nat × Nat)) (leaves : List Nat)
  | pause (va : Nat)
  | stall
  | stop (status : Nat) (value : Nat)
  deriving DecidableEq, Repr

/-- Translate n bytes as a Shucker access, in runs that lie in one 4 KiB of a target (R61, R63, R103). -/
def reachRuns (s : State) (ctx init : Nat) (k : Kinds) (kindBit : Nat) : Nat → Nat → Nat → Reach
  | 0, _, _ => .ok [] []
  | fuel + 1, va, n =>
    if n = 0 then .ok [] []
    else
      let m := Nat.min n (4096 - va % 4096)
      match translate s ctx init va m k kindBit with
      | .error .absent => .pause va
      | .error .fault => .stop 2 (faultValue va)
      | .error .denied => .stop 4 0
      | .ok (pa, key, leaf) => match reachRuns s ctx init k kindBit fuel (va + m) (n - m) with
        | .ok l leaves => .ok ((upFrom m pa).map (fun a => (a, key)) ++ l) (leaf :: leaves)
        | r => r

/-- A location whose read or write fails at its memory: marked uncorrectable, poisoned at its expander, or behind a link that
is down (R57, R235). -/
def badAt (s : State) (pa : Nat) : Bool :=
  poisoned s pa || sget false s.cxlBad (pa / 64) || match region s pa with
    | .tier2 off => !sget false s.pkg.cxlUp (cxlPortOf s off)
    | _ => false

/-- The first byte of a run that fails at its memory. -/
def firstBad (s : State) : Nat → List (Nat × Nat) → Option Nat
  | _, [] => none
  | va, p :: r => if badAt s p.1 then some va else firstBad s (va + 1) r

/-- A Shucker access to device memory, its memory's failures included (R57, R103). -/
def reach (s : State) (ctx init va n : Nat) (k : Kinds) (kindBit : Nat) : Reach :=
  match reachRuns s ctx init k kindBit (n / 4096 + 2) va n with
  | .ok l leaves => match firstBad s va l with
    | some a => .stop 2 (faultValue a)
    | none => if homesStall s l then .stall else .ok l leaves
  | r => r

/-- Mark the pages of a write (R145). -/
def markDirty (s : State) (leaves : List Nat) : State :=
  leaves.eraseDups.foldl (fun st p => markLeaf st p (accMask none true)) s

/-- Store bytes at translated addresses as a Shucker does (R189). -/
def shuckStore (s : State) (pas : List (Nat × Nat)) (bytes : List Byte) (leaves : List Nat) (release : Bool) : State :=
  storeBytes (markDirty s leaves) ((List.zip pas bytes).map fun p => (p.1.1, p.1.2, p.2)) release

/-- A group as an access of a Shucker finds it (R85): gone, not to be touched yet, or resident. -/
inductive Found where
  | gone
  | wait
  | here (g : Group)
  deriving DecidableEq, Repr

/-- Find the group of a handle (R85, R200, R239): a drained group is treated as spilled for work that has not begun. -/
def findGroup (s : State) (begun : Bool) (gh : Nat) : Found :=
  match mfind s.groups gh with
  | none => .gone
  | some g =>
    if !(g.lanes.any liveLane) then .gone
    else if (coreOf g).isNone || (g.drained && !begun) || stalled s g then .wait
    else .here g

/-- The group of an endpoint as a command finds it: one it has resolved must still be there, and one it has not is resolved
now (R85). -/
def findFor (s : State) (c : Cmd) (gh : Nat) : Found :=
  match mfind c.bound gh, mfind s.groups gh with
  | none, _ => findGroup s false gh
  | some _, none => .gone
  | some _, some g => if boundTo c gh g then findGroup s true gh else .gone

/-- Land bytes in a group's scratchpad (R176, R180): both copies of a checkpoint take them, and waits look at them (R206). -/
def landSpad (s : State) (gh off : Nat) (bytes : List Byte) : State :=
  let s1 := catchUp (drainFor s gh off bytes.length) gh off bytes.length
  match mfind s1.groups gh with
  | none => s1
  | some g => watchSpad (setGroup s1 gh (putSpad g true off bytes))

/-- Add to a sync word of a group at its bank (R202); waits look at it (R206). -/
def landSync (s : State) (gh off n : Nat) : State :=
  let s1 := catchUp (drainFor s gh off 16) gh off 16
  match mfind s1.groups gh with
  | none => s1
  | some g => watchSpad (setGroup s1 gh (putSpad g true off (toBytes 16 (syncAdd (spadNum g off 16) n))))

/-- A landing that waits for a spilled group is the wake event of its scratchpad waits (R207). -/
def wakeSpilled (s : State) (gh : Nat) : State := markWoken s gh fun w => isSpadWait w || isSyncWait w

/-- A step of a packet must wait for a group: where the group is away, it is kept until the group is back, and wakes the
group's waits (R85, R207). -/
def waitLate (s : State) (p : Nat) (x : Packet) (e : Late) : State :=
  if ((mfind s.groups e.gh).bind coreOf).isSome then s
  else wakeSpilled (setPacket s p
    { x with cmd := { x.cmd with late := if x.cmd.late.contains e then x.cmd.late else x.cmd.late ++ [e] } }) e.gh

/-- The virtual address of a ring slot (R77). -/
def slotVa (x : Queue) (i : Nat) : Nat := x.ringbase.toNat + 64 * (i % 2 ^ (6 + x.size))

/-- Stop consumption on a ring slot (R81). -/
def ringFault (s : State) (q status : Nat) : State :=
  emit (setQueue s q { queueAt s q with ringfault := true, lasterr := status }) (.ringFault q)

/-- The status of an access that a Reach stops. -/
def reachStatus : Reach → Nat
  | .stop st _ => st
  | _ => 0

/-- PACKET_CONSUME (R81): the slot at RDIDX, read and then cleared through the context. The model goes on consuming while the
context is in SAVE or SAVED, and RESTORE sets RDIDX back (DESIGN CHOICE, log 30). -/
def execPacketConsume (q : Nat) (s : State) : Host.Outcome State Fault Refusal :=
  let x := queueAt s q
  if q ≥ 4096 || !(x.enable && x.size ≤ 10) || x.ringfault || ctxState s x.ctx == some .lost then .next s
  else
    let va := slotVa x x.rdidx.toNat
    match reach s x.ctx (pktInit q) va 64 kRead 1, reach s x.ctx (pktInit q) va 1 kWrite 2 with
    | .pause _, _ | .stall, _ => .next s
    | .stop st _, _ => .next (ringFault s q st)
    | .ok .., .pause _ | .ok .., .stall => .next s
    | .ok .., .stop st _ => .next (ringFault s q st)
    | .ok pas _, .ok wpas leaves =>
      let body := ofBytes (readPas s pas)
      if ptype body = 0 then .next s
      else
        let s1 := shuckStore s wpas [0] leaves false
        let pkt : Packet :=
          { queue := q, slot := x.rdidx.toNat, body := BitVec.ofNat 512 body, phase := .waiting, cmd := Cmd.reset }
        let s2 := setPacket { s1 with fresh := s1.fresh + 1 } s1.fresh pkt
        .next (wake (setQueue s2 q { queueAt s2 q with rdidx := x.rdidx + 1 }))

/-- RINGFAULT_CLEAR (R81). -/
def execRingfaultClear (q : Nat) (s : State) : Host.Outcome State Fault Refusal :=
  .next (setQueue s q { queueAt s q with ringfault := false })

/-- The context's queues accept packets: its TDI is not in CONFIG_LOCKED (R52). -/
def accepts (s : State) (ctx : Nat) : Bool := (sget Tdi.reset s.tdis ctx).state != .locked

/-- The queues assigned to a context, in the order of assignment (R47). -/
def assignedTo (s : State) (ctx : Nat) : List Nat := sget [] s.pkg.assigned ctx

/-- Assign a queue to a context (R47, R75): it leaves the context it was assigned to, and its page there. -/
def assignQueue (s : State) (q ctx : Nat) : State :=
  if (assignedTo s ctx).contains q then s
  else
    let m := s.pkg.assigned.map fun p => (p.1, p.2.filter (· ≠ q))
    let l := sget [] m ctx ++ [q]
    { s with pkg := { s.pkg with assigned := (sset [] m ctx l).filter fun p => p.2 ≠ [] } }

/-- The queue whose page a host function reaches in its BAR2 (R47): PF0 the page of each queue, a VF the pages of the first 64
queues of its context. -/
def queueOfPage (s : State) (fn page : Nat) : Option Nat :=
  if fn = 0 then (if page < 4096 then some page else none)
  else if fn ≤ 64 ∧ page < 64 then (assignedTo s (fn - 1))[page]? else none

/-- The access table of PF0's BAR2 permits an access to a queue page (R58, R61); a VF's BARs are no target. -/
def pagePermitted (s : State) (fn page off n kindBit : Nat) : Bool :=
  fn != 0 || tableGrants s 21 (initHost 0) (0x1000 * page + off) (0x1000 * page + off + n - 1) kindBit

/-- HOST_FETCH_ADD (R47, R52, R61, R78): a function's add at a page of its BAR2. -/
def execHostFetchAdd (fn page : Nat) (s : State) : Host.Outcome State Fault Refusal :=
  match queueOfPage s fn page with
  | none => .next (emit s .unsupported)
  | some q =>
    let x := queueAt s q
    if x.hostp && accepts s x.ctx && pagePermitted s fn page 0 8 3 then
      .next (emit (setQueue s q { x with wridx := x.wridx + 1 }) (.hostIndex x.wridx))
    else .next (emit s .unsupported)

/-- PEER_FETCH_ADD (R78): an access-table entry of the queue's home slice must grant A. -/
def execPeerFetchAdd (port peer q : Nat) (s : State) : Host.Outcome State Fault Refusal :=
  let x := queueAt s q
  let pa := 0xF10000000 + 0x1000 * q
  if !portUp s port then .next s
  else if q < 4096 && x.peerp && accepts s x.ctx && tableGrants s (q % 16) (initPeer port peer) pa (pa + 7) 3 then
    .next (emit (setQueue s q { x with wridx := x.wridx + 1 }) (.peerData port (toBytes 8 x.wridx.toNat)))
  else .next (emit s (.peerStatus port 4))

/-- An earlier packet of the same queue (R83). -/
def earlier (p : Nat) (x : Packet) (y : Nat × Packet) : Bool := y.2.queue == x.queue && y.1 < p

/-- A packet has not yet begun its work. -/
def notBegun (x : Packet) : Bool :=
  match x.phase with
  | .waiting | .started => true
  | _ => false

/-- Nothing of its queue holds a packet back (R83). -/
def mayStart (s : State) (p : Nat) (x : Packet) : Bool :=
  s.packets.all fun y => !earlier p x y ||
    (!notBegun y.2 && !pbar x.body.toNat && ptype y.2.body.toNat != 7)

/-- PACKET_START (R83): in slot order, or BADPKT. -/
def execPacketStart (p : Nat) (s : State) : Host.Outcome State Fault Refusal :=
  match mfind s.packets p with
  | none => .next s
  | some x =>
    if x.phase ≠ .waiting || !pktRuns s x || !mayStart s p x then .next s
    else if packetOk x.body.toNat then .next (setPacket s p { x with phase := .started })
    else .next (finishSeq s p x 6)

/-- A started packet of a type. -/
def startedAs (s : State) (p type : Nat) : Option Packet :=
  match mfind s.packets p with
  | some x => if x.phase = .started ∧ ptype x.body.toNat = type then some x else none
  | none => none

/-- The launch that 64 bytes of LAUNCH describe (R87, R107). -/
def launchOf (s : State) (b ctx queue : Nat) (pkt : Option Nat) : Launch :=
  let gx := pfield b 40 16
  let gy := pfield b 42 16
  let gz := pfield b 44 16
  let m := bits b (8 * 48 + 34) 4 + 1
  let st := bits b (8 * 48 + 38) 4 + 1
  { ctx := ctx, queue := queue, pkt := pkt, seq := pseqOf b, image := pfield b 16 64, args := pfield b 24 64,
    start := BitVec.ofNat 64 (pfield b 32 64), gx := gx, gy := gy, gz := gz, func := pfield b 46 16,
    pitw := BitVec.ofNat 32 (pfield b 48 32), width := 8 * 2 ^ bits b (8 * 48 + 32) 2, members := m, stages := st,
    total := gx * gy * gz * st * m, nextGang := 0, exited := 0, lastLayer := none, held := true, prog := none,
    kargs := [], join := none, irq := none, hangt := 1000000, lastIssue := s.time.now.toNat, hangs := 0, killed := false, acc := [] }

/-- The group total and the partition word of a launch are allowed (R108, R160). -/
def launchFits (l : Launch) : Bool := l.total < 2 ^ 32 && pitwOk l.pitw.toNat l.width

/-- LAUNCH (R87, R105): a held launch, or BADPKT. -/
def execLaunch (p : Nat) (s : State) : Host.Outcome State Fault Refusal :=
  match startedAs s p 1 with
  | none => .next s
  | some x =>
    let l := launchOf s x.body.toNat (pktCtx s x) x.queue (some p)
    if launchFits l then
      .next (setPacket { s with launches := mput s.launches s.fresh l, fresh := s.fresh + 1 } p { x with phase := .running })
    else .next (finishSeq s p x 6)

/-- The cores of compute layers whose deques take new range tasks (R120). -/
def computeCores (s : State) : List Nat :=
  (upFrom 256 0).filter fun c =>
    (layerAt s (layerOfCore c)).role = .compute && (layerAt s (layerOfCore c)).state = .active && !(coreAt s c).fenced

/-- The core whose deque has the fewest entries, the lowest of equals, unless all are full (R120). -/
def leastDeque (s : State) : Option Nat :=
  leastBy (fun a b => (dequeAt s a).length < (dequeAt s b).length)
    ((computeCores s).filter fun c => (dequeAt s c).length < dequeSize)

/-- The range task of a RANGE packet (R88). -/
def rangeOf (b ctx queue p : Nat) (join : Option Counter) : RangeTask :=
  { ctx := ctx, queue := queue, pkt := some p, image := pfield b 16 64, args := pfield b 24 64, func := pfield b 56 16,
    pitw := BitVec.ofNat 32 (pfield b 60 32), width := 8 * 2 ^ bits b (8 * 58) 2, join := join,
    joinVa := pfield b 48 64, prog := none, parts := 1, exited := 0, ended := (0, 0), killed := false, acc := [] }

/-- Push the task of a RANGE packet, its counter raised and pinned (R88, R120, R437); all deques full, it waits. -/
def rangeStart (s : State) (p : Nat) (x : Packet) (join : Option Counter) (leaves : List Nat) : State :=
  match leastDeque s with
  | none => s
  | some c =>
    let b := x.body.toNat
    let s1 := match join with
      | some j => (addCounter (leaves.foldl pinLeaf (markDirty s leaves)) j 1 false).1
      | none => s
    wake (pushTask (setPacket s1 p { x with phase := .running }) c (rangeOf b (pktCtx s x) x.queue p join)
      (pfield b 32 64) (pfield b 40 64))

/-- RANGE (R88, R120, R160, R437). -/
def execRange (p : Nat) (s : State) : Host.Outcome State Fault Refusal :=
  match startedAs s p 2 with
  | none => .next s
  | some x =>
    let b := x.body.toNat
    let va := pfield b 48 64
    if !pitwOk (pfield b 60 32) (8 * 2 ^ bits b (8 * 58) 2) then .next (finishSeq s p x 6)
    else if va = 0 then .next (rangeStart s p x none [])
    else match reach s (pktCtx s x) (pktInit x.queue) va 8 kAtomic 3 with
      | .pause _ | .stall => .next s
      | .stop 2 v => .next (finish s p 2 v)
      | .stop st _ => .next (finishSeq s p x st)
      | .ok pas leaves =>
        let a := pas.headD (0, 0)
        .next (rangeStart s p x (some (.fixed a.1 a.2 (leaves.headD 0))) (leaves.take 1))

/-- MARKER (R99): its record, then OK with the device time. -/
def execMarker (p : Nat) (s : State) : Host.Outcome State Fault Refusal :=
  match startedAs s p 6 with
  | none => .next s
  | some x =>
    let unit := sliceUnit x.queue
    let s1 := traceRecord s unit 1 x.queue (toBytes 8 (pfield x.body.toNat 16 64))
    .next (finish s1 p 1 ((localTime s unit).toNat / 256))

/-- BWAIT (R100): the packet waits on its stamp. -/
def execBwait (p : Nat) (s : State) : Host.Outcome State Fault Refusal :=
  match startedAs s p 7 with
  | none => .next s
  | some x => .next (setPacket s p { x with phase := .running })

/-- A stamp read by a BWAIT decides it (R100). -/
def bwaitSeen (s : State) (p : Nat) (x : Packet) (stamp : Nat) : State :=
  let st := stamp % 256
  if st = 0 then s
  else if st = 1 then (if stamp / 256 ≥ pfield x.body.toNat 24 56 then finishSeq s p x 1 else s)
  else finishSeq s p x 10

/-- A running packet of a type. -/
def runningAs (s : State) (p type : Nat) : Option Packet :=
  match mfind s.packets p with
  | some x => if x.phase = .running ∧ ptype x.body.toNat = type then some x else none
  | none => none

/-- BWAIT_WAKE (R100): the controller reads the stamp as a Shucker does. -/
def execBwaitWake (p : Nat) (s : State) : Host.Outcome State Fault Refusal :=
  match runningAs s p 7 with
  | none => .next s
  | some x =>
    match endpointOf (pfield x.body.toNat 16 64) with
    | .dev va => match reach s (pktCtx s x) (pktInit x.queue) va 8 kRead 1 with
      | .pause _ | .stall => .next s
      | .stop 2 v => .next (finish s p 2 v)
      | .stop st _ => .next (finishSeq s p x st)
      | .ok pas _ => .next (bwaitSeen s p x (ofBytes (readPas s pas)))
    | .spad gh off => match findGroup s false gh with
      | .gone => .next (finishSeq s p x 7)
      | .wait => .next s
      | .here g => if off + 8 > spadSize g then .next (finishSeq s p x 6) else .next (bwaitSeen s p x (spadNum g off 8))
    | _ => .next s

/-- The running launch of a queue with a SEQ, the newest of several (R101). -/
def launchBySeq (s : State) (q seq : Nat) : Option (Nat × Launch) :=
  (s.launches.filter fun l => l.2.queue == q && l.2.seq == seq && l.2.pkt.isSome).getLast?

/-- RAISE (R101, R124). -/
def execRaise (p : Nat) (s : State) : Host.Outcome State Fault Refusal :=
  match startedAs s p 8 with
  | none => .next s
  | some x =>
    let b := x.body.toNat
    let c := pfield b 24 32
    match launchBySeq s x.queue (pfield b 16 48) with
    | none => .next (finishSeq s p x 11)
    | some (id, l) =>
      if raiseOk l c then .next (finishSeq (raiseLaunch s id l c) p x 1) else .next (finishSeq s p x 6)

/-- A packet is complete (R83, R102): a collective step's COLLEND is recorded, and the packet goes. -/
def complete (s : State) (p : Nat) (x : Packet) (lost : Bool) : State :=
  let q := queueAt s x.queue
  let s1 := if lost then setQueue s x.queue { q with stamplost := true } else s
  let s2 := if x.cmd.coll then traceRecord s1 (sliceUnit x.queue) 4 x.queue (toBytes 8 (pseqOf x.body.toNat)) else s1
  { s2 with packets := mdel s2.packets p }

/-- A packet whose STAMP lies beyond its group's scratchpad ends BADPKT, which ERRCNT and LASTERR alone record (R83, R85). -/
def badStamp (s : State) (p : Nat) (x : Packet) (st : Nat) : State :=
  let q := queueAt s x.queue
  complete (setQueue s x.queue
    { q with errcnt := if st = 6 then q.errcnt else Nat.min (q.errcnt + 1) 0xFFFF, lasterr := 6 }) p x false

/-- A finished packet's stamp, written once (R102): none where its page or its memory keeps it waiting. -/
def stampOf (s : State) (p : Nat) (x : Packet) (st v : Nat) : Option State :=
  let b := x.body.toNat
  let bytes := toBytes 8 (st + 256 * v)
  if pstamp b = 0 ∨ !stampOk b then some (complete s p x false)
  else match endpointOf (pstamp b) with
    | .dev va => match reach s (pktCtx s x) (pktInit x.queue) va 8 kWrite 2 with
      | .pause _ | .stall => none
      | .stop _ _ => some (complete s p x true)
      | .ok pas leaves => some (complete (shuckStore s pas bytes leaves true) p x false)
    | .spad gh off => match findGroup s false gh with
      | .gone => some (complete s p x true)
      | .wait => some (waitLate s p x { gh := gh, off := off, n := 8, answered := true })
      | .here g =>
        if off + 8 > spadLimit g then some (badStamp s p x st)
        else some (complete (landSpad s gh off bytes) p x false)
    | _ => some (complete s p x true)

/-- STAMP_WRITE (R102): the stamp as one release, or STAMPLOST. -/
def execStampWrite (p : Nat) (s : State) : Host.Outcome State Fault Refusal :=
  match mfind s.packets p with
  | none => .next s
  | some x => match x.phase with
    | .finished st v => match stampOf s p x st v with
      | some s1 => .next (wake s1)
      | none => .next s
    | _ => .next s

end Sys2Proof.Machine
end

