-- ==== Sys2Proof/Machine/Loader.lean ====
section
/-! DEFINITION. Translation at dispatch: the argument words, the image's header, entry and records, the code sections and the data
ranges of a task (05 R117, R118; 06 R149 to R152; 12 R270, R271, R283 to R285). -/

namespace Sys2Proof.Machine

/-- The first finding other than resident (R118): dispatch waits, or the task is refused with a stamp, an ADDR1 and an
INFO; a section that is not one extent has neither stated. -/
inductive Finding where
  | wait
  | fault (va info : Nat)
  | denied (va info : Nat)
  | bad (va info : Nat)
  | split
  deriving DecidableEq, Repr

/-- A task as dispatch sees it. -/
structure Asked where
  ctx : Nat
  core : Nat
  image : Nat
  args : Nat
  kargs : List Word
  func : Nat
  pitw : Nat
  width : Nat
  deriving DecidableEq, Repr

/-- Bytes read through the task's context, in runs within 4 KiB (R118, steps 1 and 2). Memory that fails a read is no finding of
R118: the model waits (DESIGN CHOICE, log 50). -/
def askBytes (s : State) (a : Asked) : Nat → Nat → Nat → Except Finding (List Byte)
  | 0, _, _ => .ok []
  | fuel + 1, va, n =>
    if n = 0 then .ok []
    else
      let m := Nat.min n (4096 - va % 4096)
      match translate s a.ctx (initCore a.core) va m kRead 1 with
      | .error .absent => .error .wait
      | .error .fault => .error (.fault va 1)
      | .error .denied => .error (.denied va 1)
      | .ok (pa, key, _) =>
        if (upFrom m pa).any (badAt s) then .error .wait
        else match askBytes s a fuel (va + m) (n - m) with
          | .ok r => .ok ((upFrom m pa).map (readAs s (keyView s key)) ++ r)
          | .error f => .error f

/-- n bytes read at dispatch, as a number. -/
def askNum (s : State) (a : Asked) (va n : Nat) : Except Finding Nat := (askBytes s a (n / 4096 + 2) va n).map ofBytes

/-- Refuse what breaks its limits (R118). -/
def limit (ok : Bool) (va : Nat) : Except Finding Unit := if ok then .ok () else .error (.bad va 0)

/-- The six argument words (R72, R87): KSPAWN's arguments take the place of the first of them. -/
def askWords (s : State) (a : Asked) : Except Finding (List Word) := do
  let n ← if a.args = 0 then .ok 0 else askNum s a a.args 24
  .ok ((upFrom 6 0).map fun i => nthD (BitVec.ofNat 32 (bits n (32 * i) 32)) a.kargs i)

/-- base(J): argument words j and j + 1 (R149). -/
def argBase (w : List Word) (j : Nat) : Nat := (nthD 0 w j).toNat + 2 ^ 32 * (nthD 0 w (j + 1)).toNat

/-- A declared range (R149): its low address as an integer, its length, and its kinds. -/
structure Decl where
  lo : Int
  len : Nat
  kinds : Kinds
  deriving DecidableEq, Repr

/-- The kinds of bits 2:0 (R283). -/
def kindsOf (n : Nat) : Kinds := { r := bit n 0, w := bit n 1, a := bit n 2, x := false }

/-- An extent record (R149, R283): the ranges it declares. -/
def declOf (w : List Word) (va rec_ : Nat) : Except Finding (List Decl) := do
  let j := bits rec_ 8 8
  let k := bits rec_ 16 8
  let n := bits rec_ 64 64
  let len := if bit rec_ 3 then (nthD 0 w k).toNat * n else n
  limit (bits rec_ 4 4 == 0 && bits rec_ 0 3 != 0 && (j == 0 || j == 2 || j == 4) && bits rec_ 24 8 == 0
    && (if bit rec_ 3 then decide (k ≤ 5) else k == 0) && decide (len < 2 ^ 64)) va
  .ok (if len = 0 then [] else
    [{ lo := (argBase w j : Int) + signed 32 (bits rec_ 32 32), len := len, kinds := kindsOf rec_ }])

/-- A standing-load record (R285): slot and word address. -/
def slotOf (w : List Word) (limit_ va rec_ : Nat) : Except Finding (Nat × Nat) := do
  let j := bits rec_ 32 8
  limit ((j == 0 || j == 2 || j == 4) && bits rec_ 40 24 == 0 && bits rec_ 96 32 == 0
    && decide (bits rec_ 0 32 + 16 ≤ limit_)) va
  .ok (bits rec_ 0 32, wrap 64 ((argBase w j : Int) + signed 32 (bits rec_ 64 32)))

/-- The scratchpad records from an address, in n bytes (R284). -/
def spadRecs (s : State) (a : Asked) (limit_ : Nat) : Nat → Nat → Nat → Except Finding (List (Nat × List Byte))
  | 0, _, _ => .ok []
  | fuel + 1, va, n =>
    if n = 0 then .ok []
    else do
      limit (decide (8 ≤ n)) va
      let h ← askNum s a va 8
      let off := bits h 0 32
      let len := bits h 32 32
      let size := 8 + ceilDiv len 8 * 8
      limit (decide (size ≤ n) && decide (off + len ≤ limit_)) va
      let body ← askBytes s a (len / 4096 + 2) (va + 8) len
      let r ← spadRecs s a limit_ fuel (va + size) (n - size)
      .ok ((off, body) :: r)

/-- Records of 16 bytes, each read and then checked. -/
def eachRec {α : Type} (s : State) (a : Asked) (base n : Nat) (f : Nat → Nat → Except Finding α) :
    Except Finding (List α) :=
  (upFrom n 0).mapM fun i => do
    let r ← askNum s a (base + 16 * i) 16
    f (base + 16 * i) r

/-- A granule as the walk gives it: granule, kinds asked, physical address, key and leaf. -/
structure Granule where
  vg : Nat
  kinds : Kinds
  pa : Nat
  key : Nat
  leaf : Nat
  deriving DecidableEq, Repr

/-- The first 4 KiB of a granule whose target denies a kind asked (R58, R61). -/
def granuleDenied (s : State) (core pa : Nat) (k : Kinds) : Option Nat :=
  (upFrom 16 0).find? fun i =>
    let p := pa + 4096 * i
    let ok := fun b : Nat => tableGrants s (targetOf s p) (initCore core) p (p + 4095) b
    !((!(k.r || k.x) || ok 1) && (!k.w || ok 2) && (!k.a || ok 3))

/-- A granule of the second tier that an expander's poison or a port's link keeps from dispatch (R57). -/
def granuleBad (s : State) (pa : Nat) : Bool :=
  (upFrom 1024 (pa / 64)).any (sget false s.cxlBad) ||
    (upFrom 16 0).any fun i => match region s (pa + 4096 * i) with
      | .tier2 off => !sget false s.pkg.cxlUp (cxlPortOf s off)
      | _ => false

/-- Translate one granule (R57, R118, R144, R150). -/
def granuleOf (s : State) (a : Asked) (vg : Nat) (k : Kinds) : Except Finding Granule :=
  let va := 65536 * vg
  match mfind s.contexts a.ctx with
  | none => .error (.fault va (kindsInfo k))
  | some c =>
    if va ≥ 2 ^ 57 then .error (.fault va (kindsInfo k))
    else match walk s c.root va with
      | .unmapped => .error (.fault va (kindsInfo k))
      | .absent _ => .error .wait
      | .leaf p e f =>
        if !leafGrants e k || !keyServes s (bits e 58 6) a.ctx then .error (.fault va (kindsInfo k))
        else match granuleDenied s a.core f k with
          | some i => .error (.denied (va + 4096 * i) (kindsInfo k))
          | none => if granuleBad s f then .error .wait else .ok { vg := vg, kinds := k, pa := f, key := bits e 58 6, leaf := p }

/-- Granules from vg on translated until the first finding; kinds gives the kinds asked of a granule, none where it is
not to be translated (again). -/
def granulesFrom (s : State) (a : Asked) (kinds : Nat → Option Kinds) : Nat → Nat → List Granule × Option Finding
  | 0, _ => ([], none)
  | n + 1, vg =>
    match kinds vg with
    | none => granulesFrom s a kinds n (vg + 1)
    | some k =>
      match granuleOf s a vg k with
      | .error f => ([], some f)
      | .ok g =>
        let r := granulesFrom s a kinds n (vg + 1)
        (g :: r.1, r.2)

/-- How many granules n bytes from an address touch; the first is va / 65536. -/
def touchCount (va n : Nat) : Nat := if n = 0 then 0 else (va + n - 1) / 65536 - va / 65536 + 1

/-- Granules merge into extents where they are consecutive virtually and physically, of one key and one kind set (R150);
the granules come in rising order. -/
def mergeGranules : List Granule → List Extent
  | [] => []
  | g :: r =>
    let one : Extent := { vg := g.vg, pg := g.pa / 65536, n := 1, key := g.key, x := g.kinds.x, a := g.kinds.a,
                          w := g.kinds.w, r := g.kinds.r }
    match mergeGranules r with
    | [] => [one]
    | e :: t =>
      if e.vg = g.vg + 1 ∧ e.pg = g.pa / 65536 + 1 ∧ e.key = g.key ∧
          ({ r := e.r, w := e.w, a := e.a, x := e.x } : Kinds) = g.kinds then
        { one with n := e.n + 1 } :: t
      else one :: e :: t

/-- What dispatch has found: the leaves translated, those of them for writing, and the program or the finding. -/
structure Dispatched where
  leaves : List Nat
  dirty : List Nat
  result : Except Finding Program

/-- A code section (R152): its granules must make a single extent. -/
def codeSection (s : State) (a : Asked) (va n : Nat) (k : Kinds) : Except Finding (Option Extent × List Nat) :=
  if n = 0 then .ok (none, [])
  else if va + n > 2 ^ 57 then .error (.bad va (kindsInfo k))
  else
    let r := granulesFrom s a (fun _ => some k) (touchCount va n) (va / 65536)
    match r.2 with
    | some f => .error f
    | none => match mergeGranules r.1 with
      | [e] => .ok (some e, r.1.map (·.leaf))
      | _ => .error .split

/-- The union of the kinds of every declaration that covers a granule (R150). -/
def unionKinds (l : List Decl) (g : Nat) : Kinds :=
  l.foldl (fun k d =>
    if d.lo ≥ 0 && d.lo.toNat / 65536 ≤ g && g < d.lo.toNat / 65536 + touchCount d.lo.toNat d.len then
      { k with r := k.r || d.kinds.r, w := k.w || d.kinds.w, a := k.a || d.kinds.a }
    else k) { r := false, w := false, a := false, x := false }

/-- A range that wraps or passes 2^57 (R149). -/
def declBad (d : Decl) : Bool := d.lo < 0 || d.lo + d.len > (2 ^ 57 : Nat)

/-- The data ranges in declaration order, each granule once (R118, R150). -/
def dataGranules (s : State) (a : Asked) (all : List Decl) : List Granule → List Decl → List Granule × Option Finding
  | done, [] => (done, none)
  | done, d :: r =>
    if declBad d then (done, some (.bad (wrap 64 d.lo) (kindsInfo d.kinds)))
    else
      let asked := fun g : Nat => if done.any fun x => x.vg == g then none else some (unionKinds all g)
      let x := granulesFrom s a asked (touchCount d.lo.toNat d.len) (d.lo.toNat / 65536)
      match x.2 with
      | some f => (done ++ x.1, some f)
      | none => dataGranules s a all (done ++ x.1) r

/-- Insert a granule in rising order. -/
def insertGranule (g : Granule) : List Granule → List Granule
  | [] => [g]
  | h :: r => if g.vg < h.vg then g :: h :: r else h :: insertGranule g r

/-- What steps 1 and 2 of R118 give: the program but for its extents, and its declarations. -/
def readImage (s : State) (a : Asked) : Except Finding (Program × List Decl) := do
  let w ← askWords s a
  let h ← askNum s a a.image 64
  let nfunc := bits h 48 16
  let nnode := bits h 64 32
  let treelen := bits h 96 32
  limit (bits h 0 32 == 0x45525446 && bits h 32 16 == 1 && bits h 416 96 == 0 && decide (a.func < nfunc)
    && decide (1 ≤ nnode) && decide (nnode ≤ 65535)) a.image
  let at_ := a.image + 64 + 32 * a.func
  let e ← askNum s a at_ 32
  let extoff := bits e 32 32
  let extn := bits e 64 16
  let subn := bits e 80 16
  let suboff := bits e 96 32
  let spoff := bits e 128 32
  let splen := bits e 160 32
  let inTree := fun (o n : Nat) => n == 0 || decide (o + n ≤ treelen)
  let lim := bits a.pitw 13 8 * 16384 - 64 * bits a.pitw 21 3 * a.width
  limit (bits e 24 8 == 0 && bits e 248 8 == 0 && decide (bits e 0 16 < nnode) && decide (extn ≤ 64)
    && decide (subn ≤ 32) && decide (bits e 16 8 ≤ 24 + 8 * bits a.pitw 21 3)
    && inTree (64 + 32 * a.func) 32 && inTree extoff (16 * extn) && inTree suboff (16 * subn) && inTree spoff splen) at_
  let decls ← eachRec s a (a.image + extoff) extn (declOf w)
  let slots ← eachRec s a (a.image + suboff) subn (slotOf w lim)
  let spads ← spadRecs s a lim (splen / 8 + 1) (a.image + spoff) splen
  .ok ({ image := a.image, nfunc := nfunc, nnode := nnode, treelen := treelen, textva := bits h 128 64,
         textlen := bits h 192 32, ctva := bits h 256 64, ctlen := bits h 224 32, rodva := bits h 320 64,
         rodlen := bits h 384 32, words := w, data := [], code := [], spads := spads, slots := slots,
         root := bits e 0 16, pins := [] }, decls.flatten)

/-- The four code extents (R152), with the leaves they pass. -/
def codeExtents (s : State) (a : Asked) (p : Program) : Except Finding (List (Option Extent) × List Nat) := do
  let rx : Kinds := { r := true, w := false, a := false, x := true }
  let t ← codeSection s a p.image p.treelen rx
  let x ← codeSection s a p.textva p.textlen rx
  let c ← codeSection s a p.ctva p.ctlen rx
  let d ← codeSection s a p.rodva p.rodlen kRead
  .ok ([t.1, x.1, c.1, d.1], t.2 ++ x.2 ++ c.2 ++ d.2)

/-- Dispatch of a task (R117, R118). -/
def dispatch (s : State) (a : Asked) : Dispatched :=
  match readImage s a with
  | .error f => { leaves := [], dirty := [], result := .error f }
  | .ok (p, decls) => match codeExtents s a p with
    | .error f => { leaves := [], dirty := [], result := .error f }
    | .ok (code, leaves) =>
      let r := dataGranules s a decls [] decls
      let dirty := (r.1.filter fun g => g.kinds.w || g.kinds.a).map (·.leaf)
      let pins := (leaves ++ r.1.map (·.leaf)).eraseDups
      match r.2 with
      | some f => { leaves := pins, dirty := dirty, result := .error f }
      | none =>
        let ext := mergeGranules (r.1.foldl (fun l g => insertGranule g l) [])
        match ext[16]? with
        | some e =>
          { leaves := pins, dirty := dirty,
            result := .error (.bad (65536 * e.vg) (kindsInfo { r := e.r, w := e.w, a := e.a, x := e.x })) }
        | none => { leaves := pins, dirty := dirty, result := .ok { p with code := code, data := ext, pins := pins } }

end Sys2Proof.Machine
end

