-- ==== Sys2Proof/Machine/Service.lean ====
section
/-! DEFINITION. The service cores' registers, privilege, traps and interrupts (03 R67, R70, R73): the RISC-V privileged architecture
that R67 names (log 3). -/

namespace Sys2Proof.Machine

/-- A service core. -/
def serviceAt (s : State) (k : Nat) : Service := sget Service.reset s.services k

/-- Replace a service core. -/
def setService (s : State) (k : Nat) (x : Service) : State :=
  { s with services := sset Service.reset s.services k x }

/-- Read a register of a service core: x0 is zero. -/
def readX (x : Service) (r : Nat) : Nat := if r = 0 then 0 else (sget 0 x.x r).toNat

/-- Write a register of a service core: x0 stays zero. -/
def writeX (x : Service) (r v : Nat) : Service :=
  if r = 0 then x else { x with x := sset 0 x.x r (BitVec.ofNat 64 v) }

/-- Bits k to k + n - 1 of a number, replaced. -/
def putBits (x k n v : Nat) : Nat := x - bits x k n * 2 ^ k + v % 2 ^ n * 2 ^ k

/-- The bits of a mask taken from a new value, the others kept. -/
def putMask (mask old new : Nat) : Nat := old - Nat.land old mask + Nat.land new mask

/-- A stored CSR. -/
def csrGet (x : Service) (n : Nat) : Nat := (sget 0 x.csrs n).toNat

/-- Store a CSR. -/
def csrSet (x : Service) (n v : Nat) : Service := { x with csrs := sset 0 x.csrs n (BitVec.ofNat 64 v) }

/-- The fields of mstatus that software sets: SIE, MIE, SPIE, MPIE, SPP, MPP, MPRV, SUM, MXR, TVM, TW, TSR. -/
def mstatusMask : Nat := 0x7E19AA

/-- The fields of mstatus that sstatus shows: SIE, SPIE, SPP, SUM, MXR. -/
def sstatusMask : Nat := 0xC0122

/-- The interrupts of mip and mie: software, timer and external, of S and M mode. -/
def irqMask : Nat := 0xAAA

/-- mip: the bits software sets, and KSPAWN's interrupt as the machine external one (R73). -/
def mipOf (x : Service) : Nat := putBits (csrGet x 0x344) 11 1 (flag x.irq)

/-- CSRs that read zero: the vendor and machine numbers, no address translation, no protection registers, no environment
settings, no further counters. -/
def zeroCsr (n : Nat) : Bool :=
  [0xF11, 0xF12, 0xF13, 0xF15, 0x180, 0x30A, 0x10A, 0x320].contains n || (0x3A0 ≤ n && n < 0x3F0)
    || (0x323 ≤ n && n < 0x340) || (0xB03 ≤ n && n < 0xB20)

/-- A CSR's value (number of the core `k`), with `cycles` for the cycle count, whose clock the spec does not give; none where
there is no such CSR. -/
def readCsr (k cycles : Nat) (x : Service) (n : Nat) : Option Nat :=
  if n = 0x300 then some (x.mstatus.toNat + 0xA00000000)
  else if n = 0x100 then some (Nat.land x.mstatus.toNat sstatusMask + 0x200000000)
  else if n = 0x301 then some 0x8000000000941105
  else if n = 0x305 then some x.mtvec.toNat
  else if n = 0x341 then some x.mepc.toNat
  else if n = 0x342 then some x.mcause.toNat
  else if n = 0x343 then some x.mtval.toNat
  else if n = 0x344 then some (mipOf x)
  else if n = 0x144 then some (Nat.land (mipOf x) (csrGet x 0x303))
  else if n = 0x104 then some (Nat.land (csrGet x 0x304) (csrGet x 0x303))
  else if n = 0xF14 then some k
  else if zeroCsr n then some 0
  else if n = 0xB00 then some cycles
  else if n = 0xB02 then some x.instret.toNat
  else if [0x105, 0x106, 0x140, 0x141, 0x142, 0x143, 0x302, 0x303, 0x304, 0x306, 0x340].contains n then some (csrGet x n)
  else none

/-- A legal mode number in MPP. -/
def modeOk (m : Nat) : Bool := m = 0 || m = 1 || m = 3

/-- mstatus written: an MPP that names no mode is kept. -/
def putStatus (old new : Nat) : Nat :=
  let v := putMask mstatusMask old new
  if modeOk (bits v 11 2) then v else putBits v 11 2 (bits old 11 2)

/-- Write a CSR. -/
def writeCsrX (x : Service) (n v : Nat) : Service :=
  if n = 0x300 then { x with mstatus := BitVec.ofNat 64 (putStatus x.mstatus.toNat v) }
  else if n = 0x100 then { x with mstatus := BitVec.ofNat 64 (putMask sstatusMask x.mstatus.toNat v) }
  else if n = 0x305 then { x with mtvec := BitVec.ofNat 64 (putBits v 1 1 0) }
  else if n = 0x341 then { x with mepc := BitVec.ofNat 64 (putBits v 0 1 0) }
  else if n = 0x342 then { x with mcause := BitVec.ofNat 64 v }
  else if n = 0x343 then { x with mtval := BitVec.ofNat 64 v }
  else if n = 0x344 then csrSet x n (putMask 0x222 (csrGet x n) v)
  else if n = 0x144 then csrSet x 0x344 (putMask (Nat.land 2 (csrGet x 0x303)) (csrGet x 0x344) v)
  else if n = 0x304 then csrSet x n (Nat.land v irqMask)
  else if n = 0x104 then csrSet x 0x304 (putMask (csrGet x 0x303) (csrGet x 0x304) v)
  else if n = 0x302 then csrSet x n (Nat.land v 0xB3FF)
  else if n = 0x303 then csrSet x n (Nat.land v 0x222)
  else if n = 0x105 then csrSet x n (putBits v 1 1 0)
  else if n = 0x141 then csrSet x n (putBits v 0 1 0)
  else if n = 0xB02 then { x with instret := BitVec.ofNat 64 v }
  else if [0x106, 0x140, 0x142, 0x143, 0x306, 0x340].contains n then csrSet x n v
  else x

/-- The mode may reach a CSR: bits 9:8 of its number are the least mode. -/
def csrAllowed (x : Service) (n : Nat) : Bool :=
  bits n 8 2 ≤ x.mode && !(n = 0x180 && x.mode = 1 && bit x.mstatus.toNat 20)

/-- Where a trap of a cause goes: the base, or in vectored mode the entry of an interrupt. -/
def trapPc (vec : Nat) (irq : Bool) (cause : Nat) : Nat :=
  vec / 4 * 4 + (if irq && bits vec 0 2 = 1 then 4 * cause else 0)

/-- Take a trap: the pc and status are saved, the mode rises, and the pc goes to the handler; in S mode where the cause is
delegated from S or U mode. -/
def trapTo (x : Service) (irq : Bool) (cause tval : Nat) : Service :=
  let code := cause + (if irq then 2 ^ 63 else 0)
  let st := x.mstatus.toNat
  if x.mode ≤ 1 && bit (csrGet x (if irq then 0x303 else 0x302)) cause then
    let st' := putBits (putBits (putBits st 5 1 (bits st 1 1)) 1 1 0) 8 1 x.mode
    let y := csrSet (csrSet (csrSet x 0x141 x.pc.toNat) 0x142 code) 0x143 tval
    { y with mstatus := BitVec.ofNat 64 st', mode := 1, pc := BitVec.ofNat 64 (trapPc (csrGet x 0x105) irq cause) }
  else
    let st' := putBits (putBits (putBits st 7 1 (bits st 3 1)) 3 1 0) 11 2 x.mode
    { x with mstatus := BitVec.ofNat 64 st', mode := 3, mepc := x.pc, mcause := BitVec.ofNat 64 code,
             mtval := BitVec.ofNat 64 tval, pc := BitVec.ofNat 64 (trapPc x.mtvec.toNat irq cause) }

/-- An instruction completes: it is counted, and the pc goes on. -/
def retire (x : Service) (pc : Nat) : Service :=
  { x with pc := BitVec.ofNat 64 pc, instret := x.instret + 1 }

/-- A service core takes an exception. -/
def serviceTrap (s : State) (k cause tval : Nat) : State := setService s k (trapTo (serviceAt s k) false cause tval)

/-- The exceptions of the RISC-V privileged architecture that a service core takes. -/
def causeIllegal : Nat := 2
def causeBreak : Nat := 3
def causeLoadMisaligned : Nat := 4
def causeLoadFault : Nat := 5
def causeStoreMisaligned : Nat := 6
def causeStoreFault : Nat := 7

/-- The interrupt a service core takes now: machine external, then supervisor external, software and timer. -/
def irqNow (x : Service) : Option Nat :=
  let on := Nat.land (mipOf x) (csrGet x 0x304)
  let toS := csrGet x 0x303
  [11, 9, 1, 5].find? fun i => bit on i &&
    (if bit toS i then x.mode = 0 || (x.mode = 1 && bit x.mstatus.toNat 1) else x.mode < 3 || bit x.mstatus.toNat 3)

/-- Take an interrupt; KSPAWN's is no longer pending once it is taken. -/
def takeIrq (x : Service) (i : Nat) : Service :=
  let y := trapTo x true i 0
  if i = 11 then { y with irq := false } else y

/-- Return from a trap: to the saved pc and mode. -/
def returnM (x : Service) : Service :=
  let st := x.mstatus.toNat
  let m := bits st 11 2
  let st1 := putBits (putBits (putBits st 3 1 (bits st 7 1)) 7 1 1) 11 2 0
  { x with mstatus := BitVec.ofNat 64 (if m = 3 then st1 else putBits st1 17 1 0), mode := m, pc := x.mepc }

/-- Return from a trap of S mode. -/
def returnS (x : Service) : Service :=
  let st := x.mstatus.toNat
  let st1 := putBits (putBits (putBits st 1 1 (bits st 5 1)) 5 1 1) 8 1 0
  { x with mstatus := BitVec.ofNat 64 (putBits st1 17 1 0), mode := bits st 8 1, pc := BitVec.ofNat 64 (csrGet x 0x141) }

end Sys2Proof.Machine
end

