-- ==== Sys2Proof/Machine/Matrix.lean ====
section
/-! DEFINITION. The matrix array: its queue, operand fetches and entries (07 R178, R179, 17 R380 to R391). -/

namespace Sys2Proof.Machine

/-- The elements of a tile, in row-major order. -/
def tileOf (g : Group) (t : Nat) : List Nat := (sgets 0 g.tiles (1024 * t) 1024).map (·.toNat)

/-- Write a whole tile (R383); a checkpoint's copy takes it too where the entry came before it (R183). -/
def setTile (g : Group) (both : Bool) (t : Nat) (vals : List Nat) : Group :=
  let ws := vals.map (BitVec.ofNat 32)
  onCk { g with tiles := ssets 0 g.tiles (1024 * t) ws } both fun c => { c with tiles := ssets 0 c.tiles (1024 * t) ws }

/-- n scratchpad bytes of a target group; those of a group that has gone are free values (log 5). -/
def targetBytes (s : State) (gh off n : Nat) : List Byte :=
  match mfind s.groups gh with
  | some g => spadBytes g off n
  | none => (upFrom n s.free).map Config.freeByte

/-- An MMA's operand bytes: 32 rows of 384 (R178). -/
def operandBytes : Nat := 12288

/-- Bytes of a target's scratchpad that the array reads for an entry, past the requests that arrived earlier at their banks
(R176). The entry of an MMAW, which no lane issued, reads them as they stand (R219). -/
def arrived (s : State) (e : MatEntry) (gh off n : Nat) : State × List Byte :=
  let s1 := drainFor s gh off n
  let l := targetBytes s1 gh off n
  if e.lanes.isEmpty then (s1, l) else seenBy s1 e.gh gh off l

/-- Rows of scratchpad bytes, in order. -/
def arrivedRows (e : MatEntry) : State → List (Nat × Nat) → State × List Byte
  | s, [] => (s, [])
  | s, r :: rest =>
    let a := arrived s e r.1 r.2 128
    let b := arrivedRows e a.1 rest
    (b.1, a.2 ++ b.2)

/-- Fetch the operands of a queued MMA, A before B, keeping both (R179, R384). -/
def fetchEntry (s : State) (c k : Nat) : State :=
  match (coreAt s c).mq[k]? with
  | none => s
  | some e =>
    match e.op, e.fetched with
    | .mma ty _ ga a gb b, none =>
      let fa := arrived s e ga a operandBytes
      let fb := arrived fa.1 e gb b operandBytes
      let x := coreAt fb.1 c
      setCore fb.1 c { x with mq := setNth x.mq k { e with fetched := some (fa.2, fb.2) },
                              keptA := some { gh := ga, off := a, ty := ty, bytes := fa.2 },
                              keptB := some { gh := gb, off := b, ty := ty, bytes := fb.2 } }
    | _, _ => s

/-- The fetches of the entry in work and of the one behind it (R384). -/
def fetchNext (s : State) (c : Nat) : State := fetchEntry (fetchEntry s c 0) c 1

/-- Put an entry among those of its cycle, behind those of the slots before its own (R385); the ones behind it are fetched
after it. -/
def rankIn (r : Nat) (e : MatEntry) : List Nat → List MatEntry → List Nat × List MatEntry
  | k :: ks, x :: xs =>
    if r < k then (r :: k :: ks, e :: (x :: xs).map fun y => { y with fetched := none })
    else
      let q := rankIn r e ks xs
      (k :: q.1, x :: q.2)
  | _, _ => ([r], [e])

/-- The array accepts an entry of a slot, or of the Shucker as number 2 (R178, R384, R385). -/
def offer (s : State) (c r : Nat) (e : MatEntry) : State :=
  let x := coreAt s c
  let old := x.mq.length - x.mqNew.length
  let q := rankIn r e x.mqNew (x.mq.drop old)
  fetchNext (setCore s c { x with mq := x.mq.take old ++ q.2, mqNew := q.1 }) c

/-- Entries the matrix queue holds (R178). -/
def matDepth : Nat := 4

/-- The matrix entries that a slot has still to offer in the cycle in progress. -/
def stillOffers (s : State) (c slot : Nat) : Nat :=
  if chosenNow s c slot then 0
  else match broadcastOf s c slot with
    | some (x, parts, a, .word w0 len b, p) =>
      if coreRuns s c && fetchHit p (coreAt s c) a len && (layout (instrOf s p x.node x.off w0 len b)).any fun l => isMatOp l.op then
        parts.length
      else 0
    | _ => 0

/-- The room of the matrix queue for a slot, or for the Shucker as number 2 (R178, R385): what the slots before it offer in the same
cycle comes first. -/
def queueRoom (s : State) (c r : Nat) : Nat :=
  matDepth - ((coreAt s c).mq.length + ((upFrom r 0).map (stillOffers s c)).foldl (· + ·) 0)

/-- The rows of an operand (R257). -/
def rowsOf (t : Fmt) (bytes : List Byte) : List (List Nat) :=
  (upFrom 32 0).map fun r => rowElems t ((bytes.drop (384 * r)).take 384)

/-- The tile an MMA computes (R383). -/
def mmaTile (t : Fmt) (a b : List Byte) (c : List Nat) : List Nat :=
  let bs := rowsOf t b
  (List.zip (upFrom 32 0) (rowsOf t a)).flatMap fun p =>
    (List.zip (upFrom 32 0) bs).map fun q => mmaElem t p.2 q.2 (nthD 0 c (32 * p.1 + q.1))

/-- The tile HAD computes, in blocks of n (R268). -/
def hadTile (n : Nat) (x : List Nat) : List Nat :=
  (upFrom (1024 / n) 0).flatMap fun b =>
    let block := (x.drop (n * b)).take n
    (upFrom n 0).map (hadElem block)

/-- The tile SCACC computes (R264). -/
def scaccTile (src d sa sb : List Nat) : List Nat :=
  (List.zip (upFrom 1024 0) (List.zip src d)).map fun p =>
    scaccElem p.2.1 p.2.2 (nthD 0 sa (p.1 / 32)) (nthD 0 sb (p.1 % 32))

/-- Bytes as 32-bit elements. -/
def wordsIn (bytes : List Byte) : List Nat := (upFrom (bytes.length / 4) 0).map fun i => ofBytes ((bytes.drop (4 * i)).take 4)

/-- An entry's trap in the lanes that issued it (R153, R380). -/
def entryTrap (s : State) (e : MatEntry) (t : Trap) : State :=
  e.lanes.foldl (fun st p => divertLate st e.gh p.1 t p.2) s

/-- The first byte of a row whose key has been erased (R153). -/
def rowErased (s : State) (rows : List (Nat × List ((Nat × Nat) × Option Byte))) : Option Nat :=
  (rows.filterMap fun r => erasedAt s r.1 r.2).head?

/-- The tile an entry writes into. -/
def putTile (s : State) (e : MatEntry) (f : Group → Nat → List Nat) : State :=
  match mfind s.groups e.gh, e.tile with
  | some g, some t => setGroup s e.gh (setTile g (beforeCk g e.ticket) t (f g t))
  | _, _ => s

/-- ACCLD from device memory: a line marked uncorrectable raises POISON, with the row's address (R389). -/
def loadRows (s : State) (e : MatEntry) (rows : List (Nat × List ((Nat × Nat) × Option Byte))) : State :=
  match rowErased s rows with
  | some va => entryTrap s e (extentTrap va kRead)
  | none =>
    match rows.find? fun r => r.2.any fun b => b.2.isNone && poisoned s b.1.1 with
    | some r => entryTrap s e { code := 0x09, addr1 := r.1, addr2 := none, info := 0 }
    | none =>
      let bytes := rows.flatMap fun r => r.2.map fun b => match b.2 with
        | some x => x
        | none => readAs s (keyView s b.1.2) b.1.1
      putTile s e fun _ _ => wordsIn bytes

/-- Cut a row's bytes into elements of four. -/
def quads {α : Type} : Nat → List α → List (List α)
  | 0, _ => []
  | n + 1, l => l.take 4 :: quads n (l.drop 4)

/-- ACCST to device memory: one store for each element, in order (R189, R389). -/
def storeRows (s : State) (e : MatEntry) (st : Nat) (rows : List (Nat × List (Nat × Nat))) : State :=
  match rowErased s (rows.map fun r => (r.1, homeward r.2)), mfind s.groups e.gh with
  | some va, _ => entryTrap s e (extentTrap va kWrite)
  | none, none => s
  | none, some g =>
    let elems := rows.flatMap fun r => quads 32 r.2
    (List.zip elems (tileOf g st)).foldl (fun acc p =>
      storeBytes acc ((List.zip p.1 (toBytes 4 p.2)).map fun q => (q.1.1, q.1.2, q.2)) false) s

/-- ACCST to scratchpad, row by row, each past the requests that arrived earlier at its banks (R176): another member's scratchpad
takes it in both copies (R180, R389). -/
def storeSpad (s : State) (e : MatEntry) (st : Nat) (rows : List (Nat × Nat)) : State :=
  match mfind s.groups e.gh with
  | none => s
  | some g =>
    let vals := tileOf g st
    (List.zip (upFrom 32 0) rows).foldl (fun acc p =>
      let s1 := leaveBehind (drainFor acc p.2.1 p.2.2 128) e.gh true p.2.1 p.2.2 128
      match mfind s1.groups p.2.1 with
      | none => s1
      | some t =>
        let bytes := ((vals.drop (32 * p.1)).take 32).flatMap (toBytes 4)
        watchSpad (setGroup s1 p.2.1 (putSpad t (p.2.1 ≠ e.gh || beforeCk t e.ticket) p.2.2 bytes))) s

/-- Run a matrix entry (R383, R386, R387, R389, R390). -/
def runEntry (s : State) (e : MatEntry) : State :=
  match e.op with
  | .mma ty cz _ _ _ _ =>
    let f := e.fetched.getD ([], [])
    putTile s e fun g t => mmaTile ty f.1 f.2 (if cz then List.replicate 1024 0 else tileOf g t)
  | .had n src => putTile s e fun g _ => hadTile n (tileOf g src)
  | .scaccVec src ga a gb b =>
    let sa := arrived s e ga a 32
    let sb := arrived sa.1 e gb b 32
    putTile sb.1 e fun g t => scaccTile (tileOf g src) (tileOf g t) (sa.2.map (·.toNat)) (sb.2.map (·.toNat))
  | .scaccUni src sa sb =>
    putTile s e fun g t => scaccTile (tileOf g src) (tileOf g t) (List.replicate 32 sa) (List.replicate 32 sb)
  | .accldSpad rows =>
    let r := arrivedRows e s rows
    putTile r.1 e fun _ _ => wordsIn r.2
  | .accldDev rows => loadRows s e rows
  | .accstSpad src rows => storeSpad s e src rows
  | .accstDev src rows => storeRows s e src rows
  | .accz n => match mfind s.groups e.gh, e.tile with
    | some g, some t =>
      setGroup s e.gh ((upFrom n t).foldl (fun g k => setTile g (beforeCk g e.ticket) k (List.replicate 1024 0)) g)
    | _, _ => s

/-- The array's accesses to device memory meet a relocking layer (R22). -/
def entryStalls (s : State) (e : MatEntry) : Bool :=
  match e.op with
  | .accldDev rows => homesStall s ((rows.flatMap (·.2)).filterMap fun b => if b.2.isNone then some b.1 else none)
  | .accstDev _ rows => homesStall s (rows.flatMap (·.2))
  | _ => false

/-- The head of the matrix queue goes. -/
def popEntry (x : Core) : Core :=
  { x with mq := x.mq.drop 1, mqNew := if x.mq.length ≤ x.mqNew.length then x.mqNew.drop 1 else x.mqNew }

/-- MATRIX_ENTRY_COMPLETE (R22, R178): the entry in work ends, and the fetches behind it go on; nothing while the core's
layer relocks, or the memory that the entry reaches. -/
def execMatrixEntryComplete (core : Nat) (s : State) : Host.Outcome State Fault Refusal :=
  if (layerAt s (layerOfCore core)).clock.relock.isSome then .next s
  else match (coreAt s core).mq with
    | [] => .next s
    | e :: _ =>
      if entryStalls s e then .next s
      else
        let s1 := runEntry s e
        let s2 := setCore { s1 with free := s1.free + operandBytes } core (popEntry (coreAt s1 core))
        .next (wake (fetchNext s2 core))

/-- Only as many groups of an issue take part as the queue has room for; the others wait (R178, R385). -/
def withRoom (s : State) : State :=
  { s with issue := { s.issue with parts := s.issue.parts.take (queueRoom s s.issue.core s.issue.slot) } }

/-- A matrix instruction: one entry for each group of the issue (R178, R380). -/
def runMatrix (i : Instr) (s : State) (f : Layout → Here → Except Trap (Option Nat × MatOp)) :
    Host.Outcome State Fault Refusal :=
  checked i s fun l s => runOnce l (fun h who => do
    let r ← f l h
    let e : MatEntry :=
      { ticket := h.st.ticket, gh := h.gh, tile := r.1, op := r.2, fetched := none,
        lanes := who.map fun j => (j, placeOf h.st (laneAt h.g j) .nothing) }
    .ok (offer h.st h.st.issue.core h.st.issue.slot e)) (withRoom s)

/-- A tile outside the group's partition raises ILLOP (R162). -/
def tileIn (h : Here) (t : Nat) : Except Trap Unit := if t < tilesOf h.g then .ok () else .error (illop h.st)

/-- A scratchpad operand of n bytes (R360). -/
def spadAt (h : Here) (va n : Nat) : Except Trap (Nat × Nat) :=
  match resolveSpad h.st h.gh h.g va n with
  | some t => .ok t
  | none => .error (sprange va)

/-- An MMA's operand checks (R382). -/
def mmaOperands (h : Here) (va vb : Nat) : Except Trap ((Nat × Nat) × (Nat × Nat)) :=
  if va % 32 ≠ 0 then .error (misalign va 32)
  else if vb % 32 ≠ 0 then .error (misalign vb 32)
  else do
    let ta ← spadAt h va operandBytes
    let tb ← spadAt h vb operandBytes
    .ok (ta, tb)

/-- The tile of a head. -/
def headTile (h : Head) : Option Nat := if h.nw then none else some h.dreg.toNat

/-- MMA in a format (R381 to R383). -/
def runMma (i : Instr) (h : Head) (ty : Fmt) (cz : Bool) (a b : Src) (s : State) : Host.Outcome State Fault Refusal :=
  runMatrix i s fun _ x => do
    let va ← rdN x a
    let vb ← rdN x b
    let t ← mmaOperands x va vb
    .ok (headTile h, .mma ty cz t.1.1 t.1.2 t.2.1 t.2.2)

/-- MMA.LN6 (R381). -/
def execMmaLn6 (h : Head) (cz : Bool) (a b : Src) (s : State) : Host.Outcome State Fault Refusal :=
  runMma (.mmaLn6 h cz a b) h .ln6 cz a b s

/-- MMA.LN8 (R381). -/
def execMmaLn8 (h : Head) (cz : Bool) (a b : Src) (s : State) : Host.Outcome State Fault Refusal :=
  runMma (.mmaLn8 h cz a b) h .ln8 cz a b s

/-- MMA.I8 (R381). -/
def execMmaI8 (h : Head) (cz : Bool) (a b : Src) (s : State) : Host.Outcome State Fault Refusal :=
  runMma (.mmaI8 h cz a b) h .i8 cz a b s

/-- MMA.BF16 (R381). -/
def execMmaBf16 (h : Head) (cz : Bool) (a b : Src) (s : State) : Host.Outcome State Fault Refusal :=
  runMma (.mmaBf16 h cz a b) h .bf16 cz a b s

/-- MMA.F16 (R381). -/
def execMmaF16 (h : Head) (cz : Bool) (a b : Src) (s : State) : Host.Outcome State Fault Refusal :=
  runMma (.mmaF16 h cz a b) h .f16 cz a b s

/-- HAD (R386): PTS 1, 2 and 3 name 16, 32 and 64 points. -/
def execHad (h : Head) (pts : BitVec 2) (st : BitVec 6) (s : State) : Host.Outcome State Fault Refusal :=
  runMatrix (.had h pts st) s fun _ x => do
    tileIn x st.toNat
    .ok (headTile h, .had (2 ^ (3 + pts.toNat)) st.toNat)

/-- SCACC (R387). -/
def execScacc (h : Head) (su : Bool) (st : BitVec 6) (a b : Src) (s : State) : Host.Outcome State Fault Refusal :=
  runMatrix (.scacc h su st a b) s fun _ x => do
    tileIn x st.toNat
    let va ← rdN x a
    let vb ← rdN x b
    if su then .ok (headTile h, .scaccUni st.toNat (va % 256) (vb % 256))
    else do
      let ta ← spadAt x va 32
      let tb ← spadAt x vb 32
      .ok (headTile h, .scaccVec st.toNat ta.1 ta.2 tb.1 tb.2)

/-- A row of 128 bytes in scratchpad: SPRANGE with its first failing byte (R389). -/
def spadRow (h : Here) (row : Nat) : Except Trap (Nat × Nat) :=
  match resolveSpad h.st h.gh h.g row 128 with
  | some t => .ok t
  | none =>
    let bad := (upFrom 128 0).find? fun j => (resolveSpad h.st h.gh h.g ((row + j) % 2 ^ 32) 1).isNone
    .error (sprange ((row + bad.getD 0) % 2 ^ 32))

/-- The 32 rows of a tile in scratchpad, addresses modulo 2^32 (R360, R389). -/
def spadRows (h : Here) (va vb : Nat) : Except Trap (List (Nat × Nat)) :=
  (upFrom 32 0).mapM fun i => spadRow h ((va + vb * i) % 2 ^ 32)

/-- The 32 rows of a tile in device memory, addresses modulo 2^64 (R153, R389). -/
def devRows (h : Here) (k : Kinds) (va vb : Nat) : Except Trap (List (Nat × List (Nat × Nat))) :=
  (upFrom 32 0).mapM fun i => do
    let row := (va + vb * i) % 2 ^ 64
    let pas ← transBytes h k 128 row
    .ok (row, pas)

/-- Base and stride of ACCLD and ACCST: multiples of 4 (R389). -/
def tileBase (h : Here) (sp : Bool) (a b : Src) : Except Trap (Nat × Nat) := do
  let va ← (if sp then rdD h a else rdN h a)
  let vb ← rdN h b
  if va % 4 ≠ 0 then .error (misalign va 4)
  else if vb % 4 ≠ 0 then .error (misalign vb 4)
  else .ok (va, vb)

/-- ACCLD (R388, R389): bytes the group holds are taken at issue (R181). -/
def execAccld (h : Head) (sp : Bool) (a b : Src) (s : State) : Host.Outcome State Fault Refusal :=
  runMatrix (.accld h sp a b) s fun _ x => do
    let v ← tileBase x sp a b
    if sp then do
      let rows ← devRows x kRead v.1 v.2
      .ok (headTile h, .accldDev (rows.map fun r => (r.1, r.2.map fun p => (p, heldAt x.g p.1))))
    else do
      let rows ← spadRows x v.1 v.2
      .ok (headTile h, .accldSpad rows)

/-- ACCST (R388, R389). -/
def execAccst (h : Head) (sp : Bool) (st : BitVec 6) (a b : Src) (s : State) : Host.Outcome State Fault Refusal :=
  runMatrix (.accst h sp st a b) s fun _ x => do
    tileIn x st.toNat
    let v ← tileBase x sp a b
    if sp then do
      let rows ← devRows x kWrite v.1 v.2
      .ok (none, .accstDev st.toNat rows)
    else do
      let rows ← spadRows x v.1 v.2
      .ok (none, .accstSpad st.toNat rows)

/-- ACCZ (R390). -/
def execAccz (c : Ctl) (nm t : BitVec 6) (s : State) : Host.Outcome State Fault Refusal :=
  runMatrix (.accz c nm t) s fun _ x => do
    tileIn x (t.toNat + nm.toNat)
    .ok (some t.toNat, .accz (nm.toNat + 1))

end Sys2Proof.Machine
end

