-- ==== Sys2Proof/Machine/Shucker.lean ====
section
/-! DEFINITION. The Shucker: COPY with its sync words, matrix words and confidential form, STREAM and REDUCE (04 R84 to R98, R103,
17 R385). -/

namespace Sys2Proof.Machine

/-- The packet's command, changed. -/
def setCmd (s : State) (p : Nat) (x : Packet) (c : Cmd) : State := setPacket s p { x with cmd := c }

/-- Begin a command (R244): a collective step is recorded. -/
def beginCmd (s : State) (p : Nat) (x : Packet) (coll : Bool) (c : Cmd) : State :=
  let s1 := if coll then traceRecord s (sliceUnit x.queue) 3 x.queue (toBytes 8 (pseqOf x.body.toNat)) else s
  setPacket s1 p { x with phase := .running, cmd := { c with coll := coll } }

/-- The SRC and DST of a COPY or REDUCE, and a COPY's SYNCW (R89, R97). -/
def psrc (x : Packet) : Endpoint := endpointOf (pfield x.body.toNat 16 64)
def pdst (x : Packet) : Endpoint := endpointOf (pfield x.body.toNat 24 64)
def psync (x : Packet) : Endpoint := endpointOf (pfield x.body.toNat 40 64)

/-- An endpoint in a group. -/
def inGroup : Endpoint → Bool
  | .spad .. | .regs .. => true
  | _ => false

/-- An endpoint at a peer. -/
def atPeer : Endpoint → Bool
  | .peer .. => true
  | _ => false

/-- COPY (R89, R90, R244): LENGTH 0 moves nothing. -/
def execCopy (p : Nat) (s : State) : Host.Outcome State Fault Refusal :=
  match startedAs s p 3 with
  | none => .next s
  | some x =>
    let b := x.body.toNat
    let coll := atPeer (psrc x) || atPeer (pdst x)
    let groups := inGroup (psrc x) || inGroup (pdst x) || pswr b
    let s1 := beginCmd s p x coll { Cmd.reset with todo := [(0, copyLen b)], resolved := !groups && !copyEnc b }
    if copyLen b = 0 then
      .next (finishSeq (setPacket s1 p { x with cmd := { Cmd.reset with coll := coll } }) p x 1)
    else .next s1

/-- A tensor layout record (R94). -/
structure Layout5 where
  base : Nat
  dims : List Nat
  strs : List Nat
  fmt : Nat
  rank : Nat
  tiles : List Nat
  swz : Nat
  rsv : Nat
  deriving DecidableEq, Repr

/-- The record of 64 bytes (R94); dimension 0 has no stride of its own. -/
def layoutOf (b : Nat) : Layout5 :=
  { base := pfield b 0 64, dims := (upFrom 5 0).map fun i => pfield b (8 + 4 * i) 32,
    strs := (upFrom 4 0).map fun i => pfield b (28 + 4 * i) 32, fmt := pfield b 44 8, rank := pfield b 45 8,
    tiles := (upFrom 5 0).map fun i => pfield b (46 + 2 * i) 16, swz := pfield b 56 8, rsv := pfield b 57 56 }

/-- The product of some extents. -/
def prod (l : List Nat) : Nat := l.foldl (· * ·) 1

/-- Bytes of n consecutive elements of a record's format (R94). -/
def elemBytes (t : Layout5) (n : Nat) : Nat :=
  match t.fmt with
  | 9 => n / 4 * 3
  | 2 | 3 | 7 | 8 => 2 * n
  | 4 | 5 | 6 => 4 * n
  | _ => n

/-- Bytes of a tile row and of a tile (R94). -/
def rowBytes (t : Layout5) : Nat := elemBytes t (t.tiles.headD 0)
def tileBytes (t : Layout5) : Nat := rowBytes t * prod (t.tiles.drop 1)

/-- A record within its limits (R94). -/
def layoutFits (t : Layout5) : Bool :=
  t.rsv == 0 && t.fmt ≤ 11 && 1 ≤ t.rank && t.rank ≤ 5 && t.swz ≤ 2 && t.dims.all (1 ≤ ·) && t.tiles.all (1 ≤ ·)
    && (t.dims.drop t.rank).all (· == 1)
    && (t.fmt != 9 || (t.dims.headD 0 % 4 == 0 && t.tiles.headD 0 % 4 == 0))

/-- SLOTB, NSLOT and DIR of a STREAM (R95). -/
def slotBytes (b : Nat) : Nat := bits b (8 * 48) 21
def slotCount (b : Nat) : Nat := bits b (8 * 48 + 28) 4 + 1
def isDrain (b : Nat) : Bool := bit b (8 * 48 + 32)

/-- The parts of groups that a command touches: endpoints, the bytes it may touch from each, and whether it writes them
(R85). -/
def touches (x : Packet) : List (Endpoint × Nat × Bool) :=
  let b := x.body.toNat
  match ptype b with
  | 3 =>
    [(psrc x, copyLen b + (if copyEnc b then 16 else 0), false), (pdst x, copyLen b, true)]
      ++ (if pswr b then [(psync x, 16, true)] else [])
  | 4 =>
    let t := layoutOf x.cmd.layout
    [(pdst x, (slotCount b - 1) * slotBytes b + tileBytes t, true), (endpointOf (pfield b 32 64), 32 * slotCount b, true)]
  | 5 =>
    let n := pfield b 32 24
    let opr := pfield b 35 2
    (if opr = 0 then [(psrc x, 4 * n, false)] else []) ++ [(pdst x, 16 * n, true)]
      ++ (if opr = 1 then [(psync x, 4 * n, true)] else [])
  | _ => []

/-- What resolving an endpoint comes to (R85, R86). -/
inductive Resolved where
  | ok
  | wait (gh : Nat)
  | stop (status : Nat)
  deriving DecidableEq, Repr

/-- Resolve one endpoint of a command for n bytes read or written (R85, R86): only the core writes the path spill area
(R281). -/
def resolveOne (s : State) (c : Cmd) (n : Nat) (write : Bool) : Endpoint → Resolved
  | .spad gh off => match findFor s c gh with
    | .gone => .stop 7
    | .wait => .wait gh
    | .here g => if off + n ≤ (if write then spadLimit g else spadSize g) then .ok else .stop 6
  | .regs gh vreg lane0 nl => match findFor s c gh with
    | .gone => .stop 7
    | .wait => .wait gh
    | .here g => if lane0 + nl ≤ g.width ∧ vreg + n / (4 * nl) ≤ nvOf g then .ok else .stop 6
  | _ => .ok

/-- Resolve a list of endpoints: the first that is not ok decides. -/
def resolveAll (s : State) (c : Cmd) : List (Endpoint × Nat × Bool) → Resolved
  | [] => .ok
  | e :: r => match resolveOne s c e.2.1 e.2.2 e.1 with
    | .ok => resolveAll s c r
    | x => x

/-- The group of an endpoint in one. -/
def endpointGroup : Endpoint → Option Nat
  | .spad gh _ => some gh
  | .regs gh _ _ _ => some gh
  | _ => none

/-- Note the groups of resolved endpoints (R85). -/
def bindTo (s : State) (c : Cmd) (l : List Endpoint) : Cmd :=
  { c with bound := (l.filterMap endpointGroup).foldl (fun m gh => match mfind m gh, mfind s.groups gh with
      | none, some g => mput m gh (groupId g)
      | _, _ => m) c.bound }

/-- The generations of a STREAM's sync words, FULL and EMPTY of each slot (R95, R96). -/
def readGens (s : State) (b : Nat) : List (Nat × Nat) :=
  match endpointOf (pfield b 32 64) with
  | .spad gh off => match mfind s.groups gh with
    | some g => (upFrom (slotCount b) 0).map fun k =>
        (spadNum g (off + 32 * k + 8) 4, spadNum g (off + 32 * k + 24) 4)
    | none => []
  | _ => []

/-- A running command of the Shucker. -/
def commandAt (s : State) (p : Nat) : Option Packet :=
  match mfind s.packets p with
  | some x => if x.phase = .running ∧ 3 ≤ ptype x.body.toNat ∧ ptype x.body.toNat ≤ 5 ∧ pktLive s x then some x else none
  | none => none

/-- A command's endpoints in some groups are resolved: their groups are bound to it, and the registers of a SPACE 3
destination wait for its bytes (R85, R86). -/
def bindCmd (s : State) (p : Nat) (x : Packet) (l : List Endpoint) (c : Cmd) : State :=
  let mark := ptype x.body.toNat == 3 && bits (pfield x.body.toNat 24 64) 61 3 == 3
  let x1 := { x with cmd := bindTo s { c with resolved := true, marked := mark } l }
  setPacket (if mark then markRegs s x1 (· + 1) else s) p x1

/-- Resolve a command's endpoints in groups (R85, R86); a STREAM reads its generations (R96). -/
def resolveCmd (s : State) (p : Nat) (x : Packet) : State :=
  match resolveAll s x.cmd (touches x) with
  | .wait gh => waitLate s p x { gh := gh, off := 0, n := 0, answered := true }
  | .stop st => finishSeq s p x st
  | .ok =>
    let gens := if ptype x.body.toNat = 4 then readGens s x.body.toNat else []
    bindCmd s p x ((touches x).map (·.1)) { x.cmd with gens := gens }

/-- A confidential copy resolves its endpoints as its check touches them (R85, R92, R430). -/
def isEnc (x : Packet) : Bool := ptype x.body.toNat == 3 && copyEnc x.body.toNat

/-- ENDPOINT_RESOLVE (R85, R86). -/
def execEndpointResolve (p : Nat) (s : State) : Host.Outcome State Fault Refusal :=
  match commandAt s p with
  | none => .next s
  | some x =>
    if x.cmd.resolved || isEnc x || (ptype x.body.toNat == 4 && !x.cmd.read) then .next s else .next (resolveCmd s p x)

/-- The codes that a record may carry (R228). -/
def recordCodes : List Nat := [1, 2, 3, 4, 5, 6, 7, 8, 9, 10, 0x20, 0x21, 0x22, 0x23, 0x30, 0x31]

/-- A copy-fault attribution in a lane's record (R236): which of the codes it carries, and its INFO, are not stated (log 46). -/
def attributeLane (s : State) (gh : Nat) (a : Attrib) : State :=
  match mfind s.groups gh with
  | none => s
  | some g =>
    let code := nthD 1 recordCodes ((Config.freeByte s.free).toNat % 16)
    let t : Trap := { code := code, addr1 := a.va, addr2 := none, info := (Config.freeValue (s.free + 1)).toNat % 2 ^ 32 }
    errorRecord { s with free := s.free + 2 } (layerRing g) (trapRecord s gh g a.lane a.frames a.off false 0 code t)

/-- The group with no value on its way but those of one copy into its registers. -/
def waitingOnlyFor (x : Packet) (gh : Nat) (g : Group) : Group :=
  match pdst x with
  | .regs h vreg lane0 nl =>
    let own := if x.cmd.marked && h == gh && boundTo x.cmd gh g then openWords (copyLen x.body.toNat) x.cmd.todo else []
    { countRegs (· + 1) (own.map (wordReg vreg lane0 nl)) { g with vbusy := [] } with pend := [] }
  | _ => { g with vbusy := [], pend := [] }

/-- A lane waits on a copy: in a wait of its group, or for a register that the copy's bytes are still to reach (R86, R174,
R276). -/
def waitsOn (s : State) (x : Packet) (gh : Nat) (g : Group) (i : Nat) : Bool :=
  let l := laneAt g i
  liveLane l && (l.waiting ||
    (let g0 := waitingOnlyFor x gh g
     match progOf s g, coreOf g with
     | some p, some c => match l.pos with
       | .leaf n o => match fetchAt s p (coreAt s c) (instrVa s p n o) with
         | .word w0 len b => match layout (instrOf s p n o w0 len b) with
           | some ly => srcBusy g0 i ly.ra ly.a || srcBusy g0 i ly.rb ly.b || srcBusy g0 i ly.rc ly.c ||
               (ly.dest != .tile && destBusy s gh g0 i ly) || skipvBusy g0 i (instrOf s p n o w0 len b)
           | none => false
         | .fault .. => false
       | .enter n _ => match nodeRec s p n with
         | .ok r => (bits r 0 4 == 5 || bits r 0 4 == 2 && bit r 40) && regPending g0 i (bits r 48 8)
         | .error _ => false
       | .advance _ => false
     | _, _ => false))

/-- Copy-fault attribution (R236): each group whose lane waits on a paused command has an ERROR record, at the end of the
cycle where it holds a core. -/
def attribute_ (s : State) (x : Packet) (va : Nat) : State :=
  (((touches x).filterMap fun e => endpointGroup e.1).eraseDups).foldl (fun st gh => match mfind st.groups gh with
    | none => st
    | some g => match (upFrom g.lanes.length 0).find? (waitsOn st x gh g) with
      | none => st
      | some i =>
        let l := laneAt g i
        let a : Attrib := { lane := i, frames := l.frames, off := (match l.pos with | .leaf _ o => o | _ => 0), va := va }
        if (coreOf g).isSome then setGroup st gh { g with attribs := g.attribs ++ [a] } else attributeLane st gh a) s

/-- A command pauses on a page that is not resident (R103, R236). -/
def pauseCmd (s : State) (p : Nat) (x : Packet) (va : Nat) : State :=
  attribute_ (setCmd s p x { x.cmd with paused := some va }) x va

/-- Read a STREAM's layout record (R94, R95), and resolve its groups; its absent page pauses the command (R103). -/
def readLayout (s : State) (p : Nat) (x : Packet) : State :=
  match reach s (pktCtx s x) (pktInit x.queue) (pfield x.body.toNat 16 64) 64 kRead 1 with
  | .pause va => pauseCmd s p x va
  | .stall => s
  | .stop 2 v => finish s p 2 v
  | .stop st _ => finishSeq s p x st
  | .ok pas _ =>
    let t := ofBytes (readPas s pas)
    let x1 := { x with cmd := { x.cmd with layout := t, read := true } }
    if layoutFits (layoutOf t) && tileBytes (layoutOf t) ≤ slotBytes x.body.toNat then resolveCmd (setPacket s p x1) p x1
    else finishSeq s p x 6

/-- STREAM (R94 to R96): the command begins, or reads its record again after a pause. -/
def execStream (p : Nat) (s : State) : Host.Outcome State Fault Refusal :=
  match startedAs s p 4 with
  | some x =>
    let x1 := { x with phase := .running, cmd := Cmd.reset }
    .next (readLayout (setPacket s p x1) p x1)
  | none => match commandAt s p with
    | some x => if ptype x.body.toNat = 4 && !x.cmd.read && x.cmd.paused.isNone then .next (readLayout s p x) else .next s
    | none => .next s

/-- Bytes a Shucker takes from a source. -/
inductive Got where
  | bytes (l : List Byte)
  | wait (gh : Nat)
  | stall
  | pause (va : Nat)
  | stop (status value : Nat)
  deriving DecidableEq, Repr

/-- The access table of a Valob port permits a Shucker's access to a peer's memory (R58, R61), in runs that lie in one 4 KiB. -/
def portPermits (s : State) (port init kindBit : Nat) : Nat → Nat → Nat → Bool
  | 0, _, n => n == 0
  | fuel + 1, va, n =>
    n == 0 ||
      (let m := Nat.min n (4096 - va % 4096)
       tableGrants s (23 + port) init va (va + m - 1) kindBit && portPermits s port init kindBit fuel (va + m) (n - m))

/-- What keeps an access from a peer's memory (R22, R39, R61): a link that is down, the port's table, or a relock. -/
def peerBar (s : State) (x : Packet) (port va n kindBit : Nat) : Reach :=
  if (portAt s port).state ≠ .up then .stop 5 0
  else if !portPermits s port (pktInit x.queue) kindBit (n / 4096 + 2) va n then .stop 4 0
  else if !portsRun s then .stall
  else .ok [] []

/-- n bytes of an endpoint of a command from an offset (R84, R85, R176): the state after what arrived earlier at its banks. -/
def takeBytes (s : State) (x : Packet) (e : Endpoint) (off n : Nat) : State × Got :=
  match e with
  | .dev va => match reach s (pktCtx s x) (pktInit x.queue) (va + off) n kRead 1 with
    | .ok pas _ => (s, .bytes (readPas s pas))
    | .pause a => (s, .pause a)
    | .stall => (s, .stall)
    | .stop st v => (s, .stop st v)
  | .spad gh o => match findFor s x.cmd gh with
    | .gone => (s, .stop 7 0)
    | .wait => (s, .wait gh)
    | .here _ =>
      let s1 := drainFor s gh (o + off) n
      match mfind s1.groups gh with
      | some g => (s1, .bytes (spadBytes g (o + off) n))
      | none => (s1, .stop 7 0)
  | .peer port va => match peerBar s x port (va + off) n 1 with
    | .ok .. => (s, .bytes (sgets 0 s.peerMem (port * 2 ^ 57 + (va + off)) n))
    | .pause a => (s, .pause a)
    | .stall => (s, .stall)
    | .stop st v => (s, .stop st v)
  | .host a => (s, .bytes (sgets 0 s.hostMem (a + off) n))
  | _ => (s, .stop 6 0)

/-- What storing bytes comes to. -/
inductive Put where
  | done (s : State)
  | wait (gh : Nat)
  | stall
  | pause (va : Nat)
  | stop (status value : Nat)
  deriving DecidableEq, Repr

/-- Replace one byte of a word. -/
def wordByte (w : Word) (k : Nat) (b : Byte) : Word :=
  let n := w.toNat
  BitVec.ofNat 32 (n - bits n (8 * k) 8 * 2 ^ (8 * k) + b.toNat * 2 ^ (8 * k))

/-- Land payload bytes in vector registers (R86): both copies of a checkpoint take them. -/
def landRegs (g : Group) (vreg lane0 nl off : Nat) (bytes : List Byte) : Group :=
  (List.zip (upFrom bytes.length off) bytes).foldl (fun g p =>
    let w := p.1 / 4
    let lane := lane0 + w % nl
    let r := vreg + w / nl
    if r < nvOf g then setV g true lane r (wordByte (vregAt g lane r) (p.1 % 4) p.2) else g) g

/-- The registers whose bytes have all landed with a piece no longer wait for the copy (R86, R174). -/
def clearLanded (g : Group) (vreg lane0 nl off n : Nat) (todo : List (Nat × Nat)) : Group :=
  let ws := (upFrom ((off + n - 1) / 4 - off / 4 + 1) (off / 4)).filter fun w =>
    todo.all fun t => t.1 + t.2 ≤ 4 * w || 4 * w + 4 ≤ t.1
  countRegs (· - 1) (ws.map (wordReg vreg lane0 nl)) g

/-- Store bytes at an offset of an endpoint of a command (R84 to R86, R90); `todo` is what remains after them. -/
def putBytes (s : State) (x : Packet) (e : Endpoint) (off : Nat) (bytes : List Byte) (todo : List (Nat × Nat)) : Put :=
  match e with
  | .dev va => match reach s (pktCtx s x) (pktInit x.queue) (va + off) bytes.length kWrite 2 with
    | .ok pas leaves => .done (shuckStore s pas bytes leaves false)
    | .pause a => .pause a
    | .stall => .stall
    | .stop st v => .stop st v
  | .spad gh o => match findFor s x.cmd gh with
    | .gone => .stop 7 0
    | .wait => .wait gh
    | .here _ => .done (landSpad s gh (o + off) bytes)
  | .regs gh vreg lane0 nl => match findFor s x.cmd gh with
    | .gone => .stop 7 0
    | .wait => .wait gh
    | .here g => .done (resumeWalks (setGroup s gh
        (clearLanded (landRegs g vreg lane0 nl off bytes) vreg lane0 nl off bytes.length todo)) gh)
  | .peer port va => match peerBar s x port (va + off) bytes.length 2 with
    | .ok .. => .done { s with peerMem := ssets 0 s.peerMem (port * 2 ^ 57 + (va + off)) bytes }
    | .pause a => .pause a
    | .stall => .stall
    | .stop st v => .stop st v
  | .host a => .done { s with hostMem := ssets 0 s.hostMem (a + off) bytes }
  | .bad => .stop 6 0

/-- A store could be done now: nothing is changed. -/
def canPut (s : State) (x : Packet) (e : Endpoint) (off n : Nat) : Option Put :=
  match putBytes s x e off (List.replicate n 0) [] with
  | .done _ => none
  | r => some r

/-- End or pause a command as the access of a piece came out, or let it wait for a group. -/
def stopCmd (s : State) (p : Nat) (x : Packet) (off n : Nat) (answered : Bool) : Put → State
  | .done s' => s'
  | .wait gh => waitLate s p x { gh := gh, off := off, n := n, answered := answered }
  | .stall => s
  | .pause va => pauseCmd s p x va
  | .stop 2 v => finish s p 2 v
  | .stop st _ => finishSeq s p x st

/-- A Got that gives no bytes, as a Put. -/
def gotPut : Got → Put
  | .bytes _ => .stop 6 0
  | .wait gh => .wait gh
  | .stall => .stall
  | .pause va => .pause va
  | .stop st v => .stop st v

/-- Take a piece out of the intervals still to do; none where it is not one of them. -/
def takePiece (off n : Nat) : List (Nat × Nat) → Option (List (Nat × Nat))
  | [] => none
  | t :: r =>
    if t.1 ≤ off ∧ off + n ≤ t.1 + t.2 then
      some ((if t.1 < off then [(t.1, off - t.1)] else [])
        ++ (if off + n < t.1 + t.2 then [(off + n, t.1 + t.2 - (off + n))] else []) ++ r)
    else (takePiece off n r).map (t :: ·)

/-- Where an endpoint's bytes lie: a space and an address in it. -/
def placeAt : Endpoint → Option (Nat × Nat)
  | .dev va => some (0, va)
  | .spad gh off => some (1 + gh, off)
  | .peer port va => some (0x20000 + port, va)
  | .host a => some (0x30000, a)
  | _ => none

/-- Bytes of a destination that the copy's own source overlaps are undefined (R90): free values (log 5). -/
def overlapFree (s : State) (x : Packet) (off : Nat) (bytes : List Byte) : List Byte :=
  match placeAt (psrc x), placeAt (pdst x) with
  | some a, some d =>
    if a.1 ≠ d.1 then bytes
    else (List.zip (upFrom bytes.length 0) bytes).map fun q =>
      let at_ := d.2 + off + q.1
      if a.2 ≤ at_ ∧ at_ < a.2 + copyLen x.body.toNat then Config.freeByte (s.free + q.1) else q.2
  | _, _ => bytes

/-- The host refuses a read with Unsupported Request: the address of a source there (R433). -/
def hostRefuses (x : Packet) (answered : Bool) (off : Nat) : Option Nat :=
  match psrc x with
  | .host a => if answered then none else some (a + off)
  | _ => none

/-- The bytes of a source, or FAULT where the host refuses the read (R103, R433). -/
def sourceBytes (s : State) (x : Packet) (answered : Bool) (off n : Nat) : State × Got :=
  match hostRefuses x answered off with
  | some a => (s, .stop 2 (faultValue a))
  | none => takeBytes s x (psrc x) off n

/-- The bytes of a piece of a copy: its staged plaintext, or its source (R90, R92). -/
def pieceBytes (s : State) (x : Packet) (answered : Bool) (off n : Nat) : State × Got :=
  match x.cmd.stage with
  | some st => (s, .bytes ((st.drop off).take n))
  | none =>
    let r := sourceBytes s x answered off n
    match r.2 with
    | .bytes l => (r.1, .bytes (overlapFree s x off l))
    | _ => r

/-- Count landed bytes toward a copy's sync word (R90, R202). -/
def countLanded (s : State) (x : Packet) (n : Nat) : State :=
  if pswr x.body.toNat then
    match psync x with
    | .spad gh off => landSync s gh off n
    | _ => s
  else s

/-- The sync word of a copy can be reached, or what stops the landing (R85). -/
def syncReady (s : State) (x : Packet) : Option Put :=
  if pswr x.body.toNat then
    match resolveOne s x.cmd 16 true (psync x) with
    | .ok => none
    | .wait gh => some (.wait gh)
    | .stop st => some (.stop st 0)
  else none

/-- Land a piece of a copy (R90). -/
def landPiece (s : State) (p : Nat) (x : Packet) (answered : Bool) (off n : Nat) (todo : List (Nat × Nat)) : State :=
  match syncReady s x with
  | some r => stopCmd s p x off n answered r
  | none =>
    match canPut s x (pdst x) off n with
    | some r => stopCmd s p x off n answered r
    | none =>
      let g := pieceBytes s x answered off n
      match g.2 with
      | .bytes l =>
        match putBytes { g.1 with free := g.1.free + n } x (pdst x) off l todo with
        | .done s1 => setCmd (countLanded s1 x n) p x { bindTo s x.cmd (if pswr x.body.toNat then [psync x] else []) with todo := todo }
        | r => stopCmd s p x off n answered r
      | r => stopCmd s p x off n answered (gotPut r)

/-- A landing of a copy, where the piece is one of those still to land. -/
def landOf (s : State) (p : Nat) (answered : Bool) (off n : Nat) : Option State :=
  match commandAt s p with
  | none => none
  | some x =>
    let b := x.body.toNat
    if ptype b ≠ 3 || n = 0 || !x.cmd.resolved || x.cmd.paused.isSome || (copyEnc b && x.cmd.stage.isNone) then none
    else (takePiece off n x.cmd.todo).map (landPiece s p x answered off n)

/-- What has come of a step that there may be none of: the waits of groups look at it. -/
def nextOf (s : State) (r : Option State) : Host.Outcome State Fault Refusal :=
  match r with
  | none => .next s
  | some t => .next (wake t)

/-- SHUCKER_LANDING (R90, R103): a piece of a copy lands, or its access pauses or ends the command; `r.answered` says whether
the host answers a read of its memory. -/
def execShuckerLanding (r : SourceRead) (off n : Nat) (s : State) : Host.Outcome State Fault Refusal :=
  nextOf s (landOf s r.packet r.answered off n)

/-- COPY_RESUME (R103): the page a command paused on is resident now, or will be found unmapped. -/
def execCopyResume (p : Nat) (s : State) : Host.Outcome State Fault Refusal :=
  match mfind s.packets p with
  | none => .next s
  | some x =>
    match x.cmd.paused, mfind s.contexts (pktCtx s x) with
    | some va, some c =>
      if x.phase ≠ .running || !pktRuns s x then .next s
      else match walk s c.root va with
        | .absent _ => .next s
        | _ => .next (setCmd s p x { x.cmd with paused := none })
    | _, _ => .next s

/-- COPY_DONE (R90, R91): the last byte has landed. -/
def execCopyDone (p : Nat) (s : State) : Host.Outcome State Fault Refusal :=
  match commandAt s p with
  | none => .next s
  | some x =>
    let b := x.body.toNat
    if ptype b ≠ 3 || x.cmd.todo ≠ [] || x.cmd.mmaw then .next s
    else if copyMmaf b then .next (setCmd s p x { x.cmd with mmaw := true })
    else .next (finishSeq s p x 1)

/-- An MMAW word: format, CZ, tile and operands (R314, R385). -/
def mmawOf (w : Nat) : Option (Fmt × Bool × Nat × Src × Src) :=
  let i := match decodeNat w with
    | .ok i => some i
    | .error _ => none
  let r := match i with
    | some (.mmaLn6 h cz a b) => some (h, Fmt.ln6, cz, a, b)
    | some (.mmaLn8 h cz a b) => some (h, Fmt.ln8, cz, a, b)
    | some (.mmaI8 h cz a b) => some (h, Fmt.i8, cz, a, b)
    | some (.mmaBf16 h cz a b) => some (h, Fmt.bf16, cz, a, b)
    | some (.mmaF16 h cz a b) => some (h, Fmt.f16, cz, a, b)
    | _ => none
  match r with
  | some (h, t, cz, a, b) =>
    if h.ctl.k9 && bits w 26 6 == 0 && bits w 0 2 == 1 && i.all legal then some (t, cz, h.dreg.toNat, a, b) else none
  | none => none

/-- An operand of an MMAW in its group (R385). -/
def mmawSrc (g : Group) : Src → Option Nat
  | .s r => some (sget 0 g.sregs r.toNat).toNat
  | .imm n => some (wrap 32 (immVal n))
  | _ => none

/-- The entry of an MMAW in its group (R382, R385). -/
def mmawEntry (s : State) (gh : Nat) (g : Group) (w : Nat) : Option MatEntry :=
  match mmawOf w with
  | none => none
  | some (t, cz, tile, a, b) =>
    match mmawSrc g a, mmawSrc g b with
    | some va, some vb =>
      if tile < tilesOf g ∧ va % 32 = 0 ∧ vb % 32 = 0 then
        match resolveSpad s gh g va operandBytes, resolveSpad s gh g vb operandBytes with
        | some ta, some tb =>
          some { ticket := s.ticket, gh := gh, tile := some tile, op := .mma t cz ta.1 ta.2 tb.1 tb.2, fetched := none,
                 lanes := [] }
        | _, _ => none
      else none
    | _, _ => none

/-- MMAW_ACCEPT (R91, R385): the array takes the word behind what the slots offer in the cycle, or the packet ends BADPKT. -/
def execMmawAccept (p : Nat) (s : State) : Host.Outcome State Fault Refusal :=
  match commandAt s p with
  | none => .next s
  | some x =>
    match x.cmd.mmaw, pdst x with
    | true, .spad gh _ => match findFor s x.cmd gh with
      | .gone => .next (finishSeq s p x 7)
      | .wait => .next (wakeSpilled s gh)
      | .here g => match coreOf g with
        | none => .next s
        | some c =>
          match mmawEntry s gh g (pfield x.body.toNat 48 64) with
          | none => .next (finishSeq s p x 6)
          | some e =>
            if queueRoom s c 2 = 0 then .next s
            else .next (finishSeq (offer { s with ticket := s.ticket + 1 } c 2 e) p x 1)
    | _, _ => .next s

/-- The ownership of a confidential copy's destination pages (R92): the leaves to pin, a page not resident, or a status. -/
def ownedRuns (s : State) (c init : Nat) : Nat → Nat → Nat → Reach
  | 0, _, _ => .ok [] []
  | fuel + 1, va, n =>
    if n = 0 then .ok [] []
    else
      let m := Nat.min n (4096 - va % 4096)
      let leaf := match mfind s.contexts c with
        | some x => walk s x.root va
        | none => .unmapped
      let owner := match leaf with
        | .leaf _ e _ =>
          let k := sget MemKey.reset s.keys (bits e 58 6)
          k.owner == c && !k.shared
        | _ => true
      if !owner then .stop 4 0
      else match translate s c init va m kWrite 2 with
        | .error .absent => .pause va
        | .error .fault => .stop 2 (faultValue va)
        | .error .denied => .stop 4 0
        | .ok (_, _, p) => match ownedRuns s c init fuel (va + m) (n - m) with
          | .ok l leaves => .ok l (p :: leaves)
          | r => r

/-- The destination check of a confidential copy (R92): its group is resolved, then its ownership; status 0 where the group is not
resident (R85). -/
def encDest (s : State) (x : Packet) : Reach :=
  let c := pktCtx s x
  let n := copyLen x.body.toNat
  let owns := fun (gh : Nat) => match resolveOne s x.cmd n true (pdst x) with
    | .wait _ => Reach.stop 0 0
    | .stop st => .stop st 0
    | .ok => if (mfind s.groups gh).any fun g => g.ctx == c then .ok [] [] else .stop 4 0
  match pdst x with
  | .dev va => ownedRuns s c (pktInit x.queue) (n / 4096 + 2) va n
  | .spad gh _ => owns gh
  | .regs gh _ _ _ => owns gh
  | _ => .stop 6 0

/-- The decryption of a confidential copy (R92): on a tag that verifies, its plaintext is staged, and ICTR advances. -/
def encOpen (s : State) (p : Nat) (x : Packet) (leaves : List Nat) (src : List Byte) : State :=
  let c := pktCtx s x
  let k := sget CopyKey.reset s.copyKeys c
  let n := copyLen x.body.toNat
  match gcmDecrypt k.key (gcmNonce c k.ictr.toNat) [] (src.take n) (src.drop n) with
  | none => finishSeq s p x 3
  | some pt =>
    let pins := leaves.eraseDups
    let s1 := markDirty (pins.foldl pinLeaf s) pins
    let s2 := { s1 with copyKeys := sset CopyKey.reset s1.copyKeys c { k with ictr := k.ictr + 1 } }
    bindCmd s2 p x [pdst x] { x.cmd with stage := some pt, pins := pins }

/-- The check of a confidential copy whose ciphertext and tag have been read (R92): the key, the destination, IC, the tag. -/
def encCheck (s : State) (p : Nat) (x : Packet) (src : List Byte) : State :=
  let k := sget CopyKey.reset s.copyKeys (pktCtx s x)
  if !k.loaded then finishSeq s p x 4
  else match encDest s x with
    | .stop 0 _ | .stall => s
    | .pause va => pauseCmd s p x va
    | .stop 2 v => finish s p 2 v
    | .stop st _ => finishSeq s p x st
    | .ok _ leaves =>
      if pfield x.body.toNat 56 64 ≠ k.ictr.toNat ∨ k.ictr.toNat = 2 ^ 64 - 1 then finishSeq s p x 8
      else encOpen s p x leaves src

/-- ENC_COPY_CHECK (R92, R93, R430): the source and its tag are read, then R92 is performed; `r.answered` says whether the host
answers the read of a source in its memory. -/
def execEncCopyCheck (r : SourceRead) (s : State) : Host.Outcome State Fault Refusal :=
  let p := r.packet
  match commandAt s p with
  | none => .next s
  | some x =>
    if !isEnc x || x.cmd.paused.isSome || x.cmd.stage.isSome then .next s
    else
      let n := copyLen x.body.toNat + 16
      match resolveOne s x.cmd n false (psrc x) with
      | .wait gh => .next (wakeSpilled s gh)
      | .stop st => .next (finishSeq s p x st)
      | .ok =>
        let g := sourceBytes s x r.answered 0 n
        match g.2 with
        | .bytes l => .next (encCheck g.1 p x l)
        | e => .next (stopCmd s p x 0 0 r.answered (gotPut e))

/-- Division with remainder through a list of extents: the coordinates of an index, the last unbounded (R95). -/
def coordsOf : List Nat → Nat → List Nat
  | [], _ => []
  | [_], n => [n]
  | e :: r, n => (n % e) :: coordsOf r (n / e)

/-- One row of a tile: its row number, the address of its first element, and the bytes that lie in the tensor (R94). -/
structure TileRow where
  row : Nat
  va : Nat
  bytes : Nat
  deriving DecidableEq, Repr

/-- The rows of tile number `tile` (R94, R95). -/
def tileRows (t : Layout5) (tile : Nat) : List TileRow :=
  let grid := (List.zip t.dims t.tiles).map fun p => ceilDiv p.1 p.2
  let tc := coordsOf grid tile
  let n0 := nthD 1 t.tiles 0
  let g0 := nthD 0 tc 0 * n0
  let len := elemBytes t (Nat.min n0 (nthD 1 t.dims 0 - g0))
  let outer := t.tiles.drop 1
  (upFrom (prod outer) 0).map fun r =>
    let ix := coordsOf outer r
    let gk := (upFrom 4 0).map fun k => nthD 0 tc (k + 1) * nthD 1 outer k + nthD 0 ix k
    let inside := (upFrom 4 0).all fun k => nthD 0 gk k < nthD 1 t.dims (k + 1)
    let off := ((upFrom 4 0).map fun k => nthD 0 gk k * nthD 0 t.strs k).foldl (· + ·) 0
    { row := r, va := (t.base + elemBytes t g0 + off) % 2 ^ 64, bytes := if inside then len else 0 }

/-- The place of byte k of row r within a slot, its chunk swizzled (R94). -/
def slotPlace (t : Layout5) (r k : Nat) : Nat :=
  let c := k / 32
  let c' := match t.swz with
    | 1 => Nat.xor c (r % 8)
    | 2 => Nat.xor c (r % 16)
    | _ => c
  r * rowBytes t + 32 * c' + k % 32

/-- Read the rows of a tile from the tensor, zero outside it (R94). -/
def fillRows (s : State) (ctx init : Nat) (t : Layout5) : List TileRow → Except Put (List (Nat × List Byte))
  | [] => .ok []
  | r :: rest =>
    match reach s ctx init r.va r.bytes kRead 1 with
    | .pause a => .error (.pause a)
    | .stall => .error .stall
    | .stop st v => .error (.stop st v)
    | .ok pas _ => match fillRows s ctx init t rest with
      | .error e => .error e
      | .ok l => .ok ((r.row, readPas s pas ++ List.replicate (rowBytes t - r.bytes) 0) :: l)

/-- Write the rows of a tile out to the tensor (R94, R96): all are translated before any is written. -/
def drainRows (s : State) (ctx init : Nat) (t : Layout5) (g : Group) (slot : Nat) :
    List TileRow → Except Put (List (List (Nat × Nat) × List Byte × List Nat))
  | [] => .ok []
  | r :: rest =>
    match reach s ctx init r.va r.bytes kWrite 2 with
    | .pause a => .error (.pause a)
    | .stall => .error .stall
    | .stop st v => .error (.stop st v)
    | .ok pas leaves => match drainRows s ctx init t g slot rest with
      | .error e => .error e
      | .ok l => .ok ((pas, (upFrom r.bytes 0).map (fun k => sget 0 g.spad (slot + slotPlace t r.row k)), leaves) :: l)

/-- Land a filled tile in its slot (R94, R96). -/
def landTile (s : State) (gh slot : Nat) (t : Layout5) (rows : List (Nat × List Byte)) : State :=
  let s1 := catchUp (drainFor s gh slot (tileBytes t)) gh slot (tileBytes t)
  match mfind s1.groups gh with
  | none => s1
  | some g =>
    watchSpad (setGroup s1 gh (rows.foldl (fun g r =>
      (List.zip (upFrom r.2.length 0) r.2).foldl (fun g q => putSpad g true (slot + slotPlace t r.1 q.1) [q.2]) g) g))

/-- A tile is done: the command goes on to the next, or ends (R96). -/
def tileDone (s : State) (p : Nat) (x : Packet) : State :=
  let n := x.cmd.next + 1
  if n = pfield x.body.toNat 44 32 then finishSeq (setCmd s p x { x.cmd with next := n }) p x 1
  else setCmd s p x { x.cmd with next := n }

/-- Fill or drain the next tile (R96) into the group's slot and count it. -/
def runTile (s : State) (p : Nat) (x : Packet) (gh ring : Nat) (g : Group) (sgh sync : Nat) : State :=
  let b := x.body.toNat
  let t := layoutOf x.cmd.layout
  let k := x.cmd.next % slotCount b
  let slot := ring + k * slotBytes b
  let rows := tileRows t (pfield b 40 32 + x.cmd.next)
  let ctx := pktCtx s x
  if isDrain b then
    match drainRows s ctx (pktInit x.queue) t g slot rows with
    | .error e => stopCmd s p x 0 0 true e
    | .ok l =>
      let s1 := l.foldl (fun st r => shuckStore st r.1 r.2.1 r.2.2 false) s
      tileDone (landSync s1 sgh (sync + 32 * k + 16) (slotBytes b)) p x
  else
    match fillRows s ctx (pktInit x.queue) t rows with
    | .error e => stopCmd s p x 0 0 true e
    | .ok l => tileDone (landSync (landTile s gh slot t l) sgh (sync + 32 * k) (tileBytes t)) p x

/-- A tile's slot has reached the generation it needs (R96). -/
def tileReady (x : Packet) (g : Group) (sync : Nat) : Bool :=
  let b := x.body.toNat
  let k := x.cmd.next % slotCount b
  let n := x.cmd.next / slotCount b
  let g0 := nthD (0, 0) x.cmd.gens k
  let full := spadNum g (sync + 32 * k + 8) 4
  let empty := spadNum g (sync + 32 * k + 24) 4
  if isDrain b then (full + 2 ^ 32 - g0.1) % 2 ^ 32 ≥ n + 1
  else n == 0 || (empty + 2 ^ 32 - g0.2) % 2 ^ 32 ≥ n

/-- The next tile of a STREAM, where its slot is ready for it (R96). -/
def tileStep (s : State) (p : Nat) : Option State :=
  match commandAt s p with
  | none => none
  | some x =>
    if ptype x.body.toNat ≠ 4 || !x.cmd.read || !x.cmd.resolved || x.cmd.paused.isSome then none
    else match pdst x, endpointOf (pfield x.body.toNat 32 64) with
      | .spad gh ring, .spad sgh sync =>
        match findFor s x.cmd gh, findFor s x.cmd sgh with
        | .gone, _ => some (finishSeq s p x 7)
        | _, .gone => some (finishSeq s p x 7)
        | .wait, _ => some (stopCmd s p x 0 0 true (.wait gh))
        | _, .wait => some (stopCmd s p x 0 0 true (.wait sgh))
        | .here g, .here sg => if tileReady x sg sync then some (runTile s p x gh ring g sgh sync) else none
      | _, _ => none

/-- STREAM_TILE (R96). -/
def execStreamTile (p : Nat) (s : State) : Host.Outcome State Fault Refusal := nextOf s (tileStep s p)

/-- One element of REDUCE ACC (R98): the record after, and whether this addition set OVF. -/
def accElem (old x : Nat) (fsc : Int) : Nat × Bool :=
  let a := signed 96 (bits old 0 96)
  let flagIn := fun (k : Nat) => if bit old (96 + k) then old else old + 2 ^ (96 + k)
  if fpIsNaN .f32 x then (flagIn 1, false)
  else if fpIsInf .f32 x then (flagIn (if fpNeg .f32 x then 3 else 2), false)
  else
    let v := fpVal .f32 x
    let t := a + rneInt { x := v.x, e := v.e - fsc }
    let t' := clampInt (-(2 ^ 95)) (2 ^ 95 - 1) t
    let new := old - bits old 0 96 + wrap 96 t'
    if t = t' then (new, false) else ((if bit new 96 then new else new + 2 ^ 96), true)

/-- One element of REDUCE FIN (R98). -/
def finElem (old : Nat) (fsc : Int) : Nat :=
  let a := signed 96 (bits old 0 96)
  let f := fun k => bit old (96 + k)
  if f 1 then genNaN .f32 3 1
  else if f 2 && f 3 then genNaN .f32 3 3
  else if f 2 then fpInfS .f32 false
  else if f 3 then fpInfS .f32 true
  else if f 0 then fpInfS .f32 (a < 0)
  else fpRound .f32 { x := a, e := fsc } false

/-- FSC of a REDUCE (R97). -/
def fscOf (b : Nat) : Int := signed 8 (pfield b 36 8)

/-- Read n bytes of an accumulator record at its home: the leaf must grant A (R98, R143). -/
def takeRecord (s : State) (x : Packet) (e : Endpoint) (off : Nat) : State × Got :=
  match e with
  | .dev va => match reach s (pktCtx s x) (pktInit x.queue) (va + off) 16 kAtomic 3 with
    | .ok pas _ => (s, .bytes (readPas s pas))
    | .pause a => (s, .pause a)
    | .stall => (s, .stall)
    | .stop st v => (s, .stop st v)
  | _ => takeBytes s x e off 16

/-- Write an accumulator record at its home (R98). -/
def putRecord (s : State) (x : Packet) (e : Endpoint) (off : Nat) (bytes : List Byte) : Put :=
  match e with
  | .dev va => match reach s (pktCtx s x) (pktInit x.queue) (va + off) 16 kAtomic 3 with
    | .ok pas leaves => .done (shuckStore s pas bytes leaves false)
    | .pause a => .pause a
    | .stall => .stall
    | .stop st v => .stop st v
  | _ => putBytes s x e off bytes []

/-- One element of a REDUCE, as one update at DST's home (R98): the state after and whether it saturated. -/
def reduceElem (s : State) (x : Packet) (i : Nat) : Except Put (State × Bool) :=
  let b := x.body.toNat
  let done := fun (sat : Bool) (r : Put) => match r with
    | .done s' => Except.ok (s', sat)
    | e => Except.error e
  match pfield b 35 2 with
  | 2 => done false (putRecord s x (pdst x) (16 * i) (List.replicate 16 0))
  | 0 =>
    match (takeBytes s x (psrc x) (4 * i) 4), takeRecord s x (pdst x) (16 * i) with
    | (s1, .bytes v), (_, .bytes r) =>
      let e := accElem (ofBytes r) (ofBytes v) (fscOf b)
      done e.2 (putRecord s1 x (pdst x) (16 * i) (toBytes 16 e.1))
    | (_, .bytes _), (_, r) => .error (gotPut r)
    | (_, r), _ => .error (gotPut r)
  | _ =>
    match takeRecord s x (pdst x) (16 * i) with
    | (s1, .bytes r) => done false (putBytes s1 x (psync x) (4 * i) (toBytes 4 (finElem (ofBytes r) (fscOf b))) [])
    | (_, r) => .error (gotPut r)

/-- Up to n further elements of a REDUCE. -/
def reduceRun (p : Nat) : Nat → State → State
  | 0, s => s
  | k + 1, s =>
    match commandAt s p with
    | none => s
    | some x =>
      let n := x.cmd.next
      match reduceElem s x n with
      | .error e => stopCmd s p x 0 (k + 1) true e
      | .ok (s1, sat) =>
        let c := { x.cmd with next := n + 1, satur := x.cmd.satur || sat }
        let s2 := setCmd s1 p x c
        if n + 1 = pfield x.body.toNat 32 24 then finishSeq s2 p x (if c.satur then 9 else 1)
        else reduceRun p k s2

/-- Up to n further elements of a REDUCE that has begun. -/
def reduceStep (s : State) (p n : Nat) : Option State :=
  match commandAt s p with
  | none => none
  | some x => if ptype x.body.toNat ≠ 5 || !x.cmd.resolved || x.cmd.paused.isSome then none else some (reduceRun p n s)

/-- REDUCE (R97, R98, R244): the command begins, or updates its next n elements. -/
def execReduce (p n : Nat) (s : State) : Host.Outcome State Fault Refusal :=
  match startedAs s p 5 with
  | some x => .next (beginCmd s p x true { Cmd.reset with resolved := !((touches x).any fun e => inGroup e.1) })
  | none => nextOf s (reduceStep s p n)

/-- A step that has waited for a group that has come back (R85, R207). -/
def retryOne (s : State) (p : Nat) (e : Late) : State :=
  match mfind s.packets p with
  | none => s
  | some x => (match x.phase, ptype x.body.toNat with
    | .finished st v, _ => stampOf s p x st v
    | _, 3 =>
      if x.cmd.resolved then landOf s p e.answered e.off e.n
      else if isEnc x then none else (commandAt s p).map (resolveCmd s p)
    | _, 4 => if x.cmd.resolved then tileStep s p else (commandAt s p).map (resolveCmd s p)
    | _, 5 => if x.cmd.resolved then reduceStep s p e.n else (commandAt s p).map (resolveCmd s p)
    | _, _ => none).getD s

/-- The steps that have waited for some groups go on, now that they are back (R85, R207). -/
def retryLate (s : State) (gs : List Nat) : State :=
  let mine := fun e : Late => gs.contains e.gh
  let todo := s.packets.flatMap fun p => (p.2.cmd.late.filter mine).map fun e => (p.1, e)
  let s1 := { s with packets := s.packets.map fun p =>
    (p.1, { p.2 with cmd := { p.2.cmd with late := p.2.cmd.late.filter fun e => !mine e } }) }
  todo.foldl (fun st q => retryOne st q.1 q.2) s1

end Sys2Proof.Machine
end

