-- ==== Sys2Proof/Machine/System.lean ====
section
/-! DEFINITION. QPUT, FORK, JOIN, GCRAISE, REGROW, the system registers and DRAIN (17 R392 to R408). -/

namespace Sys2Proof.Machine

/-- Write a returned value to every participating lane (R380). -/
def giveAll (s : State) (gh : Nat) (l : Layout) (n : Nat) (who : List Nat) (v : Nat) : State :=
  match mfind s.groups gh with
  | none => s
  | some g => setGroup s gh (putResults g l.head n l.latch (who.map fun i => (i, v)))

/-- Write a returned predicate to every participating lane (R380). -/
def givePred (s : State) (gh : Nat) (l : Layout) (who : List Nat) (b : Bool) : State :=
  match mfind s.groups gh with
  | none => s
  | some g => setGroup s gh (putPreds g l.head (who.map fun i => (i, flag b)))

/-- A claim of n slots of queue q by a context (R393): the value returned, and the queue after. -/
def claim (x : Queue) (q ctx n : Nat) : Nat × Queue :=
  if q ≥ 4096 ∨ x.ctx ≠ ctx then (0x8000000000000002, x)
  else if n = 0 ∨ n > 64 then (0x8000000000000003, x)
  else if !(x.enable && x.size ≤ 10) then (0x8000000000000004, x)
  else if x.wridx.toNat + n > x.rdidx.toNat + 2 ^ (6 + x.size) then (0x8000000000000001, x)
  else (x.wridx.toNat, { x with wridx := x.wridx + BitVec.ofNat 64 n })

/-- QPUT (R392, R393). -/
def execQput (h : Head) (a b : Src) (s : State) : Host.Outcome State Fault Refusal :=
  checked (.qput h a b) s fun l => runOnce l fun x who => do
    let q ← rdN x a
    let n ← rdN x b
    let st := forceCommit x.st x.gh
    let r := claim (queueAt st q) q x.g.ctx n
    let st1 := if q < 4096 then setQueue st q r.2 else st
    .ok (giveAll st1 x.gh l 2 who r.1)

/-- A FORK descriptor (R394). -/
structure ForkDesc where
  image : Nat
  args : Nat
  join : Nat
  func : Nat
  width : Nat
  pitw : Nat
  rsv : Nat
  deriving DecidableEq, Repr

/-- The descriptor's 32 bytes as a number (R394). -/
def forkDesc (d : Nat) : ForkDesc :=
  { image := bits d 0 64, args := bits d 64 64, join := bits d 128 64, func := bits d 192 16,
    width := 8 * 2 ^ bits d 208 2, rsv := bits d 210 14, pitw := bits d 224 32 }

/-- The limits of R394. -/
def forkOk (d : ForkDesc) (lo hi : Nat) : Bool :=
  lo < hi && d.image % 64 == 0 && d.args % 8 == 0 && d.join % 8 == 0 && d.rsv == 0 && pitwOk d.pitw d.width

/-- The join counter of a FORK (R395, R437): none for JOIN = 0. -/
def forkJoin (x : Here) (va : Nat) : Except Trap (Option Counter) :=
  if va = 0 then .ok none
  else do
    let pas ← transWord x kAtomic 8 va
    let p := pas.headD (0, 0)
    .ok (some (.fixed p.1 p.2 ((leafOf x.st x.g.ctx va).getD 0)))

/-- The key of a counter has been erased, so that its home refuses an access to it (R63, R153). -/
def joinErased (s : State) : Option Counter → Bool
  | some (.fixed _ key _) => !keyLive s key
  | _ => false

/-- Pin the page of a counter (R437). -/
def pinCounter (s : State) : Option Counter → State
  | some (.fixed _ _ leaf) => if leaf = 0 then s else pinLeaf s leaf
  | _ => s

/-- Push the task of a FORK, or find the deque full (R395). -/
def forkPush (s : State) (core : Nat) (g : Group) (d : ForkDesc) (join : Option Counter) (lo hi : Nat) :
    State × Bool :=
  if (dequeAt s core).length ≥ dequeSize then (s, false)
  else
    let s1 := match join with
      | some c => (addCounter (pinCounter s join) c 1 false).1
      | none => s
    let t : RangeTask :=
      { ctx := g.ctx, queue := (queueOf s g).getD 0, pkt := none, image := d.image, args := d.args, func := d.func,
        pitw := BitVec.ofNat 32 d.pitw, width := d.width, join := join, joinVa := d.join, prog := none,
        parts := 1, exited := 0, ended := (0, 0), killed := false, acc := [] }
    (pushTask s1 core t lo hi, true)

/-- The address of a FORK's descriptor, checked (R395). -/
def forkAddr (x : Here) (va : Nat) : Except Trap (Nat × Nat) :=
  if va % 16 ≠ 0 then .error (misalign va 16)
  else match resolveSpad x.st x.gh x.g va 32 with
    | some t => .ok t
    | none => .error (sprange va)

/-- FORK (R63, R394, R395): the home of a counter whose key has been erased refuses the addition, and the FORK raises EXTENT. -/
def execFork (h : Head) (a b c : Src) (s : State) : Host.Outcome State Fault Refusal :=
  checked (.fork h a b c) s fun l st0 => wake (runOnce l (fun x who => do
    let va ← rdN x a
    let lo ← rdD x b
    let hi ← rdD x c
    let t ← forkAddr x va
    let d := forkDesc (match mfind x.st.groups t.1 with | some g => spadNum g t.2 32 | none => 0)
    if !forkOk d lo hi then .error (illop x.st)
    else do
      let join ← forkJoin x d.join
      if joinErased x.st join && (dequeAt x.st x.st.issue.core).length < dequeSize then .error (extentTrap d.join kAtomic)
      else
        let st := forceCommit x.st x.gh
        let r := forkPush st st.issue.core x.g d join lo hi
        .ok (givePred r.1 x.gh l who r.2)) st0)

/-- An instruction that acts once per issue and may leave its lanes waiting (R169, R380). -/
def runWaitOnce (l : Layout) (pre : State → Nat → State) (f : Here → List Nat → Except Trap (State × Option WaitFor))
    (s : State) : State :=
  let s1 := s.issue.parts.foldl (fun st p =>
    match mfind st.groups p.1 with
    | none => st
    | some g0 =>
      let who := p.2.filter fun i => guardOn g0 i l.head
      match who with
      | [] => endGroup st p.1 l.head.ctl (savedDst l) p.2 []
      | i :: _ =>
        let st0 := pre st p.1
        match mfind st0.groups p.1 with
        | none => st0
        | some g =>
          let h : Here := { st := st0, gh := p.1, g := g, lane := i }
          let r := if partOk g l then f h who else .error (illop st0)
          match r with
          | .error t => endGroup st0 p.1 l.head.ctl (savedDst l) p.2 (who.map fun j => (j, t))
          | .ok (st1, none) => endGroup st1 p.1 l.head.ctl (savedDst l) p.2 []
          | .ok (st1, some what) =>
            let w : Wait :=
              { ticket := st.ticket, lanes := p.2, who := who, what := what, spill := false, woken := false,
                head := l.head, len := st.issue.len, dst := savedDst l }
            settleHolds (beginWait st1 p.1 w) p.1) (noteAll s)
  wake (yieldAfter s1 l.head.ctl)

/-- JOIN (R396): unless the counter reads zero, its home entry is armed, or the word re-read (R206); an erased key refuses
the read (R153). -/
def execJoin (h : Head) (a : Src) (s : State) : Host.Outcome State Fault Refusal :=
  checked (.join h a) s fun l => runWaitOnce l forceCommit fun x _ => do
    let va ← rdD x a
    if va % 8 ≠ 0 then .error (misalign va 8)
    else do
      let pas ← transWord x kRead 8 va
      let p := pas.headD (0, 0)
      if !keyLive x.st p.2 then .error (extentTrap va kRead)
      else if homeNum x.st (keyView x.st p.2) p.1 8 == 0 then .ok (x.st, some (.counter va p.1 p.2 false true))
      else
        let r := armWord x.st x.gh x.st.ticket p.1
        .ok (r.1, some (.counter va p.1 p.2 r.2 false))

/-- GCRAISE (R397). -/
def execGcraise (h : Head) (a : Src) (s : State) : Host.Outcome State Fault Refusal :=
  checked (.gcraise h a) s fun l => runOnce l fun x _ => do
    let c ← rdN x a
    match x.g.owner with
    | .part _ => .error (illop x.st)
    | .launch id => match mfind x.st.launches id with
      | none => .error (illop x.st)
      | some lc =>
        if c = 0 ∨ c > 2 ^ 24 ∨ !raiseOk lc c then .error (illop x.st)
        else .ok (raiseLaunch (forceCommit x.st x.gh) id lc c)

/-- REGROW (R398): at once false, a shrink that waits for what it removes, or a blocked growth. -/
def execRegrow (h : Head) (fld : Bool) (a : Src) (s : State) : Host.Outcome State Fault Refusal :=
  checked (.regrow h fld a) s fun l => runWaitOnce l preNone fun x who => do
    let v ← rdN x a
    if v > (if fld then 16 else 31) then .error (illop x.st)
    else
      let old := granules x.g.pitw.toNat x.g.width
      let new := granules (pitwWith x.g.pitw.toNat fld v) x.g.width
      if new > 128 then .ok (givePred x.st x.gh l who false, none)
      else if new ≤ old then .ok (x.st, some (.shrink fld v))
      else .ok (x.st, some (.grow fld v (new - old)))

/-- The blocked REGROWs of a resident group: its group and waits. -/
def blockedGrow (p : Nat × Group) : List (Nat × Wait) :=
  (p.2.waits.filter fun w => match w.what with | .grow .. => true | _ => false).map fun w => (p.1, w)

/-- What a REGROW asks for: field, value, granules. -/
def growOf (w : Wait) : Bool × Nat × Nat :=
  match w.what with
  | .grow f v d => (f, v, d)
  | _ => (false, 0, 0)

/-- End a blocked REGROW: granted, its new PITW counts; else its predicate is false (R398, R399). -/
def endGrow (s : State) (q : Nat × Wait) (ok : Bool) : State :=
  match mfind s.groups q.1 with
  | none => s
  | some g =>
    let n := growOf q.2
    let g1 := if ok then { g with pitw := BitVec.ofNat 32 (pitwWith g.pitw.toNat n.1 n.2.1) } else g
    endWait s q.1 g1 q.2 (0, none, q.2.who.map fun i => (i, flag ok))

/-- REGROW_GRANT (R22, R134, R399): the earliest blocked request that fits; with every resident group blocked and none that
fits, the latest fails. -/
def execRegrowGrant (core : Nat) (s : State) : Host.Outcome State Fault Refusal :=
  let here := s.groups.filter fun p => coreOf p.2 == some core
  let blocked := here.flatMap blockedGrow
  let free := 128 - granulesUsed s core
  let fits := blocked.filter fun q => (growOf q.2).2.2 ≤ free
  if (layerAt s (layerOfCore core)).clock.relock.isSome then .next s
  else match leastBy (fun (a b : Nat × Wait) => a.2.ticket < b.2.ticket) fits with
  | some q => .next (endGrow s q true)
  | none =>
    if here.all fun p => !(blockedGrow p).isEmpty then
      match leastBy (fun (a b : Nat × Wait) => b.2.ticket < a.2.ticket) blocked with
      | some q => .next (endGrow s q false)
      | none => .next s
    else .next s

/-- An extent table entry (R151); a code extent in the same layout (R405). -/
def extentBits (e : Extent) : Nat :=
  pack [(1, 1), (1, flag e.r), (1, flag e.w), (1, flag e.a), (1, flag e.x), (20, 0), (6, e.key), (20, e.n - 1),
    (36, e.pg), (41, e.vg)]

/-- The entry EXTSEL selects (R405). -/
def selected (s : State) (g : Group) : Nat :=
  let k := bits g.extsel.toNat 0 5
  match progOf s g with
  | none => 0
  | some p =>
    match (if k < 16 then p.data[k]? else (p.code[k - 16]?).bind id) with
    | some e => extentBits e
    | none => 0

/-- The core of a lane's group. -/
def hereCore (x : Here) : Nat := match x.g.place with | .resident c _ _ _ => c | _ => 0

/-- DTIME as a lane reads it (R44, R406): the copy of its layer, or what its group has read last where that is ahead of the
copy, which it is by no more than two copies differ. -/
def dtime (x : Here) : DWord :=
  let t := localTime x.st (layerOfCore (hereCore x))
  match x.g.lastTime with
  | some v => if (v - t).toNat ≤ 524288 then v else t
  | none => t

/-- A CSR as a lane reads it (R401 to R405). -/
def csrValue (x : Here) (n : Nat) : Nat :=
  let g := x.g
  let core := match g.place with | .resident c sl _ _ => c + 256 * sl | _ => 0
  let layer := layerAt x.st (layerOfCore (core % 256))
  if n = 0 then pack [(6, x.lane), (10, 0), (6, slotLane g x.lane), (2, 0), (8, g.width)]
  else if n = 1 then core
  else if n = 2 then g.ctx + 65536 * (match mfind x.st.contexts g.ctx with | some c => c.asid.toNat | none => 0)
  else if n = 3 then x.gh
  else if n = 8 then g.x
  else if n = 9 then g.y
  else if n = 0xA then g.z
  else if n = 0xB then g.stage
  else if n = 0xC then g.member
  else if n = 0xD then g.gindex
  else if n = 0x10 then g.pitw.toNat
  else if n = 0x11 then g.subfail.toNat
  else if n = 0x18 then bits g.extsel.toNat 0 5
  else if n = 0x19 then bits (selected x.st g) 0 64
  else if n = 0x1A then bits (selected x.st g) 64 64
  else if n = 0x20 then g.traptree.toNat
  else if 0x30 ≤ n ∧ n ≤ 0x3F then ((laneAt g x.lane).trec[n - 0x30]?.getD 0).toNat
  else if n = 0x40 then layer.cyc.toNat
  else if n = 0x41 then layer.rcy.toNat
  else (dtime x).toNat

/-- A group keeps the latest DTIME its lanes have read, so that no later one is less, on whichever layer it runs (R406). -/
def keepTime (csr : Nat) (vals : List (Nat × Nat)) (g : Group) : Group :=
  match vals with
  | (_, v) :: _ => if csr = 0x42 then { g with lastTime := some (BitVec.ofNat 64 v) } else g
  | [] => g

/-- SYSRD (R400, R401). -/
def execSysrd (h : Head) (csr : BitVec 12) (s : State) : Host.Outcome State Fault Refusal :=
  checked (.sysrd h csr) s fun l => runLanes l (fun x => .ok (csrValue x csr.toNat)) fun g vals =>
    keepTime csr.toNat vals (putResults g l.head (match l.dest with | .vec n => n | _ => 1) l.latch vals)

/-- A CSR written (R232, R405): reserved bits are ignored. -/
def writeCsr (g : Group) (n v : Nat) : Group :=
  if n = 0x18 then { g with extsel := BitVec.ofNat 32 (v % 32) }
  else { g with traptree := BitVec.ofNat 32 (v % 65536 + 2 ^ 31 * bits v 31 1) }

/-- SYSWR (R400, R406): the value counts from the end of the cycle on. -/
def execSyswr (h : Head) (csr : BitVec 12) (a : Src) (s : State) : Host.Outcome State Fault Refusal :=
  checked (.syswr h csr a) s fun l => runOnce l fun x _ => do
    let v ← rdN x a
    .ok (setGroup x.st x.gh { x.g with csrNext := x.g.csrNext ++ [(csr.toNat, BitVec.ofNat 32 v)] })

/-- DRAIN (R407): the pushes on their way are those the wait must see land. -/
def execDrain (c : Ctl) (s : State) : Host.Outcome State Fault Refusal :=
  checked (.drain c) s fun l => runWaitOnce l preNone fun x _ =>
    .ok (x.st, some (.drain ((x.st.flying.filter fun f => f.gh == x.gh).map (·.slot))))

end Sys2Proof.Machine
end

