-- ==== Sys2Proof/Machine/Scheduler.lean ====
section
/-! DEFINITION. The scheduler: release, dispatch, accounts, placement, admission, stealing and the exit of groups (05 R105 to R124, 07
R161, R163, 08 R197). -/

namespace Sys2Proof.Machine

/-- A device time has been reached (R5): a time is in the future only when it is less than 2^63 units ahead. -/
def reached (now t : DWord) : Bool := (now - t).toNat ≤ 2 ^ 63

/-- The context runs (R126). -/
def ctxRuns (s : State) (c : Nat) : Bool := ctxState s c == some .run

/-- LAUNCH_RELEASE (R105): the scheduler's device time has reached START. -/
def execLaunchRelease (id : Nat) (s : State) : Host.Outcome State Fault Refusal :=
  match mfind s.launches id with
  | none => .next s
  | some l =>
    if l.held && reached (schedTime s) l.start then
      .next { s with launches := mput s.launches id { l with held := false } }
    else .next s

/-- The EXTENT record of a refused task (R118, R230): CORE is not stated for a task. -/
def taskRecord (s : State) (queue func va info : Nat) : State :=
  let body := [3, 0, 0, 2] ++ toBytes 2 func ++ toBytes 4 0 ++ [Config.freeByte s.free, 0] ++ toBytes 4 info
    ++ toBytes 8 va ++ List.replicate 104 0
  traceRecord { s with free := s.free + 1 } (sliceUnit queue) 2 (queue % 16) (List.replicate 16 0 ++ body)

/-- The status, the stamp's VALUE if it is not SEQ, ADDR1 and INFO of a refusal (R102, R118): FAULT stamps the address of the
page. -/
def refusalOf (s : State) : Finding → Nat × Option Nat × Nat × Nat
  | .fault va i => (2, some (faultValue (va / 65536 * 65536)), va, i)
  | .denied va i => (4, none, va, i)
  | .bad va i => (6, none, va % 2 ^ 64, i)
  | _ => (6, none, (Config.freeValue s.free).toNat, (Config.freeValue (s.free + 1)).toNat % 2 ^ 32)

/-- Finish the packet of a task, if it has one. -/
def finishTask (s : State) (pkt : Option Nat) (status : Nat) (value : Option Nat) : State :=
  match pkt with
  | none => s
  | some p => match mfind s.packets p with
    | none => s
    | some x => match value with
      | some v => finish s p status v
      | none => finishSeq s p x status

/-- Unpin a join counter's page (R145, R437). -/
def unpinCounter (s : State) : Option Counter → State
  | some (.fixed _ _ leaf) => if leaf ≠ 0 then unpinLeaf s leaf else s
  | _ => s

/-- Subtract from a join counter, and unpin its page with the task's last part (R123, R437). -/
def joinSub (s : State) (c : Option Counter) (n : Nat) (last : Bool) : State :=
  match c with
  | none => s
  | some j =>
    let s1 := (addCounter s j (-(n : Int)) true).1
    if last then unpinCounter s1 c else s1

/-- The parts of a range task. -/
def partsOfTask (s : State) (id : Nat) : List (Nat × Part) := s.rangeParts.filter fun p => p.2.task == id

/-- Take a part off its deque. -/
def offDeque (s : State) (part core : Nat) : State := setDeque s core ((dequeAt s core).filter (· ≠ part))

/-- Take a range task away with every part of it. -/
def dropTask (s : State) (id : Nat) : State :=
  let s1 := (partsOfTask s id).foldl (fun st p => offDeque st p.1 p.2.core) s
  { s1 with rangeParts := s1.rangeParts.filter (fun p => p.2.task ≠ id), tasks := mdel s1.tasks id }

/-- Refuse a task (R118). -/
def refuse (s : State) (t : TaskRef) (f : Finding) : State :=
  let r := refusalOf s f
  let s0 := { s with free := s.free + 2 }
  match t with
  | .launch id => match mfind s.launches id with
    | none => s
    | some l =>
      let s1 := taskRecord { s0 with launches := mdel s0.launches id } l.queue l.func r.2.2.1 r.2.2.2
      finishTask s1 l.pkt r.1 r.2.1
  | .range id => match mfind s.tasks id with
    | none => s
    | some x =>
      let s1 := taskRecord s0 x.queue x.func r.2.2.1 r.2.2.2
      finishTask (dropTask (joinSub s1 x.join x.parts true) id) x.pkt r.1 r.2.1

/-- A task that dispatch may take up: its context runs, it is released (R105) and has no table. -/
def askedOf (s : State) (core : Nat) : TaskRef → Option Asked
  | .launch id => match mfind s.launches id with
    | some l =>
      if l.held || l.prog.isSome || !ctxRuns s l.ctx then none
      else some { ctx := l.ctx, core := core, image := l.image, args := l.args, kargs := l.kargs, func := l.func,
                  pitw := l.pitw.toNat, width := l.width }
    | none => none
  | .range id => match mfind s.tasks id with
    | some x =>
      if x.prog.isSome || !ctxRuns s x.ctx then none
      else some { ctx := x.ctx, core := core, image := x.image, args := x.args, kargs := [], func := x.func,
                  pitw := x.pitw.toNat, width := x.width }
    | none => none

/-- Give a task its table, and pin the pages it names (R117, R145). -/
def setProgram (s : State) (t : TaskRef) (p : Program) : State :=
  let s1 := p.pins.foldl pinLeaf s
  match t with
  | .launch id => match mfind s1.launches id with
    | some l => { s1 with launches := mput s1.launches id { l with prog := some p } }
    | none => s1
  | .range id => match mfind s1.tasks id with
    | some x => { s1 with tasks := mput s1.tasks id { x with prog := some p } }
    | none => s1

/-- DISPATCH_TRANSLATE (R117, R118), for the core whose initiator ID the access tables check (R61). -/
def execDispatchTranslate (t : TaskRef) (initiator : Nat) (s : State) : Host.Outcome State Fault Refusal :=
  if initiator ≥ 256 then .next s
  else match askedOf s initiator t with
    | none => .next s
    | some a =>
      let d := dispatch s a
      let s1 := d.dirty.eraseDups.foldl (fun st p => markLeaf st p (accMask none true)) s
      match d.result with
      | .error .wait => .next s1
      | .error f => .next (wake (refuse s1 t f))
      | .ok p => .next (setProgram s1 t p)

/-- A queue competes in real-time class (R113). -/
def realTime (x : Queue) : Bool := x.period ≠ 0 && x.budget ≠ 0 && !x.demoted

/-- PERIOD in device-time units. -/
def periodUnits (x : Queue) : Nat := 65536 * x.period

/-- Device time in whole nanoseconds, as the scheduler keeps the queues' accounts (R114). -/
def wholeNs (s : State) : DWord := BitVec.ofNat 64 (s.time.now.toNat / 65536 * 65536)

/-- The period of a queue is over (R114): device time is taken in whole nanoseconds, PSTART as it stands, so that with a PSTART
within a nanosecond the period ends with the next whole one (DESIGN CHOICE, log 49). -/
def periodOver (s : State) (x : Queue) : Bool :=
  x.period ≠ 0 && reached (wholeNs s) (x.pstart + BitVec.ofNat 64 (periodUnits x))

/-- PERIOD_ROLLOVER (R114). -/
def execPeriodRollover (q : Nat) (s : State) : Host.Outcome State Fault Refusal :=
  let x := queueAt s q
  if periodOver s x then
    let k := (wholeNs s - x.pstart).toNat / periodUnits x
    .next (setQueue s q { x with pstart := x.pstart + BitVec.ofNat 64 (periodUnits x * k), used := 0, demoted := false })
  else .next s

/-- OVERRUN (R116): a rollover due at the same time comes first. -/
def execOverrun (q : Nat) (s : State) : Host.Outcome State Fault Refusal :=
  let x := queueAt s q
  if realTime x && decide (Nat.min x.budget x.period ≤ x.used) && !periodOver s x then
    .next (emit (setQueue s q { x with ovrcnt := Nat.min (x.ovrcnt + 1) 0xFFFF, demoted := true }) (.trap 0x40 q))
  else .next s

/-- The compute layers that take groups (R13, R16). -/
def computeLayers (s : State) : List Nat :=
  (upFrom 8 0).filter fun n => (layerAt s n).role = .compute && (layerAt s n).state = .active

/-- A blocked REGROW of the core can be granted, and comes before new groups (R399). -/
def regrowDue (s : State) (c : Nat) : Bool :=
  ((s.groups.filter fun p => coreOf p.2 == some c).flatMap blockedGrow).any fun q =>
    (growOf q.2).2.2 ≤ 128 - granulesUsed s c

/-- The lowest lane block of a width that meets no resident group (R111). -/
def freeBlock (gs : List (Nat × Group)) (w : Nat) : Option Nat :=
  (upFrom (64 / w) 0).find? fun b => gs.all fun p => match p.2.place with
    | .resident _ _ b' _ => b * w + w ≤ b' * p.2.width || b' * p.2.width + p.2.width ≤ b * w
    | _ => true

/-- Where a core takes a group (R111): slot, block, residency position. -/
def roomAt (s : State) (c ctx w pitw : Nat) : Option (Nat × Nat × Nat) :=
  let l := layerAt s (layerOfCore c)
  if l.role ≠ .compute || l.state ≠ .active || (coreAt s c).fenced || (coreAt s c).failing || regrowDue s c
      || granulesUsed s c + granules pitw w > 128 then none
  else
    let ok := (upFrom 2 0).filter fun sl =>
      let gs := slotGroups s c sl
      gs.length < 8 && gs.all fun p => p.2.ctx == ctx
    let pos := fun sl => (upFrom 8 0).find? fun k => (slotGroups s c sl).all fun p => posOf p.2 ≠ k
    match ok.filterMap fun sl => (freeBlock (slotGroups s c sl) w).map fun b => (sl, b) with
    | (sl, b) :: _ => (pos sl).map fun k => (sl, b, k)
    | [] => match ok with
      | sl :: _ => (pos sl).map fun k => (sl, 0, k)
      | [] => none

/-- A group to be placed: context, width and partition word. -/
structure Need where
  ctx : Nat
  w : Nat
  pitw : Word
  deriving DecidableEq, Repr

/-- A stand-in for a group placed earlier in the same admission. -/
def standIn (n : Need) (pl : Place) : Group := startGroup n.ctx (.launch 0) n.w n.pitw pl []

/-- Place one group in a Pod: the lowest core that qualifies (R111); stand-ins hold what has been placed. -/
def placeOne (s : State) (layer pod : Nat) (n : Need) : Option (State × Place) :=
  match (upFrom 8 0).findSome? fun k =>
      (roomAt s (32 * layer + 8 * pod + k) n.ctx n.w n.pitw.toNat).map fun r => (32 * layer + 8 * pod + k, r) with
  | none => none
  | some (c, r) =>
    let pl := Place.resident c r.1 r.2.1 r.2.2
    some ({ s with groups := mput s.groups (65536 + s.groups.length) (standIn n pl) }, pl)

/-- Place the groups of a gang in one Pod, in order of member (R112). -/
def placeGang (layer pod : Nat) : State → List Need → Option (State × List Place)
  | s, [] => some (s, [])
  | s, n :: r => match placeOne s layer pod n with
    | none => none
    | some (s1, p) => (placeGang layer pod s1 r).map fun x => (x.1, p :: x.2)

/-- Place the gangs of one coordinate in a layer, each in the first Pod that has room (R112). -/
def placeLayer (layer : Nat) : State → List (List Need) → Option (List Place)
  | _, [] => some []
  | s, g :: r => match (upFrom 4 0).findSome? fun pod => placeGang layer pod s g with
    | none => none
    | some (s1, ps) => (placeLayer layer s1 r).map fun x => ps ++ x

/-- The order in which layers are visited (R112). -/
def layerOrder (s : State) (last : Option Nat) : List Nat :=
  let l := computeLayers s
  match last with
  | none => l
  | some n => l.filter (fun k => n < k) ++ l.filter (fun k => k ≤ n)

/-- Find places for gangs admitted together: the layer, and the places (R109, R112). -/
def planFor (s : State) (last : Option Nat) (gangs : List (List Need)) : Option (Nat × List Place) :=
  (layerOrder s last).findSome? fun n => (placeLayer n s gangs).map fun p => (n, p)

/-- The next admission of a launch (R109): one coordinate's gangs. -/
def launchNeeds (l : Launch) : List (List Need) :=
  List.replicate l.stages (List.replicate l.members { ctx := l.ctx, w := l.width, pitw := l.pitw })

/-- A launch has groups to admit. -/
def launchPending (s : State) (l : Launch) : Bool :=
  !l.held && l.prog.isSome && l.nextGang * l.members < l.total && ctxRuns s l.ctx

/-- A part has unstarted groups that may be admitted. -/
def partTask (s : State) (id : Nat) : Option (Part × RangeTask) :=
  match mfind s.rangeParts id with
  | none => none
  | some p => match mfind s.tasks p.task with
    | none => none
    | some t => if p.next < p.hi && t.prog.isSome && ctxRuns s t.ctx then some (p, t) else none

/-- The unstarted groups of a part (R122). -/
def unstarted (p : Part) (t : RangeTask) : Nat := ceilDiv (p.hi - p.next) t.width

/-- What a core's own deque offers: its head task, where the core has room for a group of it (R120). -/
def ownWork (s : State) (c : Nat) : Option (Nat × (Nat × Nat × Nat)) :=
  match dequeAt s c with
  | [] => none
  | id :: _ => match partTask s id with
    | none => none
    | some (_, t) => (roomAt s c t.ctx t.width t.pitw.toNat).map fun r => (id, r)

/-- The cores a thief asks, in order (R121). -/
def victimsOf (s : State) (c : Nat) : List Nat :=
  let base := 8 * (c / 8)
  let own := (upFrom 7 1).map fun k => base + (c - base + k) % 8
  let layer := (upFrom 32 (32 * (c / 32))).filter fun v => v / 8 ≠ c / 8
  let far := ((upFrom 8 0).filter fun n => n ≠ c / 32 && (layerAt s n).role = .compute && (layerAt s n).state ≠ .off).flatMap
    fun n => upFrom 32 (32 * n)
  own ++ layer ++ far

/-- What a thief may take of a victim: the tail task, with the room for a group of it (R121, R122). -/
def loot (s : State) (c v : Nat) : Option Nat :=
  match (dequeAt s v).getLast? with
  | none => none
  | some id => match partTask s id with
    | none => none
    | some (p, t) =>
      let u := unstarted p t
      if (decide (u ≥ 2) || u == 1 && p.next == p.lo) && (roomAt s c t.ctx t.width t.pitw.toNat).isSome
          && (dequeAt s c).length < dequeSize then some id else none

/-- The theft open to a core without admissible work of its own (R121): victim and part. -/
def theft (s : State) (c : Nat) : Option (Nat × Nat) :=
  if (ownWork s c).isSome then none
  else (victimsOf s c).findSome? fun v => (loot s c v).map fun id => (v, id)

/-- A spilled gang: its launch, its gang number and its members in order. -/
def gangOf (s : State) (g : Group) : List (Nat × Group) :=
  let l := s.groups.filter fun p => p.2.owner == g.owner && p.2.gang == g.gang
  (upFrom 16 0).flatMap fun m => l.filter fun p => p.2.member == m

/-- A group is the first of its gang that is left (R133): member 0 may have exited before the others. -/
def leads (s : State) (p : Nat × Group) : Bool := ((gangOf s p.2).head?.map (·.1)) == some p.1

/-- A spilled gang has had its wake event, and may return (R133, R207). -/
def gangWoken (l : List (Nat × Group)) : Bool := l.any fun p => p.2.waits.any (·.woken)

/-- The layer that a launch was last placed in. -/
def lastLayerOf (s : State) (o : Owner) : Option Nat :=
  match o with
  | .launch id => (mfind s.launches id).bind (·.lastLayer)
  | .part _ => none

/-- Spilled gangs that may return, in order of launch and gang (R115). -/
def returns (s : State) : List (List (Nat × Group)) :=
  let firsts := s.groups.filter fun p => p.2.place = .spilled && leads s p && ctxRuns s p.2.ctx
    && (progOf s p.2).isSome && gangWoken (gangOf s p.2)
  let lt := fun (a b : Nat × Group) => taskOf s a.2 < taskOf s b.2 || taskOf s a.2 == taskOf s b.2 && a.2.gang < b.2.gang
  let ins := fun (l : List (Nat × Group)) (x : Nat × Group) => l.filter (fun y => !lt x y) ++ x :: l.filter (fun y => lt x y)
  (firsts.foldl ins []).map fun p => gangOf s p.2

/-- The work chosen at an admission opportunity (R115). -/
inductive Choice where
  | back (gang : List (Nat × Group)) (layer : Nat) (places : List Place)
  | launch (id layer : Nat) (places : List Place)
  | part (id core : Nat) (room : Nat × Nat × Nat)
  | steal (thief victim part : Nat)
  deriving DecidableEq, Repr

/-- The queue a choice is charged to. -/
def choiceQueue (s : State) : Choice → Option Nat
  | .back .. => none
  | .launch id _ _ => (mfind s.launches id).map (·.queue)
  | .part id _ _ | .steal _ _ id => ((mfind s.rangeParts id).bind fun p => mfind s.tasks p.task).map (·.queue)

/-- A candidate: its queue, its order of start, and the cores it concerns. -/
structure Work where
  queue : Nat
  order : Nat
  core : Nat
  what : Choice
  deriving DecidableEq, Repr

/-- Launches and range tasks that fit somewhere. -/
def works (s : State) : List Work :=
  let ls := s.launches.filterMap fun p =>
    if launchPending s p.2 then
      (planFor s p.2.lastLayer (launchNeeds p.2)).map fun r =>
        ({ queue := p.2.queue, order := p.1, core := 0, what := .launch p.1 r.1 r.2 } : Work)
    else none
  let task := fun id => ((mfind s.rangeParts id).bind fun p => (mfind s.tasks p.task).map fun t => (p.task, t.queue))
  let rs := if s.rangeParts = [] then [] else (upFrom 256 0).filterMap fun c =>
    match ownWork s c with
    | some (id, r) => (task id).map fun t => ({ queue := t.2, order := t.1, core := c, what := .part id c r } : Work)
    | none => (theft s c).bind fun v => (task v.2).map fun t =>
        ({ queue := t.2, order := t.1, core := c, what := .steal c v.1 v.2 } : Work)
  ls ++ rs

/-- A queue's place in R115: class, deadline, and number or place in the round robin. -/
def queueRank (s : State) (q : Nat) : Nat × Nat × Nat :=
  let x := queueAt s q
  if realTime x then
    (0, (x.pstart + BitVec.ofNat 64 (periodUnits x) - wholeNs s + BitVec.ofNat 64 (2 ^ 63)).toNat, q)
  else (1, 0, (q + 4096 - s.lastBackground) % 4097)

/-- A candidate comes before another (R115): of several cores that one range task is the candidate for, the lowest comes first
(DESIGN CHOICE, log 49). -/
def workLt (s : State) (a b : Work) : Bool :=
  let x := queueRank s a.queue
  let y := queueRank s b.queue
  if x.1 ≠ y.1 then x.1 < y.1
  else if x.2.1 ≠ y.2.1 then x.2.1 < y.2.1
  else if x.2.2 ≠ y.2.2 then x.2.2 < y.2.2
  else if a.order ≠ b.order then a.order < b.order
  else a.core < b.core

/-- What the scheduler takes up (R115): a spilled gang that fits, else the first candidate. -/
def choiceNow (s : State) : Option Choice :=
  match (returns s).findSome? fun l => match l with
    | [] => none
    | p :: _ => (planFor s (lastLayerOf s p.2.owner) [l.map fun q => { ctx := q.2.ctx, w := q.2.width, pitw := q.2.pitw }]).map
        fun r => Choice.back l r.1 r.2 with
  | some c => some c
  | none => (leastBy (workLt s) (works s)).map (·.what)

/-- Mark the pages of a task's table with a layer, at its first group there (R145). -/
def markLayer (s : State) (o : Owner) (layer : Nat) : State :=
  match o with
  | .launch id => match mfind s.launches id with
    | some l =>
      if l.acc.contains layer then s
      else match l.prog with
        | none => s
        | some p => p.pins.foldl (fun st e => markLeaf st e (accMask (some layer) false))
            { s with launches := mput s.launches id { l with acc := layer :: l.acc } }
    | none => s
  | .part id => match mfind s.rangeParts id with
    | none => s
    | some q => match mfind s.tasks q.task with
      | some t =>
        if t.acc.contains layer then s
        else match t.prog with
          | none => s
          | some p => p.pins.foldl (fun st e => markLeaf st e (accMask (some layer) false))
              { s with tasks := mput s.tasks q.task { t with acc := layer :: t.acc } }
      | none => s

/-- One standing-load record at a group's start (R285): the SUB, or its bit of SUBFAIL. -/
def startSub (p : Program) (gh : Nat) (s : State) (r : Nat × (Nat × Nat)) : State :=
  match mfind s.groups gh with
  | none => s
  | some g =>
    let failed := setGroup s gh { g with subfail := g.subfail ||| BitVec.ofNat 32 (2 ^ r.1) }
    if r.2.1 % 16 ≠ 0 || r.2.2 % 8 ≠ 0 then failed
    else match extWord (extentsOf p) kRead 8 r.2.2 with
      | .error _ => failed
      | .ok pas =>
        let a := pas.headD (0, 0)
        let x := subOne gh { st := s, slots := [], status := [], traps := [] }
          (0, { slot := r.2.1, va := r.2.2, pa := a.1, key := a.2, again := false })
        if x.slots = [] then failed
        else onGroup x.st gh fun g1 => { g1 with starting := g1.starting ++ x.slots }

/-- A group's lanes count their waiting from now (R166). -/
def freshLanes (s : State) (g : Group) : Group :=
  match coreOf g with
  | some c => { g with lanes := g.lanes.map fun l => { l with lastIssue := cycOf s c, starved := false } }
  | none => g

/-- The scratchpad records of a new group, and those of its gang's groups before it, join the classes of neither array (R217). -/
def recordsBehind (s : State) (gh : Nat) (g : Group) (p : Program) : State × Group :=
  let note := fun (t : Nat) (m : List (Nat × Nat)) =>
    p.spads.foldl (fun m r => noteOld m t r.1 (List.replicate r.2.length 0)) m
  let others := (s.groups.filter fun q => q.1 != gh && mates g q.2).map (·.1)
  (others.foldl (fun st t => onGroup st t fun x => { x with behind := note gh x.behind }) s,
   { g with behind := others.foldl (fun m t => note t m) g.behind })

/-- Bring a group in: scratchpad records, layer mark, standing loads (R161, R284, R285). -/
def bringIn (s : State) (gh : Nat) (g0 : Group) (p : Program) : State :=
  let q := recordsBehind s gh g0 p
  let s := q.1
  let g := q.2
  let g1 := p.spads.foldl (fun x r => putSpad x false r.1 r.2) (freshLanes s g)
  let layer := match coreOf g with | some c => layerOfCore c | none => 0
  let s1 := markLayer (setGroup s gh g1) g.owner layer
  let s2 := (List.zip (upFrom p.slots.length 0) p.slots).foldl (startSub p gh) s1
  match g.place with
  | .resident c sl _ _ => startFree s2 c sl
  | _ => s2

/-- The scalar registers at the start (R72, R87, R119). -/
def startScalars (w : List Word) (extra : List Word) : List (Nat × Word) :=
  (List.zip (upFrom 8 0) (w ++ extra)).foldl (fun m p => sset 0 m p.1 p.2) []

/-- Group member m of gang L of a launch (R107, R124, R163). -/
def launchGroup (l : Launch) (id : Nat) (p : Program) (L m : Nat) (pl : Place) : Group :=
  let r := L / l.stages
  let lanes := List.replicate l.width (startLane true (.enter p.root false))
  { startGroup l.ctx (.launch id) l.width l.pitw pl lanes with
    gindex := L * l.members + m, gang := L, x := r % l.gx, y := r / l.gx % l.gy, z := r / (l.gx * l.gy),
    stage := L % l.stages, member := m, sregs := startScalars p.words [] }

/-- Handles that may be given to new groups (R84). -/
def handlesOk (s : State) (l : List Nat) (n : Nat) : Bool :=
  l.length == n && l.all (fun h => h < 65536 && (mfind s.groups h).isNone) && l.eraseDups.length == l.length

/-- Note a background queue as admitted from (R115). -/
def noteQueue (s : State) (q : Nat) : State := if realTime (queueAt s q) then s else { s with lastBackground := q }

/-- Admit the gangs of one coordinate of a launch (R109). -/
def admitLaunch (s : State) (id layer : Nat) (pls : List Place) (handles : List Nat) : State :=
  match mfind s.launches id with
  | none => s
  | some l => match l.prog with
    | none => s
    | some p =>
      let l1 := { l with nextGang := l.nextGang + l.stages, lastLayer := some layer }
      let s1 := noteQueue { s with launches := mput s.launches id l1 } l.queue
      (List.zip (upFrom pls.length 0) (List.zip pls handles)).foldl (fun st q =>
        bringIn st q.2.2 (launchGroup l id p (l.nextGang + q.1 / l.members) (q.1 % l.members) q.2.1) p) s1

/-- The group of a range part from index n (R119): its lanes' indices in v0 and v1, lanes past HI absent. -/
def partGroup (t : RangeTask) (p : Program) (id n hi : Nat) (pl : Place) : Group :=
  let lanes := (upFrom t.width 0).map fun i => startLane (n + i < hi) (.enter p.root false)
  let g := { startGroup t.ctx (.part id) t.width t.pitw pl lanes with
             gang := n,
             sregs := startScalars p.words [BitVec.ofNat 32 n, BitVec.ofNat 32 (n / 2 ^ 32)] }
  (upFrom t.width 0).foldl (fun x i => if n + i < hi then setVs x false i 0 2 (n + i) else x) g

/-- Start one group of a range part on a core (R119, R120). -/
def admitPart (s : State) (id core : Nat) (r : Nat × Nat × Nat) (gh : Nat) : State :=
  match mfind s.rangeParts id with
  | none => s
  | some q => match mfind s.tasks q.task with
    | none => s
    | some t => match t.prog with
      | none => s
      | some p =>
        let q1 := { q with next := q.next + t.width, groups := q.groups + 1 }
        let s1 := { s with rangeParts := mput s.rangeParts id q1 }
        let s2 := if q1.next ≥ q.hi then offDeque s1 id core else s1
        bringIn (noteQueue s2 t.queue) gh (partGroup t p id q.next q.hi (.resident core r.1 r.2.1 r.2.2)) p

/-- The pushes that have waited for a group that was away depart and land, in order (R191, R199, R200, R207). -/
def landWaiting (s : State) (gh : Nat) : State :=
  let mine := fun x : Sub => !x.armed && x.gh == gh && x.push.isSome
  let sent := (s.subs.filter mine).filterMap fun x => x.push.map fun q => ({ gh := gh, slot := x.slot, push := q } : Flying)
  let s1 := { s with subs := s.subs.map (fun x => if mine x then departed x else x), flying := s.flying ++ sent }
  (s1.flying.filter fun f => f.gh == gh).foldl (fun st f => match st.flying.findIdx? fun x => x == f with
    | some i => landFlying st i f
    | none => st) s1

/-- A spilled gang returns (R133): its handles and contents are kept. -/
def comeBack (s : State) (gang : List (Nat × Group)) (layer : Nat) (pls : List Place) : State :=
  let s1 := (List.zip gang pls).foldl (fun st q =>
    let g := { q.1.2 with place := q.2, turn := false, waits := q.1.2.waits.map fun w => { w with woken := false } }
    let st1 := markLayer (setGroup st q.1.1 (freshLanes st g)) g.owner layer
    match q.2 with
    | .resident c sl _ _ => startFree st1 c sl
    | _ => st1) s
  match gang with
  | (_, g) :: _ => (match g.owner with
    | .launch id => (match mfind s1.launches id with
      | some l => { s1 with launches := mput s1.launches id { l with lastLayer := some layer } }
      | none => s1)
    | .part _ => s1)
  | [] => s1

/-- A gang that has returned takes the landings and pushes that waited, then looks at every word it waits on (R207). -/
def recheck (s : State) (gang : List (Nat × Group)) : State :=
  let s1 := retryLate s (gang.map (·.1))
  gang.foldl (fun st p => lookGroup (fun _ _ => true) p.1 st) (gang.foldl (fun st p => landWaiting st p.1) s1)

/-- The layer that a choice admits to. -/
def choiceLayer : Choice → Nat
  | .back _ layer _ | .launch _ layer _ => layer
  | .part _ core _ => layerOfCore core
  | .steal thief _ _ => layerOfCore thief

/-- A gang that returns looks at words whose home a relock stalls (R22, R207). -/
def backStalls (s : State) : Choice → Bool
  | .back gang _ _ => gang.any fun p => p.2.waits.any (lookStalls s fun _ => true)
  | _ => false

/-- The work chosen (R115), which waits while its layer relocks, or the home of a word that it looks at (R22, R200): nothing crosses
into it then. -/
def admissible (s : State) : Option Choice :=
  (choiceNow s).filter fun c => (layerAt s (choiceLayer c)).clock.relock.isNone && !backStalls s c

/-- ADMISSION (R22, R109 to R115): the chosen work, with the handles its new groups take (R84). -/
def execAdmission (handles : List Nat) (s : State) : Host.Outcome State Fault Refusal :=
  match admissible s with
  | some (.back gang layer pls) => if handles = [] then .next (wake (recheck (comeBack s gang layer pls) gang)) else .next s
  | some (.launch id layer pls) =>
    if handlesOk s handles pls.length then .next (admitLaunch s id layer pls handles) else .next s
  | some (.part id core r) =>
    if handlesOk s handles 1 then .next (admitPart s id core r (handles.headD 0)) else .next s
  | some (.steal ..) => .next s
  | none => .next s

/-- Put a part on the head of a core's deque. -/
def ontoDeque (s : State) (id core : Nat) (p : Part) : State :=
  setDeque { s with rangeParts := mput s.rangeParts id { p with core := core } } core (id :: dequeAt s core)

/-- The join counter of a group's task (R73, R123). -/
def joinOf (s : State) : Owner → Option Counter
  | .launch id => (mfind s.launches id).bind (·.join)
  | .part id => ((mfind s.rangeParts id).bind fun q => mfind s.tasks q.task).bind (·.join)

/-- Take a part whole, or split it and raise the join counter (R122, R123). -/
def stealPart (s : State) (thief victim id : Nat) : State :=
  match mfind s.rangeParts id with
  | none => s
  | some p => match mfind s.tasks p.task with
    | none => s
    | some t =>
      let u := unstarted p t
      if u ≥ 2 then
        let mid := p.next + t.width * (u / 2)
        let s1 := match t.join with
          | some j => (addCounter s j 1 false).1
          | none => s
        let s2 := { s1 with rangeParts := mput s1.rangeParts id { p with hi := mid },
                            tasks := mput s1.tasks p.task { t with parts := t.parts + 1 }, fresh := s1.fresh + 1 }
        ontoDeque s2 s.fresh thief { task := p.task, core := thief, lo := mid, next := mid, hi := p.hi, groups := 0 }
      else ontoDeque (offDeque s id victim) id thief p

/-- STEAL (R22, R121 to R123): the theft is the work chosen for room on the thief (R115). -/
def execSteal (thief victim : Nat) (s : State) : Host.Outcome State Fault Refusal :=
  match admissible s with
  | some (.steal c v id) =>
    if c = thief ∧ v = victim ∧ counterStalls s (joinOf s (.part id)) = false then .next (wake (stealPart s c v id)) else .next s
  | _ => .next s

/-- Some request or queued matrix entry of any group still names the group's scratchpad, registers or tiles (R438). -/
def inUse (s : State) (gh : Nat) : Bool :=
  s.cores.any fun c =>
    (c.2.banks.any fun b => b.2.any fun r => r.any fun q => q.gh == gh || q.target == gh)
    || c.2.port.any (fun r => r.any fun q => q.gh == gh || q.target == gh)
    || c.2.mq.any fun e => e.gh == gh || match e.op with
        | .mma _ _ ga _ gb _ => ga == gh || gb == gh
        | .scaccVec _ ga _ gb _ => ga == gh || gb == gh
        | .accldSpad rows => rows.any fun r => r.1 == gh
        | .accstSpad _ rows => rows.any fun r => r.1 == gh
        | _ => false

/-- A wait of another group reads the group's scratchpad (R204, R205, R438). -/
def waitedOn (s : State) (gh : Nat) : Bool :=
  s.groups.any fun p => p.1 ≠ gh && p.2.waits.any fun w => match w.what with
    | .sync l => l.any fun x => x.2.1 == gh
    | .spad l => l.any fun x => x.target == gh
    | _ => false

/-- Another group's access comes first at a home (R362). -/
def othersFirst (s : State) (gh : Nat) (g : Group) : Bool :=
  g.pend.any fun a => s.groups.any fun p =>
    p.1 ≠ gh && p.2.pend.any fun e => mustPrecede false e a (slotLane p.2 e.lane < slotLane g a.lane)

/-- A range task or launch has ended: its table's pages are unpinned (R118, R145). -/
def endProgram (s : State) (p : Option Program) : State :=
  match p with
  | some x => unpinAll s x.pins
  | none => s

/-- The range task of a part. -/
def taskOfPart (s : State) (part : Nat) : Option Nat := (mfind s.rangeParts part).map (·.task)

/-- A group that holds a core belongs to a launch or to the range task of a part. -/
def taskResident (s : State) (o : Owner) : Bool :=
  s.groups.any fun p => (coreOf p.2).isSome && match o, p.2.owner with
    | .launch a, .launch b => a == b
    | .part a, .part b => (taskOfPart s b).isSome && taskOfPart s a == taskOfPart s b
    | _, _ => false

/-- A task of which RESET killed a group completes with FAULT and VALUE 0 once the last group that holds a core is gone, with
its stores performed (R102, R127). -/
def finishKilled (s : State) (o : Owner) : State :=
  if taskResident s o then s
  else match o with
  | .launch id => match mfind s.launches id with
    | some l =>
      if l.killed then finishTask { s with launches := mput s.launches id { l with pkt := none } } l.pkt 2 (some 0) else s
    | none => s
  | .part part => match (taskOfPart s part).bind fun id => (mfind s.tasks id).map fun t => (id, t) with
    | some (id, t) =>
      if t.killed then finishTask { s with tasks := mput s.tasks id { t with pkt := none } } t.pkt 2 (some 0) else s
    | none => s

/-- A part of a range task that has no group left and none to start is finished (R123). -/
def settlePart (s : State) (id : Nat) : State :=
  match mfind s.rangeParts id with
  | none => s
  | some q =>
    if q.groups ≠ 0 || q.next < q.hi then s
    else match mfind s.tasks q.task with
      | none => s
      | some t =>
        let s1 := joinSub (offDeque { s with rangeParts := mdel s.rangeParts id } id q.core) t.join 1 (t.parts ≤ 1)
        if t.parts ≤ 1 then
          finishTask (endProgram { s1 with tasks := mdel s1.tasks q.task } t.prog) t.pkt 1 none
        else
          let ended := if id = q.task + 1 then (q.hi, q.next) else t.ended
          { s1 with tasks := mput s1.tasks q.task { t with parts := t.parts - 1, ended := ended } }

/-- A launch with every group exited is finished (R87). -/
def settleLaunch (s : State) (id : Nat) : State :=
  match mfind s.launches id with
  | none => s
  | some l =>
    if l.exited < l.total || l.nextGang * l.members < l.total then s
    else finishTask (endProgram { s with launches := mdel s.launches id } l.prog) l.pkt 1 none

/-- The subtraction of KSPAWN's counter, and the interrupt on zero (R73). -/
def kspawnSub (s : State) (l : Launch) : State :=
  match l.join with
  | none => s
  | some j =>
    let r := addCounter s j (-1) true
    match r.2, l.irq with
    | some 0, some k => setService r.1 k { serviceAt r.1 k with irq := true }
    | _, _ => r.1

/-- A group's task counts its exit (R73, R87, R123, R127). -/
def countExit (s : State) (g : Group) : State :=
  match g.owner with
  | .launch id => match mfind s.launches id with
    | none => s
    | some l =>
      let s1 := kspawnSub { s with launches := mput s.launches id { l with exited := l.exited + 1 } } l
      settleLaunch (finishKilled s1 g.owner) id
  | .part id => match mfind s.rangeParts id with
    | none => s
    | some q =>
      let tasks := match mfind s.tasks q.task with
        | some t => mput s.tasks q.task { t with exited := t.exited + 1 }
        | none => s.tasks
      let s1 := { s with rangeParts := mput s.rangeParts id { q with groups := q.groups - 1 }, tasks := tasks }
      settlePart (finishKilled s1 g.owner) id

/-- End every subscription, armed wait and push of a group (R197, R198). -/
def dropSubs (s : State) (gh : Nat) : State :=
  { s with subs := s.subs.filter (fun x => x.gh ≠ gh), flying := s.flying.filter (fun f => f.gh ≠ gh),
           notices := s.notices.filter (fun n => n.1 ≠ gh) }

/-- Every subscription of an exiting group ends as by UNSUB (R196, R197): undeparted pushes are sent; one that no longer holds
a core takes none. -/
def unsubAll (s : State) (gh : Nat) (g : Group) : State :=
  if (coreOf g).isNone then onGroup (dropSubs s gh) gh fun x => { x with subs := [] }
  else
    let slots := ((s.subs.filter fun x => x.gh == gh && !x.armed).map (·.slot)).eraseDups
    let s1 := slots.foldl (fun st k => endSub st gh k) s
    onGroup { s1 with subs := s1.subs.filter (fun x => x.gh ≠ gh), notices := s1.notices.filter (fun n => n.1 ≠ gh) } gh
      fun x => { x with subs := [] }

/-- An exited group goes: its task counts it, and its granules return (R73, R87, R123, R197). -/
def leaveCore (s : State) (gh : Nat) (g : Group) : State :=
  let s1 := countExit { s with groups := mdel s.groups gh } g
  match g.place with
  | .resident c sl _ _ => startFree s1 c sl
  | _ => s1

/-- GROUP_EXIT (R22, R197): once its lanes have exited and every access and wait that names it is served (R438), its stores are
performed and its subscriptions end; it goes when the last push on its way to it has landed. -/
def execGroupExit (gh : Nat) (s : State) : Host.Outcome State Fault Refusal :=
  match mfind s.groups gh with
  | none => .next s
  | some g =>
    let stalls := (coreOf g).isSome && stalled s g || commitStalls s g || counterStalls s (joinOf s g.owner)
    if g.lanes.any liveLane || inUse s gh || waitedOn s gh || othersFirst s gh g || stalls then .next s
    else
      let s1 := unsubAll (endCk s gh) gh g
      if s1.flying.any fun x => x.gh == gh then .next (wake s1) else .next (wake (leaveCore s1 gh g))

end Sys2Proof.Machine
end

