-- ==== Sys2Proof/Machine/Preempt.lean ====
section
/-! DEFINITION. Pre-emption: draining, RESET, the Husk, RESTORE, loss of a context, and the spill of gangs (05 R125 to R133). -/

namespace Sys2Proof.Machine

/-- Replace a context. -/
def setCtx (s : State) (c : Nat) (x : Context) : State := { s with contexts := mput s.contexts c x }

/-- Bytes of a member's image: its Pit granules, path stacks and CSRs (R130; log 33). -/
def imageBytes (g : Group) : Nat := 16384 * granules g.pitw.toNat g.width + 4096

/-- Every live lane of a group stands in a spill-marked wait, and nothing of the group, no push to it included, is on its
way (R133, R208, R225); a relock of its layer, or of memory that it reaches, holds it (R22). -/
def spillReady (s : State) (p : Nat × Group) : Bool :=
  (coreOf p.2).isSome && !p.2.halted && p.2.waits ≠ [] && p.2.waits.all (·.spill) && p.2.starting.isEmpty
    && p.2.lanes.all (fun l => (!liveLane l || l.waiting) && l.pendTrap.isEmpty) && !endsCycle p.2
    && !stalled s p.2 && !commitStalls s p.2 && !inUse s p.1 && !othersFirst s p.1 p.2
    && !(s.flying.any fun f => f.gh == p.1)

/-- A wait of a spilled group whose push is undeparted already (R207). -/
def pushWaits (s : State) (gh : Nat) (w : Wait) : Bool :=
  isPushWait w && s.subs.any fun x => x.gh == gh && !x.armed && x.push.isSome

/-- A wait has looked at a word since an earlier state (R206): a store of the gang itself, committed as it was spilled, is a wake
event (R207). -/
def hasLooked (before : State) (gh : Nat) (w : Wait) : Bool :=
  (mfind before.groups gh).any fun g => g.waits.any fun x => x.ticket == w.ticket && x.what != w.what

/-- Spill one group whose accesses have been performed (R133, R172, R225): its Pit and slot are freed. -/
def spillGroup (before s : State) (gh : Nat) : State :=
  match mfind s.groups gh with
  | none => s
  | some g =>
    let s2 := setGroup s gh
      { loseBlock g with place := .spilled,
                         waits := g.waits.map fun w => { w with woken := pushWaits s gh w || hasLooked before gh w } }
    match g.place with
    | .resident c sl _ _ => startFree s2 c sl
    | _ => s2

/-- Spill a gang: the accesses of all its groups are performed first. -/
def spillGang (s : State) (l : List (Nat × Group)) : State :=
  let s1 := l.foldl (fun st p => forceCommit (commitHeld st p.1) p.1) s
  l.foldl (fun st p => spillGroup s st p.1) s1

/-- A gang's image: its length, and bytes whose format is internal to the part (R130). -/
def gangImage (free : Nat) (l : List (Nat × Group)) : List Byte :=
  let n := l.foldl (fun k p => k + imageBytes p.2) 0
  toBytes 8 n ++ (upFrom n free).map Config.freeByte

/-- Bytes of a gang's image (R130). -/
def gangBytes (l : List (Nat × Group)) : Nat := l.foldl (fun n p => n + imageBytes p.2) 8

/-- Bytes of the images of a context's spilled gangs. -/
def spilledBytes (s : State) (ctx : Nat) : Nat :=
  s.groups.foldl (fun n p =>
    if p.2.ctx = ctx ∧ (coreOf p.2).isNone ∧ leads s p then n + gangBytes (gangOf s p.2) else n) 0

/-- A Shucker command (R89 to R98). -/
def isCmd (x : Packet) : Bool := let t := ptype x.body.toNat; t = 3 || t = 4 || t = 5

/-- The packets of a context. -/
def pktsOf (s : State) (ctx : Nat) : List (Nat × Packet) := s.packets.filter fun p => pktCtx s p.2 == ctx

/-- A command of a lost context ends with FAULT (R104): VALUE is the faulting address of a paused one, and not stated for
the others. -/
def failCmd (s : State) (p : Nat × Packet) : State :=
  if (p.2.phase = .running || p.2.phase = .started) && isCmd p.2 then
    match p.2.cmd.paused with
    | some va => finish s p.1 2 (faultValue va)
    | none => finish { s with free := s.free + 1 } p.1 2 ((Config.freeValue s.free).toNat % 2 ^ 56)
  else s

/-- The groups of a context. -/
def groupsOf (s : State) (ctx : Nat) : List (Nat × Group) := s.groups.filter fun p => p.2.ctx == ctx

/-- Disable the queues of a context (R53, R126). -/
def disableQueues (s : State) (ctx : Nat) : State :=
  s.queues.foldl (fun st p => if p.2.ctx = ctx then setQueue st p.1 { p.2 with enable := false } else st) s

/-- A context is lost (R104, R126, R198). -/
def loseCtx (s : State) (ctx : Nat) : State :=
  match mfind s.contexts ctx with
  | none => s
  | some c =>
    let s1 := emit (disableQueues (setCtx s ctx { c with state := .lost, husk := none }) ctx) (.trap 0x41 ctx)
    (groupsOf s1 ctx).foldl (fun st p => dropSubs st p.1) ((pktsOf s1 ctx).foldl failCmd s1)

/-- Spill every gang of a context that may be (R126); SAVE finds whether its Husk area holds them. -/
def drainSpill (s : State) (ctx : Nat) : State :=
  ((groupsOf s ctx).filter (leads s)).foldl (fun st p =>
    match mfind st.groups p.1 with
    | none => st
    | some g => let l := gangOf st g
                if l.all (spillReady st) then spillGang st l else st) s

/-- A packet goes back to unstarted when its context drains (R100, R126). -/
def unstart (s : State) (p : Nat × Packet) : State :=
  if p.2.phase = .started || p.2.phase = .running && ptype p.2.body.toNat = 7 then
    setPacket s p.1 { p.2 with phase := .waiting }
  else s

/-- A deadline in nanoseconds as R125 allows it, in device-time units. -/
def deadlineOf (ns : Nat) : Option Nat :=
  if ns = 0 then some (2000000 * 65536) else if 1000 ≤ ns ∧ ns ≤ 1000000000 then some (ns * 65536) else none

/-- Begin the drain of a context (R125, R126). -/
def beginDrain (s : State) (ctx : Nat) (c : Context) (area size d : Nat) : State :=
  let s1 := setCtx s ctx { c with state := .drain, area := area, areaLen := size, deadline := d, wasReset := false }
  drainSpill ((pktsOf s1 ctx).foldl unstart s1) ctx

/-- PREEMPT (R125, R126): refused with BUSY outside RUN. -/
def execPreempt (ctx area size deadline : Nat) (s : State) : Host.Outcome State Fault Refusal :=
  match mfind s.contexts ctx, deadlineOf deadline with
  | some c, some d => if c.state = .run then .next (wake (beginDrain s ctx c area size d)) else .next (emit s (.status 1))
  | _, _ => .next s

/-- Kill a resident group of a context in RESET (R127). -/
def resetKill (s : State) (p : Nat × Group) : State :=
  let lane := ((upFrom p.2.lanes.length 0).find? fun i => liveLane (laneAt p.2 i)).getD 0
  let l := laneAt p.2 lane
  let off := match l.pos with | .leaf _ o => o | _ => 0
  killGroup s p.1 lane l.frames off false 0x21 { code := 0x21, addr1 := 0, addr2 := none, info := 0 }

/-- The task of a killed group is to complete with FAULT and VALUE 0, and what it has not started is discarded (R127). -/
def resetTask (s : State) (o : Owner) : State :=
  match o with
  | .launch id => match mfind s.launches id with
    | none => s
    | some l => { s with launches := mput s.launches id { l with killed := true, total := l.nextGang * l.members } }
  | .part pid => match mfind s.rangeParts pid with
    | none => s
    | some q => match mfind s.tasks q.task with
      | none => s
      | some t =>
        let s1 := { s with tasks := mput s.tasks q.task { t with killed := true } }
        (partsOfTask s1 q.task).foldl (fun (st : State) (x : Nat × Part) =>
          let y := { x.2 with hi := Nat.min x.2.hi x.2.next }
          settlePart (offDeque { st with rangeParts := mput st.rangeParts x.1 y } x.1 x.2.core) x.1) s1

/-- RESET of a context (R127). -/
def resetCtx (s : State) (ctx : Nat) : State :=
  let gs := (groupsOf s ctx).filter fun p => (coreOf p.2).isSome && p.2.lanes.any liveLane
  let s1 := gs.foldl resetKill s
  let s2 := ((gs.map fun p => p.2.owner).eraseDups).foldl resetTask s1
  (pktsOf s2 ctx).foldl (fun st p =>
    if p.2.phase = .running && isCmd p.2 && p.2.cmd.paused.isNone then finish st p.1 2 0 else st) s2

/-- PREEMPT_DEADLINE (R126, R127). -/
def execPreemptDeadline (ctx : Nat) (s : State) : Host.Outcome State Fault Refusal :=
  match mfind s.contexts ctx with
  | none => .next s
  | some c =>
    if c.state = .drain && c.deadline = 0 then
      .next (wake (resetCtx (setCtx s ctx { c with state := .reset, wasReset := true }) ctx))
    else .next s

/-- Nothing of the context is resident, and no Shucker command of it runs but paused ones (R126). -/
def drained (s : State) (ctx : Nat) : Bool :=
  (groupsOf s ctx).all (fun p => (coreOf p.2).isNone)
    && (pktsOf s ctx).all fun p => !(p.2.phase = .running && isCmd p.2 && p.2.cmd.paused.isNone)

/-- CONTEXT_DRAIN_COMPLETE (R126, R131): SAVE begins, and the save counter advances. -/
def execContextDrainComplete (ctx : Nat) (s : State) : Host.Outcome State Fault Refusal :=
  match mfind s.contexts ctx with
  | none => .next s
  | some c =>
    if (c.state = .drain || c.state = .reset) && drained s ctx then
      .next (setCtx s ctx { c with state := .save, savectr := c.savectr + 1, saveTime := schedTime s })
    else .next s

/-- A record padded with zeros to n bytes. -/
def padTo (n : Nat) (l : List Byte) : List Byte := l ++ List.replicate (n - l.length) 0

/-- A section padded to the next 64-byte boundary (R129). -/
def section64 (l : List Byte) : List Byte := padTo (ceilDiv l.length 64 * 64) l

/-- Numbers as 8-byte values. -/
def bytes8 (l : List Nat) : List Byte := l.flatMap (toBytes 8)

/-- A queue record (R130). -/
def queueRecord (s : State) (p : Nat × Queue) : List Byte :=
  let x := p.2
  let r := queueReg s (headWait s p.1) p.1
  padTo 128 (bytes8 [x.wridx.toNat, x.rdidx.toNat, r 0x10, x.ringbase.toNat, r 0x20, x.period, x.budget, x.pstart.toNat,
    x.used, r 0x60] ++ toBytes 2 p.1)

/-- An unstarted packet's record (R130). -/
def packetRecord (x : Packet) : List Byte :=
  padTo 128 (toBytes 64 x.body.toNat ++ toBytes 2 x.queue ++ toBytes 6 0 ++ toBytes 8 x.slot)

/-- WIDTH's code (R87). -/
def widthCode (w : Nat) : Nat := if w = 8 then 0 else if w = 16 then 1 else if w = 32 then 2 else 3

/-- The packet of a launch: its own, or for KSPAWN the layout of R87. -/
def launchPacket (s : State) (l : Launch) : List Byte :=
  match l.pkt.bind (mfind s.packets) with
  | some x => toBytes 64 x.body.toNat
  | none => toBytes 8 1 ++ toBytes 8 0 ++ toBytes 8 l.image ++ toBytes 8 l.args ++ toBytes 8 l.start.toNat
      ++ toBytes 2 l.gx ++ toBytes 2 l.gy ++ toBytes 2 l.gz ++ toBytes 2 l.func
      ++ toBytes 8 (pack [(32, l.pitw.toNat), (2, widthCode l.width), (4, l.members - 1), (4, l.stages - 1)]) ++ toBytes 8 0

/-- A launch's record (R130). -/
def launchRecord (s : State) (l : Launch) : List Byte :=
  padTo 128 (launchPacket s l ++ toBytes 8 l.total ++ toBytes 8 (l.nextGang * l.members) ++ toBytes 8 l.exited
    ++ toBytes 2 l.queue)

/-- The record of a RANGE packet in progress (R130): HI and NEXT of its first part, and the groups of the task that have
exited. -/
def rangeRecord (s : State) (p : Nat × RangeTask) : Option (List Byte) :=
  (p.2.pkt.bind (mfind s.packets)).map fun x =>
    let r := match mfind s.rangeParts (p.1 + 1) with | some q => (q.hi, q.next) | none => p.2.ended
    padTo 128 (toBytes 64 x.body.toNat ++ toBytes 8 r.1 ++ toBytes 8 r.2 ++ toBytes 8 p.2.exited ++ toBytes 2 p.2.queue)

/-- A deque entry's record (R130). -/
def dequeRecord (core : Nat) (q : Part) (t : RangeTask) : List Byte :=
  padTo 60 (bytes8 [t.image, t.args, q.next, q.hi, t.joinVa] ++ toBytes 2 t.func ++ toBytes 1 (widthCode t.width)
    ++ toBytes 1 core ++ toBytes 4 t.pitw.toNat ++ toBytes 8 q.lo ++ toBytes 2 t.queue) ++ toBytes 4 q.task

/-- Bytes a command has landed (R130): of a copy, of the tiles a STREAM has moved, whose elements outside the tensor a drain does not
write (R94), or of the elements a REDUCE has written. -/
def landedBytes (x : Packet) : Nat :=
  let b := x.body.toNat
  match ptype b with
  | 3 => copyLen b - x.cmd.todo.foldl (fun n r => n + r.2) 0
  | 4 =>
    let t := layoutOf x.cmd.layout
    if isDrain b then
      (upFrom x.cmd.next (pfield b 40 32)).foldl (fun n k => (tileRows t k).foldl (fun n r => n + r.bytes) n) 0
    else x.cmd.next * tileBytes t
  | _ => x.cmd.next * (if pfield b 35 2 = 1 then 4 else 16)

/-- A paused command's record (R130). -/
def pausedRecord (x : Packet) : List Byte :=
  padTo 128 (toBytes 64 x.body.toNat ++ toBytes 8 (landedBytes x) ++ toBytes 8 (x.cmd.paused.getD 0) ++ toBytes 2 x.queue)

/-- A subscription's record, with the slot's state (R130, R199). -/
def subRecord (s : State) (x : Sub) : List Byte :=
  let st := match mfind s.groups x.gh with | some g => spadNum g x.slot 16 | none => 0
  padTo 32 (toBytes 8 x.pa ++ toBytes 2 x.gh ++ toBytes 4 x.slot ++ toBytes 4 (bits st 64 32) ++ toBytes 1 (bits st 96 3))

/-- The parts of a context on the deques, by core. -/
def dequesOf (s : State) (ctx : Nat) : List (Nat × List Nat) :=
  s.deques.filterMap fun d =>
    let l := d.2.filter fun id => match (mfind s.rangeParts id).bind fun q => mfind s.tasks q.task with
      | some t => t.ctx == ctx
      | none => false
    if l = [] then none else some (d.1, l)

/-- The Husk of a context in SAVE (R129, R130): header, body, and the free bytes used. -/
def huskImage (s : State) (ctx : Nat) (c : Context) : List Byte × List Byte × Nat :=
  let qs := s.queues.filter fun p => p.2.ctx == ctx
  let ps := (pktsOf s ctx).map (·.2)
  let wait := ps.filter fun x => x.phase = .waiting
  let paused := ps.filter fun x => x.phase = .running && x.cmd.paused.isSome
  let ls := ((s.launches.filter fun p => p.2.ctx == ctx).map fun p => launchRecord s p.2)
    ++ (s.tasks.filter fun p => p.2.ctx == ctx).filterMap (rangeRecord s)
  let ds := (dequesOf s ctx).flatMap fun d => d.2.filterMap fun id =>
    (mfind s.rangeParts id).bind fun q => (mfind s.tasks q.task).map fun t => dequeRecord d.1 q t
  let gs := groupsOf s ctx
  let subs := s.subs.filter fun x => !x.armed && gs.any fun p => p.1 == x.gh
  let gangs := (gs.filter (leads s)).map fun p => gangOf s p.2
  let imgs := gangs.foldl (fun (a : List Byte × Nat) l =>
    let b := gangImage a.2 l
    (a.1 ++ b, a.2 + b.length - 8)) ([], s.free)
  let body := section64 (qs.flatMap (queueRecord s)) ++ section64 (wait.flatMap packetRecord) ++ section64 ls.flatten
    ++ section64 ds.flatten ++ section64 (paused.flatMap pausedRecord) ++ section64 (subs.flatMap (subRecord s)) ++ imgs.1
  let hdr := padTo 128 (toBytes 4 0x4B535548 ++ toBytes 2 1 ++ toBytes 1 ctx ++ toBytes 1 (flag c.wasReset)
    ++ toBytes 8 (128 + body.length + 16) ++ toBytes 8 c.saveTime.toNat ++ toBytes 8 c.savectr.toNat
    ++ [qs.length, wait.length, ls.length, ds.length, paused.length, subs.length, gangs.length].flatMap (toBytes 4))
  (hdr, body, imgs.2)

/-- A Husk area lies in memory whose frame key is the context's (R131): with another one the model fails the write (DESIGN CHOICE,
log 51). -/
def areaOk (s : State) (ctx area size : Nat) : Bool :=
  size = 0 || ((upFrom ((area + size - 1) / 65536 - area / 65536 + 1) (area / 65536)).all fun g =>
    isMemory (region s (g * 65536)) && frameKey s (g * 65536) == ctx + 1)

/-- A saved context gives up its tables and pins, and its place on the deques (R126, R145). -/
def shelve (s : State) (ctx : Nat) : State :=
  let s1 := (s.launches.filter fun p => p.2.ctx == ctx).foldl (fun st p =>
    let l : Launch := { p.2 with prog := none, acc := [] }
    endProgram { st with launches := mput st.launches p.1 l } p.2.prog) s
  let s2 := (s1.tasks.filter fun p => p.2.ctx == ctx).foldl (fun st p =>
    let t : RangeTask := { p.2 with prog := none, acc := [] }
    endProgram { st with tasks := mput st.tasks p.1 t } p.2.prog) s1
  let s3 := (dequesOf s2 ctx).foldl (fun st d => setDeque st d.1 ((dequeAt st d.1).filter fun id => !d.2.contains id)) s2
  (groupsOf s3 ctx).foldl (fun st p => setGroup st p.1 { p.2 with place := .saved }) s3

/-- HUSK_WRITTEN (R126, R129 to R131): the image under the context's data key, or LOST. -/
def execHuskWritten (ctx : Nat) (written : Bool) (s : State) : Host.Outcome State Fault Refusal :=
  match mfind s.contexts ctx with
  | none => .next s
  | some c =>
    if c.state ≠ .save then .next s
    else
      let h := huskImage s ctx c
      let size := 128 + h.2.1.length + 16
      if !written || size > c.areaLen || !areaOk s ctx c.area size || !keyLive s ctx then .next (wake (loseCtx s ctx))
      else
        let key := dataKey (sget MemKey.reset s.keys ctx).mat
        let e := gcmEncrypt key (gcmNonce ctx c.savectr.toNat) h.1 h.2.1
        let husk : Husk := { area := c.area, counter := c.savectr, queues := s.queues.filter (fun p => p.2.ctx == ctx),
                             deques := dequesOf s ctx }
        let s1 := storeHome { s with free := h.2.2 } (keyView s ctx) c.area (h.1 ++ e.1 ++ e.2) false
        .next (setCtx (shelve s1 ctx) ctx { c with state := .saved, husk := some husk })

/-- Bytes of a Husk read at physical addresses (R131, R436). -/
def huskBytes (s : State) (pa n : Nat) : List Byte := (upFrom n pa).map (readFrame s)

/-- The least SIZE that a header's records need (R129, R132). -/
def huskLeast (h : Nat) : Nat :=
  let n := fun i => bits h (256 + 32 * i) 32
  let sec := fun (k size : Nat) => ceilDiv (n k * size) 64 * 64
  128 + sec 0 128 + sec 1 128 + sec 2 128 + sec 3 64 + sec 4 128 + sec 5 32 + 16

/-- Bring a saved context back (R132): queues as recorded, its parts on their cores' deques, its gangs spilled. A part goes behind
what the deque holds, even past 64 entries (DESIGN CHOICE, log 51). -/
def unshelve (s : State) (ctx : Nat) (k : Husk) : State :=
  let s1 := k.queues.foldl (fun st p => setQueue st p.1 p.2) s
  let s2 := k.deques.foldl (fun st d => setDeque st d.1 (dequeAt st d.1 ++ d.2)) s1
  (groupsOf s2 ctx).foldl (fun st p => setGroup st p.1
    { p.2 with place := .spilled, waits := p.2.waits.map fun w => { w with woken := w.woken || pushWaits st p.1 w } }) s2

/-- RESTORE (R126, R132): header, image, success. -/
def execRestore (ctx area : Nat) (s : State) : Host.Outcome State Fault Refusal :=
  match mfind s.contexts ctx with
  | none => .next s
  | some c =>
    match c.state, c.husk with
    | .saved, some k =>
      let hdr := huskBytes s area 128
      let h := ofBytes hdr
      let size := bits h 64 64
      if (upFrom 128 area).any (badAt s) then .next (loseCtx s ctx)
      else if bits h 0 32 ≠ 0x4B535548 || bits h 32 16 ≠ 1 || bits h 48 8 ≠ ctx || size < huskLeast h then
        .next (emit s (.status 6))
      else if bits h 192 64 ≠ c.savectr.toNat then .next (emit s (.status 7))
      else if (upFrom size area).any (badAt s) then .next (loseCtx s ctx)
      else
        let key := dataKey (sget MemKey.reset s.keys ctx).mat
        match gcmDecrypt key (gcmNonce ctx c.savectr.toNat) hdr (huskBytes s (area + 128) (size - 144))
            (huskBytes s (area + size - 16) 16) with
        | none => .next (loseCtx s ctx)
        | some _ => .next (wake (unshelve (setCtx s ctx { c with state := .run, husk := none }) ctx k))
    | _, _ => .next s

/-- The groups resident on a layer. -/
def onLayer (s : State) (n : Nat) : List (Nat × Group) :=
  s.groups.filter fun p => match coreOf p.2 with | some c => layerOfCore c == n | none => false

/-- LAYER_DRAIN_TIMEOUT (R128): 2 ms after DRAIN began, a PREEMPT with D = 0 to each context with groups there, into the
Husk areas that the management core names. -/
def execLayerDrainTimeout (layer : Nat) (areas : List (Nat × (Nat × Nat))) (s : State) :
    Host.Outcome State Fault Refusal :=
  let l := layerAt s layer
  if l.state ≠ .drain || elapsed s l.since < 2000000 * 65536 then .next s
  else
    let ctxs := ((onLayer s layer).map fun p => p.2.ctx).eraseDups
    .next (wake (ctxs.foldl (fun st ctx =>
      match mfind st.contexts ctx, areas.find? fun a => a.1 == ctx with
      | some c, some a => if c.state = .run then beginDrain st ctx c a.2.1 a.2.2 (2000000 * 65536) else st
      | _, _ => st) s))

/-- The gang's launch has pending gangs, and no Pod has room for the next (R133). -/
def spillNeeded (s : State) (g : Group) : Bool :=
  match g.owner with
  | .launch id => match mfind s.launches id with
    | some l => launchPending s l && (planFor s l.lastLayer (launchNeeds l)).isNone
    | none => false
  | .part _ => false

/-- A spilled gang's image in the spill area (R130, R133), after those of the gangs already there (log 33). -/
def writeImage (s : State) (ctx at_ : Nat) (l : List (Nat × Group)) : State :=
  match mfind s.contexts ctx with
  | none => s
  | some c =>
    let b := gangImage s.free l
    storeFrames (b.length / 65536 + 2) { s with free := s.free + b.length - 8 } (c.spill + at_) b

/-- SPILL (R126, R128, R133): into the spill area where it has room, or into the Husk area of a draining context. -/
def execSpill (gh : Nat) (s : State) : Host.Outcome State Fault Refusal :=
  match mfind s.groups gh with
  | none => .next s
  | some g =>
    let gang := gangOf s g
    let draining := ctxState s g.ctx == some .drain
    let leaving := match coreOf g with | some c => (layerAt s (layerOfCore c)).state == .drain | none => false
    let fits := match mfind s.contexts g.ctx with
      | some c => spilledBytes s g.ctx + gangBytes gang ≤ c.spillLen
      | none => false
    if !gang.all (spillReady s) then .next s
    else if draining then .next (wake (drainSpill s g.ctx))
    else if (leaving || spillNeeded s g) && fits then
      .next (wake (writeImage (spillGang s gang) g.ctx (spilledBytes s g.ctx) gang))
    else .next s

end Sys2Proof.Machine
end

