-- ==== Sys2Proof/Machine/Contexts.lean ====
section
/-! DEFINITION. Contexts, page-table entries, shoot-downs, migration and the accesses of Valob peers (06 R136 to R148, R154, R155; 08
R198). -/

namespace Sys2Proof.Machine

/-- A context at its creation (R126, R141). -/
def newContext (asid : BitVec 16) (root spill spillLen : Nat) : Context :=
  { asid := asid, root := root, spill := spill, spillLen := spillLen, state := .run, area := 0, areaLen := 0,
    deadline := 0, wasReset := false, savectr := 0, saveTime := 0, husk := none }

/-- CONTEXT_CREATE (R133, R141): a number and an ASID that no live context holds. -/
def execContextCreate (ctx : Nat) (asid : BitVec 16) (root spill spillLen : Nat) (s : State) :
    Host.Outcome State Fault Refusal :=
  if ctx ≥ 64 || (mfind s.contexts ctx).isSome || (ctxOfAsid s asid).isSome then .next s
  else .next (setCtx s ctx (newContext asid root spill spillLen))

/-- Take away everything a destroyed context holds (R198; log 34). -/
def forget (s : State) (ctx : Nat) : State :=
  let gs := groupsOf s ctx
  let s1 := gs.foldl (fun st p => { dropSubs st p.1 with groups := mdel st.groups p.1 }) s
  let s2 := (s1.launches.filter fun p => p.2.ctx == ctx).foldl (fun st p =>
    endProgram { st with launches := mdel st.launches p.1 } p.2.prog) s1
  let s3 := (s2.tasks.filter fun p => p.2.ctx == ctx).foldl (fun st p =>
    dropTask (unpinCounter (endProgram st p.2.prog) p.2.join) p.1) s2
  let ps := pktsOf s3 ctx
  let s4 := ps.foldl (fun st p => { unpinAll st p.2.cmd.pins with packets := mdel st.packets p.1 }) s3
  { s4 with contexts := mdel s4.contexts ctx, copyKeys := sset CopyKey.reset s4.copyKeys ctx CopyKey.reset }

/-- CONTEXT_DESTROY (R198): a context with no resident group. -/
def execContextDestroy (ctx : Nat) (s : State) : Host.Outcome State Fault Refusal :=
  match mfind s.contexts ctx with
  | none => .next s
  | some _ => if (groupsOf s ctx).all fun p => (coreOf p.2).isNone then .next (wake (forget s ctx)) else .next s

/-- The next-level tables that n entries of a table point to (R142). -/
def tablesIn (s : State) (wide : Bool) (n base : Nat) : List Nat :=
  (upFrom n 0).filterMap fun i => tableOf s wide (base + 16 * i)

/-- The tables of a context that hold leaf entries: of 2 MiB pages, and of 64 KiB pages (R141, R142). -/
def entryTables (s : State) (root : Nat) : List Nat × List Nat :=
  let top := if root % 8192 = 0 then [root] else []
  let wide := ((top.flatMap (tablesIn s true 512)).flatMap (tablesIn s true 512)).flatMap (tablesIn s true 512)
  (wide, wide.flatMap (tablesIn s false 512))

/-- The entry pair of a context's tables that an address lies in, and whether its leaf is one of 2 MiB. -/
def entryPair (s : State) (pa : Nat) : Option (Nat × Bool) :=
  s.contexts.findSome? fun c =>
    let t := entryTables s c.2.root
    if t.1.any fun b => b ≤ pa && pa < b + 8192 then some (pa / 16 * 16, true)
    else if t.2.any fun b => b ≤ pa && pa < b + 512 then some (pa / 16 * 16, false)
    else none

/-- The frame a leaf holds. -/
def leafFrame (s : State) (leaf : Nat) : Nat := bits (readFrames s leaf 8) 16 36 * 65536

/-- The frame of each page that a leaf of a live context names (R143, R144). A leaf that is valid with P clear names the frame
that its page is copied from, while it is in migration (R154; log 52). -/
def namedFrames (s : State) : List Nat :=
  let at_ := fun (big : Bool) (n base : Nat) => (upFrom n 0).filterMap fun i =>
    match leafAt s big 0 (base + 16 * i) with
    | .leaf _ _ f => some f
    | .absent p => some (leafFrame s p)
    | _ => none
  s.contexts.flatMap fun c =>
    let t := entryTables s c.2.root
    t.1.flatMap (at_ true 512) ++ t.2.flatMap (at_ false 32)

/-- A TDI, at reset where none is recorded. -/
def tdiAt (s : State) (k : Nat) : Tdi := sget Tdi.reset s.tdis k

/-- Replace a TDI. -/
def setTdi (s : State) (k : Nat) (x : Tdi) : State := { s with tdis := sset Tdi.reset s.tdis k x }

/-- A TDI's context is bound: CONFIG_LOCKED or RUN (R52, R54). -/
def frozen (s : State) (k : Nat) : Bool := (tdiAt s k).state == .locked || (tdiAt s k).state == .run

/-- The initiators that may hold nothing on the pages of bound context k (R54): service cores, peers, other VFs. -/
def otherInit (k init : Nat) : Bool :=
  let i := bits init 0 20
  match bits init 20 4 with
  | 2 | 4 => true
  | 3 => i != 0 && i != k + 1
  | _ => false

/-- An entry of target t that R54 forbids on granule g while context k is bound. -/
def forbidsGranule (s : State) (k t e g : Nat) : Bool :=
  bit e 0 && bits e 1 4 != 0 && otherInit k (bits e 32 24) && bits e 56 36 ≤ g && g ≤ bits e 92 36 &&
    (let h := targetOf s (g * 65536)
     if h < 16 then t < 16 else t == h)

/-- An entry that R54 forbids while context k is bound: it covers a frame whose frame key is key k. -/
def forbidden (s : State) (k t e : Nat) : Bool :=
  s.frameKeys.any fun p => p.2 == k + 1 && forbidsGranule s k t e p.1

/-- The granules a leaf value names, where it is a resident leaf (R436). -/
def namedGranules (big : Bool) (e : Nat) : List Nat :=
  if bit e 0 && bit e 1 && bit e 2 then upFrom (if big then 32 else 1) (bits e 16 36) else []

/-- A leaf value would give a bound context's key to a granule on which some table holds an entry that R54 forbids. -/
def leafClash (s : State) (big : Bool) (e : Nat) : Bool :=
  frozen s (bits e 58 6) && (namedGranules big e).any fun g =>
    s.tables.any fun p => forbidsGranule s (bits e 58 6) (p.1 / 64) p.2.toNat g

/-- The change of an entry that PINS holds back (R146): V or P cleared, or PFN, KEY or a permission taken away. -/
def restricts (old new : Nat) : Bool :=
  let gone := fun k => bit old k && !bit new k
  gone 0 || gone 1 || bits old 16 36 != bits new 16 36 || bits old 58 6 != bits new 58 6 || gone 3 || gone 4 || gone 5
    || gone 6

/-- Set the frame key of the granules that a leaf names (R436). -/
def setFrameKeys (s : State) (big : Bool) (e : Nat) : State :=
  { s with frameKeys := (namedGranules big e).foldl (fun m k => sset 0 m k (bits e 58 6 + 1)) s.frameKeys }

/-- Write an entry pair at its home: the companion keeps PINS and its reserved bits (R145, R146). -/
def putEntry (s : State) (pa : Nat) (big : Bool) (entry companion : Nat) : State :=
  match frameView s pa with
  | none => s
  | some v =>
    let comp := bits companion 0 10 + 2 ^ 48 * pinsOf s pa
    setFrameKeys (storeHome (storeHome s v pa (toBytes 8 entry) false) v (pa + 8) (toBytes 8 comp) false) big entry

/-- The owning instance's write of an entry pair (R146, R436): while PINS is set, a write that restricts ends in a store
access fault. One that would give a bound context's key to a granule another initiator holds an entry on is refused with
LOCKED (R54; log 32). -/
def ownEntry (s : State) (pa : Nat) (big : Bool) (entry companion : Nat) : State × Bool :=
  if pinsOf s pa ≠ 0 && restricts (readFrames s pa 8) entry then (s, false)
  else if leafClash s big entry then (emit s (.status 5), true)
  else (putEntry s pa big entry companion, true)

/-- ENTRY_WRITE (R61, R138, R146, R436): by the owning instance, whose table must grant the write. -/
def execEntryWrite (slice pa : Nat) (big : Bool) (entry companion : DWord) (s : State) :
    Host.Outcome State Fault Refusal :=
  if slice ≥ 16 || homeOf pa ≠ slice || pa % 16 ≠ 0 || !isMemory (region s pa) then .next s
  else if !tablePermits s (initService slice) pa 16 2 then .next (serviceTrap s slice causeLoadFault pa)
  else
    let r := ownEntry s pa big entry.toNat companion.toNat
    .next (wake (if r.2 then r.1 else serviceTrap r.1 slice causeStoreFault pa))

/-- The targets of a shoot-down (R147): layers 0 to 7 by ACC, the Valob logic 8 by PEER, the slice Shuckers from 16. -/
def shootTargets (companion : Nat) : List Nat :=
  (upFrom 8 0).filter (bit companion) ++ (if bit companion 8 then [8] else []) ++ upFrom 16 16

/-- SHOOT_DOWN (R147): after the leaf's owner has changed it. -/
def execShootDown (slice : Nat) (asid : BitVec 16) (va leaf : Nat) (s : State) : Host.Outcome State Fault Refusal :=
  if homeOf leaf ≠ slice || leaf % 16 ≠ 0 then .next s
  else
    .next { s with shoots := s.shoots ++
      [{ asid := asid, va := va, leaf := leaf, targets := shootTargets (readFrames s (leaf + 8) 8) }] }

/-- SHOOT_DOWN_COMPLETE (R147): every target has acknowledged. -/
def execShootDownComplete (asid : BitVec 16) (va : Nat) (s : State) : Host.Outcome State Fault Refusal :=
  .next { s with shoots := s.shoots.filter fun x => !(x.asid == asid && x.va == va) }

/-- Bytes of a page. -/
def pageBytes (big : Bool) : Nat := if big then 0x200000 else 65536

/-- A subscription or armed wait whose word lies in a page. -/
def inPage (frame size pa : Nat) : Bool := frame ≤ pa && pa < frame + size

/-- A word's place after its page has moved (R155). -/
def movedPa (old new size pa : Nat) : Nat := if inPage old size pa then new + (pa - old) else pa

/-- A wait on words of a page that moves (R155). -/
def movedWait (old new size : Nat) (w : Wait) : Wait :=
  match w.what with
  | .word l => { w with what := .word (l.map fun x => { x with pa := movedPa old new size x.pa }) }
  | .counter va pa k a z => { w with what := .counter va (movedPa old new size pa) k a z }
  | _ => w

/-- The tables of the new homes have room for the subscriptions that move (R155). -/
def moveFits (s : State) (old new size : Nat) : Bool :=
  let l := (s.subs.filter fun x => inPage old size x.pa).map fun x => movedPa old new size x.pa
  let stay := s.subs.filter fun x => !inPage old size x.pa
  l.all fun pa => (l.filter fun q => homeOf q == homeOf pa).length
    + (stay.filter fun x => homeOf x.pa == homeOf pa).length ≤ tableSize

/-- Move the subscriptions of a page to their new homes (R155). -/
def moveSubs (s : State) (old new size : Nat) : State :=
  let s1 := { s with subs := s.subs.map fun (x : Sub) => { x with pa := movedPa old new size x.pa } }
  let fix := fun (g : Group) =>
    { g with waits := g.waits.map (movedWait old new size),
             subs := g.subs.map fun (x : ListedSub) => { x with pa := movedPa old new size x.pa } }
  { s1 with groups := s1.groups.map fun (p : Nat × Group) => (p.1, fix p.2) }

/-- A wait whose armed entry for a word a teardown has taken (R198): it re-reads that word (R206). -/
def disarm (gh ticket pa : Nat) (s : State) : State :=
  let f := fun w : Wait => if w.ticket ≠ ticket then w else match w.what with
    | .word l => { w with what := .word (l.map fun x => if x.pa = pa then { x with armed := false } else x) }
    | .counter va q k a z => { w with what := .counter va q k (a && q ≠ pa) z }
    | _ => w
  onGroup s gh fun g => { g with waits := g.waits.map f }

/-- Tear down the subscriptions of a page (R18, R198): undeparted pushes are sent, and the subscribers told. -/
def tearDown (s : State) (old size : Nat) : State :=
  let l := s.subs.filter fun x => inPage old size x.pa
  let s1 := { s with subs := s.subs.filter fun x => !inPage old size x.pa }
  l.foldl (fun st x =>
    if x.armed then disarm x.gh x.slot x.pa st
    else
      let sent := match x.push with | some p => [({ gh := x.gh, slot := x.slot, push := p } : Flying)] | none => []
      { st with flying := st.flying ++ sent, notices := st.notices ++ [(x.gh, x.slot)] }) s1

/-- The layer whose memory holds an address, while it is in FLUSH (R155). -/
def flushing (s : State) (pa : Nat) : Bool :=
  match region s pa with
  | .layer n _ => (layerAt s n).state = .flush
  | _ => false

/-- Pushes of the page's subscriptions to resident groups are still on their way. -/
def pushesOut (s : State) (old size : Nat) : Bool :=
  (s.subs.filter fun x => inPage old size x.pa && !x.armed).any fun x =>
    s.flying.any (fun f => f.gh == x.gh && f.slot == x.slot)
      || (x.push.isSome && match mfind s.groups x.gh with | some g => (coreOf g).isSome | none => false)

/-- Step 3 of a migration at the old homes (R154, R155): subscriptions move or are torn down; a full table stops the
migration, and P is set again. -/
def fenceHomes (s : State) (leaf : Nat) (big : Bool) (old new : Nat) : State × Bool :=
  let size := pageBytes big
  if flushing s old then (tearDown s old size, true)
  else if moveFits s old new size then (moveSubs s old new size, true)
  else
    let e := readFrames s leaf 8
    (emit (putEntry s leaf big (Nat.lor e 2) (readFrames s (leaf + 8) 8)) (.status 4), false)

/-- A leaf whose page is being moved: P clear, and no shoot-down of it in progress (R154). -/
def moving (s : State) (leaf : Nat) : Bool :=
  let e := readFrames s leaf 8
  bit e 0 && !bit e 1 && bit e 2 && !(s.shoots.any fun x => x.leaf == leaf)

/-- HOME_FENCE (R22, R154, R155). -/
def execHomeFence (leaf : Nat) (big : Bool) (frame : Nat) (s : State) : Host.Outcome State Fault Refusal :=
  let old := leafFrame s leaf
  if !moving s leaf || spanStalls s old (pageBytes big) || pushesOut s old (pageBytes big) then .next s
  else .next (wake (fenceHomes s leaf big old frame).1)

/-- Copy a page under the leaf's key (R154): each line is re-encrypted at its new address. -/
def copyPage (s : State) (key old new size : Nat) : State :=
  let v := keyView s key
  let s1 := writeSpan s v new ((upFrom size old).map (readAs s v))
  let mark := fun m i => sset false m (new / 64 + i) (sget false s.poison (old / 64 + i))
  { s1 with poison := (upFrom (size / 64) 0).foldl mark s1.poison }

/-- A page's frames, old and new, lie in memory that a relock stalls (R22). -/
def moveStalls (s : State) (leaf : Nat) (big : Bool) (frame : Nat) : Bool :=
  spanStalls s (leafFrame s leaf) (pageBytes big) || spanStalls s frame (pageBytes big)

/-- PAGE_COPY (R22, R154). -/
def execPageCopy (leaf : Nat) (big : Bool) (frame : Nat) (s : State) : Host.Outcome State Fault Refusal :=
  if !moving s leaf || moveStalls s leaf big frame then .next s
  else .next (copyPage s (bits (readFrames s leaf 8) 58 6) (leafFrame s leaf) frame (pageBytes big))

/-- The new leaf of a page that has moved. -/
def movedLeaf (e frame : Nat) : Nat := e - bits e 16 36 * 65536 + frame / 65536 % 2 ^ 36 * 65536

/-- A page may move to a frame in FLUSH (R16): in HBM, or in the second tier when the owning instance, which keeps the free
frames, has none left in HBM (log 37); not where R54 forbids it (log 32). -/
def moveOk (s : State) (big : Bool) (e frame : Nat) : Bool :=
  isCipher (region s frame) && !leafClash s big (movedLeaf e frame)

/-- A whole migration within FLUSH (R16, R154) of a resident page, unless it is pinned: the leaf names the new frame, and
ACC, PEER and DIRTY are clear. -/
def migrate (s : State) (leaf : Nat) (big : Bool) (frame : Nat) : State :=
  let e := readFrames s leaf 8
  let old := leafFrame s leaf
  if pinsOf s leaf ≠ 0 || !(bit e 0 && bit e 1 && bit e 2) || !moveOk s big e frame then s
  else
    let r := fenceHomes s leaf big old frame
    if r.2 then
      let s1 := copyPage r.1 (bits e 58 6) old frame (pageBytes big)
      putEntry s1 leaf big (movedLeaf e frame) 0
    else r.1

/-- The kinds, table bit and length of a peer's access (R59, R148). -/
def peerKinds : PeerReq → Kinds × Nat × Nat
  | .read n => (kRead, 1, n)
  | .write b => (kWrite, 2, b.length)
  | .fetchAdd _ => (kAtomic, 3, 8)

/-- Mark the leaves of a peer's access: PEER, and DIRTY for a write (R145). -/
def markPeer (s : State) (leaves : List Nat) (write : Bool) : State :=
  leaves.eraseDups.foldl (fun st p => markLeaf st p (0x100 + (if write then 0x200 else 0))) s

/-- PEER_ACCESS (R61, R148): translated in the port's receive ASID; a page not resident pauses it. -/
def execPeerAccess (port peer va : Nat) (r : PeerReq) (s : State) : Host.Outcome State Fault Refusal :=
  let p := portAt s port
  let k := peerKinds r
  if !portUp s port then .next s
  else match ctxOfAsid s p.rxAsid with
    | none => .next (emit s (.peerStatus port 2))
    | some ctx => match reach s ctx (initPeer port peer) va k.2.2 k.1 k.2.1 with
      | .pause _ | .stall => .next s
      | .stop st _ => .next (emit s (.peerStatus port st))
      | .ok pas leaves => match r with
        | .read _ => .next (emit (markPeer s leaves false) (.peerData port (readPas s pas)))
        | .write b =>
          let s1 := storeBytes (markPeer s leaves true) ((List.zip pas b).map fun q => (q.1.1, q.1.2, q.2)) false
          .next (wake (emit s1 (.peerStatus port 1)))
        | .fetchAdd v =>
          if va % 8 ≠ 0 then .next s
          else
            let old := ofBytes (readPas s pas)
            let new := toBytes 8 (old + v.toNat)
            let s1 := storeBytes (markPeer s leaves true) ((List.zip pas new).map fun q => (q.1.1, q.1.2, q.2)) false
            .next (wake (emit s1 (.peerData port (toBytes 8 old))))

end Sys2Proof.Machine
end

