-- ==== Sys2Proof/Machine/Control.lean ====
section
/-! DEFINITION. Control and predicate instructions (14 R318 to R331, R279). -/

namespace Sys2Proof.Machine

/-- A lane's own change of frames: what it writes to a saved destination, the lane, and the walk's log; none where the lane
goes on to its next instruction. -/
abbrev Move := Except Trap (Option ((SavedDst × Nat) × Lane × WalkLog))

/-- What SKIPV writes to the saved destination (R323): no register at or above NV. -/
def skipvWrite (g : Group) (lane : Nat) (dst : SavedDst) (v : Nat) : Group :=
  let put := fun (g : Group) (r x : Nat) => if r < nvOf g then setV g false lane r (BitVec.ofNat 32 x) else g
  match dst with
  | .nothing => g
  | .pred k => setK g lane k (v % 2 == 1)
  | .vec r n => if n = 1 then put g r v else put (put g r v) (r + 1) (v / 2 ^ 32)

/-- An instruction that changes each lane's frames (R279, R323): moved lanes walk on, others pass it or divert. -/
def moveGroup (s : State) (gh : Nat) (c : Ctl) (lanes : List Nat) (mv : Here → Move) : State :=
  match mfind s.groups gh with
  | none => s
  | some g =>
    let wasIn := !s.issue.priv && anyInside g lanes
    let moves := lanes.map fun i => (i, mv { st := s, gh := gh, g := g, lane := i })
    let s1 := setGroup s gh (endLive c lanes g)
    let r := moves.foldl (fun (acc : State × List (Nat × Nat)) q =>
      match q.2 with
      | .error _ => acc
      | .ok none =>
        let w := passInstr acc.1 gh q.1 s.issue.len s.issue.priv
        (w.1, acc.2 ++ w.2)
      | .ok (some (wr, l, log)) =>
        match mfind acc.1.groups gh with
        | none => acc
        | some g0 =>
          let w := walkLane (setGroup acc.1 gh (skipvWrite g0 q.1 wr.1 wr.2)) gh q.1 l log s.issue.priv
          (w.1, acc.2 ++ w.2)) (s1, [])
    let traps := moves.filterMap fun q => match q.2 with
      | .error t => some (q.1, t)
      | .ok _ => none
    let s2 := divertAll r.1 gh .nothing traps
    settleHolds (if s.issue.priv then s2 else afterMove s2 gh lanes wasIn r.2) gh

/-- Such an instruction in every group of the issue. -/
def runMove (c : Ctl) (mv : Here → Move) (s : State) : State :=
  yieldAfter (s.issue.parts.foldl (fun st p => moveGroup st p.1 c p.2 mv) (noteAll s)) c

/-- The frames of a lane popped n times, about to advance (R279). -/
def popTo (h : Here) (p : Program) (n : Nat) : (SavedDst × Nat) × Lane × WalkLog :=
  let now := cycOf h.st h.st.issue.core
  let r := popFrames h.st p now n (laneAt h.g h.lane) WalkLog.none
  ((.nothing, 0), { r.1 with pos := .advance h.st.issue.priv }, r.2)

/-- A move that reads node records: a record whose fill its home refuses raises EXTENT (R153, R278). -/
def readingRecords (i : Instr) (mv : Here → Move) (h : Here) : Move :=
  match recordBar h.st h.st.issue.core h.g h.lane i with
  | some (.trap t) => .error t
  | _ => mv h

/-- EXIT n (R279). -/
def exitMove (n : Nat) (h : Here) : Move :=
  match progOf h.st h.g with
  | none => .ok none
  | some p =>
    if n > frameFc h.st p (laneAt h.g h.lane).frames then .error (illop h.st) else .ok (some (popTo h p n))

/-- Frames above the (n + 1)-th LOOP frame among the top Fc (R279). -/
def aboveLoop (s : State) (p : Program) : List Frame → Nat → Nat → Option Nat
  | [], _, _ => none
  | f :: r, fc, n =>
    if fc = 0 then none
    else if nodeKind s p f.node = 3 then
      match n with
      | 0 => some 0
      | m + 1 => (aboveLoop s p r (fc - 1) m).map (· + 1)
    else (aboveLoop s p r (fc - 1) n).map (· + 1)

/-- NEXT n (R279). -/
def nextMove (n : Nat) (h : Here) : Move :=
  match progOf h.st h.g with
  | none => .ok none
  | some p =>
    let fs := (laneAt h.g h.lane).frames
    match aboveLoop h.st p fs (frameFc h.st p fs) n with
    | none => .error (illop h.st)
    | some k => .ok (some (popTo h p k))

/-- RET (R279). -/
def retMove (h : Here) : Move :=
  match progOf h.st h.g with
  | none => .ok none
  | some p =>
    let fs := (laneAt h.g h.lane).frames
    let fc := frameFc h.st p fs
    match fs.drop fc with
    | f :: _ => if f.node = 0xFFFF then .error (illop h.st) else .ok (some (popTo h p fc))
    | [] => .ok (some (popTo h p fc))

/-- The value SKIPV supplies: 32 bits, or 64 where the saved destination has two or more registers (R323). -/
def skipvVal (h : Here) (dst : SavedDst) (a : Src) : Except Trap Nat :=
  match dst with
  | .vec _ n =>
    if n ≥ 2 then
      (if !srcOk 2 a || !srcIn h.g 2 (some a) then .error (illop h.st) else rdD h a)
    else rdN h a
  | _ => rdN h a

/-- TRET in a lane whose guard is true (R233, R323). -/
def tretMove (l : Layout) (act n : Nat) (a : Option Src) (h : Here) : Move :=
  if !guardOn h.g h.lane l.head then .ok none
  else if !partOk h.g l then .error (illop h.st)
  else
    let ln := laneAt h.g h.lane
    match ln.saved, progOf h.st h.g with
    | some sv, some p =>
      if act = 3 ∧ n > frameFc h.st p sv.frames then .error (illop h.st)
      else
        let val : Except Trap Nat := match act, a with
          | 2, some x => skipvVal h sv.dst x
          | _, _ => .ok 0
        match val with
        | .error t => .error t
        | .ok v =>
          let now := cycOf h.st h.st.issue.core
          let out := popFrames h.st p now (ln.frames.length - sv.frames.length) ln WalkLog.none
          let back := leaveHandler ln sv
          let log := { out.2 with tret := true }
          let priv := h.st.issue.priv
          match act with
          | 0 => .ok (some ((.nothing, 0), back, log))
          | 1 => .ok (some ((.nothing, 0), { back with pos := skipPos h.st p sv priv }, log))
          | 2 => .ok (some ((sv.dst, v), { back with pos := skipPos h.st p sv priv }, log))
          | _ =>
            let r := popFrames h.st p now n back log
            .ok (some ((.nothing, 0), { r.1 with pos := .advance priv }, r.2))
    | _, _ => .error (illop h.st)

/-- NOP (R319). -/
def execNop (c : Ctl) (s : State) : Host.Outcome State Fault Refusal :=
  checked (.nop c) s fun l => runLanes l (fun _ => .ok 0) (fun g _ => g)

/-- EXIT (R320). -/
def execExit (c : Ctl) (n : BitVec 8) (s : State) : Host.Outcome State Fault Refusal :=
  checked (.exit c n) s fun _ => runMove c (readingRecords (.exit c n) (exitMove n.toNat))

/-- NEXT (R320). -/
def execNext (c : Ctl) (n : BitVec 8) (s : State) : Host.Outcome State Fault Refusal :=
  checked (.next c n) s fun _ => runMove c (readingRecords (.next c n) (nextMove n.toNat))

/-- RET (R320). -/
def execRet (c : Ctl) (s : State) : Host.Outcome State Fault Refusal :=
  checked (.ret c) s fun _ => runMove c (readingRecords (.ret c) retMove)

/-- TRAP (R321). -/
def execTrap (c : Ctl) (imm : BitVec 16) (s : State) : Host.Outcome State Fault Refusal :=
  checked (.trap c imm) s fun _ s => trapAll s c .nothing (swtrap s imm.toNat)

/-- TRET (R322, R323). -/
def execTret (h : Head) (act : BitVec 2) (n : BitVec 8) (a : Option Src) (s : State) :
    Host.Outcome State Fault Refusal :=
  checked (.tret h act n a) s fun l => runMove h.ctl fun x =>
    if guardOn x.g x.lane l.head then readingRecords (.tret h act n a) (tretMove l act.toNat n.toNat a) x
    else tretMove l act.toNat n.toNat a x

/-- YIELD (R324). -/
def execYield (c : Ctl) (s : State) : Host.Outcome State Fault Refusal :=
  checked (.yield c) s fun l s =>
    let s1 := runOnce l (fun h _ => .ok h.st) s
    if yieldBit c then s1 else s.issue.parts.foldl (fun st p => askTurn st p.1) s1

/-- A group halts at the end of the cycle (R237, R325). -/
def askHalt (s : State) (gh : Nat) : State := onGroup s gh fun g => { g with halting := true }

/-- HALT (R325): the record of TYPE 6, and the group halts at the first cycle boundary, past the instruction. -/
def execHalt (c : Ctl) (code : BitVec 16) (s : State) : Host.Outcome State Fault Refusal :=
  checked (.halt c code) s fun l s =>
    let s1 := runOnce l (fun h _ =>
      let unit := layerOfCore h.st.issue.core
      .ok (traceRecord h.st unit 6 unit (toBytes 2 h.gh ++ toBytes 2 code.toNat ++ List.replicate 12 0))) s
    s.issue.parts.foldl (fun st p => askHalt st p.1) s1

/-- ICMP (R327). -/
def execIcmp (h : Head) (cmb : BitVec 2) (cc : BitVec 3) (ty : Fmt) (a b : Src) (s : State) :
    Host.Outcome State Fault Refusal :=
  toPred (.icmp h cmb cc ty a b) s fun x => do
    let va ← rdInt x ty a
    let vb ← rdInt x ty b
    .ok (flag (combine cmb.toNat (predAt x.g x.lane h.dreg.toNat) (intCmp cc.toNat va vb)))

/-- FCMP (R327). -/
def execFcmp (h : Head) (cmb : BitVec 2) (cc : BitVec 3) (ty : Fmt) (a b : Src) (s : State) :
    Host.Outcome State Fault Refusal :=
  toPred (.fcmp h cmb cc ty a b) s fun x => do
    let va ← rdBits x ty a
    let vb ← rdBits x ty b
    .ok (flag (combine cmb.toNat (predAt x.g x.lane h.dreg.toNat) (fCmp ty cc.toNat va vb)))

/-- PLOG (R328). -/
def execPlog (h : Head) (pb pa lut : BitVec 4) (s : State) : Host.Outcome State Fault Refusal :=
  toPred (.plog h pb pa lut) s fun x =>
    .ok (bits lut.toNat (2 * flag (predAt x.g x.lane pa.toNat) + flag (predAt x.g x.lane pb.toNat)) 1)

/-- All sixteen predicates of a lane (R329). -/
def setPreds (g : Group) (p : Nat × Nat) : Group := { g with preds := sset 0 g.preds p.1 (BitVec.ofNat 16 p.2) }

/-- PMOV (R329). -/
def execPmov (h : Head) (all : Bool) (bit : BitVec 5) (a : Src) (s : State) : Host.Outcome State Fault Refusal :=
  checked (.pmov h all bit a) s fun l => runLanes l
    (fun x => do
      let v ← rdN x a
      .ok (if all then v else bits v bit.toNat 1))
    (fun g vals => if h.nw then g else if all then vals.foldl setPreds g else putPreds g h vals)

/-- PRD (R329). -/
def execPrd (h : Head) (s : State) : Host.Outcome State Fault Refusal :=
  toRegs (.prd h) s fun x => .ok (sget 0 x.g.preds x.lane).toNat

/-- SEL (R330). -/
def execSel (h : Head) (pn : Bool) (ps : BitVec 4) (ty : Fmt) (a b : Src) (s : State) :
    Host.Outcome State Fault Refusal :=
  toRegs (.sel h pn ps ty a b) s fun x => do
    let va ← rd x ty a
    let vb ← rd x ty b
    .ok (if predAt x.g x.lane ps.toNat != pn then va else vb)

/-- The lanes of a group's issue whose guard is true. -/
def participants (x : Here) (h : Head) : List Nat :=
  match x.st.issue.parts.find? fun p => p.1 == x.gh with
  | some p => p.2.filter fun i => guardOn x.g i h
  | none => []

/-- PMASK (R331). -/
def execPmask (h : Head) (s : State) : Host.Outcome State Fault Refusal :=
  toRegs (.pmask h) s fun x => .ok ((participants x h).foldl (fun m i => m + 2 ^ slotLane x.g i) 0)

end Sys2Proof.Machine
end

