-- ==== Sys2Proof/Machine/Faults.lean ====
section
/-! DEFINITION. Steps of the core that no instruction makes: holds, starvation, fills, uncorrectable and corrected errors, and
encodings that name no instruction (07 R166, R170, R183; 10 R235; 12 R278; 13 R307, R313). -/

namespace Sys2Proof.Machine

/-- HOLD_TIMEOUT (R170): a lane held for 1 024 cycles is released. -/
def execHoldTimeout (gh lane : Nat) (s : State) : Host.Outcome State Fault Refusal :=
  match mfind s.groups gh with
  | none => .next s
  | some g => match (laneAt g lane).held, coreOf g with
    | some h, some c =>
      if h.since + 1024 ≤ cycOf s c then .next (setGroup s gh (setLane g lane { laneAt g lane with held := none }))
      else .next s
    | _, _ => .next s

/-- Mark the ready lanes of a slot that have issued nothing for 256 cycles. -/
def markStarved (now : Nat) (s : State) (c : Cand) : State :=
  if now < c.last + 256 then s
  else match mfind s.groups c.gh with
    | none => s
    | some g => setGroup s c.gh (setLane g c.lane { laneAt g c.lane with starved := true })

/-- STARVATION_LIMIT (R166). -/
def execStarvationLimit (core slot : Nat) (s : State) : Host.Outcome State Fault Refusal :=
  .next ((slotCands s core slot).foldl (markStarved (cycOf s core)) s)

/-- Lines of an instruction cache (log 35). -/
def icacheLines : Nat := 1024

/-- A cache that holds n entries takes one more, its oldest going out. -/
def fill (n : Nat) (l : List Nat) (x : Nat) : List Nat :=
  if l.contains x then l else (l ++ [x]).drop (l.length + 1 - n)

/-- A fill waits while the core's layer relocks, or the one whose memory it reads (R22). -/
def fillStalls (s : State) (core pa : Nat) : Bool :=
  (layerAt s (layerOfCore core)).clock.relock.isSome || homeStalls s pa

/-- ICACHE_FILL (R22, R166): the line of a physical address. -/
def execIcacheFill (core pa : Nat) (s : State) : Host.Outcome State Fault Refusal :=
  if core ≥ 256 || fillStalls s core pa then .next s
  else .next (setCore s core { coreAt s core with icache := fill icacheLines (coreAt s core).icache (pa / 64) })

/-- Continue the walks of a core's groups (R278). -/
def resumeCore (s : State) (core : Nat) : State :=
  (s.groups.filter fun p => coreOf p.2 == some core).foldl (fun st p => settleHolds (resumeWalks st p.1) p.1) s

/-- NODE_RECORD_FILL (R22, R278): the record at a physical address enters the core's 128 records, and its line the instruction
cache that it is filled through. -/
def execNodeRecordFill (core pa : Nat) (s : State) : Host.Outcome State Fault Refusal :=
  let c := coreAt s core
  if core ≥ 256 || fillStalls s core pa then .next s
  else .next (resumeCore (setCore s core
    { c with nodes := fill 128 c.nodes pa, icache := fill icacheLines c.icache (pa / 64) }) core)

/-- The lowest live lane of a group, which its group records name. -/
def recordLane (g : Group) : Nat := ((upFrom g.lanes.length 0).find? fun i => liveLane (laneAt g i)).getD 0

/-- A kill of a whole group with a code (R183, R228, R234). -/
def killWhole (s : State) (gh code : Nat) : State :=
  match mfind s.groups gh with
  | none => s
  | some g =>
    let l := laneAt g (recordLane g)
    let off := match l.pos with | .leaf _ o => o | _ => 0
    killGroup s gh (recordLane g) l.frames off false code { code := code, addr1 := 0, addr2 := none, info := 0 }

/-- The ROLLBACK record (R228). -/
def rollbackRecord (s : State) (gh : Nat) : State :=
  match mfind s.groups gh with
  | none => s
  | some g =>
    let l := laneAt g (recordLane g)
    let off := match l.pos with | .leaf _ o => o | _ => 0
    errorRecord s (layerRing g) (trapRecord s gh g (recordLane g) l.frames off false 0 0x30
      { code := 0x30, addr1 := 0, addr2 := none, info := 0 })

/-- An uncorrectable error in a group's core (R183): rollback to its checkpoint where its shadow is intact, after which the arrays
fetch for what now stands next (R384), or a kill. -/
def hitGroup (s : State) (gh : Nat) (intact : Bool) : State :=
  match mfind s.groups gh with
  | none => s
  | some g =>
    if (coreOf g).isNone || !(g.lanes.any liveLane) then s
    else match g.ck, intact with
      | some c, true =>
        let s1 := rollback s gh g c
        rollbackRecord (s1.cores.foldl (fun st p => fetchNext st p.1) s1) gh
      | _, _ => killWhole s gh 0x20

/-- UNCORRECTABLE_ERROR (R235): in a group's core, in device memory, or in the spill image of a gang. -/
def execUncorrectableError (loc : ErrorAt) (s : State) : Host.Outcome State Fault Refusal :=
  match loc with
  | .group gh intact => .next (wake (hitGroup s gh intact))
  | .line pa => if isMemory (region s pa) then .next { s with poison := sset false s.poison (pa / 64) true } else .next s
  | .spill gh => match mfind s.groups gh with
    | none => .next s
    | some g =>
      if g.place = .spilled then .next ((gangOf s g).foldl (fun st p => killWhole st p.1 0x20) s) else .next s

/-- UNASSIGNED_ENCODING (R307, R313, R323): ILLOP in every lane at the path, with nothing performed; a SKIPV writes the
destination of an F8 or F12. -/
def execUnassignedEncoding (w0 : Word) (s : State) : Host.Outcome State Fault Refusal :=
  .next (trapAll s (ctlOfWord w0.toNat) (destOfBytes s.issue.len s.issue.bytes) (illop s))

/-- SINGLE_BIT_SOFT_ERROR (R235): corrected and counted. -/
def execSingleBitSoftError (s : State) : Host.Outcome State Fault Refusal :=
  .next { s with pkg := { s.pkg with correctable := s.pkg.correctable + 1 } }

end Sys2Proof.Machine
end

