-- ==== Sys2Proof/Machine/Debug.lean ====
section
/-! DEFINITION. Debug halts, the hang watchdog, sampling and the trace set-up (10 R236 to R245). -/

namespace Sys2Proof.Machine

/-- The groups a debug command names (R237). -/
def debugGroups (s : State) : DebugTarget → List Nat
  | .group gh => [gh]
  | .launch id => (s.groups.filter fun p => p.2.owner == .launch id).map (·.1)

/-- An endpoint lies in a group. -/
def endpointHas (gh e : Nat) : Bool :=
  match endpointOf e with
  | .spad g _ => g == gh
  | .regs g _ _ _ => g == gh
  | _ => false

/-- The loads and atomics of a group still in scratchpad banks, by ticket and lane (R175, R238). -/
def bankLoads (s : State) (gh : Nat) : List (Nat × Nat) :=
  let reads := fun (r : BankReq) => r.gh == gh && match r.op with
    | .load | .atom .. | .slrd | .swadd _ => true
    | _ => false
  let l := s.cores.flatMap fun c => (c.2.banks.flatMap fun b => b.2.flatten) ++ c.2.port.flatten
  ((l.filter reads).map fun r => (r.ticket, r.lane)).eraseDups

/-- A Shucker command that has begun, with an endpoint in a group (R238, R239). -/
def begunIn (gh : Nat) (x : Packet) : Bool :=
  x.phase = .running && isCmd x && x.cmd.resolved && (endpointFields x.body.toNat).any (endpointHas gh)

/-- OUTST (R238). -/
def outst (s : State) (gh : Nat) (g : Group) : Nat :=
  (g.pend.filter fun a => a.op != .store).length + (bankLoads s gh).length
    + s.cores.foldl (fun n c => n + (c.2.mq.filter fun e => e.gh == gh).length) 0
    + (s.packets.filter fun p => begunIn gh p.2).length
    + (s.flying.filter fun f => f.gh == gh).length

/-- PENDTRAP (R238), by the lanes of the slot. -/
def pendTraps (g : Group) : Nat :=
  (upFrom g.lanes.length 0).foldl (fun n i => n + flag (!(laneAt g i).pendTrap.isEmpty) * 2 ^ slotLane g i) 0

/-- Take a HALT for one group (R237, R238): a resident group halts at the next cycle boundary, and the answer comes then;
otherwise the answer comes at once, and its HTIME is not stated. -/
def haltOne (s : State) (gh : Nat) : State :=
  let free := (Config.freeValue s.free).toNat
  match mfind s.groups gh with
  | none => emit { s with free := s.free + 1 } (.halt gh 1 0 0 free)
  | some g =>
    if (coreOf g).isSome then setGroup s gh { g with halting := true }
    else emit { setGroup s gh { g with halted := true } with free := s.free + 1 } (.halt gh 2 (outst s gh g) (pendTraps g) free)

/-- A HALT takes effect at a cycle boundary (R236 to R238, R325): the traps of the cycle are in PENDTRAP. -/
def takeHalt (s : State) (gh : Nat) : State :=
  match mfind s.groups gh with
  | none => s
  | some g =>
    if g.halting then
      emit (setGroup s gh { g with halted := true, halting := false })
        (.halt gh 0 (outst s gh g) (pendTraps g) s.time.now.toNat)
    else s

/-- The traps that a group's lanes have pending are taken, unless it is halted (R236). -/
def takeTraps (s : State) (gh : Nat) : State :=
  match mfind s.groups gh with
  | none => s
  | some g => if g.halted then s else takePending s gh

/-- The records of the copy faults that a group waits on (R236), after the diversions of the cycle. -/
def takeAttribs (s : State) (gh : Nat) : State :=
  match mfind s.groups gh with
  | none => s
  | some g => g.attribs.foldl (fun st a => attributeLane st gh a) (setGroup s gh { g with attribs := [] })

/-- The turn that a group passes, after the diversions and records of the cycle (R110, R236). -/
def takeYield (s : State) (gh : Nat) : State :=
  match mfind s.groups gh with
  | none => s
  | some g => if g.yielding then passTurn (setGroup s gh { g with yielding := false }) gh else s

/-- CSRs written in a cycle hold their new values from its end on (R406). -/
def takeCsrs (s : State) (gh : Nat) : State :=
  match mfind s.groups gh with
  | none => s
  | some g =>
    if g.csrNext.isEmpty then s
    else setGroup s gh (g.csrNext.foldl (fun g p => writeCsr g p.1 p.2.toNat) { g with csrNext := [] })

/-- The end of a cycle for one group, in the order of R236: halt, diversions, copy-fault attribution, and the passing of its
turn. -/
def endCycle (s : State) (gh : Nat) : State :=
  takeCsrs (takeYield (takeAttribs (takeTraps (takeHalt s gh) gh) gh) gh) gh

/-- DEBUG_HALT (R237, R238). -/
def execDebugHalt (t : DebugTarget) (s : State) : Host.Outcome State Fault Refusal :=
  .next ((debugGroups s t).foldl haltOne s)

/-- Resume one group (R236, R239): the diversions its halt has held are taken. -/
def resumeOne (s : State) (gh : Nat) : State :=
  match mfind s.groups gh with
  | none => s
  | some g =>
    let s1 := setGroup s gh { g with halted := false, halting := false, drained := false, drainWait := false }
    if (coreOf g).isSome then resumeWalks (takePending s1 gh) gh else s1

/-- DEBUG_RESUME (R239). -/
def execDebugResume (t : DebugTarget) (s : State) : Host.Outcome State Fault Refusal :=
  .next (wake ((debugGroups s t).foldl resumeOne s))

/-- Drain one group (R239). -/
def drainOne (s : State) (gh : Nat) : State :=
  match mfind s.groups gh with
  | none => s
  | some g => setGroup s gh { g with drained := true, drainWait := true }

/-- DEBUG_DRAIN (R239). -/
def execDebugDrain (t : DebugTarget) (s : State) : Host.Outcome State Fault Refusal :=
  .next ((debugGroups s t).foldl drainOne s)

/-- DEBUG_DRAIN_DONE (R239): OUTST reads zero. -/
def execDebugDrainDone (gh : Nat) (s : State) : Host.Outcome State Fault Refusal :=
  match mfind s.groups gh with
  | none => .next s
  | some g =>
    if g.drainWait && outst s gh g == 0 then
      .next (emit (setGroup s gh { g with drainWait := false }) (.drained gh 0))
    else .next s

/-- A HANG event of a launch (R228, R240), as the record of a task. -/
def hangRecord (s : State) (l : Launch) : State :=
  let body := [0x31, 0, 0, 2] ++ toBytes 2 l.func ++ toBytes 4 0 ++ [Config.freeByte s.free, 0] ++ toBytes 4 l.queue
    ++ List.replicate 112 0
  traceRecord { s with free := s.free + 1 } (sliceUnit l.queue) 2 (l.queue % 16) (List.replicate 16 0 ++ body)

/-- HANG (R240): no issue for HANGT, once for each period that passes; suspended while a group is halted. -/
def execHang (id : Nat) (s : State) : Host.Outcome State Fault Refusal :=
  match mfind s.launches id with
  | none => .next s
  | some l =>
    if s.groups.any fun p => p.2.owner == .launch id && p.2.halted then .next s
    else if (l.hangs + 1) * l.hangt * 65536000 ≤ elapsed s l.lastIssue then
      .next (hangRecord { s with launches := mput s.launches id { l with hangs := l.hangs + 1 } } l)
    else .next s

/-- SET_HANGT (R240): from 1 ms to 60 s. -/
def execSetHangt (id microseconds : Nat) (s : State) : Host.Outcome State Fault Refusal :=
  match mfind s.launches id with
  | none => .next s
  | some l =>
    if 1000 ≤ microseconds ∧ microseconds ≤ 60000000 then
      .next { s with launches := mput s.launches id { l with hangt := microseconds } }
    else .next s

/-- The path a group would issue at (R166). -/
def groupChoice (s : State) (core gh : Nat) (g : Group) : Option Cand :=
  choose (cycOf s core) ((upFrom g.lanes.length 0).filterMap (candOf s core gh { g with turn := true }))

/-- A path's instruction is not in the instruction cache (R166). -/
def pathMisses (s : State) (core : Nat) (g : Group) (x : Cand) : Bool :=
  match progOf s g with
  | none => false
  | some p =>
    let a := instrVa s p x.node x.off
    match fetchAt s p (coreAt s core) a with
    | .word _ len _ => !fetchHit p (coreAt s core) a len
    | _ => false

/-- The status of a group in a sample (R241, R242): HALTED and ISSUE come first, also where its last lane exited in the
cycle. -/
def sampleStatus (s : State) (core gh : Nat) (g : Group) : Nat :=
  let live := g.lanes.filter liveLane
  let wait := g.waits.any fun w => match w.what with
    | .slot _ | .sync _ | .spad _ | .word .. => true
    | _ => false
  if g.halted then 6
  else if g.issuedAt == some (cycOf s core) then 0
  else if live.isEmpty then 5
  else match groupChoice s core gh g with
    | some x => if pathMisses s core g x then 4 else 1
    | none => if wait then 3 else if live.any fun l => l.held.isSome then 2 else 1

/-- The path a sample reports, and the lanes at it (R241): the one that issued in the cycle, for FETCHWAIT and EXITED the last
one, otherwise the one the group would issue at. -/
def samplePath (s : State) (core gh : Nat) (g : Group) (status : Nat) : List Frame × Nat × Nat :=
  let at_ := fun (fs : List Frame) (o : Nat) =>
    (g.lanes.filter fun l => liveLane l && l.frames == fs && (match l.pos with | .leaf _ x => x == o | _ => false)).length
  if status = 0 then (g.lastPath, g.lastOff, g.lastCount)
  else if status = 4 ∨ status = 5 then (g.lastPath, g.lastOff, at_ g.lastPath g.lastOff)
  else match groupChoice s core gh g with
    | some c => (c.frames, c.off, at_ c.frames c.off)
    | none =>
      let l := laneAt g (recordLane g)
      let o := match l.pos with | .leaf _ x => x | _ => 0
      (l.frames, o, at_ l.frames o)

/-- The units of device time to the end of a core's cycle; none while its layer's clock stands (R22). -/
def unitsToEdge (s : State) (c : Nat) : Option Nat :=
  let l := layerAt s (layerOfCore c)
  if l.clock.relock.isSome || l.state = .off then none else some (ceilDiv (2621440 - l.phase) (14 + l.clock.code))

/-- The ends of the cycles that have ended since an earlier state. -/
def endCyclesOf (before s : State) : State :=
  before.groups.foldl (fun st p => match coreOf p.2 with
    | some c => if endsCycle p.2 && cycOf s c != cycOf before c then endCycle st p.1 else st
    | none => st) s

/-- Device time passes (log 4), from one end of a cycle at which something is due to the next. -/
def elapseTo : Nat → State → Nat → State
  | 0, s, n => endCyclesOf s (passTime s n)
  | k + 1, s, n =>
    let due := (s.groups.filter fun p => endsCycle p.2).filterMap fun p => (coreOf p.2).bind (unitsToEdge s)
    match leastBy (fun a b => decide (a < b)) due with
    | none => passTime s n
    | some m => if n < m then passTime s n else elapseTo k (endCyclesOf s (passTime s m)) (n - m)

/-- Device time passes, and cycles end (R236 to R238, R406): what is due at an end is done at once, and the layers' clocks bring no
more than eight such ends. -/
def elapse (s : State) (n : Nat) : State := elapseTo 16 s n

/-- The longest cycle of a layer, at 0.35 GHz, in units of device time (R21, R45). -/
def cycleUnits : Nat := 187246

/-- Without power nothing happens until PERST# is released (R25). -/
def mayHappen (s : State) : Instr → Bool
  | .perstRelease _ => true
  | _ => s.pkg.power

/-- After a step every wait that has become true is over (R195, R204, R205). -/
def settled : Host.Outcome State Fault Refusal → Host.Outcome State Fault Refusal
  | .next s => .next (wake s)
  | r => r

/-- The body of a SAMPLE record (R242). -/
def sampleBody (s : State) (core slot gh : Nat) (g : Group) : List Byte :=
  let st := sampleStatus s core gh g
  let p := samplePath s core gh g st
  toBytes 2 gh ++ toBytes 1 st ++ toBytes 1 p.2.2 ++ toBytes 2 (core + 256 * slot) ++ toBytes 2 (funcOf s g)
    ++ toBytes 2 p.2.1 ++ toBytes 1 p.1.length ++ List.replicate 5 0 ++ recordFrames p.1

/-- SAMPLE (R241, R242): P cycles after the last sample, the next resident group of the slot, in turn. -/
def execSample (core slot : Nat) (s : State) : Host.Outcome State Fault Refusal :=
  let c := coreAt s core
  let last := nthD 0 c.sampled slot
  let p := nthD 0 c.period slot
  if core ≥ 256 || slot ≥ 2 || p == 0 || decide (cycOf s core < nthD 0 c.sampledAt slot + p) then .next s
  else match leastBy (fun (a b : Nat × Group) => (posOf a.2 + 7 - last) % 8 < (posOf b.2 + 7 - last) % 8)
      (slotGroups s core slot) with
    | none => .next s
    | some q =>
      let s1 := setCore s core
        { c with sampled := setNth c.sampled slot (posOf q.2), sampledAt := setNth c.sampledAt slot (cycOf s core) }
      let unit := layerOfCore core
      .next (traceRecord s1 unit 5 unit (sampleBody s core slot q.1 q.2))

/-- SET_SAMPLE_PERIOD (R241): P from 256 to 2^20 cycles, counted from here. -/
def execSetSamplePeriod (core slot period : Nat) (s : State) : Host.Outcome State Fault Refusal :=
  let c := coreAt s core
  if core < 256 ∧ slot < 2 ∧ 256 ≤ period ∧ period ≤ 2 ^ 20 then
    .next (setCore s core
      { c with period := setNth c.period slot period, sampledAt := setNth c.sampledAt slot (cycOf s core) })
  else .next s

/-- SET_TRACE_RING (R244): a size that is a power of two from 64 KiB to 1 GiB. -/
def execSetTraceRing (unit base size : Nat) (s : State) : Host.Outcome State Fault Refusal :=
  if unit < 24 ∧ (upFrom 15 16).any (fun k => size == 2 ^ k) then
    .next { s with rings := sset Ring.reset s.rings unit { sget Ring.reset s.rings unit with base := base, size := size } }
  else .next s

/-- SET_LANE_CYCLE_RANGE (R243). -/
def execSetLaneCycleRange (core i : Nat) (base lim : DWord) (s : State) : Host.Outcome State Fault Refusal :=
  if core < 256 ∧ i < 16 then
    .next (setCore s core { coreAt s core with lcRanges := mput (coreAt s core).lcRanges i (base, lim) })
  else .next s

end Sys2Proof.Machine
end

