-- ==== Sys2Proof/Machine/Exchange.lean ====
section
/-! DEFINITION. Lane exchange and group reductions (15 R352 to R359). -/

namespace Sys2Proof.Machine

/-- The values of a group's participating lanes, by group position. -/
abbrev Parts := List (Nat × Nat)

/-- The value of a participating lane. -/
def partVal (ps : Parts) (i : Nat) : Option Nat := (ps.find? fun p => p.1 == i).map (·.2)

/-- The participating lanes of a segment. -/
def segParts (ps : Parts) (g n : Nat) : Parts := ps.filter fun p => g ≤ p.1 && p.1 < g + n

/-- One value of each list, or the first error. -/
def collect {α : Type} : List (Nat × Except Trap α) → Except Trap (List (Nat × α))
  | [] => .ok []
  | (i, e) :: r => match e with
    | .error t => .error t
    | .ok v => match collect r with
      | .error t => .error t
      | .ok l => .ok ((i, v) :: l)

/-- An exchange in one group (R352, R359): `f` gives a lane's value from its own two operands and the A operands of the lanes
that participate; a trap condition in one of them is raised in all. -/
def exchGroup (l : Layout) (seg : Nat) (rdA rdB : Here → Except Trap Nat) (f : Group → Parts → Nat → Nat → Nat)
    (st : State) (p : Nat × List Nat) : State :=
  match mfind st.groups p.1 with
  | none => st
  | some g =>
    if 2 ^ seg > g.width then endGroup st p.1 l.head.ctl (savedDst l) p.2 (p.2.map fun i => (i, illop st))
    else
      let who := p.2.filter fun i => guardOn g i l.head
      let fail := fun t => endGroup st p.1 l.head.ctl (savedDst l) p.2 (who.map fun i => (i, t))
      if who.isEmpty then endGroup st p.1 l.head.ctl (savedDst l) p.2 []
      else if !partOk g l then fail (illop st)
      else
        let at_ := fun i => { st := st, gh := p.1, g := g, lane := i : Here }
        match collect (who.map fun i => (i, rdA (at_ i))), collect (who.map fun i => (i, rdB (at_ i))) with
        | .ok as_, .ok bs =>
          let vals := (List.zip as_ bs).map fun q => (q.1.1, f g as_ q.1.1 q.2.2)
          let n := match l.dest with | .vec n => n | _ => 1
          endGroup (setGroup st p.1 (putResults g l.head n l.latch vals)) p.1 l.head.ctl (savedDst l) p.2 []
        | .error t, _ => fail t
        | _, .error t => fail t

/-- An exchange instruction in every group of the issue. -/
def runExch (i : Instr) (seg : BitVec 3) (rdA rdB : Here → Except Trap Nat) (f : Group → Parts → Nat → Nat → Nat)
    (s : State) : Host.Outcome State Fault Refusal :=
  checked i s fun l s =>
    yieldAfter (s.issue.parts.foldl (exchGroup l seg.toNat rdA rdB f) (noteAll s)) l.head.ctl

/-- The segment base and position of a lane (R353). -/
def segBase (seg i : Nat) : Nat := i / 2 ^ seg * 2 ^ seg
def segPos (seg i : Nat) : Nat := i % 2 ^ seg

/-- A shuffle from a source lane, its own value where the source does not participate (R355). -/
def shuffleVal (ps : Parts) (i : Nat) (src : Option Nat) : Nat :=
  let own := (partVal ps i).getD 0
  match src with
  | none => own
  | some j => (partVal ps j).getD own

/-- A shuffle instruction: `f` gives the source lane from segment size, base, position and B (R355). -/
def runShuffle (i : Instr) (seg : BitVec 3) (ty : Fmt) (a b : Src) (f : Nat → Nat → Nat → Nat → Option Nat) (s : State) :
    Host.Outcome State Fault Refusal :=
  runExch i seg (fun x => rd x ty a) (fun x => rdN x b)
    (fun _ ps k vb => shuffleVal ps k (f (2 ^ seg.toNat) (segBase seg.toNat k) (segPos seg.toNat k) vb)) s

/-- The identity of an integer reduction (R357). -/
def redIdent (t : Fmt) (opr : Nat) : Nat :=
  match opr with
  | 1 => intBits t (intMax t)
  | 2 => intBits t (intMin t)
  | 3 => 2 ^ fmtBits t - 1
  | _ => 0

/-- One combination of an integer reduction (R357): 0 ADD, 1 MIN, 2 MAX, 3 AND, 4 OR, 5 XOR. -/
def redOp (t : Fmt) (opr x y : Nat) : Nat :=
  match opr with
  | 0 => (x + y) % 2 ^ fmtBits t
  | 1 => if intOf t x < intOf t y then x else y
  | 2 => if intOf t x > intOf t y then x else y
  | 3 => Nat.land x y
  | 4 => Nat.lor x y
  | _ => Nat.xor x y

/-- An integer combination over lanes (R357). -/
def redAll (t : Fmt) (opr : Nat) (l : Parts) : Nat := l.foldl (fun v p => redOp t opr v p.2) (redIdent t opr)

/-- The inputs of a float sum by segment position (R358). -/
def sumInputs (ps : Parts) (g : Nat) (n : Nat) : List Nat :=
  (upFrom n 0).map fun q => match partVal ps (g + q) with
    | some v => if fpIsNaN .f32 v then genNaN .f32 1 1 else v
    | none => 0x80000000

/-- The pairwise tree of R358 over a power of two of inputs. -/
def sumTree : Nat → List Nat → Nat
  | 0, l => l.headD 0
  | n + 1, l => redComb (sumTree n (l.take (2 ^ n))) (sumTree n (l.drop (2 ^ n)))

/-- The fold from the left of R358. -/
def sumFold : List Nat → Nat
  | [] => 0
  | a :: r => r.foldl redComb a

/-- The least or greatest non-NaN element (R358). -/
def floatExt (greater : Bool) (l : Parts) : Nat :=
  let vals := (l.map (·.2)).filter fun v => !fpIsNaN .f32 v
  match l, vals with
  | [], _ => if greater then 0xFF800000 else 0x7F800000
  | _, [] => genNaN .f32 1 1
  | _, v :: r => r.foldl (fMinMax .f32 greater) v

/-- A lane whose operand B is not read. -/
def noB (_ : Here) : Except Trap Nat := .ok 0

/-- SHFL (R355). -/
def execShfl (h : Head) (seg : BitVec 3) (ty : Fmt) (a b : Src) (s : State) :
    Host.Outcome State Fault Refusal :=
  runShuffle (.shfl h seg ty a b) seg ty a b (fun n g _ v => some (g + v % n)) s

/-- SHFLUP (R355). -/
def execShflup (h : Head) (seg : BitVec 3) (ty : Fmt) (a b : Src) (s : State) :
    Host.Outcome State Fault Refusal :=
  runShuffle (.shflup h seg ty a b) seg ty a b (fun _ g q v => if v ≤ q then some (g + q - v) else none) s

/-- SHFLDN (R355). -/
def execShfldn (h : Head) (seg : BitVec 3) (ty : Fmt) (a b : Src) (s : State) :
    Host.Outcome State Fault Refusal :=
  runShuffle (.shfldn h seg ty a b) seg ty a b (fun n g q v => if q + v < n then some (g + q + v) else none) s

/-- SHFLX (R355). -/
def execShflx (h : Head) (seg : BitVec 3) (ty : Fmt) (a b : Src) (s : State) :
    Host.Outcome State Fault Refusal :=
  runShuffle (.shflx h seg ty a b) seg ty a b (fun n g q v => some (g + Nat.xor q (v % n))) s

/-- BCAST (R355): from the lowest participating lane of the segment. -/
def execBcast (h : Head) (seg : BitVec 3) (ty : Fmt) (a : Src) (s : State) :
    Host.Outcome State Fault Refusal :=
  runExch (.bcast h seg ty a) seg (fun x => rd x ty a) noB
    (fun _ ps k _ => match segParts ps (segBase seg.toNat k) (2 ^ seg.toNat) with
      | p :: _ => p.2
      | [] => 0) s

/-- VOTE (R356): 0 BALLOT, 1 ALL, 2 ANY, 3 EQ. -/
def execVote (h : Head) (opr seg : BitVec 3) (a : Src) (s : State) :
    Host.Outcome State Fault Refusal :=
  runExch (.vote h opr seg a) seg (fun x => rdN x a) noB
    (fun g ps k _ =>
      let l := segParts ps (segBase seg.toNat k) (2 ^ seg.toNat)
      let ones := fun b : Bool => if b then 2 ^ 64 - 1 else 0
      match opr.toNat with
      | 0 => l.foldl (fun m p => if p.2 ≠ 0 then m + 2 ^ slotLane g p.1 else m) 0
      | 1 => ones (l.all fun p => p.2 ≠ 0)
      | 2 => ones (l.any fun p => p.2 ≠ 0)
      | _ => ones (l.all fun p => l.all fun q => p.2 == q.2)) s

/-- REDI (R357). -/
def execRedi (h : Head) (opr seg : BitVec 3) (ty : Fmt) (a : Src) (s : State) :
    Host.Outcome State Fault Refusal :=
  runExch (.redi h opr seg ty a) seg (fun x => rd x ty a) noB
    (fun _ ps k _ => redAll ty opr.toNat (segParts ps (segBase seg.toNat k) (2 ^ seg.toNat))) s

/-- SCANI (R357): positions up to the lane's own, itself excluded under EXC. -/
def execScani (h : Head) (exc : Bool) (opr seg : BitVec 3) (ty : Fmt) (a : Src) (s : State) :
    Host.Outcome State Fault Refusal :=
  runExch (.scani h exc opr seg ty a) seg (fun x => rd x ty a) noB
    (fun _ ps k _ => redAll ty opr.toNat ((segParts ps (segBase seg.toNat k) (2 ^ seg.toNat)).filter fun p =>
      if exc then p.1 < k else p.1 ≤ k)) s

/-- REDF (R358). -/
def execRedf (h : Head) (opr seg : BitVec 3) (ty : Fmt) (a : Src) (s : State) :
    Host.Outcome State Fault Refusal :=
  runExch (.redf h opr seg ty a) seg (fun x => rdBits x ty a) noB
    (fun _ ps k _ =>
      let g := segBase seg.toNat k
      if opr = 0 then sumTree seg.toNat (sumInputs ps g (2 ^ seg.toNat))
      else floatExt (opr == 2) (segParts ps g (2 ^ seg.toNat))) s

/-- SCANF (R358). -/
def execScanf (h : Head) (exc : Bool) (opr seg : BitVec 3) (ty : Fmt) (a : Src) (s : State) :
    Host.Outcome State Fault Refusal :=
  runExch (.scanf h exc opr seg ty a) seg (fun x => rdBits x ty a) noB
    (fun _ ps k _ =>
      let g := segBase seg.toNat k
      let q := segPos seg.toNat k
      if opr = 0 then
        (if exc then (if q = 0 then 0 else sumFold (sumInputs ps g q)) else sumFold (sumInputs ps g (q + 1)))
      else floatExt (opr == 2) ((segParts ps g (2 ^ seg.toNat)).filter fun p => if exc then p.1 < k else p.1 ≤ k)) s

end Sys2Proof.Machine
end

