-- ==== Sys2Proof/Machine/Float.lean ====
section
/-! DEFINITION. Elementwise floating-point, conversion and dequantisation instructions (15 R337 to R348, R351). -/

namespace Sys2Proof.Machine

/-- A float instruction of two sources (R337, R338). -/
def flt2 (i : Instr) (t : Fmt) (a b : Src) (f : Nat → Nat → Nat) (s : State) : Host.Outcome State Fault Refusal :=
  toRegs i s fun x => do
    let va ← rdBits x t a
    let vb ← rdBits x t b
    .ok (f va vb)

/-- A float instruction of three sources. -/
def flt3 (i : Instr) (t : Fmt) (a b c : Src) (f : Nat → Nat → Nat → Nat) (s : State) :
    Host.Outcome State Fault Refusal :=
  toRegs i s fun x => do
    let va ← rdBits x t a
    let vb ← rdBits x t b
    let vc ← rdBits x t c
    .ok (f va vb vc)

/-- A float function of one source. -/
def flt1 (i : Instr) (t : Fmt) (a : Src) (f : Nat → Nat) (s : State) : Host.Outcome State Fault Refusal :=
  toRegs i s fun x => do
    let va ← rdBits x t a
    .ok (f va)

/-- A packed instruction computes each 16-bit element as the scalar one does (R343). -/
def pair2 (f : Nat → Nat → Nat) (a b : Nat) : Nat :=
  f (bits a 0 16) (bits b 0 16) + 65536 * f (bits a 16 16) (bits b 16 16)

/-- The same of three sources. -/
def pair3 (f : Nat → Nat → Nat → Nat) (a b c : Nat) : Nat :=
  f (bits a 0 16) (bits b 0 16) (bits c 0 16) + 65536 * f (bits a 16 16) (bits b 16 16) (bits c 16 16)

/-- A packed instruction of two 32-bit sources (R343). -/
def packed2 (i : Instr) (a b : Src) (f : Nat → Nat → Nat) (s : State) : Host.Outcome State Fault Refusal :=
  toRegs i s fun x => do
    let va ← rdN x a
    let vb ← rdN x b
    .ok (pair2 f va vb)

/-- FADD (R340). -/
def execFadd (h : Head) (ty : Fmt) (a b : Src) (s : State) :
    Host.Outcome State Fault Refusal :=
  flt2 (.fadd h ty a b) ty a b (fAdd ty) s

/-- FSUB (R340). -/
def execFsub (h : Head) (ty : Fmt) (a b : Src) (s : State) :
    Host.Outcome State Fault Refusal :=
  flt2 (.fsub h ty a b) ty a b (fSub ty) s

/-- FMUL (R340). -/
def execFmul (h : Head) (ty : Fmt) (a b : Src) (s : State) :
    Host.Outcome State Fault Refusal :=
  flt2 (.fmul h ty a b) ty a b (fMul ty) s

/-- FMIN (R341). -/
def execFmin (h : Head) (ty : Fmt) (a b : Src) (s : State) :
    Host.Outcome State Fault Refusal :=
  flt2 (.fmin h ty a b) ty a b (fMinMax ty false) s

/-- FMAX (R341). -/
def execFmax (h : Head) (ty : Fmt) (a b : Src) (s : State) :
    Host.Outcome State Fault Refusal :=
  flt2 (.fmax h ty a b) ty a b (fMinMax ty true) s

/-- FFMA (R340): one rounding. -/
def execFfma (h : Head) (ty : Fmt) (a b c : Src) (s : State) :
    Host.Outcome State Fault Refusal :=
  flt3 (.ffma h ty a b c) ty a b c (fFma ty) s

/-- FSGN (R342). -/
def execFsgn (h : Head) (mode : BitVec 2) (ty : Fmt) (a b : Src) (s : State) :
    Host.Outcome State Fault Refusal :=
  flt2 (.fsgn h mode ty a b) ty a b (fSgn ty mode.toNat) s

/-- HADD2 (R343). -/
def execHadd2 (h : Head) (ty : Fmt) (a b : Src) (s : State) :
    Host.Outcome State Fault Refusal :=
  packed2 (.hadd2 h ty a b) a b (fAdd ty) s

/-- HMUL2 (R343). -/
def execHmul2 (h : Head) (ty : Fmt) (a b : Src) (s : State) :
    Host.Outcome State Fault Refusal :=
  packed2 (.hmul2 h ty a b) a b (fMul ty) s

/-- HMIN2 (R343). -/
def execHmin2 (h : Head) (ty : Fmt) (a b : Src) (s : State) :
    Host.Outcome State Fault Refusal :=
  packed2 (.hmin2 h ty a b) a b (fMinMax ty false) s

/-- HMAX2 (R343). -/
def execHmax2 (h : Head) (ty : Fmt) (a b : Src) (s : State) :
    Host.Outcome State Fault Refusal :=
  packed2 (.hmax2 h ty a b) a b (fMinMax ty true) s

/-- HFMA2 (R343). -/
def execHfma2 (h : Head) (ty : Fmt) (a b c : Src) (s : State) :
    Host.Outcome State Fault Refusal :=
  toRegs (.hfma2 h ty a b c) s fun x => do
    let va ← rdN x a
    let vb ← rdN x b
    let vc ← rdN x c
    .ok (pair3 (fFma ty) va vb vc)

/-- FRCP (R344). -/
def execFrcp (h : Head) (ty : Fmt) (a : Src) (s : State) :
    Host.Outcome State Fault Refusal :=
  flt1 (.frcp h ty a) ty a fRcp s

/-- FRSQ (R344). -/
def execFrsq (h : Head) (ty : Fmt) (a : Src) (s : State) :
    Host.Outcome State Fault Refusal :=
  flt1 (.frsq h ty a) ty a fRsq s

/-- FEXP2 (R344). -/
def execFexp2 (h : Head) (ty : Fmt) (a : Src) (s : State) :
    Host.Outcome State Fault Refusal :=
  flt1 (.fexp2 h ty a) ty a fExp2 s

/-- FLOG2 (R344). -/
def execFlog2 (h : Head) (ty : Fmt) (a : Src) (s : State) :
    Host.Outcome State Fault Refusal :=
  flt1 (.flog2 h ty a) ty a fLog2 s

/-- FSQRT (R344). -/
def execFsqrt (h : Head) (ty : Fmt) (a : Src) (s : State) :
    Host.Outcome State Fault Refusal :=
  flt1 (.fsqrt h ty a) ty a fSqrt s

/-- FCLASS (R345). -/
def execFclass (h : Head) (ty : Fmt) (a : Src) (s : State) :
    Host.Outcome State Fault Refusal :=
  flt1 (.fclass h ty a) ty a (fClass ty) s

/-- FCVT (R346). -/
def execFcvt (h : Head) (sf ty : Fmt) (a : Src) (s : State) :
    Host.Outcome State Fault Refusal :=
  flt1 (.fcvt h sf ty a) sf a (fCvt ty sf) s

/-- ICVTF (R347). -/
def execIcvtf (h : Head) (sf ty : Fmt) (a : Src) (s : State) :
    Host.Outcome State Fault Refusal :=
  toRegs (.icvtf h sf ty a) s fun x => do
    let va ← rdInt x sf a
    .ok (iCvtF ty va)

/-- FCVTI (R348). -/
def execFcvti (h : Head) (sf ty : Fmt) (a : Src) (s : State) :
    Host.Outcome State Fault Refusal :=
  toRegs (.fcvti h sf ty a) s fun x => do
    let va ← rdBits x sf a
    .ok (intBits ty (fCvtI ty sf va))

/-- DQNT (R351). -/
def execDqnt (h : Head) (ty : Fmt) (a b : Src) (s : State) :
    Host.Outcome State Fault Refusal :=
  toRegs (.dqnt h ty a b) s fun x => do
    let va ← rdN x a
    let vb ← rdN x b
    .ok (dqnt ty (va % 2 ^ fmtBits ty) (vb % 256))

end Sys2Proof.Machine
end

