-- ==== Sys2Proof/Machine/Package.lean ====
section
/-! DEFINITION. The package: power, bring-up, partitions, layer roles, spares and frequencies (01 R13 to R29, R435; 03 R55, R64,
R65). -/

namespace Sys2Proof.Machine

/-- What survives a reset of the part: memory without its keys, what lies outside, and the model's own fields (log 36). -/
def afterReset (s : State) (keepMem : Bool) : State :=
  { State.reset with
    mem := if keepMem then s.mem else [], lines := if keepMem then s.lines else [],
    poison := if keepMem then s.poison else [],
    hostMem := s.hostMem, peerMem := s.peerMem, fresh := s.fresh, ticket := s.ticket, free := s.free,
    agenda := s.agenda, pkg := { Pkg.reset with out := s.pkg.out } }

/-- POWER_OFF (R25). -/
def execPowerOff (s : State) : Host.Outcome State Fault Refusal := .next (afterReset s false)

/-- PERST_ASSERT (R65). -/
def execPerstAssert (s : State) : Host.Outcome State Fault Refusal :=
  if s.pkg.power then .next (afterReset s true) else .next s

/-- The public key that must have signed stage k's signer key (R64): for the first, the root key itself is the signer. -/
def signerOk (above : Option BootImage) (x : BootImage) : Bool :=
  match above with
  | none => sha256 (toBytes 32 x.signer.toNat) == Config.rootKeyHash
  | some a => Config.slhVerify a.signer (toBytes 32 x.signer.toNat) x.signerSig

/-- A stage's image verifies (R64). -/
def imageOk (k : Nat) (above : Option BootImage) (x : BootImage) : Bool :=
  decide (Config.minVersion k ≤ x.version) && decide (x.mreg < 16) && signerOk above x
    && Config.slhVerify x.signer x.body x.sig

/-- Extend a measurement register (R65). -/
def extendMreg (p : Pkg) (x : BootImage) : Pkg :=
  let old := sget 0 p.mreg x.mreg
  let new := sha256 (toBytes 32 old.toNat ++ toBytes 32 (sha256 x.body).toNat)
  { p with mreg := sset 0 p.mreg x.mreg new, versions := p.versions ++ [x.version] }

/-- The chain of trust from stage k (R64, R65): each image is verified and measured before the next. -/
def bootChain : Nat → Option BootImage → List BootImage → Pkg → Pkg × Bool
  | _, _, [], p => (p, true)
  | k, above, x :: r, p => if imageOk k above x then bootChain (k + 1) (some x) r (extendMreg p x) else (p, false)

/-- The capacities of the four expanders, in whole 256 MiB (R55). -/
def expanderCaps (l : List (Option Nat)) : List Nat :=
  (upFrom 4 0).map fun i => match nthD none l i with
    | some n => n / 0x10000000 * 0x10000000
    | none => 0

/-- Map the second tier (R55). -/
def mapTier2 (p : Pkg) (l : List (Option Nat)) : Pkg :=
  let caps := expanderCaps l
  let sum := caps.foldl (· + ·) 0
  { p with seccap := BitVec.ofNat 64 (Nat.min sum (3072 * 2 ^ 30)),
           cxlCap := (List.zip (upFrom 4 0) caps).foldl (fun m q => sset 0 m q.1 q.2) [],
           cxlUp := (upFrom 4 0).foldl (fun m i => sset false m i (nthD none l i).isSome) [] }

/-- Fence a core (R27), until the next reset of the part: IDs stay as they are at a later partition (log 37). -/
def fenceCore (s : State) (c : Nat) : State := setCore s c { coreAt s c with fenced := true, failing := false }

/-- Test a Pod and assign its spare (R435). -/
def testPod (failed : List Nat) (s : State) (n pod : Nat) : State :=
  let bad := (upFrom 8 0).filter fun k => failed.contains (36 * n + 9 * pod + k)
  let core := fun k => 32 * n + 8 * pod + k
  let l := layerAt s n
  if failed.contains (36 * n + 9 * pod + 8) then
    bad.foldl (fun st k => fenceCore st (core k)) (setLayer s n { l with noSpare := sset false l.noSpare pod true })
  else match bad with
    | [] => s
    | _ :: r => r.foldl (fun st k => fenceCore st (core k))
        (setLayer s n { l with spareUsed := sset false l.spareUsed pod true })

/-- Test every Pod. -/
def testCores (s : State) (failed : List Nat) : State :=
  (upFrom 8 0).foldl (fun st n => (upFrom 4 0).foldl (fun st' pod => testPod failed st' n pod) st) s

/-- Compute layers, memory-only layers and the clock ceiling's code of a profile (R14). -/
def profileOf : Profile → Nat × Nat × Nat
  | .p8cx => (8, 0, 28)
  | .p8c => (8, 0, 20)
  | .p6c2m => (6, 2, 28)
  | .p4c4m => (4, 4, 28)

/-- The package cap of a profile, in milliwatts (R14). -/
def capOf : Profile → Nat
  | .p8cx => 2800000
  | .p8c => 2400000
  | .p6c2m => 2400000
  | .p4c4m => 1700000

/-- The cooling class permits the profile (R14, R15). -/
def coolingOk (enhanced : Bool) (p : Profile) : Bool :=
  let q := profileOf p
  enhanced || decide (q.1 ≤ (if q.2.2 ≤ 20 then 8 else 6))

/-- The roles fit the profile: fenced layers count against its memory-only layers first (R14). -/
def rolesOk (p : Profile) (roles : List Role) : Bool :=
  let q := profileOf p
  let n := fun r => roles.countP (· == r)
  let f := n .fenced
  roles.length == 8 && n .unassigned == 0 && decide (n .memory ≤ q.2.1 - Nat.min f q.2.1)
    && decide (n .compute ≤ q.1 - (f - q.2.1))

/-- The clock of an island. -/
def clockOf (s : State) : Island → Clock
  | .layer n => (layerAt s n).clock
  | .hull k => sget Clock.reset s.pkg.hull k

/-- Replace the clock of an island. -/
def setClock (s : State) (i : Island) (c : Clock) : State :=
  match i with
  | .layer n => setLayer s n { layerAt s n with clock := c }
  | .hull k => { s with pkg := { s.pkg with hull := sset Clock.reset s.pkg.hull k c } }

/-- An island that exists. -/
def islandOk : Island → Bool
  | .layer n => n < 8
  | .hull k => k < 8

/-- The ceiling of the current profile (R21). -/
def ceiling (s : State) : Nat := match s.pkg.profile with | some p => (profileOf p).2.2 | none => 0

/-- A frequency request is refused with BADFREQ (R22). -/
def badFreq (s : State) (i : Island) (c : Nat) : Bool :=
  decide (c > 28) || decide (c > ceiling s) || match i with
    | .layer n => (layerAt s n).role == .fenced || (layerAt s n).role == .unassigned
    | .hull _ => false

/-- A relock lasts 2 µs (R22). -/
def relockUnits : Nat := 2000 * 65536

/-- Begin a relock to a code (R22). -/
def startRelock (s : State) (k : Clock) (c : Nat) : Clock :=
  { k with code := c, relock := some ((s.time.now + BitVec.ofNat 64 relockUnits).toNat) }

/-- Ask an island for a code (R22, R23). -/
def askClock (s : State) (i : Island) (c : Nat) : State :=
  let k := clockOf s i
  if k.relock.isSome then
    if k.waiting.isNone && c == k.code then s else setClock s i { k with waiting := some c }
  else if c = k.code then s
  else setClock s i (startRelock s k c)

/-- The code an island runs at once its requests are served. -/
def nextCode (k : Clock) : Nat := k.waiting.getD k.code

/-- FREQ_REQUEST (R22, R23): a request for the code that the island will run at, with none waiting, has no effect. -/
def execFreqRequest (i : Island) (c : Nat) (s : State) : Host.Outcome State Fault Refusal :=
  let k := clockOf s i
  if !islandOk i || !s.pkg.power then .next s
  else if badFreq s i c then .next (emit s (.status 3))
  else if k.waiting.isNone && c == k.code then .next s
  else .next (askClock (setClock s i { k with target := c }) i c)

/-- Set a target frequency at bring-up (R22, R29): a refused one is logged. -/
def bringFreq (s : State) (p : Island × Nat) : State :=
  if !islandOk p.1 then s
  else if badFreq s p.1 p.2 then emit s (.status 3)
  else setClock s p.1 { clockOf s p.1 with code := p.2, target := p.2 }

/-- Give the layers their first roles (R13, R29). -/
def giveRoles (s : State) (roles : List Role) : State :=
  (List.zip (upFrom 8 0) roles).foldl (fun st q =>
    setLayer st q.1 { layerAt st q.1 with role := q.2, state := if q.2 = .fenced then .off else .active }) s

/-- The refusal of a profile that the cooling class does not permit (R14). -/
def thermal (s : State) : State := emit (emit s (.trap 0x44 2)) (.status 2)

/-- Steps 3 to 6 of bring-up (R29). -/
def bringUp (s : State) (b : BringUp) : State :=
  if !b.hbmTrained || !b.cxlTrained then s
  else
    let s1 := testCores { s with pkg := { mapTier2 s.pkg b.expanders with enhanced := b.enhanced } } b.failed
    if !coolingOk b.enhanced b.profile then thermal { s1 with layers := [] }
    else if !rolesOk b.profile b.roles then { s1 with layers := [] }
    else
      let s2 := giveRoles { s1 with pkg := { s1.pkg with profile := some b.profile } } b.roles
      let s3 := b.freqs.foldl bringFreq s2
      emit { s3 with pkg := { s3.pkg with rdy := true } } .ready

/-- PERST_RELEASE (R29, R47, R64, R65, R435): bring-up in table order, with BAR4 sized by the host. -/
def execPerstRelease (b : BringUp) (s : State) : Host.Outcome State Fault Refusal :=
  if s.pkg.power then .next s
  else
    let s0 := { s with pkg := { s.pkg with power := true, bar4 := Nat.min 5 b.bar4 } }
    let r := bootChain 0 none b.images s0.pkg
    let s1 := { s0 with pkg := r.1 }
    if r.2 && b.images.length == 3 then .next (bringUp s1 b) else .next s1

/-- A role change is in progress. -/
def changing (l : Layer) : Bool := l.state == .drain || l.state == .flush || l.state == .reenum

/-- A clock that runs, or will run, above a ceiling. -/
def above (top : Nat) (k : Clock) : Bool := decide (k.code > top) || decide (nextCode k > top) || decide (k.target > top)

/-- APPLY_PARTITION (R14, R16, R21): refused with THERMAL, where it exceeds the profile, or whole with BUSY while any layer
changes (log 37). The profile is current from here on, before its role changes are made, and stays so where one fails
(log 37). -/
def execApplyPartition (p : Profile) (roles : List Role) (s : State) : Host.Outcome State Fault Refusal :=
  let top := (profileOf p).2.2
  let tooFast := (upFrom 8 0).any fun n => above top (layerAt s n).clock || above top (sget Clock.reset s.pkg.hull n)
  if !s.pkg.rdy then .next s
  else if !coolingOk s.pkg.enhanced p then .next (thermal s)
  else if !rolesOk p roles || tooFast then .next s
  else if (upFrom 8 0).any fun n => changing (layerAt s n) then .next (emit s (.status 1))
  else
    let plan := (List.zip (upFrom 8 0) roles).filter fun q => (layerAt s q.1).role ≠ q.2
    .next { s with pkg := { s.pkg with profile := some p, plan := plan } }

/-- ROLE_CHANGE_REQUEST (R13, R16): one layer at a time, as the partition asks. A layer that leaves the fenced role shows
STATE 1 to 3 with ROLE 10 meanwhile (log 37). -/
def execRoleChangeRequest (n : Nat) (role : Role) (s : State) : Host.Outcome State Fault Refusal :=
  let l := layerAt s n
  if changing l then .next (emit s (.status 1))
  else if !(s.pkg.plan.any fun q => q.1 == n && q.2 == role) || (upFrom 8 0).any (fun k => changing (layerAt s k)) then
    .next s
  else .next (setLayer s n { l with state := .drain, newRole := some role, since := s.time.now.toNat })

/-- Send a layer-role-change event to every context (R16, R17). -/
def tellRole (s : State) (n : Nat) (failed : Bool) : State :=
  s.contexts.foldl (fun st p => emit st (.roleChange p.1 n failed)) s

/-- The moves of a FLUSH until one finds no capacity (R16, R17). -/
def flushMoves : List PageMove → State → State × Bool
  | [], s => (s, true)
  | m :: r, s => match m.frame with
    | none => (s, false)
    | some f => flushMoves r (migrate s m.leaf m.big f)

/-- The first address of a layer's window (R136). -/
def windowOf (n : Nat) : Nat := 0x020000000000 + 0x10000000 * n

/-- LAYER_DRAIN_COMPLETE (R16 to R18): FLUSH with its migrations and teardowns, or NOSPACE. A page that is still pinned
(R154), or whose copying a relock stalls (R22), holds it back. -/
def execLayerDrainComplete (n : Nat) (moves : List PageMove) (s : State) : Host.Outcome State Fault Refusal :=
  let l := layerAt s n
  let waits := fun (m : PageMove) => match m.frame with
    | some f => pinsOf s m.leaf ≠ 0 || moveStalls s m.leaf m.big f
    | none => false
  if l.state ≠ .drain || !(onLayer s n).isEmpty || moves.any waits then .next s
  else
    let r := flushMoves moves (setLayer s n { l with state := .flush })
    if r.2 then .next (wake (tearDown r.1 (windowOf n) 0x10000000))
    else
      let back := setLayer r.1 n { layerAt r.1 n with state := .active, newRole := none }
      let plan := back.pkg.plan.filter fun q => q.1 ≠ n
      .next (wake (tellRole (emit { back with pkg := { back.pkg with plan := plan } } (.status 4)) n true))

/-- A live context still has a page in a layer's memory, or one in migration from there (R16). -/
def pagesIn (s : State) (n : Nat) : Bool := (namedFrames s).any fun f => match region s f with
  | .layer m _ => m == n
  | _ => false

/-- LAYER_FLUSH_COMPLETE (R16): every migration and every teardown is complete, so the map is rebuilt and every context
told. -/
def execLayerFlushComplete (n : Nat) (s : State) : Host.Outcome State Fault Refusal :=
  let l := layerAt s n
  if l.state = .flush && s.notices.isEmpty && !pagesIn s n then .next (tellRole (setLayer s n { l with state := .reenum }) n false)
  else .next s

/-- LAYER_REENUM_COMPLETE (R16): the layer serves its new role, or is powered off. -/
def execLayerReenumComplete (n : Nat) (s : State) : Host.Outcome State Fault Refusal :=
  let l := layerAt s n
  match l.state, l.newRole with
  | .reenum, some r =>
    let off := r = .fenced
    let s1 := setLayer s n { l with role := r, newRole := none, state := if off then .off else .active,
                                    clock := if off then Clock.reset else l.clock }
    .next { s1 with pkg := { s1.pkg with plan := s1.pkg.plan.filter fun q => q.1 ≠ n } }
  | _, _ => .next s

/-- The Pod of a core within its layer. -/
def podOf (c : Nat) : Nat := c % 32 / 8

/-- A core of the Pod waits for the spare. -/
def spareAwaited (s : State) (c : Nat) : Bool :=
  (upFrom 8 (8 * (c / 8))).any fun k => (coreAt s k).failing

/-- CORE_FAILURE (R26, R27, R183, R435): the spare is to take over, or, where the Pod has none, the core is fenced and its
groups are killed; `loss.damaged` are the groups whose shadow is not intact. -/
def execCoreFailure (loss : CoreLoss) (s : State) : Host.Outcome State Fault Refusal :=
  let c := loss.core
  let l := layerAt s (layerOfCore c)
  if c ≥ 256 || (coreAt s c).fenced || (coreAt s c).failing then .next s
  else
    let gs := s.groups.filter fun p => coreOf p.2 == some c && p.2.lanes.any liveLane
    if sget false l.spareUsed (podOf c) || sget false l.noSpare (podOf c) || spareAwaited s c then
      .next (wake (fenceCore (gs.foldl (fun st p => killWhole st p.1 0x20) s) c))
    else
      let s1 := gs.foldl (fun st p => hitGroup st p.1 (!loss.damaged.contains p.1)) s
      .next (wake (setCore s1 c { coreAt s1 c with failing := true }))

/-- SPARE_TAKEOVER (R26): the spare takes the core's ID, its Pit state and its queued work; its own caches are empty. -/
def execSpareTakeover (c : Nat) (s : State) : Host.Outcome State Fault Refusal :=
  let n := layerOfCore c
  if (coreAt s c).failing then
    let s1 := setCore s c { coreAt s c with failing := false, icache := [], nodes := [], keptA := none, keptB := none }
    .next (setLayer s1 n { layerAt s1 n with spareUsed := sset false (layerAt s1 n).spareUsed (podOf c) true })
  else .next s

/-- POWER_SAMPLE (R24). -/
def execPowerSample (milliwatts : Nat) (s : State) : Host.Outcome State Fault Refusal :=
  match s.pkg.profile with
  | none => .next s
  | some p =>
    let above := decide (milliwatts > capOf p)
    .next { s with pkg := { s.pkg with overCap := above,
                                       underSince := if s.pkg.overCap && !above then s.time.now.toNat else s.pkg.underSince } }

/-- Step the compute layers (R24). -/
def stepLayers (s : State) (f : Clock → Nat) : State :=
  let s1 := (upFrom 8 0).foldl (fun st n =>
    if (layerAt st n).role = .compute then askClock st (.layer n) (f (layerAt st n).clock) else st) s
  { s1 with pkg := { s1.pkg with lastStep := s1.time.now.toNat } }

/-- 100 µs between steps (R24). -/
def stepDue (s : State) : Bool := decide (100000 * 65536 ≤ elapsed s s.pkg.lastStep)

/-- POWER_STEP_DOWN (R24). -/
def execPowerStepDown (s : State) : Host.Outcome State Fault Refusal :=
  if s.pkg.overCap && stepDue s then .next (stepLayers s fun k => nextCode k - 1) else .next s

/-- POWER_STEP_UP (R24): after 1 ms under the cap, towards the targets. -/
def execPowerStepUp (s : State) : Host.Outcome State Fault Refusal :=
  if !s.pkg.overCap && s.pkg.profile.isSome && decide (1000000 * 65536 ≤ elapsed s s.pkg.underSince) && stepDue s then
    .next (stepLayers s fun k => if nextCode k < k.target then nextCode k + 1 else nextCode k)
  else .next s

end Sys2Proof.Machine
end

