-- ==== Sys2Proof/Machine/Links.lean ====
section
/-! DEFINITION. Valob ports and the discipline of device time (02 R30 to R45). -/

namespace Sys2Proof.Machine

/-- A flit header's fields (R31). -/
structure FlitHead where
  kind : Nat
  kslot : Bool
  cls : Nat
  seq : Nat
  ackSeq : Nat
  len : Nat
  ic : Nat
  deriving DecidableEq, Repr

/-- The header of fields (R31). -/
def packHead (h : FlitHead) : BitVec 128 :=
  BitVec.ofNat 128 (pack [(4, h.kind), (1, flag h.kslot), (3, 0), (2, h.cls), (6, 0), (16, h.seq), (16, h.ackSeq),
    (9, h.len), (7, 0), (64, h.ic)])

/-- The fields of a header. -/
def headFields (x : BitVec 128) : FlitHead :=
  let n := x.toNat
  { kind := bits n 0 4, kslot := bit n 4, cls := bits n 8 2, seq := bits n 16 16, ackSeq := bits n 32 16,
    len := bits n 48 9, ic := bits n 64 64 }

/-- Reserved bits and values of a header (R31); a reserved LEN counts like a reserved KIND (log 28). -/
def headOk (x : BitVec 128) : Bool :=
  let n := x.toNat
  bits n 5 3 == 0 && bits n 10 6 == 0 && bits n 57 7 == 0 && decide (bits n 48 9 ≤ 256) && decide (bits n 0 4 ≤ 5)

/-- The slot of a direction. -/
def slotAt (l : List KeySlot) (k : Bool) : KeySlot := nthD KeySlot.reset l (flag k)

/-- Replace a slot. -/
def setSlot (l : List KeySlot) (k : Bool) (x : KeySlot) : List KeySlot := setNth l (flag k) x

/-- A flit protected under a slot (R31, R32): payload padded with zeros to 256 bytes; the header is taken as associated data
lowest byte first (log 28). -/
def makeFlit (key : BitVec 256) (h : FlitHead) (payload : List Byte) : WireFlit :=
  let hd := packHead h
  let e := gcmEncrypt key (gcmNonce 0 h.ic) (toBytes 16 hd.toNat) (payload ++ List.replicate (256 - payload.length) 0)
  { header := hd, body := e.1, tag := BitVec.ofNat 128 (ofBytes e.2) }

/-- The payload of a flit whose tag verifies under a slot (R31, R32). -/
def openFlit (k : KeySlot) (f : WireFlit) : Option (List Byte) :=
  if !headOk f.header || !k.loaded then none
  else
    (gcmDecrypt k.key (gcmNonce 0 (headFields f.header).ic) (toBytes 16 f.header.toNat) f.body (toBytes 16 f.tag.toNat)).map
      fun b => b.take (headFields f.header).len

/-- Send a flit under a slot (R31, R34, R37): its IC advances, REKEY rises at 2^43, sending stops at 2^44, and DATA and
MARKER flits are kept for replay. Before any flit was accepted ACKSEQ is 0xFFFF (log 28). A TIME flit is stamped with
the device time of its departure (R43). -/
def sendFlit (s : State) (n : Nat) (slot : Bool) (kind cls : Nat) (payload : List Byte) : State :=
  let p := portAt s n
  let k := slotAt p.tx slot
  let numbered := kind ≤ 1
  let h : FlitHead :=
    { kind := kind, kslot := slot, cls := cls, seq := if numbered then p.sendSeq else 0,
      ackSeq := (p.wantSeq + 65535) % 65536, len := if kind = 0 then payload.length else 0, ic := k.ic }
  let f := makeFlit k.key h payload
  let ic := k.ic + 1
  let p1 := { p with tx := setSlot p.tx slot { k with ic := ic }, wire := p.wire ++ [f],
                     rekey := p.rekey || ic == 2 ^ 43, timeSent := if kind = 2 then s.time.now else p.timeSent,
                     stopped := if ic = 2 ^ 44 then some s.time.now.toNat else p.stopped }
  let p2 := if numbered then
      { p1 with sendSeq := (p.sendSeq + 1) % 65536,
                lastAck := if p.replay = [] then s.time.now.toNat else p.lastAck,
                replay := p.replay ++ [{ seq := p.sendSeq, flit := f, resent := 0, marker := kind == 1 }] }
    else p1
  let s1 := setPort s n p2
  if ic = 2 ^ 43 then emit s1 (.trap 0x42 n) else s1

/-- FLIT_SEND (R34, R37): a full replay buffer stalls DATA, and a stopped sender sends only ACK and NAK. -/
def execFlitSend (n : Nat) (f : FlitReq) (s : State) : Host.Outcome State Fault Refusal :=
  let p := portAt s n
  let kind := f.kind.toNat
  if !portUp s n || kind == 1 || kind > 5 || f.payload.length > 256 then .next s
  else if kind == 0 && p.replay.length ≥ 512 then .next s
  else if p.stopped.isSome && kind != 3 && kind != 4 then .next s
  else
    let s1 := sendFlit s n p.txSlot kind f.cls.toNat (if kind = 0 then f.payload else [])
    .next (if kind = 0 ∧ f.cls = 0 then setPort s1 n { portAt s1 n with requests := (portAt s1 n).requests + 1 } else s1)

/-- Both directions have slot 0 loaded at both ends, so a port in KEYWAIT goes UP with SEQ 0 (R38). -/
def keysReady (p : Port) : Port :=
  if p.state = .keywait && p.peerReady && (slotAt p.tx false).loaded && (slotAt p.rx false).loaded then
    { p with state := .up, sendSeq := 0, wantSeq := 0, ackSeq := 0xFFFF, replay := [], stopped := none }
  else p

/-- Load a key of a port (R33, R38). The old transmit slot of a switch-over in progress takes a load, and is retired with it
when the MARKER is acknowledged (log 28). -/
def loadPortKey (s : State) (n : Nat) (transmit slot : Bool) (key : BitVec 256) : State :=
  let p := portAt s n
  let x : KeySlot := { KeySlot.reset with key := key, loaded := true }
  if n ≥ 16 then s
  else if p.state = .up && slot == (if transmit then p.txSlot else p.rxSlot) then emit s (.status 1)
  else if transmit then setPort s n (keysReady { p with tx := setSlot p.tx slot x })
  else setPort s n (keysReady { p with rx := setSlot p.rx slot x })

/-- VALOB_KEY_LOAD (R33, R38). -/
def execValobKeyLoad (n : Nat) (transmit slot : Bool) (key : BitVec 256) (s : State) : Host.Outcome State Fault Refusal :=
  .next (loadPortKey s n transmit slot key)

/-- The management core enables a port (R38, R41). A port that RETRY, ICLIMIT or PHY took DOWN keeps ENABLE 1, and enabling it
again starts training again; both are the model's choice, which the spec does not settle (log 28). -/
def enablePort (p : Port) : Port :=
  { p with enable := true, state := if p.state = .down then .train else p.state }

/-- PORT_ENABLE (R38, R148): the receive ASID is what the management core has set. -/
def execPortEnable (n : Nat) (asid : BitVec 16) (s : State) : Host.Outcome State Fault Refusal :=
  if n ≥ 16 then .next s
  else .next (setPort s n { enablePort (portAt s n) with rxAsid := asid })

/-- The memory that an endpoint names lies at a port's peer. -/
def atPort (n : Nat) : Endpoint → Bool
  | .peer m _ => m == n
  | _ => false

/-- The endpoints that a running command still has bytes to move through (R39, R84, R97): none of a copy all of whose bytes have
landed, and no source of one whose bytes are staged (R92). -/
def openEndpoints (x : Packet) : List Endpoint :=
  if ptype x.body.toNat = 3 && x.cmd.todo.isEmpty then []
  else ((touches x).filter fun e => e.2.2 || x.cmd.stage.isNone).map (·.1)

/-- A command that has requests without a response over a port (R39). -/
def usesPort (n : Nat) (x : Packet) : Bool :=
  x.phase = .running && isCmd x && x.cmd.resolved && x.cmd.paused.isNone && (openEndpoints x).any (atPort n)

/-- A link goes down (R39): requests without a response, of flits sent and of Shucker commands, complete with LINKDOWN. -/
def linkDown (s : State) (n why : Nat) : State :=
  let p := portAt s n
  let s1 := (List.replicate p.requests ()).foldl (fun st _ => emit st (.linkdown n)) s
  let s2 := s1.packets.foldl (fun st x => if usesPort n x.2 then finishSeq st x.1 x.2 5 else st) s1
  setPort s2 n { Port.reset with enable := p.enable && why != 4, downWhy := why, authFail := p.authFail, rekey := p.rekey,
                                 wire := p.wire, got := p.got, rxAsid := p.rxAsid, timeSent := p.timeSent,
                                 timeSeen := p.timeSeen }

/-- The management core disables a port (R39). -/
def disablePort (s : State) (n : Nat) : State :=
  if (portAt s n).state = .down then setPort s n { portAt s n with enable := false } else linkDown s n 4

/-- PORT_DISABLE (R39). -/
def execPortDisable (n : Nat) (s : State) : Host.Outcome State Fault Refusal :=
  if n ≥ 16 then .next s else .next (wake (disablePort s n))

/-- TRAIN_DONE (R38): training done, and whether the other end has its slot 0 loaded for both directions; where it has them
only later, the same again in KEYWAIT (log 28). -/
def execTrainDone (ends : Trained) (s : State) : Host.Outcome State Fault Refusal :=
  let n := ends.port
  let p := portAt s n
  if p.state = .train || p.state = .keywait then
    .next (setPort s n (keysReady { p with state := .keywait, peerReady := p.peerReady || ends.peerReady }))
  else .next s

/-- PHY_LOCK_LOSS (R39): lost for more than 10 µs, in device-time units. -/
def execPhyLockLoss (n lostFor : Nat) (s : State) : Host.Outcome State Fault Refusal :=
  if n < 16 ∧ (portAt s n).state ≠ .down ∧ lostFor > 10000 * 65536 then .next (wake (linkDown s n 3)) else .next s

/-- Send the MARKER of a switch-over once the replay buffer has room and the port runs (R35, R37, R40): every later new flit
uses the spare slot. -/
def sendMarker (s : State) (n : Nat) : State :=
  let p := portAt s n
  if p.markerDue && portUp s n && decide (p.replay.length < 512) then
    let s1 := sendFlit s n (!p.txSlot) 1 3 []
    setPort s1 n { portAt s1 n with markerDue := false, txSlot := !p.txSlot }
  else s

/-- SWITCH written with 1 (R35, R41): a switch-over begins, unless one is in progress; where the port is not UP or its spare
slot holds no key, nothing happens (log 28). -/
def switchPort (s : State) (n : Nat) : State :=
  let p := portAt s n
  if p.state ≠ .up || p.swBusy || !(slotAt p.tx (!p.txSlot)).loaded then s
  else sendMarker (setPort s n { p with swBusy := true, markerDue := true }) n

/-- SWITCH (R35). -/
def execSwitch (n : Nat) (s : State) : Host.Outcome State Fault Refusal :=
  if n ≥ 16 then .next s else .next (switchPort s n)

/-- RELOCK_END (R22, R23, R40): the ports of H6 run again, and a waiting request for another code starts one further relock. -/
def execRelockEnd (i : Island) (s : State) : Host.Outcome State Fault Refusal :=
  let k := clockOf s i
  match k.relock with
  | none => .next s
  | some t =>
    if !reached s.time.now (BitVec.ofNat 64 t) then .next s
    else
      let k1 := { k with relock := none, waiting := none }
      let s1 := match k.waiting with
        | some c => setClock s i (if c = k.code then k1 else startRelock s k1 c)
        | none => setClock s i k1
      .next (wake ((upFrom 16 0).foldl sendMarker s1))

/-- ICLIMIT_TIMEOUT (R34, R39): 10 ms after the stop. -/
def execIclimitTimeout (n : Nat) (s : State) : Host.Outcome State Fault Refusal :=
  match (portAt s n).stopped with
  | some t => if portUp s n && decide (10000000 * 65536 ≤ elapsed s t) then .next (wake (linkDown s n 2)) else .next s
  | none => .next s

/-- Count a discarded flit (R36, R41). -/
def countDiscard (p : Port) : Port := { p with authFail := Nat.min (p.authFail + 1) 255 }

/-- The replay buffer after an acknowledgement: the entries after a SEQ, and whether a MARKER went. -/
def ackTo (seq : Nat) : List Kept → Option (List Kept × Bool)
  | [] => none
  | k :: r => if k.seq = seq then some (r, k.marker) else (ackTo seq r).map fun x => (x.1, x.2 || k.marker)

/-- ACKSEQ of an authenticated flit (R35, R37): acknowledging the MARKER retires the old transmit slot, and a MARKER that
waited for room is sent. -/
def takeAck (s : State) (n seq : Nat) : State :=
  let p := portAt s n
  match ackTo seq p.replay with
  | none => s
  | some (r, marker) =>
    let p1 := { p with replay := r, ackSeq := seq, lastAck := s.time.now.toNat }
    sendMarker (setPort s n (if marker then
      { p1 with tx := setSlot p1.tx (!p1.txSlot) KeySlot.reset, swBusy := false, stopped := none } else p1)) n

/-- An IC above every accepted one of its group (R36). -/
def icAbove (ic : Nat) (seen : Option Nat) : Bool := match seen with | some x => decide (x < ic) | none => true

/-- Discard a numbered flit, answering NAK (R36). -/
def discardNak (s : State) (n : Nat) : State :=
  let s1 := setPort s n (countDiscard (portAt s n))
  sendFlit s1 n (portAt s1 n).txSlot 4 3 []

/-- A numbered flit that passes R36: its payload. -/
def acceptNumbered (p : Port) (f : WireFlit) : Option (List Byte) :=
  let h := headFields f.header
  let k := slotAt p.rx h.kslot
  match openFlit k f with
  | none => none
  | some b => if h.seq = p.wantSeq && icAbove h.ic k.seenData then some b else none

/-- The port after a numbered flit was accepted. -/
def noteData (p : Port) (h : FlitHead) : Port :=
  let k := slotAt p.rx h.kslot
  { p with wantSeq := (p.wantSeq + 1) % 65536, rx := setSlot p.rx h.kslot { k with seenData := some h.ic } }

/-- DATA_FLIT (R36). -/
def execDataFlit (n : Nat) (f : WireFlit) (s : State) : Host.Outcome State Fault Refusal :=
  let p := portAt s n
  let h := headFields f.header
  if !portUp s n || h.kind ≠ 0 then .next s
  else match acceptNumbered p f with
    | none => .next (discardNak s n)
    | some b =>
      let p1 := noteData p h
      let p2 := { p1 with got := p1.got ++ [b], requests := if h.cls = 1 then p1.requests - 1 else p1.requests }
      .next (takeAck (setPort s n p2) n h.ackSeq)

/-- MARKER_FLIT (R35, R36): the old receive slot is retired. -/
def execMarkerFlit (n : Nat) (f : WireFlit) (s : State) : Host.Outcome State Fault Refusal :=
  let p := portAt s n
  let h := headFields f.header
  if !portUp s n || h.kind ≠ 1 then .next s
  else match acceptNumbered p f with
    | none => .next (discardNak s n)
    | some _ =>
      let p1 := noteData p h
      let p2 := if h.kslot = p1.rxSlot then p1
        else { p1 with rx := setSlot p1.rx p1.rxSlot KeySlot.reset, rxSlot := h.kslot }
      .next (takeAck (setPort s n p2) n h.ackSeq)

/-- A control flit that passes R36. -/
def acceptControl (p : Port) (f : WireFlit) : Bool :=
  let h := headFields f.header
  let k := slotAt p.rx h.kslot
  (openFlit k f).isSome && icAbove h.ic k.seenCtl

/-- A received control flit (R36): its IC and ACKSEQ are taken, then `act`; or it is discarded and counted. -/
def runControl (n kind : Nat) (f : WireFlit) (act : State → State) (s : State) : State :=
  let p := portAt s n
  let h := headFields f.header
  if !portUp s n || h.kind ≠ kind then s
  else if acceptControl p f then
    let k := slotAt p.rx h.kslot
    act (takeAck (setPort s n { p with rx := setSlot p.rx h.kslot { k with seenCtl := some h.ic } }) n h.ackSeq)
  else setPort s n (countDiscard p)

/-- ACK_FLIT (R36, R37). -/
def execAckFlit (n : Nat) (f : WireFlit) (s : State) : Host.Outcome State Fault Refusal :=
  .next (runControl n 3 f (fun st => st) s)

/-- Resend every buffered flit in order (R37), also while the port has stopped at 2^44 (log 28): eight resends of one SEQ take
the link down. -/
def resendAll (n : Nat) (s : State) : State :=
  let p := portAt s n
  let r := p.replay.map fun k => { k with resent := k.resent + 1 }
  let s1 := setPort s n { p with replay := r, wire := p.wire ++ r.map (·.flit) }
  if r.any fun k => k.resent ≥ 8 then linkDown s1 n 1 else s1

/-- NAK_FLIT (R37). -/
def execNakFlit (n : Nat) (f : WireFlit) (s : State) : Host.Outcome State Fault Refusal :=
  .next (wake (runControl n 4 f (resendAll n) s))

/-- IDLE_FLIT (R36). -/
def execIdleFlit (n : Nat) (f : WireFlit) (s : State) : Host.Outcome State Fault Refusal :=
  .next (runControl n 5 f id s)

/-- REPLAY_TIMEOUT (R37): no ACKSEQ advance for 4 µs with flits outstanding. -/
def execReplayTimeout (n : Nat) (s : State) : Host.Outcome State Fault Refusal :=
  let p := portAt s n
  if portUp s n && p.replay ≠ [] && decide (4000 * 65536 ≤ elapsed s p.lastAck) then
    .next (wake (resendAll n (setPort s n { p with lastAck := s.time.now.toNat })))
  else .next s

/-- RESERVED_KIND_FLIT (R31, R36): discarded as failing authentication. -/
def execReservedKindFlit (n : Nat) (f : WireFlit) (s : State) : Host.Outcome State Fault Refusal :=
  if portUp s n && decide ((headFields f.header).kind ≥ 6) then .next (setPort s n (countDiscard (portAt s n)))
  else .next s

/-- A valid exchange (R43): the offset, in device-time units, is slewed, or a forward one beyond 10 µs stepped. -/
def discipline (s : State) (offset : Int) : State :=
  let t := s.time
  let t1 := { t with tsync := true, quiet := 0, ppm := 0, part := 0 }
  { s with time := if offset > (10000 * 65536 : Nat) then { t1 with now := t.now + BitVec.ofInt 64 offset, slew := 0 }
                   else { t1 with slew := offset } }

/-- TIME_FLIT (R42, R43): it is stamped with the device time of its arrival, and the exchange it completes counts where its
port is the selected source. -/
def execTimeFlit (n : Nat) (f : WireFlit) (offset : Int) (s : State) : Host.Outcome State Fault Refusal :=
  .next (runControl n 2 f (fun st =>
    let s1 := setPort st n { portAt st n with timeSeen := st.time.now }
    if s1.time.tsrc = 2 ∧ s1.time.tport = n then discipline s1 offset else s1) s)

/-- TIME_EXCHANGE (R42, R43): with the host whole, with a port begun by a TIME flit. -/
def execTimeExchange (src : TimeFrom) (offset : Int) (s : State) : Host.Outcome State Fault Refusal :=
  match src with
  | .host => if s.time.tsrc = 1 ∧ s.pkg.power then .next (discipline s offset) else .next s
  | .port n =>
    if s.time.tsrc = 2 && s.time.tport == n && portUp s n && (portAt s n).stopped.isNone then
      .next (sendFlit s n (portAt s n).txSlot 2 3 [])
    else .next s

/-- The selected source is lost (R42, R43): 2 s without a valid exchange, or a selected port that is not UP. -/
def sourceLost (s : State) : Bool :=
  decide (2000000000 * 65536 ≤ s.time.quiet) || (s.time.tsrc == 2 && (portAt s s.time.tport).state != .up)

/-- TSYNC_LOSS (R42, R43): TSYNC clears, the last rate correction is held, and TLOST rises. -/
def execTsyncLoss (s : State) : Host.Outcome State Fault Refusal :=
  let t := s.time
  if sourceLost s && (t.tsync || (t.tsrc != 0 && !t.tlost)) then
    let ppm : Int := if t.slew > 0 then 500 else if t.slew < 0 then -500 else t.ppm
    .next (emit { s with time := { t with tsync := false, tlost := true, slew := 0, ppm := ppm } } (.trap 0x43 t.tport))
  else .next s

end Sys2Proof.Machine
end

