-- ==== Sys2Proof/Machine/Host.lean ====
section
/-! DEFINITION. The host port, register writes, TDISP, the second tier's errors, access tables, keys, attestation and KSPAWN (03 R46
to R73; 00 R6; 04 R74 to R77; 05 R113; 06 R436). -/

namespace Sys2Proof.Machine

/-- Windows whose host reads return zero and set ACCVIOL (R48, R49): Valob keys, memory keys, copy-in keys. -/
def keyWindow (off : Nat) : Bool := (0x2000 ≤ off && off < 0x2800) || (0x10000 ≤ off && off < 0x11800)

/-- The other windows that the host may not write (R48). -/
def roWindow (off : Nat) : Bool :=
  off < 4 || (0x1000 ≤ off && off < 0x1020) || (0x1040 ≤ off && off < 0x1080) || (0x1090 ≤ off && off < 0x1098)
    || (0x12000 ≤ off && off < 0x12100) || (0x1000000 ≤ off && off < 0x1000000 + 0x400 * 55)

/-- Set ACCVIOL (R49). -/
def accViol (s : State) : State := { s with pkg := { s.pkg with accviol := true } }

/-- Bits cleared by writing 1 (R6). -/
def w1c (old data : Nat) : Nat := old - Nat.land old data

/-- TCTL written (R50): TSYNC and the reserved bits keep, a TSRC of 3 changes nothing. -/
def writeTctl (t : TimeUnit) (d : Nat) : TimeUnit :=
  { t with tsrc := if bits d 0 2 = 3 then t.tsrc else bits d 0 2, tport := bits d 4 4, tlost := t.tlost && !bit d 9 }

/-- APBASE written (R50): bits 51:30. -/
def writeApbase (d : Nat) : DWord := BitVec.ofNat 64 (bits d 30 22 * 2 ^ 30)

/-- The mailbox written: eight bytes, those past its end dropped (R48). -/
def writeMail (m : List (Nat × Byte)) (at_ : Nat) (d : Nat) : List (Nat × Byte) :=
  (List.zip (upFrom 8 at_) (toBytes 8 d)).foldl (fun m' p => if p.1 < 0x10000 then sset 0 m' p.1 p.2 else m') m

/-- A register that host and management core both write (R48, R49, R50); other offsets ignore writes. -/
def openWrite (s : State) (off d : Nat) : State :=
  if off = 4 then { s with pkg := { s.pkg with accviol := s.pkg.accviol && !bit d 1 } }
  else if off = 0x1080 then { s with time := writeTctl s.time d }
  else if off = 0x1088 then { s with pkg := { s.pkg with apbase := writeApbase d } }
  else if 0x100000 ≤ off ∧ off < 0x110000 then
    { s with pkg := { s.pkg with mailbox := writeMail s.pkg.mailbox (off - 0x100000) d } }
  else s

/-- A host write to the management block (R48, R49). -/
def hostMgmt (s : State) (off d : Nat) : State :=
  if keyWindow off || roWindow off then accViol s else openWrite s off d

/-- Load a memory key (R52, R62, R63). -/
def loadMemKey (s : State) (k : Nat) (key : BitVec 512) : State :=
  if k ≥ 64 then s
  else if frozen s k then emit s (.status 5)
  else { s with keys := sset MemKey.reset s.keys k { sget MemKey.reset s.keys k with mat := key, valid := true } }

/-- Erase a memory key (R63). -/
def eraseKey (s : State) (k : Nat) : State :=
  { s with keys := sset MemKey.reset s.keys k { sget MemKey.reset s.keys k with valid := false } }

/-- Set SHARED and OWNER of a key (R52, R62, R63): SHARED stays clear on the key of a bound context. -/
def putKattr (s : State) (k : Nat) (shared : Bool) (owner : BitVec 6) : State :=
  if k ≥ 64 then s
  else if frozen s k then emit s (.status 5)
  else
    let x := { sget MemKey.reset s.keys k with owner := owner.toNat, shared := shared && !frozen s owner.toNat }
    { s with keys := sset MemKey.reset s.keys k x }

/-- Load a copy-in key (R92): ICTR starts at zero. -/
def loadCopyKey (s : State) (c : Nat) (key : BitVec 256) : State :=
  if c ≥ 64 then s
  else
    let x := sget CopyKey.reset s.copyKeys c
    let y := { x with key := key, loaded := true, ictr := 0 }
    { s with copyKeys := sset CopyKey.reset s.copyKeys c y }

/-- An entry of a bound TDI's own function, which R52 freezes. -/
def frozenEntry (s : State) (e : Nat) : Bool :=
  let init := bits e 32 24
  bit e 0 && bits init 20 4 == 3 && bits init 0 20 != 0 && frozen s (bits init 0 20 - 1)

/-- Write an access-table entry (R52, R54, R58, R59, R61). -/
def writeTable (s : State) (t i : Nat) (e : BitVec 128) : State :=
  let n := e.toNat
  let old := (sget 0 s.tables (64 * t + i)).toNat
  if t ≥ 55 || i ≥ 64 then s
  else if frozenEntry s n || frozenEntry s old || (upFrom 64 0).any (fun k => frozen s k && forbidden s k t n) then
    emit s (.status 5)
  else { s with tables := sset 0 s.tables (64 * t + i) (BitVec.ofNat 128 (n / 2 ^ 32 * 2 ^ 32 + bits n 0 5)) }

/-- Eight bytes that the management core has written into a key window (R48). -/
def stageKey (s : State) (off d : Nat) : State :=
  let m := (List.zip (upFrom 8 off) (toBytes 8 d)).foldl (fun m' p => sset 0 m' p.1 p.2) s.pkg.window
  { s with pkg := { s.pkg with window := m } }

/-- The key of n bytes that stands in a window, which it leaves. -/
def takeKey (s : State) (base n : Nat) : State × Nat :=
  ({ s with pkg := { s.pkg with window := ssets 0 s.pkg.window base (List.replicate n 0) } },
   ofBytes (sgets 0 s.pkg.window base n))

/-- A management core's write of eight bytes to a key window (R33, R48, R62, R92): the write of a key's last bytes loads it
(log 32). -/
def writeKeyWindow (s : State) (off d : Nat) : State :=
  let s1 := stageKey s off d
  if off < 0x2800 then
    let r := (off - 0x2000) % 0x80 / 32
    if off % 32 ≠ 24 then s1
    else
      let k := takeKey s1 (off - 24) 32
      loadPortKey k.1 ((off - 0x2000) / 0x80) (r < 2) (r % 2 == 1) (BitVec.ofNat 256 k.2)
  else if off < 0x11000 then
    if off % 64 ≠ 56 then s1
    else
      let k := takeKey s1 (off - 56) 64
      loadMemKey k.1 ((off - 0x10000) / 64) (BitVec.ofNat 512 k.2)
  else if off % 32 ≠ 24 then s1
  else
    let k := takeKey s1 (off - 24) 32
    loadCopyKey k.1 ((off - 0x11000) / 32) (BitVec.ofNat 256 k.2)

/-- A management core's write of eight bytes of an access table (R48, R59): the entry takes them in their half. -/
def writeTableHalf (s : State) (off d : Nat) : State :=
  let i := (off - 0x1000000) / 16
  let old := (sget 0 s.tables i).toNat
  let new := if off % 16 = 0 then old / 2 ^ 64 * 2 ^ 64 + d else old % 2 ^ 64 + d * 2 ^ 64
  writeTable s (i / 64) (i % 64) (BitVec.ofNat 128 new)

/-- The W1C fields of VSTATn (R41). -/
def clearVstat (p : Port) (d : Nat) : Port :=
  { p with authFail := w1c p.authFail (bits d 8 8), rekey := p.rekey && !bit d 6 }

/-- VSTATn written (R6, R38, R39, R41): a 1 in ENABLE enables the port (log 28), a 0 disables an enabled one, and a 1 in SWITCH
begins a switch-over. -/
def writeVstat (s : State) (n d : Nat) : State :=
  let s1 := setPort s n (clearVstat (portAt s n) d)
  let s2 := if bit d 2 then setPort s1 n (enablePort (portAt s1 n))
    else if (portAt s1 n).enable then disablePort s1 n else s1
  if bit d 5 then switchPort s2 n else s2

/-- A management core write to the management block (R48, R49). -/
def managerMgmt (s : State) (off d : Nat) : State :=
  if 0x1040 ≤ off ∧ off < 0x1080 then writeVstat s ((off - 0x1040) / 4) d
  else if keyWindow off then writeKeyWindow s off d
  else if 0x12000 ≤ off ∧ off < 0x12100 then
    putKattr s ((off - 0x12000) / 4) (bit d 30) (BitVec.ofNat 6 d)
  else if 0x1000000 ≤ off ∧ off < 0x1000000 + 0x400 * 55 then writeTableHalf s off d
  else openWrite s off d

/-- The queues of a context may be enabled (R52, R126). -/
def mayEnable (s : State) (ctx : Nat) : Bool :=
  (tdiAt s ctx).state != .locked && (tdiAt s ctx).state != .error && ctxState s ctx != some .lost

/-- QCTL written (R75): the assignment of a queue to or from a bound context is refused with LOCKED (R52). -/
def writeQctl (s : State) (q d : Nat) : State :=
  let x := queueAt s q
  let ctx := bits d 0 6
  if ctx ≠ x.ctx && (frozen s ctx || frozen s x.ctx) then emit s (.status 5)
  else
    let y := { x with ctx := ctx, size := bits d 16 4, peerp := bit d 29, hostp := bit d 30,
                      enable := bit d 31 && mayEnable s ctx }
    setQueue (assignQueue s q ctx) q y

/-- A queue register written by its home service core (R74 to R77, R113). -/
def writeQueue (s : State) (q off d : Nat) : State :=
  let x := queueAt s q
  let off_ := !(x.enable && decide (x.size ≤ 10))
  if off = 0 then (if off_ then setQueue s q { x with wridx := BitVec.ofNat 64 d } else s)
  else if off = 8 then (if off_ then setQueue s q { x with rdidx := BitVec.ofNat 64 d } else s)
  else if off = 0x10 then writeQctl s q d
  else if off = 0x18 then setQueue s q { x with ringbase := BitVec.ofNat 64 (d / 4096 * 4096) }
  else if off = 0x20 then
    setQueue s q { x with errcnt := w1c x.errcnt (bits d 16 16), stamplost := x.stamplost && !bit d 10,
                          ringfault := x.ringfault && !bit d 9 }
  else if off = 0x40 then setQueue s q { x with period := bits d 0 40 }
  else if off = 0x48 then setQueue s q { x with budget := bits d 0 40 }
  else if off = 0x50 then (if off_ then setQueue s q { x with pstart := BitVec.ofNat 64 d } else s)
  else if off = 0x60 then setQueue s q { x with ovrcnt := w1c x.ovrcnt (bits d 16 16) }
  else s

/-- A queue register that other initiators may only read (R74, R113). -/
def queueRo (off : Nat) : Bool := off < 0x80 && 8 ≤ off && !(0x28 ≤ off && off < 0x40)

/-- A host write to a queue page (R74, R77): dropped; one to a register marked RO sets ACCVIOL (R49). -/
def hostQueue (s : State) (off : Nat) : State := if queueRo off then accViol s else s

/-- Bytes of the register at an offset of the management block (R48). -/
def mgmtWidth (off : Nat) : Nat :=
  if off < 0x1088 || (0x12000 ≤ off && off < 0x12100) then 4 else 8

/-- Bytes of a register (R48, R74). -/
def regWidth : RegAddr → Nat
  | .mgmt off => mgmtWidth off
  | .queue .. => 8

/-- The value of a register that a write may carry without an effect, which the bytes take that a narrower write leaves
out (R6; log 29). For VSTATn it is ENABLE as it stands: on a port that is DOWN with ENABLE 1 it restarts training (log 28). -/
def neutral (s : State) : RegAddr → Nat
  | .mgmt off =>
    if off = 4 then 0
    else if 0x1040 ≤ off ∧ off < 0x1080 then 4 * flag (portAt s ((off - 0x1040) / 4)).enable
    else if off = 0x1080 then tctl s % 512
    else if keyWindow off then ofBytes (sgets 0 s.pkg.window off 8)
    else ofBytes ((upFrom (mgmtWidth off) off).map (mgmtByte s))
  | .queue q off =>
    if off = 0x20 ∨ off = 0x60 then 0
    else if off = 0x10 then putBits (queueReg s false q off) 31 1 (flag (queueAt s q).enable)
    else queueReg s false q off

/-- A register write by its writer (R6, R48, R49, R74, R77). -/
def regWrite (s : State) (who : Writer) (r : RegAddr) (d : Nat) : State :=
  match r, who with
  | .mgmt off, .host => hostMgmt s off d
  | .mgmt off, .manager => managerMgmt s off d
  | .mgmt off, .service k => if k = 0 then managerMgmt s off d else openWrite s off d
  | .queue _ off, .host => hostQueue s off
  | .queue q off, .manager => if q % 16 = 0 ∧ q < 4096 then writeQueue s q off d else s
  | .queue q off, .service k => if q % 16 = k ∧ q < 4096 then writeQueue s q off d else s

/-- The register at an offset of a block that holds the offset. -/
def regOf (mk : Nat → RegAddr) (off : Nat) : RegAddr := mk (off / regWidth (mk off) * regWidth (mk off))

/-- The offset of a register in its block. -/
def regOff : RegAddr → Nat
  | .mgmt off => off
  | .queue _ off => off

/-- Consecutive bytes written to registers of a block: each register takes the bytes that fall in it. -/
def writeRegs : Nat → State → Writer → (Nat → RegAddr) → Nat → List Byte → State
  | 0, s, _, _, _, _ => s
  | fuel + 1, s, who, mk, off, l =>
    if l.isEmpty then s
    else
      let r := regOf mk off
      let k := off - regOff r
      let m := regWidth r - k
      let old := toBytes (regWidth r) (neutral s r)
      let new := old.take k ++ l.take m ++ old.drop (k + l.length)
      writeRegs fuel (regWrite s who r (ofBytes new)) who mk (off + m) (l.drop m)

/-- The physical address of a register (R48, R74). -/
def regPa : RegAddr → Nat
  | .mgmt off => 0xF00000000 + off
  | .queue q off => 0xF10000000 + 0x1000 * q + off

/-- The access table of PF0's BAR0 or BAR2 permits an access to a register (R58, R61). -/
def hostPermitted (s : State) (r : RegAddr) (kindBit : Nat) : Bool :=
  match r with
  | .mgmt off => tableGrants s 20 (initHost 0) off (off + regWidth r - 1) kindBit
  | .queue q off => pagePermitted s 0 q off 8 kindBit

/-- The management core, which sets the tables up, reaches its own block without them (log 29). -/
def ownBlock (k pa : Nat) : Bool := k = 0 && 0xF00000000 ≤ pa && pa < 0xF04000000

/-- Some of n bytes lie in an entry pair whose owner is another instance (R67, R138). -/
def foreignEntry (s : State) (k pa n : Nat) : Bool :=
  (upFrom n pa).any fun a => homeOf a != k && isMemory (region s a) && (entryPair s a).isSome

/-- A service core's access to n bytes is permitted (R61, R67, R69): only its owner changes an entry pair, so another instance's
write or atomic is denied like one that no table grants (log 3). -/
def servicePermitted (s : State) (k pa n kindBit : Nat) : Bool :=
  ownBlock k pa || (tablePermits s (initService k) pa n kindBit && !(decide (2 ≤ kindBit) && foreignEntry s k pa n))

/-- REGISTER_WRITE (R6, R61). -/
def execRegisterWrite (who : Writer) (r : RegAddr) (data : DWord) (s : State) : Host.Outcome State Fault Refusal :=
  .next (match who with
    | .host => if hostPermitted s r 2 then wake (regWrite s who r data.toNat) else emit s .unsupported
    | .manager => wake (regWrite s who r data.toNat)
    | .service k =>
      if servicePermitted s k (regPa r) (regWidth r) 2 then wake (regWrite s who r data.toNat)
      else serviceTrap s k causeLoadFault (regPa r))

/-- PROTECTED_WRITE (R49, R61). -/
def execProtectedWrite (off : Nat) (data : DWord) (s : State) : Host.Outcome State Fault Refusal :=
  .next (if hostPermitted s (.mgmt off) 2 then wake (hostMgmt s off data.toNat) else emit s .unsupported)

/-- Eight bytes of a host function's read, as free values (R47): a VF's status has no stated layout. -/
def freeRead (s : State) : State :=
  emit { s with free := s.free + 8 } (.hostData ((upFrom 8 s.free).map Config.freeByte))

/-- KEY_WINDOW_READ (R47 to R49, R61): a host function reads eight bytes of the management block, of a queue page, or of its
context's status; a key window reads zero and sets ACCVIOL. -/
def execKeyWindowRead (r : HostReg) (s : State) : Host.Outcome State Fault Refusal :=
  .next (match r with
    | .mgmt off =>
      if off + 8 ≤ 0x4000000 && tableGrants s 20 (initHost 0) off (off + 7) 1 then
        let s1 := emit s (.hostData ((upFrom 8 off).map (mgmtByte s)))
        if (upFrom 8 off).any keyWindow then accViol s1 else s1
      else emit s .unsupported
    | .page fn page off => match queueOfPage s fn page with
      | some q =>
        if off + 8 ≤ 0x1000 && pagePermitted s fn page off 8 1 then
          emit s (.hostData ((upFrom 8 off).map fun o => readAs s .plain (regPa (.queue q o))))
        else emit s .unsupported
      | none => emit s .unsupported
    | .status fn off => if 1 ≤ fn && fn ≤ 64 && off + 8 ≤ 0x1000 then freeRead s else emit s .unsupported)

/-- The frame's key belongs to a bound context (R54). -/
def lockedFrame (s : State) (pa : Nat) : Bool :=
  match frameKey s pa with
  | 0 => false
  | k + 1 => frozen s k

/-- A byte read through the aperture, by physical address (R54, R136, R157, R436); free where the memory reports an error (R57, R235). -/
def apertureByte (s : State) (pa : Nat) : Byte :=
  match region s pa with
  | .hole => 0xFF
  | .mgmt off => mgmtByte s off
  | .queue q off => BitVec.ofNat 8 (queueReg s (headWait s q) q (off / 8 * 8) / 256 ^ (off % 8))
  | _ => if lockedFrame s pa then 0xFF else match frameView s pa with
    | none => 0xFF
    | some v => if badAt s pa then Config.freeByte (s.free + pa) else cellAs s v pa

/-- A host read through the aperture touches a key window (R49). -/
def touchesKeys (s : State) (pa n : Nat) : Bool :=
  (upFrom n pa).any fun a => match region s a with
    | .mgmt off => keyWindow off
    | _ => false

/-- A run of bytes within one 4 KiB written through the aperture (R49, R54, R74, R189, R436). -/
def apertureRun (s : State) (pa : Nat) (l : List Byte) : State :=
  match region s pa with
  | .hole => s
  | .mgmt off => writeRegs (l.length + 1) s .host .mgmt off l
  | .queue q off => writeRegs (l.length + 1) s .host (.queue q) off (l.take (0x1000 - off))
  | _ => if lockedFrame s pa then s else match frameView s pa with
    | none => s
    | some v => storeHome s v pa l false

/-- A write through the aperture, by 4 KiB. -/
def apertureWrite : Nat → State → Nat → List Byte → State
  | 0, s, _, _ => s
  | fuel + 1, s, pa, l =>
    if l.isEmpty then s
    else
      let m := 4096 - pa % 4096
      apertureWrite fuel (apertureRun s pa (l.take m)) (pa + m) (l.drop m)

/-- APERTURE_ACCESS (R22, R47, R50, R54, R61, R436): a read of n bytes, or a write. -/
def execApertureAccess (off n : Nat) (write : Option (List Byte)) (s : State) : Host.Outcome State Fault Refusal :=
  let pa := s.pkg.apbase.toNat + off
  let len := match write with | some l => l.length | none => n
  let kind := if write.isSome then 2 else 1
  if len = 0 || off + len > 2 ^ (34 + s.pkg.bar4) then .next s
  else if pa + len > 2 ^ 52 then .next (emit s .unsupported)
  else if !tableGrants s 22 (initHost 0) off (off + len - 1) kind || !tablePermits s (initHost 0) pa len kind then
    .next (emit s .unsupported)
  else if spanStalls s pa len then .next s
  else match write with
    | some l => .next (wake (apertureWrite (l.length / 4096 + 2) s pa l))
    | none =>
      let s1 := emit { s with free := s.free + 2 ^ 53 } (.hostData ((upFrom n pa).map (apertureByte s)))
      .next (if touchesKeys s pa n then accViol s1 else s1)

/-- A TDI enters ERROR (R52, R53): its queues, commands, key and context. -/
def tdiError (s : State) (k : Nat) : State :=
  eraseKey (loseCtx (disableQueues (setTdi s k { tdiAt s k with state := .error }) k) k) k

/-- HOST_TLP (R52, R53): a TLP to or from a TDI. -/
def execHostTlp (tdi : Nat) (tbit : Bool) (stream : Nat) (intact : Bool) (s : State) : Host.Outcome State Fault Refusal :=
  let x := tdiAt s tdi
  let bad := match x.state with
    | .run => !tbit || stream != x.stream || !intact
    | .locked => stream == x.stream && !intact
    | _ => false
  .next (if bad then wake (tdiError s tdi) else s)

/-- A key of the context is SHARED (R63). -/
def sharedKey (s : State) (k : Nat) : Bool :=
  (sget MemKey.reset s.keys k).shared || s.keys.any fun p => p.2.shared && p.2.owner == k

/-- TDISP_LOCK (R51, R52): with nothing that R54 or R63 forbids for a bound context. -/
def execTdispLock (tdi stream : Nat) (s : State) : Host.Outcome State Fault Refusal :=
  let clash := s.tables.any fun p => forbidden s tdi (p.1 / 64) p.2.toNat
  if tdi ≥ 64 || stream ≥ 16 || (tdiAt s tdi).state ≠ .unlocked || sharedKey s tdi || clash then .next s
  else .next (disableQueues (setTdi s tdi { state := .locked, stream := stream }) tdi)

/-- TDISP_START (R52): the queues of the context that have been set up are enabled. -/
def execTdispStart (tdi : Nat) (s : State) : Host.Outcome State Fault Refusal :=
  let x := tdiAt s tdi
  if x.state = .locked then
    let s1 := setTdi s tdi { x with state := .run }
    .next (wake (s1.queues.foldl
      (fun st p => if p.2.ctx = tdi then setQueue st p.1 { p.2 with enable := true } else st) s1))
  else .next s

/-- Copies of a context are in flight (R53). -/
def copiesOut (s : State) (ctx : Nat) : Bool := (pktsOf s ctx).any fun p => p.2.phase == .running && isCmd p.2

/-- STOP_INTERFACE (R53). -/
def execStopInterface (tdi : Nat) (s : State) : Host.Outcome State Fault Refusal :=
  if frozen s tdi && copiesOut s tdi then .next (wake (tdiError s tdi))
  else .next (setTdi s tdi Tdi.reset)

/-- Tell the management core of a CXL port's error, which it records (R57). -/
def tellCxl (s : State) (port : Nat) : State :=
  emit { s with pkg := { s.pkg with cxlError := sset false s.pkg.cxlError port true } } (.cxl port)

/-- An expander reports poison on a line (R57): a core that reads it sees no error, and what it reads is not stated. -/
def spoil (s : State) (pa : Nat) : State :=
  { s with cxlBad := sset false s.cxlBad (pa / 64) true, free := s.free + 64,
           mem := ssets 0 s.mem (pa / 64 * 64) ((upFrom 64 s.free).map Config.freeByte) }

/-- CXL_POISON (R57). -/
def execCxlPoison (port pa : Nat) (s : State) : Host.Outcome State Fault Refusal :=
  match region s pa with
  | .tier2 off =>
    if cxlPortOf s off = port then .next (wake (tellCxl (spoil s pa) port))
    else .next s
  | _ => .next s

/-- CXL_LINK_DOWN (R57). -/
def execCxlLinkDown (port : Nat) (s : State) : Host.Outcome State Fault Refusal :=
  if sget false s.pkg.cxlUp port then
    .next (tellCxl { s with pkg := { s.pkg with cxlUp := sset false s.pkg.cxlUp port false } } port)
  else .next s

/-- ACCESS_TABLE_WRITE (R52, R54, R58, R59, R61). -/
def execAccessTableWrite (t i : Nat) (e : BitVec 128) (s : State) : Host.Outcome State Fault Refusal :=
  .next (wake (writeTable s t i e))

/-- MEMORY_KEY_LOAD (R48, R52, R62, R63). -/
def execMemoryKeyLoad (k : Nat) (key : BitVec 512) (s : State) : Host.Outcome State Fault Refusal :=
  .next (loadMemKey s k key)

/-- MEMORY_KEY_ERASE (R52, R63). -/
def execMemoryKeyErase (k : Nat) (s : State) : Host.Outcome State Fault Refusal :=
  if k ≥ 64 then .next s
  else if frozen s k then .next (emit s (.status 5))
  else .next (eraseKey s k)

/-- SET_KATTR (R52, R62, R63). -/
def execSetKattr (k : Nat) (shared : Bool) (owner : BitVec 6) (s : State) : Host.Outcome State Fault Refusal :=
  .next (putKattr s k shared owner)

/-- COPY_IN_KEY_LOAD (R92). -/
def execCopyInKeyLoad (c : Nat) (key : BitVec 256) (s : State) : Host.Outcome State Fault Refusal :=
  .next (loadCopyKey s c key)

/-- A TDISP state in the report. -/
def tdiCode : TdiState → Nat
  | .unlocked => 0
  | .locked => 1
  | .run => 2
  | .error => 3

/-- The measurements' report (R66): nonce, registers, versions, TDISP states, and KATTR of each bound context after its
number. -/
def reportBytes (s : State) (nonce : BitVec 256) : List Byte :=
  toBytes 32 nonce.toNat ++ (upFrom 16 0).flatMap (fun i => toBytes 32 (sget 0 s.pkg.mreg i).toNat)
    ++ s.pkg.versions.flatMap (toBytes 4) ++ (upFrom 64 0).map (fun k => BitVec.ofNat 8 (tdiCode (tdiAt s k).state))
    ++ ((upFrom 64 0).filter (frozen s)).flatMap (fun k => toBytes 4 k ++ toBytes 4 (kattr s k))

/-- GET_MEASUREMENTS (R66): the report with the device identity's signature. -/
def execGetMeasurements (nonce : BitVec 256) (s : State) : Host.Outcome State Fault Refusal :=
  let r := reportBytes s nonce
  .next (emit s (.report r (Config.slhSign r)))

/-- The operands of KSPAWN (R71). -/
structure Spawn where
  desc : Nat
  asid : BitVec 16
  n : Nat
  irq : Bool
  rest : Nat
  args : List Word
  counter : Nat
  deriving DecidableEq, Repr

/-- Read KSPAWN's operands (R71, R72). -/
def spawnOf (x : Service) (rs1 rs2 : Nat) : Spawn :=
  let b := readX x rs2
  { desc := readX x rs1, asid := BitVec.ofNat 16 b, n := bits b 16 3, irq := bit b 19, rest := bits b 20 44,
    args := (upFrom (bits b 16 3) 10).map fun r => BitVec.ofNat 32 (readX x r), counter := readX x 17 }

/-- The launch of a descriptor (R71, R72): a background launch of no queue, with its arguments and counter. -/
def spawnLaunch (s : State) (k ctx : Nat) (a : Spawn) (body : Nat) : Launch :=
  { launchOf s body ctx 4096 none with
    kargs := a.args, join := if a.counter = 0 then none else some (.virt ctx a.counter k),
    irq := if a.irq then some k else none }

/-- The address of the counter can be reached for an atomic (R71, R72). -/
def counterOk (s : State) (k ctx : Nat) (a : Spawn) : Bool :=
  a.counter == 0 || (counterAt s (.virt ctx a.counter k)).isSome

/-- The scheduler accepts a launch of KSPAWN once its groups are added to the counter (R72). -/
def acceptSpawn (s : State) (l : Launch) : State :=
  let s1 := match l.join with
    | some j => (addCounter s j l.total false).1
    | none => s
  { s1 with launches := mput s1.launches s1.fresh l, fresh := s1.fresh + 1 }

/-- The status of KSPAWN, and the launch it starts (R72). `busy` says that the scheduler's intake is full. Header bits 15:10 and
SWR of the descriptor, like its BAR and SEQ, are not looked at (log 23). -/
def spawn (s : State) (k : Nat) (busy : Bool) (a : Spawn) : State × Nat :=
  match ctxOfAsid s a.asid with
  | none => (s, 1)
  | some ctx =>
    if a.rest ≠ 0 || a.n > 6 || a.desc % 64 ≠ 0 || a.counter % 8 ≠ 0 then (s, 2)
    else if ctxState s ctx ≠ some .run then (s, 3)
    else match reach s ctx (initService k) a.desc 64 kRead 1 with
      | .ok pas _ =>
        let body := ofBytes (readPas s pas)
        let l := spawnLaunch s k ctx a body
        if !counterOk s k ctx a then (s, 4)
        else if busy then (s, 5)
        else if !launchOk body || !launchFits l then (s, 2)
        else (acceptSpawn s l, 0)
      | _ => (s, 4)

/-- KSPAWN's descriptor or its counter lies in memory that a relock stalls (R22). -/
def spawnStalls (s : State) (k : Nat) (a : Spawn) : Bool :=
  match ctxOfAsid s a.asid with
  | some ctx => reach s ctx (initService k) a.desc 64 kRead 1 == .stall ||
      a.counter != 0 && counterStalls s (some (.virt ctx a.counter k))
  | none => false

/-- KSPAWN (R70 to R72): the arguments are read before rd is written; in U mode it is illegal. -/
def execKspawn (rd rs1 rs2 : BitVec 5) (s : State) : Host.Outcome State Fault Refusal :=
  let k := s.issue.service
  let x := serviceAt s k
  let a := spawnOf x rs1.toNat rs2.toNat
  if x.mode = 0 then .next (serviceTrap s k causeIllegal s.issue.word0)
  else if spawnStalls s k a then .next s
  else
    let r := spawn s k s.issue.busy a
    .next (wake (setService r.1 k (retire (writeX (serviceAt r.1 k) rd.toNat r.2) (x.pc.toNat + 4))))

end Sys2Proof.Machine
end

