-- ==== Sys2Proof/Machine/Integer.lean ====
section
/-! DEFINITION. Integer, logic, shift, bit-field and move instructions (14 R332 to R336). -/

namespace Sys2Proof.Machine

/-- Leading zero bits of the low w bits (R334). -/
def clzBits (w a : Nat) : Nat := if a = 0 then w else w - (a.log2 + 1)

/-- Trailing zero bits of the low w bits (R334). -/
def ctzBits : Nat → Nat → Nat
  | 0, _ => 0
  | w + 1, a => if a % 2 = 1 then 0 else ctzBits w (a / 2) + 1

/-- The low w bits in reverse order (R334). -/
def revBits : Nat → Nat → Nat
  | 0, _ => 0
  | w + 1, a => a % 2 * 2 ^ w + revBits w (a / 2)

/-- One truth table at every one of w bit positions (R335). -/
def ternBits : Nat → Nat → Nat → Nat → Nat → Nat
  | 0, _, _, _, _ => 0
  | w + 1, lut, a, b, c =>
    bits lut (a % 2 + 2 * (b % 2) + 4 * (c % 2)) 1 + 2 * ternBits w lut (a / 2) (b / 2) (c / 2)

/-- The width 32 or 64 of a format (R334). -/
def wordBits (t : Fmt) : Nat := if fmtWide t then 64 else 32

/-- A left shift (R334). -/
def shlBits (w a s : Nat) : Nat := if s ≥ w then 0 else a * 2 ^ s % 2 ^ w

/-- A logical right shift (R334). -/
def shrBits (w a s : Nat) : Nat := if s ≥ w then 0 else a / 2 ^ s

/-- An arithmetic right shift (R334). -/
def sarBits (w a s : Nat) : Nat := wrap w (signed w a / ((2 ^ (if s ≥ w then w else s) : Nat) : Int))

/-- A left rotation (R334). -/
def rotBits (w a s : Nat) : Nat :=
  let k := s % w
  (a * 2 ^ k + a / 2 ^ (w - k)) % 2 ^ w

/-- BFX (R335). -/
def bfxBits (t : Fmt) (a pos len : Nat) : Nat :=
  if len = 0 then 0
  else
    let f := ((intOf t a / ((2 ^ pos : Nat) : Int)) % ((2 ^ len : Nat) : Int)).toNat
    if len ≥ 32 then f % 2 ^ 32 else if fmtSigned t then wrap 32 (signed len f) else f

/-- BFI (R335). -/
def bfiBits (a b pos len : Nat) : Nat :=
  if pos ≥ 32 then a
  else
    let n := Nat.min len (32 - pos)
    let field := 2 ^ pos * (2 ^ n - 1)
    a - Nat.land a field + Nat.land (b * 2 ^ pos % 2 ^ 32) field

/-- A byte of a PERM result (R335). -/
def permByte (x c : Nat) : Nat :=
  let v := bits x (8 * (c % 8)) 8
  if c / 8 % 2 = 0 then v else if v ≥ 128 then 0xFF else 0

/-- PERM (R335). -/
def permBits (a b c : Nat) : Nat :=
  let x := a + 2 ^ 32 * b
  pack [(8, permByte x (bits c 0 4)), (8, permByte x (bits c 4 4)), (8, permByte x (bits c 8 4)),
    (8, permByte x (bits c 12 4))]

/-- The 32-bit format of a narrow format's accumulator (R332). -/
def acc32 (t : Fmt) : Fmt := if fmtSigned t then .i32 else .n32

/-- The sum of the products of four bytes (R332). -/
def dot4 (t : Fmt) (a b : Nat) : Int :=
  intOf t (bits a 0 8) * intOf t (bits b 0 8) + intOf t (bits a 8 8) * intOf t (bits b 8 8)
    + intOf t (bits a 16 8) * intOf t (bits b 16 8) + intOf t (bits a 24 8) * intOf t (bits b 24 8)

/-- An integer instruction of two sources: its exact result brought into the format (R316, R317). -/
def int2 (i : Instr) (sat : Bool) (t : Fmt) (a b : Src) (f : Int → Int → Int) (s : State) :
    Host.Outcome State Fault Refusal :=
  toRegs i s fun x => do
    let va ← rdInt x t a
    let vb ← rdInt x t b
    .ok (intResult t sat (f va vb))

/-- An integer instruction of one source. -/
def int1 (i : Instr) (sat : Bool) (t : Fmt) (a : Src) (f : Int → Int) (s : State) : Host.Outcome State Fault Refusal :=
  toRegs i s fun x => do
    let va ← rdInt x t a
    .ok (intResult t sat (f va))

/-- A division, which raises INTDIV on a zero divisor (R333). -/
def intDiv (i : Instr) (sat : Bool) (t : Fmt) (a b : Src) (f : Int → Int → Int) (s : State) :
    Host.Outcome State Fault Refusal :=
  toRegs i s fun x => do
    let va ← rdInt x t a
    let vb ← rdInt x t b
    if vb = 0 then .error (intdiv x.st) else .ok (intResult t sat (f va vb))

/-- A bitwise instruction of two sources of a format. -/
def logic2 (i : Instr) (t : Fmt) (a b : Src) (f : Nat → Nat → Nat) (s : State) : Host.Outcome State Fault Refusal :=
  toRegs i s fun x => do
    let va ← rd x t a
    let vb ← rd x t b
    .ok (f va vb)

/-- A shift: the amount is one 32-bit operand (R334). -/
def shift2 (i : Instr) (t : Fmt) (a b : Src) (f : Nat → Nat → Nat → Nat) (s : State) :
    Host.Outcome State Fault Refusal :=
  toRegs i s fun x => do
    let va ← rd x t a
    let vb ← rdN x b
    .ok (f (wordBits t) va vb)

/-- A bitwise instruction of one source. -/
def logic1 (i : Instr) (t : Fmt) (a : Src) (f : Nat → Nat → Nat) (s : State) : Host.Outcome State Fault Refusal :=
  toRegs i s fun x => do
    let va ← rd x t a
    .ok (f (wordBits t) va)

/-- A bit instruction of three 32-bit sources (R335). -/
def bits3 (i : Instr) (a b c : Src) (f : Nat → Nat → Nat → Nat) (s : State) : Host.Outcome State Fault Refusal :=
  toRegs i s fun x => do
    let va ← rdN x a
    let vb ← rdN x b
    let vc ← rdN x c
    .ok (f va vb vc)

/-- IADD (R332). -/
def execIadd (h : Head) (sat : Bool) (ty : Fmt) (a b : Src) (s : State) :
    Host.Outcome State Fault Refusal :=
  int2 (.iadd h sat ty a b) sat ty a b (· + ·) s

/-- ISUB (R332). -/
def execIsub (h : Head) (sat : Bool) (ty : Fmt) (a b : Src) (s : State) :
    Host.Outcome State Fault Refusal :=
  int2 (.isub h sat ty a b) sat ty a b (· - ·) s

/-- IMUL (R332). -/
def execImul (h : Head) (sat : Bool) (ty : Fmt) (a b : Src) (s : State) :
    Host.Outcome State Fault Refusal :=
  int2 (.imul h sat ty a b) sat ty a b (· * ·) s

/-- IMULH (R332): the floor always fits. -/
def execImulh (h : Head) (sat : Bool) (ty : Fmt) (a b : Src) (s : State) :
    Host.Outcome State Fault Refusal :=
  int2 (.imulh h sat ty a b) sat ty a b (fun x y => x * y / ((2 ^ fmtBits ty : Nat) : Int)) s

/-- IMIN (R332). -/
def execImin (h : Head) (sat : Bool) (ty : Fmt) (a b : Src) (s : State) :
    Host.Outcome State Fault Refusal :=
  int2 (.imin h sat ty a b) sat ty a b (fun x y => if x < y then x else y) s

/-- IMAX (R332). -/
def execImax (h : Head) (sat : Bool) (ty : Fmt) (a b : Src) (s : State) :
    Host.Outcome State Fault Refusal :=
  int2 (.imax h sat ty a b) sat ty a b (fun x y => if x > y then x else y) s

/-- IDIV (R333): toward zero. -/
def execIdiv (h : Head) (sat : Bool) (ty : Fmt) (a b : Src) (s : State) :
    Host.Outcome State Fault Refusal :=
  intDiv (.idiv h sat ty a b) sat ty a b Int.tdiv s

/-- IREM (R333): the sign of the dividend. -/
def execIrem (h : Head) (sat : Bool) (ty : Fmt) (a b : Src) (s : State) :
    Host.Outcome State Fault Refusal :=
  intDiv (.irem h sat ty a b) sat ty a b Int.tmod s

/-- IABS (R332). -/
def execIabs (h : Head) (sat : Bool) (ty : Fmt) (a : Src) (s : State) :
    Host.Outcome State Fault Refusal :=
  int1 (.iabs h sat ty a) sat ty a (fun x => if x < 0 then -x else x) s

/-- INEG (R332). -/
def execIneg (h : Head) (sat : Bool) (ty : Fmt) (a : Src) (s : State) :
    Host.Outcome State Fault Refusal :=
  int1 (.ineg h sat ty a) sat ty a (fun x => -x) s

/-- IMAD (R332). -/
def execImad (h : Head) (sat : Bool) (ty : Fmt) (a b c : Src) (s : State) :
    Host.Outcome State Fault Refusal :=
  toRegs (.imad h sat ty a b c) s fun x => do
    let va ← rdInt x ty a
    let vb ← rdInt x ty b
    let vc ← rdInt x ty c
    .ok (intResult ty sat (va * vb + vc))

/-- ISAD (R332). -/
def execIsad (h : Head) (sat : Bool) (ty : Fmt) (a b c : Src) (s : State) :
    Host.Outcome State Fault Refusal :=
  toRegs (.isad h sat ty a b c) s fun x => do
    let va ← rdInt x ty a
    let vb ← rdInt x ty b
    let vc ← rdInt x (acc32 ty) c
    .ok (wrap 32 ((if va < vb then vb - va else va - vb) + vc))

/-- IDOT4 (R332). -/
def execIdot4 (h : Head) (sat : Bool) (ty : Fmt) (a b c : Src) (s : State) :
    Host.Outcome State Fault Refusal :=
  toRegs (.idot4 h sat ty a b c) s fun x => do
    let va ← rdN x a
    let vb ← rdN x b
    let vc ← rdInt x (acc32 ty) c
    .ok (intResult (acc32 ty) sat (vc + dot4 ty va vb))

/-- ICLAMP (R332): c wins when b > c. -/
def execIclamp (h : Head) (sat : Bool) (ty : Fmt) (a b c : Src) (s : State) :
    Host.Outcome State Fault Refusal :=
  toRegs (.iclamp h sat ty a b c) s fun x => do
    let va ← rdInt x ty a
    let vb ← rdInt x ty b
    let vc ← rdInt x ty c
    let m := if va > vb then va else vb
    .ok (intResult ty sat (if m < vc then m else vc))

/-- IMULW (R332): a 64-bit product. -/
def execImulw (h : Head) (sat : Bool) (ty : Fmt) (a b : Src) (s : State) :
    Host.Outcome State Fault Refusal :=
  toRegs (.imulw h sat ty a b) s fun x => do
    let va ← rdInt x ty a
    let vb ← rdInt x ty b
    .ok (wrap 64 (va * vb))

/-- AND (R334). -/
def execAnd (h : Head) (ty : Fmt) (a b : Src) (s : State) :
    Host.Outcome State Fault Refusal :=
  logic2 (.and h ty a b) ty a b Nat.land s

/-- OR (R334). -/
def execOr (h : Head) (ty : Fmt) (a b : Src) (s : State) :
    Host.Outcome State Fault Refusal :=
  logic2 (.or h ty a b) ty a b Nat.lor s

/-- XOR (R334). -/
def execXor (h : Head) (ty : Fmt) (a b : Src) (s : State) :
    Host.Outcome State Fault Refusal :=
  logic2 (.xor h ty a b) ty a b Nat.xor s

/-- SHL (R334). -/
def execShl (h : Head) (ty : Fmt) (a b : Src) (s : State) :
    Host.Outcome State Fault Refusal :=
  shift2 (.shl h ty a b) ty a b shlBits s

/-- SHR (R334). -/
def execShr (h : Head) (ty : Fmt) (a b : Src) (s : State) :
    Host.Outcome State Fault Refusal :=
  shift2 (.shr h ty a b) ty a b shrBits s

/-- SAR (R334). -/
def execSar (h : Head) (ty : Fmt) (a b : Src) (s : State) :
    Host.Outcome State Fault Refusal :=
  shift2 (.sar h ty a b) ty a b sarBits s

/-- ROT (R334). -/
def execRot (h : Head) (ty : Fmt) (a b : Src) (s : State) :
    Host.Outcome State Fault Refusal :=
  shift2 (.rot h ty a b) ty a b rotBits s

/-- NOT (R334). -/
def execNot (h : Head) (ty : Fmt) (a : Src) (s : State) :
    Host.Outcome State Fault Refusal :=
  logic1 (.not h ty a) ty a (fun w x => 2 ^ w - 1 - x) s

/-- POPC (R334). -/
def execPopc (h : Head) (ty : Fmt) (a : Src) (s : State) :
    Host.Outcome State Fault Refusal :=
  logic1 (.popc h ty a) ty a popCount s

/-- CLZ (R334). -/
def execClz (h : Head) (ty : Fmt) (a : Src) (s : State) :
    Host.Outcome State Fault Refusal :=
  logic1 (.clz h ty a) ty a clzBits s

/-- CTZ (R334). -/
def execCtz (h : Head) (ty : Fmt) (a : Src) (s : State) :
    Host.Outcome State Fault Refusal :=
  logic1 (.ctz h ty a) ty a ctzBits s

/-- BREV (R334). -/
def execBrev (h : Head) (ty : Fmt) (a : Src) (s : State) :
    Host.Outcome State Fault Refusal :=
  logic1 (.brev h ty a) ty a revBits s

/-- BFX (R335). -/
def execBfx (h : Head) (ty : Fmt) (a b c : Src) (s : State) :
    Host.Outcome State Fault Refusal :=
  bits3 (.bfx h ty a b c) a b c (fun x y z => bfxBits ty x (y % 256) (z % 256)) s

/-- BFI (R335). -/
def execBfi (h : Head) (a b c : Src) (s : State) :
    Host.Outcome State Fault Refusal :=
  bits3 (.bfi h a b c) a b c (fun x y z => bfiBits x y (z % 256) (bits z 8 8)) s

/-- TERN (R335). -/
def execTern (h : Head) (lut : BitVec 8) (a b c : Src) (s : State) :
    Host.Outcome State Fault Refusal :=
  bits3 (.tern h lut a b c) a b c (ternBits 32 lut.toNat) s

/-- SHF (R335). -/
def execShf (h : Head) (dir : Bool) (a b c : Src) (s : State) :
    Host.Outcome State Fault Refusal :=
  bits3 (.shf h dir a b c) a b c (fun x y z =>
    let v := x + 2 ^ 32 * y
    let n := Nat.min z 32
    if dir then v * 2 ^ n / 2 ^ 32 % 2 ^ 32 else v / 2 ^ n % 2 ^ 32) s

/-- PERM (R335). -/
def execPerm (h : Head) (a b c : Src) (s : State) :
    Host.Outcome State Fault Refusal :=
  bits3 (.perm h a b c) a b c permBits s

/-- MOV (R336). -/
def execMov (h : Head) (ty : Fmt) (a : Src) (s : State) :
    Host.Outcome State Fault Refusal :=
  toRegs (.mov h ty a) s fun x => rd x ty a

/-- LEA (R336). -/
def execLea (h : Head) (sh : BitVec 5) (ty : Fmt) (a b : Src) (s : State) :
    Host.Outcome State Fault Refusal :=
  toRegs (.lea h sh ty a b) s fun x => do
    let va ← rd x ty a
    let vb ← rdN x b
    let e : Int := if ty = .i64 then signed 32 vb else (vb : Int)
    .ok (wrap (wordBits ty) ((va : Int) + e * ((2 ^ sh.toNat : Nat) : Int)))

/-- IEXT (R336). -/
def execIext (h : Head) (wide : Bool) (ty : Fmt) (a : Src) (s : State) :
    Host.Outcome State Fault Refusal :=
  toRegs (.iext h wide ty a) s fun x => do
    let va ← rdInt x ty a
    .ok (wrap (if wide then 64 else 32) va)

end Sys2Proof.Machine
end

