-- ==== Sys2Proof/Machine/Riscv.lean ====
section
/-! DEFINITION. The service cores' instructions: RV64IMAC with Zicsr and Zifencei, as R67 names them (log 3), their accesses to memory
and registers (03 R61, R69; 09 R226), and the stores of lanes and service cores at their homes (08 R190). -/

namespace Sys2Proof.Machine

/-- A value of n bits, sign-extended to 64. -/
def sx (n v : Nat) : Nat := wrap 64 (signed n v)

/-- A 64-bit sum. -/
def plus (a b : Nat) : Nat := (a + b) % 2 ^ 64

/-- The immediates of a word, sign-extended. -/
def immI (w : Nat) : Nat := sx 12 (bits w 20 12)
def immS (w : Nat) : Nat := sx 12 (pack [(5, bits w 7 5), (7, bits w 25 7)])
def immB (w : Nat) : Nat := sx 13 (pack [(1, 0), (4, bits w 8 4), (6, bits w 25 6), (1, bits w 7 1), (1, bits w 31 1)])
def immU (w : Nat) : Nat := sx 32 (pack [(12, 0), (20, bits w 12 20)])
def immJ (w : Nat) : Nat := sx 21 (pack [(1, 0), (10, bits w 21 10), (1, bits w 20 1), (8, bits w 12 8), (1, bits w 31 1)])

/-- Words of the instruction formats R, I, S, B, U and J, which compressed instructions stand for. -/
def wordR (op rd f3 rs1 rs2 f7 : Nat) : Nat := pack [(7, op), (5, rd), (3, f3), (5, rs1), (5, rs2), (7, f7)]
def wordI (op rd f3 rs1 imm : Nat) : Nat := pack [(7, op), (5, rd), (3, f3), (5, rs1), (12, imm % 4096)]
def wordS (f3 rs1 rs2 imm : Nat) : Nat :=
  pack [(7, 0x23), (5, bits imm 0 5), (3, f3), (5, rs1), (5, rs2), (7, bits imm 5 7)]
def wordB (f3 rs1 imm : Nat) : Nat :=
  pack [(7, 0x63), (1, bits imm 11 1), (4, bits imm 1 4), (3, f3), (5, rs1), (5, 0), (6, bits imm 5 6), (1, bits imm 12 1)]
def wordU (op rd imm : Nat) : Nat := pack [(7, op), (5, rd), (20, imm)]
def wordJ (rd imm : Nat) : Nat :=
  pack [(7, 0x6F), (5, rd), (8, bits imm 12 8), (1, bits imm 11 1), (10, bits imm 1 10), (1, bits imm 20 1)]

/-- Compressed instructions of quadrant 0: stack addresses, and loads and stores by the registers x8 to x15. -/
def expand0 (c : Nat) : Option Nat :=
  let rd := 8 + bits c 2 3
  let rs := 8 + bits c 7 3
  let off4 := pack [(2, 0), (1, bits c 6 1), (3, bits c 10 3), (1, bits c 5 1)]
  let off8 := pack [(3, 0), (3, bits c 10 3), (2, bits c 5 2)]
  match bits c 13 3 with
  | 0 =>
    let n := pack [(2, 0), (1, bits c 6 1), (1, bits c 5 1), (2, bits c 11 2), (4, bits c 7 4)]
    if n = 0 then none else some (wordI 0x13 rd 0 2 n)
  | 2 => some (wordI 0x03 rd 2 rs off4)
  | 3 => some (wordI 0x03 rd 3 rs off8)
  | 6 => some (wordS 2 rs rd off4)
  | 7 => some (wordS 3 rs rd off8)
  | _ => none

/-- The arithmetic of quadrant 1 on the registers x8 to x15. -/
def expandAlu (c : Nat) : Option Nat :=
  let rd := 8 + bits c 7 3
  let rs := 8 + bits c 2 3
  let n := pack [(5, bits c 2 5), (1, bits c 12 1)]
  match bits c 10 2, bits c 12 1, bits c 5 2 with
  | 0, _, _ => some (wordI 0x13 rd 5 rd n)
  | 1, _, _ => some (wordI 0x13 rd 5 rd (n + 0x400))
  | 2, _, _ => some (wordI 0x13 rd 7 rd (sx 6 n))
  | _, 0, 0 => some (wordR 0x33 rd 0 rd rs 0x20)
  | _, 0, 1 => some (wordR 0x33 rd 4 rd rs 0)
  | _, 0, 2 => some (wordR 0x33 rd 6 rd rs 0)
  | _, 0, _ => some (wordR 0x33 rd 7 rd rs 0)
  | _, _, 0 => some (wordR 0x3B rd 0 rd rs 0x20)
  | _, _, 1 => some (wordR 0x3B rd 0 rd rs 0)
  | _, _, _ => none

/-- Compressed instructions of quadrant 1: immediates, arithmetic, jumps and branches. -/
def expand1 (c : Nat) : Option Nat :=
  let rd := bits c 7 5
  let n := pack [(5, bits c 2 5), (1, bits c 12 1)]
  let far := pack [(1, 0), (3, bits c 3 3), (1, bits c 11 1), (1, bits c 2 1), (1, bits c 7 1), (1, bits c 6 1),
    (2, bits c 9 2), (1, bits c 8 1), (1, bits c 12 1)]
  let near := pack [(1, 0), (2, bits c 3 2), (2, bits c 10 2), (1, bits c 2 1), (2, bits c 5 2), (1, bits c 12 1)]
  let sp := pack [(4, 0), (1, bits c 6 1), (1, bits c 2 1), (1, bits c 5 1), (2, bits c 3 2), (1, bits c 12 1)]
  match bits c 13 3 with
  | 0 => some (wordI 0x13 rd 0 rd (sx 6 n))
  | 1 => if rd = 0 then none else some (wordI 0x1B rd 0 rd (sx 6 n))
  | 2 => some (wordI 0x13 rd 0 0 (sx 6 n))
  | 3 =>
    if n = 0 then none
    else if rd = 2 then some (wordI 0x13 2 0 2 (sx 10 sp))
    else some (wordU 0x37 rd (sx 6 n % 2 ^ 20))
  | 4 => expandAlu c
  | 5 => some (wordJ 0 (sx 12 far))
  | 6 => some (wordB 0 (8 + bits c 7 3) (sx 9 near))
  | _ => some (wordB 1 (8 + bits c 7 3) (sx 9 near))

/-- Compressed instructions of quadrant 2: shifts, jumps by register, moves, and loads and stores by the stack pointer. -/
def expand2 (c : Nat) : Option Nat :=
  let rd := bits c 7 5
  let rs := bits c 2 5
  match bits c 13 3 with
  | 0 => some (wordI 0x13 rd 1 rd (pack [(5, rs), (1, bits c 12 1)]))
  | 2 =>
    if rd = 0 then none
    else some (wordI 0x03 rd 2 2 (pack [(2, 0), (3, bits c 4 3), (1, bits c 12 1), (2, bits c 2 2)]))
  | 3 =>
    if rd = 0 then none
    else some (wordI 0x03 rd 3 2 (pack [(3, 0), (2, bits c 5 2), (1, bits c 12 1), (3, bits c 2 3)]))
  | 4 =>
    if rs = 0 then
      if rd = 0 then (if bit c 12 then some 0x100073 else none) else some (wordI 0x67 (bits c 12 1) 0 rd 0)
    else some (wordR 0x33 rd 0 (if bit c 12 then rd else 0) rs 0)
  | 6 => some (wordS 2 2 rs (pack [(2, 0), (4, bits c 9 4), (2, bits c 7 2)]))
  | 7 => some (wordS 3 2 rs (pack [(3, 0), (3, bits c 10 3), (3, bits c 7 3)]))
  | _ => none

/-- The instruction a compressed one stands for; none for a reserved one, and for those of the floating-point registers, which
the core has not. -/
def expandC (c : Nat) : Option Nat :=
  match c % 4 with
  | 0 => expand0 c
  | 1 => expand1 c
  | _ => expand2 c

/-- The arithmetic of funct3 on 64 bits; `alt` picks subtraction and the arithmetic shift. -/
def alu64 (f3 : Nat) (alt : Bool) (a b : Nat) : Nat :=
  match f3 with
  | 0 => if alt then plus a (2 ^ 64 - b) else plus a b
  | 1 => a * 2 ^ (b % 64) % 2 ^ 64
  | 2 => flag (signed 64 a < signed 64 b)
  | 3 => flag (a < b)
  | 4 => Nat.xor a b
  | 5 => if alt then wrap 64 (signed 64 a / (2 ^ (b % 64) : Nat)) else a / 2 ^ (b % 64)
  | 6 => Nat.lor a b
  | _ => Nat.land a b

/-- The same on 32 bits: addition, subtraction and shifts, sign-extended. -/
def alu32 (f3 : Nat) (alt : Bool) (a b : Nat) : Nat :=
  sx 32 (match f3 with
    | 0 => if alt then a + (2 ^ 64 - b) else a + b
    | 1 => a * 2 ^ (b % 32)
    | _ => if alt then wrap 32 (signed 32 a / (2 ^ (b % 32) : Nat)) else a % 2 ^ 32 / 2 ^ (b % 32))

/-- Division and remainder of width w: by zero the quotient is all ones and the remainder the dividend. -/
def divide (w f3 a b : Nat) : Nat :=
  let ua := a % 2 ^ w
  let ub := b % 2 ^ w
  if ub = 0 then (if f3 < 6 then 2 ^ w - 1 else ua)
  else match f3 with
    | 4 => wrap w ((signed w a).tdiv (signed w b))
    | 5 => ua / ub
    | 6 => wrap w ((signed w a).tmod (signed w b))
    | _ => ua % ub

/-- The multiplications and divisions of extension M on 64 bits. -/
def mul64 (f3 a b : Nat) : Nat :=
  match f3 with
  | 0 => a * b % 2 ^ 64
  | 1 => wrap 64 (signed 64 a * signed 64 b / (2 ^ 64 : Nat))
  | 2 => wrap 64 (signed 64 a * (b : Int) / (2 ^ 64 : Nat))
  | 3 => a * b / 2 ^ 64
  | _ => divide 64 f3 a b

/-- Those of extension M on 32 bits, sign-extended. -/
def mul32 (f3 a b : Nat) : Nat := sx 32 (if f3 = 0 then a * b else divide 32 f3 a b)

/-- A branch of funct3 is taken. -/
def taken (f3 a b : Nat) : Bool :=
  match f3 with
  | 0 => a == b
  | 1 => a != b
  | 4 => decide (signed 64 a < signed 64 b)
  | 5 => decide (signed 64 b ≤ signed 64 a)
  | 6 => decide (a < b)
  | _ => decide (b ≤ a)

/-- The new value of an AMO's memory operand of w bits. -/
def amoNew (f w a b : Nat) : Nat :=
  let lt := fun (s : Bool) => if s then decide (signed w a < signed w b) else decide (a % 2 ^ w < b % 2 ^ w)
  (match f with
   | 0x00 => a + b
   | 0x01 => b
   | 0x04 => Nat.xor a b
   | 0x08 => Nat.lor a b
   | 0x0C => Nat.land a b
   | 0x10 => if lt true then a else b
   | 0x14 => if lt true then b else a
   | 0x18 => if lt false then a else b
   | _ => if lt false then b else a) % 2 ^ w

/-- What an instruction does, with its operands read. -/
inductive Deed where
  | write (rd v : Nat)
  | jump (rd link target : Nat)
  | load (rd addr size : Nat) (signed : Bool)
  | store (addr size v : Nat)
  | reserve (rd addr size : Nat)
  | conditional (rd addr size v : Nat) (rl : Bool)
  | amo (rd addr size f v : Nat) (rl : Bool)
  /-- funct3, number, destination, whether it writes, and the operand -/
  | csr (f3 n rd : Nat) (writes : Bool) (v : Nat)
  | ecall
  | ebreak
  | mret
  | sret
  | sfence
  | illegal
  deriving DecidableEq, Repr

/-- OP and OP-IMM, with their 32-bit kinds. -/
def aluDeed (w rd a b : Nat) (reg half : Bool) : Deed :=
  let f3 := bits w 12 3
  let f7 := if reg || half then bits w 25 7 else bits w 26 6 * 2
  let shift := f3 = 1 || f3 = 5
  let fits := !half || f3 = 0 || shift
  if reg && f7 = 1 then
    if !half then .write rd (mul64 f3 a b)
    else if f3 = 0 || f3 ≥ 4 then .write rd (mul32 f3 a b) else .illegal
  else if !fits then .illegal
  else if !reg && !shift then .write rd (if half then alu32 f3 false a b else alu64 f3 false a b)
  else if f7 = 0 || (f7 = 0x20 && (f3 = 5 || (reg && f3 = 0))) then
    .write rd (if half then alu32 f3 (f7 = 0x20) a b else alu64 f3 (f7 = 0x20) a b)
  else .illegal

/-- Extension A. -/
def atomicDeed (w rd a b : Nat) : Deed :=
  let f3 := bits w 12 3
  let size := 2 ^ f3
  let f := bits w 27 5
  if f3 ≠ 2 ∧ f3 ≠ 3 then .illegal
  else if f = 2 then (if bits w 20 5 = 0 then .reserve rd a size else .illegal)
  else if f = 3 then .conditional rd a size b (bit w 25)
  else if f ≤ 1 ∨ f % 4 = 0 then .amo rd a size f b (bit w 25)
  else .illegal

/-- The SYSTEM instructions. -/
def systemDeed (x : Service) (w rd : Nat) : Deed :=
  let f3 := bits w 12 3
  if w = 0x73 then .ecall
  else if w = 0x100073 then .ebreak
  else if w = 0x10500073 then .write 0 0
  else if w = 0x30200073 then .mret
  else if w = 0x10200073 then .sret
  else if f3 = 0 then (if rd = 0 ∧ bits w 25 7 = 9 then .sfence else .illegal)
  else if f3 = 4 then .illegal
  else
    let r := bits w 15 5
    .csr (f3 % 4) (bits w 20 12) rd (f3 % 4 = 1 || r ≠ 0) (if f3 > 4 then r else readX x r)

/-- What a word of n bytes at the pc does. -/
def deedOf (x : Service) (n w : Nat) : Deed :=
  let pc := x.pc.toNat
  let rd := bits w 7 5
  let f3 := bits w 12 3
  let a := readX x (bits w 15 5)
  let b := readX x (bits w 20 5)
  match bits w 0 7 with
  | 0x37 => .write rd (immU w)
  | 0x17 => .write rd (plus pc (immU w))
  | 0x6F => .jump rd (plus pc n) (plus pc (immJ w))
  | 0x67 => if f3 = 0 then .jump rd (plus pc n) (plus a (immI w) / 2 * 2) else .illegal
  | 0x63 =>
    if f3 = 2 ∨ f3 = 3 then .illegal else if taken f3 a b then .jump 0 0 (plus pc (immB w)) else .write 0 0
  | 0x03 => if f3 = 7 then .illegal else .load rd (plus a (immI w)) (2 ^ (f3 % 4)) (f3 < 4)
  | 0x23 => if f3 < 4 then .store (plus a (immS w)) (2 ^ f3) b else .illegal
  | 0x13 => aluDeed w rd a (if f3 = 1 ∨ f3 = 5 then bits w 20 6 else immI w) false false
  | 0x1B => aluDeed w rd a (if f3 = 1 ∨ f3 = 5 then bits w 20 5 else immI w) false true
  | 0x33 => aluDeed w rd a b true false
  | 0x3B => aluDeed w rd a b true true
  | 0x0F => if f3 ≤ 1 then .write 0 0 else .illegal
  | 0x2F => atomicDeed w rd a b
  | 0x73 => systemDeed x w rd
  | _ => .illegal

/-- What an access of a service core meets: nothing in its way, a relock that stalls it (R22), or an exception. -/
inductive Met where
  | clear
  | stall
  | trap (cause : Nat)
  deriving DecidableEq, Repr

/-- A service core's access of n bytes: aligned, permitted (R61), and not stalled. -/
def meets (s : State) (k pa n kindBit misaligned : Nat) : Met :=
  if pa % n ≠ 0 then .trap misaligned
  else if !servicePermitted s k pa n kindBit then .trap causeLoadFault
  else if homeStalls s pa then .stall
  else .clear

/-- A byte that a service core reads (R136, R436), as a free value where the memory reports an error (log 15). -/
def serviceByte (s : State) (pa : Nat) : Byte :=
  if isMemory (region s pa) && badAt s pa then Config.freeByte (s.free + pa % 8) else readFrame s pa

/-- n bytes that a service core reads, as a number. -/
def serviceNum (s : State) (pa n : Nat) : Nat := ofBytes ((upFrom n pa).map (serviceByte s))

/-- The bytes of an entry pair after a store to some of them. -/
def pairAfter (s : State) (leaf pa : Nat) (l : List Byte) : Nat :=
  let old := (upFrom 16 leaf).map (readFrame s)
  ofBytes (old.take (pa - leaf) ++ l ++ old.drop (pa - leaf + l.length))

/-- A service core's store of bytes within one granule, where it is permitted (R136, R146, R226, R436): false where it ends in a
store access fault. -/
def serviceStore (s : State) (k pa : Nat) (l : List Byte) (release : Bool) : State × Bool :=
  match region s pa with
  | .hole => (s, true)
  | .mgmt off => (writeRegs (l.length + 1) s (.service k) .mgmt off l, true)
  | .queue q off => (writeRegs (l.length + 1) s (.service k) (.queue q) off l, true)
  | _ => match entryPair s pa with
    | some e =>
      let n := pairAfter s e.1 pa l
      ownEntry s e.1 e.2 (bits n 0 64) (bits n 64 64)
    | none => match frameView s pa with
      | some v => (storeHome s v pa l release, true)
      | none => (s, true)

/-- A service core's instruction completes with a result. -/
def finishX (s : State) (k n rd v : Nat) : State :=
  let x := serviceAt s k
  setService s k (retire (writeX x rd v) (x.pc.toNat + n))

/-- A store that completes with a result, or in a store access fault. -/
def finishStore (r : State × Bool) (k n rd v pa : Nat) : State :=
  if r.2 then finishX r.1 k n rd v else serviceTrap r.1 k causeStoreFault pa

/-- An access that is clear, or what stands in its way. -/
def whenClear (s : State) (k pa : Nat) (m : Met) (f : State) : State :=
  match m with
  | .clear => f
  | .stall => s
  | .trap c => serviceTrap s k c pa

/-- A Zicsr instruction: reading a CSR that is not there, from too low a mode, or writing one that is read-only, is illegal. -/
def runCsr (s : State) (k n w f3 num rd : Nat) (writes : Bool) (v : Nat) : State :=
  let x := serviceAt s k
  match readCsr k (Config.freeValue s.free).toNat x num with
  | none => serviceTrap s k causeIllegal w
  | some old =>
    if !csrAllowed x num || (writes && bits num 10 2 == 3) then serviceTrap s k causeIllegal w
    else
      let new := match f3 with
        | 1 => v
        | 2 => Nat.lor old v
        | _ => old - Nat.land old v
      let y := retire x (x.pc.toNat + n)
      setService { s with free := s.free + 1 } k (writeX (if writes then writeCsrX y num new else y) rd old)

/-- The mode may do what a SYSTEM instruction asks. -/
def mayDo (x : Service) : Deed → Bool
  | .mret => x.mode = 3
  | .sret => x.mode = 3 || (x.mode = 1 && !bit x.mstatus.toNat 22)
  | .sfence => x.mode = 3 || (x.mode = 1 && !bit x.mstatus.toNat 20)
  | _ => true

/-- A service core does what its instruction of n bytes says; `w` is the word as fetched. -/
def doDeed (s : State) (k n w : Nat) (d : Deed) : State :=
  let x := serviceAt s k
  if !mayDo x d then serviceTrap s k causeIllegal w
  else match d with
    | .write rd v => finishX s k n rd v
    | .jump rd link target => setService s k (retire (writeX x rd link) target)
    | .load rd pa size sg =>
      let v := serviceNum s pa size
      whenClear s k pa (meets s k pa size 1 causeLoadMisaligned)
        (finishX { s with free := s.free + 8 } k n rd (if sg then sx (8 * size) v else v))
    | .store pa size v =>
      whenClear s k pa (meets s k pa size 2 causeStoreMisaligned)
        (finishStore (serviceStore s k pa (toBytes size v) false) k n 0 0 pa)
    | .reserve rd pa size =>
      let y := { x with resv := some (pa / 8 * 8, size) }
      whenClear s k pa (meets s k pa size 1 causeLoadMisaligned)
        (finishX { setService s k y with free := s.free + 8 } k n rd (sx (8 * size) (serviceNum s pa size)))
    | .conditional rd pa size v rl =>
      let s1 := setService s k { x with resv := none }
      whenClear s k pa (meets s k pa size 2 causeStoreMisaligned)
        (if x.resv = some (pa / 8 * 8, size) then
          finishStore (serviceStore s1 k pa (toBytes size v) rl) k n rd 0 pa
         else finishX s1 k n rd 1)
    | .amo rd pa size f v rl =>
      let old := serviceNum s pa size
      let new := toBytes size (amoNew f (8 * size) old v)
      if pa % size = 0 && !isMemory (region s pa) then serviceTrap s k causeStoreFault pa
      else whenClear s k pa (meets s k pa size 3 causeStoreMisaligned)
        (finishStore (serviceStore { s with free := s.free + 8 } k pa new rl) k n rd (sx (8 * size) old) pa)
    | .csr f3 num rd writes v => runCsr s k n w f3 num rd writes v
    | .ecall => serviceTrap s k (8 + x.mode) 0
    | .ebreak => serviceTrap s k causeBreak x.pc.toNat
    | .mret => setService s k { returnM x with instret := x.instret + 1 }
    | .sret => setService s k { returnS x with instret := x.instret + 1 }
    | .sfence => finishX s k n 0 0
    | .illegal => serviceTrap s k causeIllegal w

/-- A service core runs a word of four bytes (R67, R70). -/
def runWord (s : State) (k : Nat) (busy : Bool) (w : Nat) : Prepared :=
  match decodeService w with
  | .kspawn i => .run i { s with issue := { Issue.reset with service := k, word0 := w, busy := busy } }
  | .illegal => .idle (serviceTrap s k causeIllegal w)
  | .base => .idle (wake (doDeed s k 4 w (deedOf (serviceAt s k) 4 w)))

/-- A service core runs a compressed instruction. -/
def runShort (s : State) (k c : Nat) : State :=
  match expandC c with
  | none => serviceTrap s k causeIllegal c
  | some w => wake (doDeed s k 2 c (deedOf (serviceAt s k) 2 w))

/-- A service core takes an interrupt, or fetches at its pc and runs what it finds (R61, R67, R69, R73); without power none runs
(R25). -/
def prepareService (s : State) (k : Nat) (busy : Bool) : Prepared :=
  let x := serviceAt s k
  let pc := x.pc.toNat
  if k ≥ 16 || !s.pkg.power then .idle s
  else match irqNow x with
    | some i => .idle (setService s k (takeIrq x i))
    | none => match meets s k pc 2 1 causeLoadMisaligned with
      | .stall => .idle s
      | .trap c => .idle (serviceTrap s k c pc)
      | .clear =>
        let lo := serviceNum s pc 2
        let s1 := { s with free := s.free + 8 }
        if lo % 4 ≠ 3 then .idle (runShort s1 k lo)
        else match meets s k (pc + 2) 2 1 causeLoadMisaligned with
          | .stall => .idle s
          | .trap c => .idle (serviceTrap s k c (pc + 2))
          | .clear => runWord s1 k busy (lo + 65536 * serviceNum s (pc + 2) 2)

/-- Bytes stored by a service core, each run of 8 bytes at its home in turn; false where one ends in a store access fault. -/
def serviceStores : Nat → State → Nat → Nat → List Byte → State × Bool
  | 0, s, _, _, _ => (s, true)
  | fuel + 1, s, k, pa, l =>
    if l.isEmpty then (s, true)
    else
      let m := 8 - pa % 8
      let r := serviceStore s k pa (l.take m) false
      if r.2 then serviceStores fuel r.1 k (pa + m) (l.drop m) else r

/-- HOME_STORE (R22, R61, R190): an outstanding store of a lane, or a service core's store (R226). -/
def execHomeStore (by_ : StoreBy) (s : State) : Host.Outcome State Fault Refusal :=
  match by_ with
  | .lane gh idx =>
    match mfind s.groups gh with
    | none => .next s
    | some g => match g.pend[idx]? with
      | none => .next s
      | some a =>
        if a.op == .store && mayPerform s gh g a && !homesStall s a.pas then
          .next (afterAccess (performAccess s gh idx) gh)
        else .next s
  | .service k pa bytes =>
    if k ≥ 16 then .next s
    else if !servicePermitted s k pa bytes.length 2 then .next (serviceTrap s k causeLoadFault pa)
    else if (upFrom bytes.length pa).any (homeStalls s) then .next s
    else
      let r := serviceStores (bytes.length / 8 + 2) s k pa bytes
      .next (wake (if r.2 then r.1 else serviceTrap r.1 k causeStoreFault pa))

end Sys2Proof.Machine
end

