-- ==== Sys2Proof/Machine/Dispatch.lean ====
section
/-! DEFINITION. The meaning of each instruction: one arm per constructor. -/

namespace Sys2Proof.Machine

def exec (i : Instr) (s : State) : Host.Outcome State Fault Refusal :=
  match i with
  | .powerOff => Sys2Proof.Machine.execPowerOff s
  | .perstRelease b => Sys2Proof.Machine.execPerstRelease b s
  | .applyPartition p roles => Sys2Proof.Machine.execApplyPartition p roles s
  | .roleChangeRequest layer role => Sys2Proof.Machine.execRoleChangeRequest layer role s
  | .layerDrainComplete layer moves => Sys2Proof.Machine.execLayerDrainComplete layer moves s
  | .layerFlushComplete layer => Sys2Proof.Machine.execLayerFlushComplete layer s
  | .layerReenumComplete layer => Sys2Proof.Machine.execLayerReenumComplete layer s
  | .coreFailure loss => Sys2Proof.Machine.execCoreFailure loss s
  | .spareTakeover core => Sys2Proof.Machine.execSpareTakeover core s
  | .freqRequest island c => Sys2Proof.Machine.execFreqRequest island c s
  | .relockEnd island => Sys2Proof.Machine.execRelockEnd island s
  | .powerSample milliwatts => Sys2Proof.Machine.execPowerSample milliwatts s
  | .powerStepDown => Sys2Proof.Machine.execPowerStepDown s
  | .powerStepUp => Sys2Proof.Machine.execPowerStepUp s
  | .valobKeyLoad port transmit slot key => Sys2Proof.Machine.execValobKeyLoad port transmit slot key s
  | .portEnable port asid => Sys2Proof.Machine.execPortEnable port asid s
  | .portDisable port => Sys2Proof.Machine.execPortDisable port s
  | .trainDone ends => Sys2Proof.Machine.execTrainDone ends s
  | .phyLockLoss port lostFor => Sys2Proof.Machine.execPhyLockLoss port lostFor s
  | .switch port => Sys2Proof.Machine.execSwitch port s
  | .flitSend port f => Sys2Proof.Machine.execFlitSend port f s
  | .iclimitTimeout port => Sys2Proof.Machine.execIclimitTimeout port s
  | .dataFlit port f => Sys2Proof.Machine.execDataFlit port f s
  | .markerFlit port f => Sys2Proof.Machine.execMarkerFlit port f s
  | .ackFlit port f => Sys2Proof.Machine.execAckFlit port f s
  | .nakFlit port f => Sys2Proof.Machine.execNakFlit port f s
  | .idleFlit port f => Sys2Proof.Machine.execIdleFlit port f s
  | .timeFlit port f offset => Sys2Proof.Machine.execTimeFlit port f offset s
  | .timeExchange src offset => Sys2Proof.Machine.execTimeExchange src offset s
  | .tsyncLoss => Sys2Proof.Machine.execTsyncLoss s
  | .replayTimeout port => Sys2Proof.Machine.execReplayTimeout port s
  | .keyWindowRead reg => Sys2Proof.Machine.execKeyWindowRead reg s
  | .protectedWrite off data => Sys2Proof.Machine.execProtectedWrite off data s
  | .registerWrite who reg data => Sys2Proof.Machine.execRegisterWrite who reg data s
  | .apertureAccess off n write => Sys2Proof.Machine.execApertureAccess off n write s
  | .hostTlp tdi tbit stream intact => Sys2Proof.Machine.execHostTlp tdi tbit stream intact s
  | .tdispLock tdi stream => Sys2Proof.Machine.execTdispLock tdi stream s
  | .tdispStart tdi => Sys2Proof.Machine.execTdispStart tdi s
  | .stopInterface tdi => Sys2Proof.Machine.execStopInterface tdi s
  | .cxlPoison port pa => Sys2Proof.Machine.execCxlPoison port pa s
  | .cxlLinkDown port => Sys2Proof.Machine.execCxlLinkDown port s
  | .accessTableWrite t k e => Sys2Proof.Machine.execAccessTableWrite t k e s
  | .memoryKeyLoad k key => Sys2Proof.Machine.execMemoryKeyLoad k key s
  | .memoryKeyErase k => Sys2Proof.Machine.execMemoryKeyErase k s
  | .setKattr k shared owner => Sys2Proof.Machine.execSetKattr k shared owner s
  | .copyInKeyLoad c key => Sys2Proof.Machine.execCopyInKeyLoad c key s
  | .getMeasurements nonce => Sys2Proof.Machine.execGetMeasurements nonce s
  | .kspawn rd rs1 rs2 => Sys2Proof.Machine.execKspawn rd rs1 rs2 s
  | .hostFetchAdd fn page => Sys2Proof.Machine.execHostFetchAdd fn page s
  | .peerFetchAdd port peer q => Sys2Proof.Machine.execPeerFetchAdd port peer q s
  | .packetConsume q => Sys2Proof.Machine.execPacketConsume q s
  | .ringfaultClear q => Sys2Proof.Machine.execRingfaultClear q s
  | .packetStart p => Sys2Proof.Machine.execPacketStart p s
  | .launch p => Sys2Proof.Machine.execLaunch p s
  | .range p => Sys2Proof.Machine.execRange p s
  | .copy p => Sys2Proof.Machine.execCopy p s
  | .stream p => Sys2Proof.Machine.execStream p s
  | .reduce p n => Sys2Proof.Machine.execReduce p n s
  | .marker p => Sys2Proof.Machine.execMarker p s
  | .bwait p => Sys2Proof.Machine.execBwait p s
  | .bwaitWake p => Sys2Proof.Machine.execBwaitWake p s
  | .raise p => Sys2Proof.Machine.execRaise p s
  | .endpointResolve p => Sys2Proof.Machine.execEndpointResolve p s
  | .encCopyCheck r => Sys2Proof.Machine.execEncCopyCheck r s
  | .shuckerLanding r off n => Sys2Proof.Machine.execShuckerLanding r off n s
  | .copyResume p => Sys2Proof.Machine.execCopyResume p s
  | .copyDone p => Sys2Proof.Machine.execCopyDone p s
  | .mmawAccept p => Sys2Proof.Machine.execMmawAccept p s
  | .streamTile p => Sys2Proof.Machine.execStreamTile p s
  | .stampWrite p => Sys2Proof.Machine.execStampWrite p s
  | .launchRelease id => Sys2Proof.Machine.execLaunchRelease id s
  | .dispatchTranslate t initiator => Sys2Proof.Machine.execDispatchTranslate t initiator s
  | .admission handles => Sys2Proof.Machine.execAdmission handles s
  | .periodRollover q => Sys2Proof.Machine.execPeriodRollover q s
  | .overrun q => Sys2Proof.Machine.execOverrun q s
  | .steal thief victim => Sys2Proof.Machine.execSteal thief victim s
  | .groupExit gh => Sys2Proof.Machine.execGroupExit gh s
  | .preempt ctx area size deadline => Sys2Proof.Machine.execPreempt ctx area size deadline s
  | .preemptDeadline ctx => Sys2Proof.Machine.execPreemptDeadline ctx s
  | .contextDrainComplete ctx => Sys2Proof.Machine.execContextDrainComplete ctx s
  | .huskWritten ctx written => Sys2Proof.Machine.execHuskWritten ctx written s
  | .restore ctx area => Sys2Proof.Machine.execRestore ctx area s
  | .layerDrainTimeout layer areas => Sys2Proof.Machine.execLayerDrainTimeout layer areas s
  | .spill gh => Sys2Proof.Machine.execSpill gh s
  | .regrowGrant core => Sys2Proof.Machine.execRegrowGrant core s
  | .contextCreate ctx asid root spill spillLen => Sys2Proof.Machine.execContextCreate ctx asid root spill spillLen s
  | .contextDestroy ctx => Sys2Proof.Machine.execContextDestroy ctx s
  | .entryWrite slice pa big entry companion => Sys2Proof.Machine.execEntryWrite slice pa big entry companion s
  | .shootDown slice asid va leaf => Sys2Proof.Machine.execShootDown slice asid va leaf s
  | .shootDownComplete asid va => Sys2Proof.Machine.execShootDownComplete asid va s
  | .homeFence leaf big frame => Sys2Proof.Machine.execHomeFence leaf big frame s
  | .peerAccess port peer va r => Sys2Proof.Machine.execPeerAccess port peer va r s
  | .holdTimeout gh lane => Sys2Proof.Machine.execHoldTimeout gh lane s
  | .starvationLimit core slot => Sys2Proof.Machine.execStarvationLimit core slot s
  | .icacheFill core pa => Sys2Proof.Machine.execIcacheFill core pa s
  | .nodeRecordFill core pa => Sys2Proof.Machine.execNodeRecordFill core pa s
  | .bankRequestServed core bank => Sys2Proof.Machine.execBankRequestServed core bank s
  | .loadComplete gh idx => Sys2Proof.Machine.execLoadComplete gh idx s
  | .matrixEntryComplete core => Sys2Proof.Machine.execMatrixEntryComplete core s
  | .uncorrectableError loc => Sys2Proof.Machine.execUncorrectableError loc s
  | .homeStore by_ => Sys2Proof.Machine.execHomeStore by_ s
  | .pushDepart slice idx => Sys2Proof.Machine.execPushDepart slice idx s
  | .pushLanding idx => Sys2Proof.Machine.execPushLanding idx s
  | .teardownNotice idx => Sys2Proof.Machine.execTeardownNotice idx s
  | .mwaitReread gh => Sys2Proof.Machine.execMwaitReread gh s
  | .debugHalt t => Sys2Proof.Machine.execDebugHalt t s
  | .debugResume t => Sys2Proof.Machine.execDebugResume t s
  | .debugDrain t => Sys2Proof.Machine.execDebugDrain t s
  | .debugDrainDone gh => Sys2Proof.Machine.execDebugDrainDone gh s
  | .hang id => Sys2Proof.Machine.execHang id s
  | .setHangt id microseconds => Sys2Proof.Machine.execSetHangt id microseconds s
  | .sample core slot => Sys2Proof.Machine.execSample core slot s
  | .setSamplePeriod core slot period => Sys2Proof.Machine.execSetSamplePeriod core slot period s
  | .setTraceRing unit base size => Sys2Proof.Machine.execSetTraceRing unit base size s
  | .setLaneCycleRange core n base lim => Sys2Proof.Machine.execSetLaneCycleRange core n base lim s
  | .nop c => Sys2Proof.Machine.execNop c s
  | .exit c n => Sys2Proof.Machine.execExit c n s
  | .next c n => Sys2Proof.Machine.execNext c n s
  | .ret c => Sys2Proof.Machine.execRet c s
  | .trap c imm => Sys2Proof.Machine.execTrap c imm s
  | .tret h act n a => Sys2Proof.Machine.execTret h act n a s
  | .yield c => Sys2Proof.Machine.execYield c s
  | .halt c code => Sys2Proof.Machine.execHalt c code s
  | .icmp h cmb cc ty a b => Sys2Proof.Machine.execIcmp h cmb cc ty a b s
  | .fcmp h cmb cc ty a b => Sys2Proof.Machine.execFcmp h cmb cc ty a b s
  | .plog h pb pa lut => Sys2Proof.Machine.execPlog h pb pa lut s
  | .pmov h all bit a => Sys2Proof.Machine.execPmov h all bit a s
  | .prd h => Sys2Proof.Machine.execPrd h s
  | .sel h pn ps ty a b => Sys2Proof.Machine.execSel h pn ps ty a b s
  | .pmask h => Sys2Proof.Machine.execPmask h s
  | .iadd h sat ty a b => Sys2Proof.Machine.execIadd h sat ty a b s
  | .isub h sat ty a b => Sys2Proof.Machine.execIsub h sat ty a b s
  | .imul h sat ty a b => Sys2Proof.Machine.execImul h sat ty a b s
  | .imulh h sat ty a b => Sys2Proof.Machine.execImulh h sat ty a b s
  | .imad h sat ty a b c => Sys2Proof.Machine.execImad h sat ty a b c s
  | .idiv h sat ty a b => Sys2Proof.Machine.execIdiv h sat ty a b s
  | .irem h sat ty a b => Sys2Proof.Machine.execIrem h sat ty a b s
  | .imin h sat ty a b => Sys2Proof.Machine.execImin h sat ty a b s
  | .imax h sat ty a b => Sys2Proof.Machine.execImax h sat ty a b s
  | .iabs h sat ty a => Sys2Proof.Machine.execIabs h sat ty a s
  | .ineg h sat ty a => Sys2Proof.Machine.execIneg h sat ty a s
  | .isad h sat ty a b c => Sys2Proof.Machine.execIsad h sat ty a b c s
  | .idot4 h sat ty a b c => Sys2Proof.Machine.execIdot4 h sat ty a b c s
  | .iclamp h sat ty a b c => Sys2Proof.Machine.execIclamp h sat ty a b c s
  | .imulw h sat ty a b => Sys2Proof.Machine.execImulw h sat ty a b s
  | .and h ty a b => Sys2Proof.Machine.execAnd h ty a b s
  | .or h ty a b => Sys2Proof.Machine.execOr h ty a b s
  | .xor h ty a b => Sys2Proof.Machine.execXor h ty a b s
  | .not h ty a => Sys2Proof.Machine.execNot h ty a s
  | .shl h ty a b => Sys2Proof.Machine.execShl h ty a b s
  | .shr h ty a b => Sys2Proof.Machine.execShr h ty a b s
  | .sar h ty a b => Sys2Proof.Machine.execSar h ty a b s
  | .rot h ty a b => Sys2Proof.Machine.execRot h ty a b s
  | .popc h ty a => Sys2Proof.Machine.execPopc h ty a s
  | .clz h ty a => Sys2Proof.Machine.execClz h ty a s
  | .ctz h ty a => Sys2Proof.Machine.execCtz h ty a s
  | .brev h ty a => Sys2Proof.Machine.execBrev h ty a s
  | .bfx h ty a b c => Sys2Proof.Machine.execBfx h ty a b c s
  | .bfi h a b c => Sys2Proof.Machine.execBfi h a b c s
  | .tern h lut a b c => Sys2Proof.Machine.execTern h lut a b c s
  | .shf h dir a b c => Sys2Proof.Machine.execShf h dir a b c s
  | .perm h a b c => Sys2Proof.Machine.execPerm h a b c s
  | .mov h ty a => Sys2Proof.Machine.execMov h ty a s
  | .lea h sh ty a b => Sys2Proof.Machine.execLea h sh ty a b s
  | .iext h wide ty a => Sys2Proof.Machine.execIext h wide ty a s
  | .fadd h ty a b => Sys2Proof.Machine.execFadd h ty a b s
  | .fsub h ty a b => Sys2Proof.Machine.execFsub h ty a b s
  | .fmul h ty a b => Sys2Proof.Machine.execFmul h ty a b s
  | .ffma h ty a b c => Sys2Proof.Machine.execFfma h ty a b c s
  | .fmin h ty a b => Sys2Proof.Machine.execFmin h ty a b s
  | .fmax h ty a b => Sys2Proof.Machine.execFmax h ty a b s
  | .fsgn h mode ty a b => Sys2Proof.Machine.execFsgn h mode ty a b s
  | .hadd2 h ty a b => Sys2Proof.Machine.execHadd2 h ty a b s
  | .hmul2 h ty a b => Sys2Proof.Machine.execHmul2 h ty a b s
  | .hfma2 h ty a b c => Sys2Proof.Machine.execHfma2 h ty a b c s
  | .hmin2 h ty a b => Sys2Proof.Machine.execHmin2 h ty a b s
  | .hmax2 h ty a b => Sys2Proof.Machine.execHmax2 h ty a b s
  | .frcp h ty a => Sys2Proof.Machine.execFrcp h ty a s
  | .frsq h ty a => Sys2Proof.Machine.execFrsq h ty a s
  | .fexp2 h ty a => Sys2Proof.Machine.execFexp2 h ty a s
  | .flog2 h ty a => Sys2Proof.Machine.execFlog2 h ty a s
  | .fsqrt h ty a => Sys2Proof.Machine.execFsqrt h ty a s
  | .fclass h ty a => Sys2Proof.Machine.execFclass h ty a s
  | .fcvt h sf ty a => Sys2Proof.Machine.execFcvt h sf ty a s
  | .icvtf h sf ty a => Sys2Proof.Machine.execIcvtf h sf ty a s
  | .fcvti h sf ty a => Sys2Proof.Machine.execFcvti h sf ty a s
  | .qnt h had ty a b c => Sys2Proof.Machine.execQnt h had ty a b c s
  | .dqnt h ty a b => Sys2Proof.Machine.execDqnt h ty a b s
  | .shfl h seg ty a b => Sys2Proof.Machine.execShfl h seg ty a b s
  | .shflup h seg ty a b => Sys2Proof.Machine.execShflup h seg ty a b s
  | .shfldn h seg ty a b => Sys2Proof.Machine.execShfldn h seg ty a b s
  | .shflx h seg ty a b => Sys2Proof.Machine.execShflx h seg ty a b s
  | .bcast h seg ty a => Sys2Proof.Machine.execBcast h seg ty a s
  | .vote h opr seg a => Sys2Proof.Machine.execVote h opr seg a s
  | .redi h opr seg ty a => Sys2Proof.Machine.execRedi h opr seg ty a s
  | .scani h exc opr seg ty a => Sys2Proof.Machine.execScani h exc opr seg ty a s
  | .redf h opr seg ty a => Sys2Proof.Machine.execRedf h opr seg ty a s
  | .scanf h exc opr seg ty a => Sys2Proof.Machine.execScanf h exc opr seg ty a s
  | .lds h sz scope ord sx a => Sys2Proof.Machine.execLds h sz scope ord sx a s
  | .sts h sz scope ord a b => Sys2Proof.Machine.execSts h sz scope ord a b s
  | .ldx h sz scope ord sx a => Sys2Proof.Machine.execLdx h sz scope ord sx a s
  | .stx h sz scope ord a b => Sys2Proof.Machine.execStx h sz scope ord a b s
  | .atom h aop scope ord ty a b c => Sys2Proof.Machine.execAtom h aop scope ord ty a b c s
  | .atoms h aop scope ord ty a b c => Sys2Proof.Machine.execAtoms h aop scope ord ty a b c s
  | .sub h a b => Sys2Proof.Machine.execSub h a b s
  | .unsub h a => Sys2Proof.Machine.execUnsub h a s
  | .slrd h a => Sys2Proof.Machine.execSlrd h a s
  | .slwait h spl a b => Sys2Proof.Machine.execSlwait h spl a b s
  | .swinit h a b => Sys2Proof.Machine.execSwinit h a b s
  | .swadd h scope a b => Sys2Proof.Machine.execSwadd h scope a b s
  | .swwait h spl scope a b => Sys2Proof.Machine.execSwwait h spl scope a b s
  | .mwait h spl sp a b c => Sys2Proof.Machine.execMwait h spl sp a b c s
  | .fence c scope => Sys2Proof.Machine.execFence c scope s
  | .xfence c mask scope => Sys2Proof.Machine.execXfence c mask scope s
  | .afence c => Sys2Proof.Machine.execAfence c s
  | .mmaLn6 h cz a b => Sys2Proof.Machine.execMmaLn6 h cz a b s
  | .mmaLn8 h cz a b => Sys2Proof.Machine.execMmaLn8 h cz a b s
  | .mmaI8 h cz a b => Sys2Proof.Machine.execMmaI8 h cz a b s
  | .mmaBf16 h cz a b => Sys2Proof.Machine.execMmaBf16 h cz a b s
  | .mmaF16 h cz a b => Sys2Proof.Machine.execMmaF16 h cz a b s
  | .had h pts st => Sys2Proof.Machine.execHad h pts st s
  | .scacc h su st a b => Sys2Proof.Machine.execScacc h su st a b s
  | .accld h sp a b => Sys2Proof.Machine.execAccld h sp a b s
  | .accst h sp st a b => Sys2Proof.Machine.execAccst h sp st a b s
  | .accz c nm t => Sys2Proof.Machine.execAccz c nm t s
  | .qput h a b => Sys2Proof.Machine.execQput h a b s
  | .fork h a b c => Sys2Proof.Machine.execFork h a b c s
  | .join h a => Sys2Proof.Machine.execJoin h a s
  | .gcraise h a => Sys2Proof.Machine.execGcraise h a s
  | .regrow h fld a => Sys2Proof.Machine.execRegrow h fld a s
  | .sysrd h csr => Sys2Proof.Machine.execSysrd h csr s
  | .syswr h csr a => Sys2Proof.Machine.execSyswr h csr a s
  | .drain c => Sys2Proof.Machine.execDrain c s
  | .perstAssert => Sys2Proof.Machine.execPerstAssert s
  | .unassignedEncoding w0 => Sys2Proof.Machine.execUnassignedEncoding w0 s
  | .reservedKindFlit port f => Sys2Proof.Machine.execReservedKindFlit port f s
  | .singleBitSoftError => Sys2Proof.Machine.execSingleBitSoftError s
  | .pageCopy leaf big frame => Sys2Proof.Machine.execPageCopy leaf big frame s

end Sys2Proof.Machine
end

