-- ==== Sys2Proof/Machine/Slot.lean ====
section
/-! DEFINITION. A machine with one word in place of the next instruction: a resident group of the first slot whose one leaf holds
the word, or a service core at its first word (log 4). -/

namespace Sys2Proof.Machine

/-- Where the group's tree image and text stand. -/
def slotFrame : Nat := 0x010000000000

/-- The virtual granules of the image and the text. -/
def slotImage : Nat := 0x10000
def slotText : Nat := 0x20000

/-- The program of the placed group: one function, whose root is one leaf. -/
def slotProgram (len : Nat) : Program :=
  let tree : Extent := { vg := slotImage / 65536, pg := slotFrame / 65536, n := 1, key := 0, x := true, a := false, w := false, r := true }
  let text : Extent := { tree with vg := slotText / 65536, pg := slotFrame / 65536 + 1 }
  { image := slotImage, nfunc := 1, nnode := 1, treelen := 128, textva := slotText, textlen := len, ctva := 0,
    ctlen := 0, rodva := 0, rodlen := 0, words := [], data := [], code := [some tree, some text, none, none],
    spads := [], slots := [], root := 0, pins := [] }

/-- The placed group's launch. -/
def slotLaunch (len : Nat) : Launch :=
  { ctx := 0, queue := 0, pkt := none, seq := 0, image := slotImage, args := 0, start := 0, gx := 1, gy := 1, gz := 1,
    func := 0, pitw := 0x2100, width := 8, members := 1, stages := 1, total := 1, nextGang := 1, exited := 0,
    lastLayer := none, held := false, prog := some (slotProgram len), kargs := [], join := none, irq := none,
    hangt := 1000000, lastIssue := 0, hangs := 0, killed := false, acc := [] }

/-- The placed group: eight lanes at the first instruction of the leaf. -/
def slotGroup : Group :=
  let g := startGroup 0 (.launch 0) 8 0x2100 (.resident 0 0 0 0) (List.replicate 8 (startLane true (.leaf 0 0)))
  { g with turn := true }

/-- The context of the placed group. -/
def slotContext : Context :=
  { asid := 1, root := 0, spill := 0, spillLen := 0, state := .run, area := 0, areaLen := 0, deadline := 0,
    wasReset := false, savectr := 0, saveTime := 0, husk := none }

/-- The bytes of an instruction word placed in memory. -/
def placeBytes (s : State) (pa n w : Nat) : State := { s with mem := ssets 0 s.mem pa (toBytes n w) }

/-- The machine with a Fergor word as the first slot's next instruction. -/
def withLeaf (s : State) (w : Nat) : State :=
  let len := 4 * lenWords w
  let root := slotFrame + 64 + 32
  let s1 := placeBytes s (slotFrame + 64) 4 0
  let s2 := placeBytes s1 root 16 (pack [(8, 6), (32, 0), (13, len)])
  let s3 := placeBytes s2 (slotFrame + 65536) len w
  let core := { coreAt s 0 with nodes := [root], icache := [(slotFrame + 65536) / 64] }
  setCore { s3 with groups := [(0, slotGroup)], launches := [(0, slotLaunch len)], contexts := [(0, slotContext)],
                    keys := [(0, { MemKey.reset with valid := true })],
                    agenda := [{ after := 0, what := .issue 0 0 }], pkg := { s3.pkg with power := true } } 0 core

/-- The access-table entry by which service core 0 fetches the placed word: R, of every granule (R59, R60). -/
def slotEntry : BitVec 128 := BitVec.ofNat 128 (pack [(1, 1), (1, 1), (30, 0), (24, initService 0), (36, 0), (36, 2 ^ 36 - 1)])

/-- The machine with a word as service core 0's next instruction. -/
def withService (s : State) (w : Nat) : State :=
  let x := { serviceAt s 0 with pc := BitVec.ofNat 64 slotFrame }
  let s1 := setService { placeBytes s slotFrame 4 w with agenda := [{ after := 0, what := .service 0 false }] } 0 x
  { s1 with tables := sset 0 s1.tables 0 slotEntry, pkg := { s1.pkg with power := true } }

/-- The machine with a word as its next instruction, by the unit whose word it is (R70, R295). -/
def withWord (s : State) (w : Nat) : State := if w % 128 = 0x0B then withService s w else withLeaf s w

end Sys2Proof.Machine
end

