-- ==== Sys2Proof/Machine/Step.lean ====
section
/-! DEFINITION. One step of the machine: the head of its agenda happens (log 4). -/

namespace Sys2Proof.Machine

/-- Run a prepared issue. -/
def runPrepared : Prepared → Host.Outcome State Fault Refusal
  | .idle s => .next s
  | .run i s => exec i s

/-- What an occurrence does. -/
def happen (s : State) : Occurrence → Host.Outcome State Fault Refusal
  | .event i => if mayHappen s i then exec i s else .next s
  | .issue c slot => runPrepared (prepareIssue s c slot)
  | .priv c slot j => runPrepared (preparePriv s c slot j)
  | .service k busy => runPrepared (prepareService s k busy)

/-- Without an agenda a cycle passes, and the lowest slot that has a path to issue does so. -/
def idleStep (s : State) : Host.Outcome State Fault Refusal :=
  match readySlot s with
  | some q => runPrepared (prepareIssue s q.1 q.2)
  | none => .next s

/-- One step: the agenda's next item after its time has passed; without one, a cycle passes and the lowest slot issues. -/
def step (s : State) : Host.Outcome State Fault Refusal :=
  match s.agenda with
  | a :: r => settled (happen (elapse { s with agenda := r } a.after) a.what)
  | [] => settled (idleStep (elapse s cycleUnits))

/-- The machine with one instruction placed where step fetches next (log 4). -/
def State.withFetchWord (s : State) (_nbits w : Nat) : State := withWord s w

end Sys2Proof.Machine
end

