-- ==== Sys2Proof/Safety.lean ====
section
/-! DEFINITION. The terms in which claims are stated: canonical states, an issue in the midst of its leaves, what an
instruction may change, and what its lanes receive. -/

namespace Sys2Proof.Machine

/-- Memory in its one canonical form: addresses strictly rising, no entry equal to what an unlisted address reads as. -/
def Memory.wf (m : List (Nat × Byte)) : Bool := swf 0 m

/-- The canonical form of a group's files. -/
structure Group.Canon (g : Group) : Prop where
  vregs : swf 0 g.vregs = true
  sregs : swf 0 g.sregs = true
  preds : swf 0 g.preds = true
  latches : swf none g.latches = true
  tiles : swf 0 g.tiles = true
  spad : swf 0 g.spad = true
  ck : ∀ c, g.ck = some c → swf 0 c.vregs = true ∧ swf 0 c.sregs = true ∧ swf 0 c.preds = true ∧
    swf 0 c.tiles = true ∧ swf 0 c.spad = true

/-- The state's memories are canonical. -/
structure State.MemCanon (s : State) : Prop where
  mem : Memory.wf s.mem = true
  hostMem : Memory.wf s.hostMem = true
  peerMem : Memory.wf s.peerMem = true
  lines : swf LineKey.fresh s.lines = true
  poison : swf false s.poison = true
  cxlBad : swf false s.cxlBad = true
  frameKeys : swf 0 s.frameKeys = true

/-- A step neither faults nor is refused. -/
def Goes (o : Host.Outcome State Fault Refusal) : Prop := ∃ t, o = .next t

/-- A group but for its lanes, its latches, its turn and the marks of its last issue. -/
def Group.files (g : Group) : Group :=
  { g with lanes := [], latches := [], turn := false, yielding := false, lastPath := [], lastOff := 0, lastCount := 0, issuedAt := none }

/-- A group but for what passing the turn changes (R110, R167, R172). -/
def Group.still (g : Group) : Group :=
  { g with turn := false, latches := [], lanes := g.lanes.map fun l => { l with buffer := [] } }

/-- A launch but for its watchdog (R240). -/
def Launch.quiet (l : Launch) : Launch := { l with lastIssue := 0, hangs := 0 }

/-- A lane but for its hold, its loop buffer and its last issue. -/
def Lane.path (l : Lane) : Lane :=
  { l with held := none, lastIssue := 0, starved := false, buffer := [], waiting := false }

/-- Everything but the groups and the launches. -/
def State.world (s : State) : State := { s with groups := [], launches := [] }

/-- An issue in the midst of its leaves, no lane at the last instruction of one, and no checkpoint in force: there an
instruction ends with every lane at the next offset (R275). -/
structure MidLeaf (s : State) : Prop where
  handles : (s.issue.parts.map (·.1)).Nodup
  lanes : ∀ p ∈ s.issue.parts, p.2.Nodup
  stand : ∀ p ∈ s.issue.parts, ∃ g q c, mfind s.groups p.1 = some g ∧ progOf s g = some q ∧ coreOf g = some c ∧
    g.ck = none ∧ ∀ i ∈ p.2, i < g.lanes.length ∧ liveLane (laneAt g i) = true ∧
      ∃ n o, (laneAt g i).pos = .leaf n o ∧ o + s.issue.len < leafLen s q n

/-- The lanes of an issue have passed one instruction at their leaves; `files` relates each issuing group before to the
same group after, given its handle and lanes. Nothing else changes but the watchdog, and what a passed turn changes. -/
structure Passed (s t : State) (files : Nat → List Nat → Group → Group → Prop) : Prop where
  world : t.world = s.world
  launches : ∀ id, (mfind t.launches id).map Launch.quiet = (mfind s.launches id).map Launch.quiet
  others : ∀ gh, gh ∉ s.issue.parts.map (·.1) →
    (mfind t.groups gh).map Group.still = (mfind s.groups gh).map Group.still
  groups : ∀ p ∈ s.issue.parts, ∀ g, mfind s.groups p.1 = some g → ∃ g', mfind t.groups p.1 = some g' ∧
    files p.1 p.2 g g' ∧
    (∀ i ∈ p.2, ∀ n o, (laneAt g i).pos = .leaf n o →
      (laneAt g' i).path = { (laneAt g i).path with pos := .leaf n (o + s.issue.len) }) ∧
    ∀ i, i ∉ p.2 → (laneAt g' i).path = (laneAt g i).path

/-- The lanes of a group's issue whose guard is true (R299). -/
def takers (g : Group) (h : Head) (lanes : List Nat) : List Nat := lanes.filter fun i => guardOn g i h

/-- Every lane whose guard is true reads legal operands and computes a value (R162, R299, R306). -/
def Computes (s : State) (l : Layout) (val : Here → Except Trap Nat) (v : Nat → Nat → Nat) : Prop :=
  ∀ p ∈ s.issue.parts, ∀ g, mfind s.groups p.1 = some g → ∀ i ∈ takers g l.head p.2,
    partOk g l = true ∧ val { st := s, gh := p.1, g := g, lane := i } = .ok (v p.1 i)

/-- The latches of a group after an instruction whose result enters a latch (R172, R297, R304): in the lanes whose guard is
true it holds the low 64 bits of the value, even under NW = 1; under LR = 1 every latch of the issue's lanes is invalid. -/
def LatchesAfter (c : Ctl) (latch : Option Nat) (v : Nat → Nat) (lanes who : List Nat) (g g' : Group) : Prop :=
  ∀ i b, b < 4 → sget none g'.latches (4 * i + b) =
    if c.k9 = true ∧ bit c.sc.toNat 2 = true ∧ i ∈ lanes then none
    else if i ∈ who ∧ latch = some b then some (BitVec.ofNat 64 (v i))
    else sget none g.latches (4 * i + b)

/-- The registers of a group after an instruction with n result registers: the lanes whose guard is true receive their
values in v(DREG) and on, or under DS = 1 the scalar registers the first such lane's; NW = 1 suppresses both (R300,
R304). Predicates, tiles, scratchpad, and everything else stay. The latches are stated where the turn does not pass. -/
structure Received (h : Head) (n : Nat) (latch : Option Nat) (v : Nat → Nat) (priv : Bool) (lanes : List Nat)
    (g g' : Group) : Prop where
  vregs : ∀ i r, r < 256 → vregAt g' i r =
    if i ∈ takers g h lanes ∧ h.nw = false ∧ h.ds = false ∧ h.dreg.toNat ≤ r ∧ r < h.dreg.toNat + n then
      BitVec.ofNat 32 (v i / 2 ^ (32 * (r - h.dreg.toNat)))
    else vregAt g i r
  sregs : ∀ r, sget 0 g'.sregs r =
    match (takers g h lanes).head? with
    | some i =>
      if h.nw = false ∧ h.ds = true ∧ h.dreg.toNat ≤ r ∧ r < h.dreg.toNat + n then
        BitVec.ofNat 32 (v i / 2 ^ (32 * (r - h.dreg.toNat)))
      else sget 0 g.sregs r
    | none => sget 0 g.sregs r
  rest : g'.files = { g with vregs := g'.vregs, sregs := g'.sregs }.files
  latches : (yieldBit h.ctl = true → priv = true) →
    LatchesAfter h.ctl latch v lanes (takers g h lanes) g g'

/-- The predicates of a group after an instruction with a predicate destination (R300): the lanes whose guard is true
receive bit 0 of their values in k(DREG). -/
structure ReceivedK (h : Head) (v : Nat → Nat) (priv : Bool) (lanes : List Nat) (g g' : Group) : Prop where
  preds : ∀ i k, predAt g' i k =
    if i ∈ takers g h lanes ∧ h.nw = false ∧ k = h.dreg.toNat then v i % 2 == 1 else predAt g i k
  rest : g'.files = { g with preds := g'.preds }.files
  latches : (yieldBit h.ctl = true → priv = true) →
    LatchesAfter h.ctl none v lanes (takers g h lanes) g g'

/-- Every group's files are canonical. -/
def State.FilesCanon (s : State) : Prop := ∀ p ∈ s.groups, p.2.Canon

/-- A value from one operand. -/
def val1 {α : Type} (ra : Here → Except Trap α) (f : α → Nat) (x : Here) : Except Trap Nat :=
  match ra x with
  | .ok a => .ok (f a)
  | .error t => .error t

/-- A value from two operands, read in order. -/
def val2 {α β : Type} (ra : Here → Except Trap α) (rb : Here → Except Trap β) (f : α → β → Nat) (x : Here) :
    Except Trap Nat :=
  match ra x with
  | .ok a => val1 rb (f a) x
  | .error t => .error t

/-- A value from three operands, read in order. -/
def val3 {α β γ : Type} (ra : Here → Except Trap α) (rb : Here → Except Trap β) (rc : Here → Except Trap γ)
    (f : α → β → γ → Nat) (x : Here) : Except Trap Nat :=
  match ra x with
  | .ok a => val2 rb rc (f a) x
  | .error t => .error t

/-- Registers of a result. -/
def resultRegs : Dest → Nat
  | .vec n => n
  | _ => 1

/-- The instruction completes with a register result: in the midst of its leaf, legal, and every lane whose guard is true
reading legal operands, it answers a next state in which those lanes have received `val` and every lane has passed it. -/
def Results (i : Instr) (val : Here → Except Trap Nat) : Prop :=
  ∀ (s : State) (l : Layout) (v : Nat → Nat → Nat), MidLeaf s → s.FilesCanon → layout i = some l → legal i = true →
    Computes s l val v → ∃ t, exec i s = .next t ∧ Passed s t fun gh lanes g g' =>
      Received l.head (resultRegs l.dest) l.latch (v gh) s.issue.priv lanes g g'

/-- The instruction completes with a predicate result. -/
def ResultsK (i : Instr) (val : Here → Except Trap Nat) : Prop :=
  ∀ (s : State) (l : Layout) (v : Nat → Nat → Nat), MidLeaf s → s.FilesCanon → layout i = some l → legal i = true →
    Computes s l val v → ∃ t, exec i s = .next t ∧ Passed s t fun gh lanes g g' =>
      ReceivedK l.head (v gh) s.issue.priv lanes g g'

/-- The latches of a group after an instruction that writes none (R172, R297), where the turn does not pass. -/
def LatchesKept (c : Ctl) (priv : Bool) (lanes : List Nat) (g g' : Group) : Prop :=
  (yieldBit c = true → priv = true) → LatchesAfter c none (fun _ => 0) lanes [] g g'

/-- A lane of a group in a state. -/
def hereAt (s : State) (gh : Nat) (g : Group) (i : Nat) : Here := { st := s, gh := gh, g := g, lane := i }

/-- A quotient or remainder of two operands: INTDIV where the divisor is zero (R333). -/
def divVal (ra rb : Here → Except Trap Int) (f : Int → Int → Nat) (x : Here) : Except Trap Nat :=
  match ra x with
  | .ok a => match rb x with
    | .ok b => if b = 0 then .error (intdiv x.st) else .ok (f a b)
    | .error t => .error t
  | .error t => .error t

/-- The exchange completes (R352 to R355): every participating lane i of a group receives `f` of the group, the lanes that
participate, their A operands, i, and its own B operand. -/
def Exchanges (i : Instr) (seg : BitVec 3) (rdA rdB : Here → Except Trap Nat)
    (f : Group → List Nat → (Nat → Nat) → Nat → Nat → Nat) : Prop :=
  ∀ (s : State) (l : Layout) (va vb : Nat → Nat → Nat), MidLeaf s → s.FilesCanon → layout i = some l → legal i = true →
    (∀ p ∈ s.issue.parts, ∀ g, mfind s.groups p.1 = some g → 2 ^ seg.toNat ≤ g.width ∧ ∀ j ∈ takers g l.head p.2,
      partOk g l = true ∧ rdA (hereAt s p.1 g j) = .ok (va p.1 j) ∧ rdB (hereAt s p.1 g j) = .ok (vb p.1 j)) →
    ∃ t, exec i s = .next t ∧ Passed s t fun gh lanes g g' =>
      Received l.head (resultRegs l.dest) l.latch (fun j => f g (takers g l.head lanes) (va gh) j (vb gh j))
        s.issue.priv lanes g g'

/-- One group alone issues. -/
structure Lone (s : State) (gh : Nat) (lanes : List Nat) (g : Group) : Prop where
  mid : MidLeaf s
  parts : s.issue.parts = [(gh, lanes)]
  group : mfind s.groups gh = some g

/-- The lanes whose live region ends under LR = 1 as an instruction issues: all of them, or, where an instruction completes
later, those in which it does nothing (R172, R297). -/
def endingLanes (l : Layout) (g : Group) (lanes : List Nat) : List Nat :=
  if isLate l then lanes.filter fun i => !guardOn g i l.head else lanes

/-- The instruction turns s into u, and its lanes then pass it. -/
def Does (i : Instr) (s u : State) : Prop :=
  ∃ l t, layout i = some l ∧ exec i s = .next t ∧ Passed u t fun _ lanes g g' =>
    g'.files = g.files ∧ LatchesKept l.head.ctl s.issue.priv (endingLanes l g lanes) g g'

/-- The issuing lanes have not passed the instruction: t is u but for the marks of an issue and what a passed turn
changes. -/
structure Rests (u t : State) : Prop where
  world : t.world = u.world
  launches : ∀ id, (mfind t.launches id).map Launch.quiet = (mfind u.launches id).map Launch.quiet
  others : ∀ gh, gh ∉ u.issue.parts.map (·.1) →
    (mfind t.groups gh).map Group.still = (mfind u.groups gh).map Group.still
  groups : ∀ p ∈ u.issue.parts, ∀ g, mfind u.groups p.1 = some g → ∃ g', mfind t.groups p.1 = some g' ∧
    g'.files = g.files ∧ ∀ i, (laneAt g' i).path = (laneAt g i).path ∧ (laneAt g' i).waiting = (laneAt g i).waiting

/-- The instruction turns s into u, in which its lanes wait. -/
def Waits (i : Instr) (s u : State) : Prop := ∃ t, exec i s = .next t ∧ Rests u t

/-- The issuing lanes have gone elsewhere: each stands as `went` says, but for its marks. -/
structure Moves (s t : State) (went : Nat → Nat → Lane) (latches : Nat → List Nat → Group → Group → Prop) : Prop where
  world : t.world = s.world
  launches : ∀ id, (mfind t.launches id).map Launch.quiet = (mfind s.launches id).map Launch.quiet
  others : ∀ gh, gh ∉ s.issue.parts.map (·.1) →
    (mfind t.groups gh).map Group.still = (mfind s.groups gh).map Group.still
  groups : ∀ p ∈ s.issue.parts, ∀ g, mfind s.groups p.1 = some g → ∃ g', mfind t.groups p.1 = some g' ∧
    g'.files = g.files ∧ latches p.1 p.2 g g' ∧ (∀ i ∈ p.2, (laneAt g' i).path = (went p.1 i).path) ∧
    ∀ i, i ∉ p.2 → (laneAt g' i).path = (laneAt g i).path

/-- A lane of the issue that has raised a trap: it stays where it stands, the trap pending for the end of the cycle (R229, R232,
R236). -/
def trapLane (s : State) (g : Group) (i : Nat) (dst : SavedDst) (t : Trap) : Lane :=
  { laneAt g i with
    pendTrap := (laneAt g i).pendTrap ++ [{ trap := t, place := placeOf s (laneAt g i) dst, priv := s.issue.priv }] }

/-- The lanes of the issue are live, in groups that hold no checkpoint. -/
structure Alive (s : State) : Prop where
  handles : (s.issue.parts.map (·.1)).Nodup
  lanes : ∀ p ∈ s.issue.parts, p.2.Nodup
  stand : ∀ p ∈ s.issue.parts, ∃ g, mfind s.groups p.1 = some g ∧ g.ck = none ∧
    ∀ i ∈ p.2, i < g.lanes.length ∧ liveLane (laneAt g i) = true

/-- Every lane of the issue raises the trap, and nothing else happens but the end of the live regions under LR = 1. -/
def TrapsAll (i : Instr) (s : State) (c : Ctl) (dst : SavedDst) (t : Trap) : Prop :=
  s.FilesCanon → Alive s → ∃ u, exec i s = .next u ∧
    Moves s u (fun gh j => match mfind s.groups gh with | some g => trapLane s g j dst t | none => absentLane)
      fun _ lanes g g' => LatchesKept c s.issue.priv lanes g g'

/-- A lane at the start of its group's trap handler (R229, R230, R232, R280): the place of its trap saved, the record in TREC, a
trap frame pushed, about to enter the handler's root. -/
def handlerLane (s : State) (gh : Nat) (g : Group) (q : Program) (i : Nat) (x : HeldTrap) : Lane :=
  let off := match x.place.pos with | .leaf _ o => o | _ => 0
  let h := bits g.traptree.toNat 0 16
  let record := trapRecord s gh g i x.place.frames off x.priv 0 x.trap.code x.trap
  { laneAt g i with
    saved := some x.place,
    trec := (List.range 16).map fun k => BitVec.ofNat 64 (ofBytes ((record.drop (8 * k)).take 8)),
    frames := { node := 0xFFFF, child := h, fn := 0xFFFF } :: x.place.frames,
    pos := .enter (funcEntry s q h).1 x.priv,
    held := none, waiting := false, pendTrap := [] }

/-- Lane i of a resident group on core c, with one trap pending, takes it (R229, R280): it is live, in no handler and in no wait,
its group has a trap handler whose entry can be fetched, with room in the lane's path; and from the handler's start its walk
comes to stand as `went`. -/
structure Diverts (s : State) (gh : Nat) (g : Group) (q : Program) (c i : Nat) (x : HeldTrap) (went : Lane) : Prop where
  bound : i < g.lanes.length
  pending : (laneAt g i).pendTrap = [x]
  live : liveLane (laneAt g i) = true
  free : (laneAt g i).saved = none
  waits : ∀ w ∈ g.waits, i ∉ w.lanes ∧ i ∉ w.who
  handler : bit g.traptree.toNat 31 = true ∧ bits g.traptree.toNat 0 16 < q.nfunc
  fetched : ∃ l, fetchSpan s q (coreAt s c) (funcVa q (bits g.traptree.toNat 0 16)) 4 = .ok l
  room : x.place.frames.length < 24 ∧
    x.place.frames.length + 1 + (funcEntry s q (bits g.traptree.toNat 0 16)).2 ≤ depthMax g
  walk : ∃ log, walkLoop s g q (coreAt s c) (funcOf s g) (cycOf s c) i walkBound (handlerLane s gh g q i x) WalkLog.none
    = .stands went log ∧ log.frames = []

/-- What SKIPV writes to register r of a lane whose trap saved a destination, in a group with nv registers (R323); none where the
register stays. -/
def skipvReg (nv : Nat) (dst : SavedDst) (v r : Nat) : Option Nat :=
  match dst with
  | .vec d m => if nv ≤ r then none else if r = d then some v else if 2 ≤ m ∧ r = d + 1 then some (v / 2 ^ 32) else none
  | _ => none

/-- A group that is neither halted nor about to be, and has nothing else for the end of its cycle (R236, R406). -/
structure Group.Quiet (g : Group) : Prop where
  halted : g.halted = false
  halting : g.halting = false
  yielding : g.yielding = false
  attribs : g.attribs = []
  csrs : g.csrNext = []

/-- No group has a wait, and no home entry is armed for one. -/
def State.NoWaits (s : State) : Prop := (∀ p ∈ s.groups, p.2.waits = []) ∧ ∀ x ∈ s.subs, x.armed = false

/-- A packet that has ended with a status and a value, its command over (R83, R102). -/
def Packet.ended (x : Packet) (status value : Nat) : Packet :=
  { x with phase := .finished status value, cmd := { x.cmd with pins := [], todo := [], paused := none, marked := false, late := [] } }

/-- The requests a lane of a lone issue makes. -/
def Requests (s : State) (g : Group) (l : Layout) (lanes : List Nat) (rq : Nat → List BankReq) : State :=
  issueAll s (firstScalar ((takers g l.head lanes).map fun i => (i, rq i)))

/-- The canonical form of the state's tables. -/
structure State.TablesCanon (s : State) : Prop where
  layers : swf Layer.reset s.layers = true
  ports : swf Port.reset s.ports = true
  tdis : swf Tdi.reset s.tdis = true
  keys : swf MemKey.reset s.keys = true
  copyKeys : swf CopyKey.reset s.copyKeys = true
  tables : swf 0 s.tables = true
  services : swf Service.reset s.services = true
  queues : swf Queue.reset s.queues = true
  cores : swf Core.reset s.cores = true
  rings : swf Ring.reset s.rings = true
  deques : swf [] s.deques = true
  packets : mwf s.packets = true
  contexts : mwf s.contexts = true
  launches : mwf s.launches = true
  tasks : mwf s.tasks = true
  rangeParts : mwf s.rangeParts = true
  groups : mwf s.groups = true

/-- Of a lone group's lanes, those that raise a trap stay with it, and the others have passed the instruction (R229, R232). -/
structure Splits (s t : State) (gh : Nat) (lanes : List Nat) (g g' : Group) (dst : SavedDst) (trap : Nat → Option Trap) :
    Prop where
  world : t.world = s.world
  group : mfind t.groups gh = some g'
  trapped : ∀ j ∈ lanes, ∀ x, trap j = some x → (laneAt g' j).path = (trapLane s g j dst x).path
  passed : ∀ j ∈ lanes, trap j = none → ∀ n o, (laneAt g j).pos = .leaf n o →
    (laneAt g' j).path = { (laneAt g j).path with pos := .leaf n (o + s.issue.len) }
  others : ∀ j, j ∉ lanes → (laneAt g' j).path = (laneAt g j).path

/-- The instruction completes in the lanes whose operands are in order, and the others raise their traps: `trap` and `v` say
which, and what the former receive (R229, R232). -/
def TrapsSome (i : Instr) (val : Here → Except Trap Nat) : Prop :=
  ∀ (s : State) (l : Layout) (gh : Nat) (lanes : List Nat) (g : Group) (v : Nat → Nat)
    (trap : Nat → Option Trap), Lone s gh lanes g → s.FilesCanon → layout i = some l →
    legal i = true → partOk g l = true →
    (∀ j ∈ lanes, j ∉ takers g l.head lanes → trap j = none) →
    (∀ j ∈ takers g l.head lanes, val (hereAt s gh g j) = match trap j with | some t => .error t | none => .ok (v j)) →
    ∃ t g', exec i s = .next t ∧ Splits s t gh lanes g g' (savedDst l) trap ∧
      g'.files = { g with vregs := g'.vregs, sregs := g'.sregs }.files ∧
      (∀ j r, r < 256 → vregAt g' j r =
        if j ∈ takers g l.head lanes ∧ trap j = none ∧ l.head.nw = false ∧ l.head.ds = false ∧ l.head.dreg.toNat ≤ r ∧
          r < l.head.dreg.toNat + resultRegs l.dest then BitVec.ofNat 32 (v j / 2 ^ (32 * (r - l.head.dreg.toNat)))
        else vregAt g j r)

/-- A power of two. -/
def twoTo (e : Int) : Rat := if 0 ≤ e then ((2 ^ e.toNat : Nat) : Rat) else 1 / ((2 ^ (-e).toNat : Nat) : Rat)

/-- The value of an exact number. -/
def Exact.value (a : Exact) : Rat := (a.x : Rat) * twoTo a.e

/-- The value of a float code (R250), where it is finite; that of an infinity lies beyond every finite one. -/
def codeValue (t : Fmt) (n : Nat) : Rat :=
  let k := fpP t - 1
  let ex := fpMag t n / 2 ^ k
  let m := fpMag t n % 2 ^ k + (if ex = 0 then 0 else 2 ^ k)
  (if fpNeg t n then -1 else 1) * ((m : Rat) * twoTo (fpEmin t - k + (max ex 1 : Nat) - 1))

/-- From this value on, rounding gives an infinity (R251). -/
def roundLimit (t : Fmt) : Rat := ((2 ^ (fpP t + 1) - 1 : Nat) : Rat) * twoTo (1 - fpEmin t - fpP t)

/-- The code n is the value rounded to nearest, ties to even (R251), with the value's sign: `above x` says that the value is above
x, `at_ x` that it is x. -/
def Rounds (t : Fmt) (above at_ : Rat → Prop) (n : Nat) : Prop :=
  n < 2 ^ fmtBits t ∧ fpMag t n ≤ fpInf t ∧ (above 0 → fpNeg t n = false) ∧ (¬ above 0 → ¬ at_ 0 → fpNeg t n = true) ∧
  (fpMag t n = fpInf t → if fpNeg t n then ¬ above (-roundLimit t) else above (roundLimit t) ∨ at_ (roundLimit t)) ∧
  (fpMag t n < fpInf t → above (-roundLimit t) ∧ ¬ above (roundLimit t) ∧ ¬ at_ (roundLimit t) ∧
    ∀ m, m < 2 ^ fmtBits t → fpMag t m < fpInf t →
      let mid := (codeValue t n + codeValue t m) / 2
      (codeValue t n < codeValue t m → ¬ above mid ∧ (at_ mid → n % 2 = 0)) ∧
      (codeValue t m < codeValue t n → (above mid ∨ at_ mid) ∧ (at_ mid → n % 2 = 0)))

/-- A rational value rounded. -/
def RoundsTo (t : Fmt) (r : Rat) (n : Nat) : Prop := Rounds t (fun x => x < r) (fun x => r = x) n

/-- A value delivered under R338: rounded once, an exact zero with the sign given. -/
def Delivers (t : Fmt) (r : Rat) (zeroNeg : Prop) (n : Nat) : Prop :=
  (r ≠ 0 → RoundsTo t r n) ∧ (r = 0 → (zeroNeg → n = fpSign t) ∧ (¬ zeroNeg → n = 0))

/-- A sum of the matrix array in F32 (R263): every zero is +0 but where all its terms are −0. -/
def SumsTo (r : Rat) (allNegZero : Prop) (n : Nat) : Prop :=
  (r ≠ 0 → ∃ m, RoundsTo .f32 r m ∧ n = if fpMag .f32 m = 0 then 0 else m) ∧
  (r = 0 → (allNegZero → n = 0x80000000) ∧ (¬ allNegZero → n = 0))

/-- The integer y is the nearest to r, ties to even (R251). -/
def NearestInt (r : Rat) (y : Int) : Prop :=
  -1 ≤ 2 * ((y : Rat) - r) ∧ 2 * ((y : Rat) - r) ≤ 1 ∧ (2 * ((y : Rat) - r) = -1 ∨ 2 * ((y : Rat) - r) = 1 → y % 2 = 0)

/-- The sum of some rational numbers. -/
def sumOf (l : List Rat) : Rat := l.foldl (· + ·) 0

end Sys2Proof.Machine
end

