-- ==== Sys2Proof/Certificates/Slice0/Obligations.lean ====
section
/-! DEFINITION. The statements for the provers: what the rules of the spec say the machine does. A clause that rests on a
choice of the model names its log entry. -/

open Sys2Proof Sys2Proof.Machine

/-! ### Instructions with register results -/

/-- Integer arithmetic and its results (R317, R332): an exact value is wrapped or clamped into its format and written
sign- or zero-extended into the result register or, low word first, the aligned pair of every lane whose guard is true,
and enters L0; where it always fits, SAT is not accepted. Where no participating lane divides by zero, IDIV rounds toward
zero and IREM has the dividend's sign (R333). Everything else of the machine stays but what an issue marks and what
passing it changes. -/
def Obligations.IntegerArithmetic : Prop :=
  (((∀ (t : Fmt) (x : Int), fmtInt t = true →
    let n := fmtBits t
    let w := if n = 64 then 64 else 32
    let lo : Int := if fmtSigned t then -2 ^ (n - 1) else 0
    let hi : Int := if fmtSigned t then 2 ^ (n - 1) - 1 else 2 ^ n - 1
    (∃ y : Int, lo ≤ y ∧ y ≤ hi ∧ (2 ^ n : Int) ∣ (x - y) ∧ intResult t false x = (y % 2 ^ w).toNat) ∧
    intResult t true x = (max lo (min x hi) % 2 ^ w).toNat) ∧
  (∀ (h : Head) (sat : Bool) (t : Fmt) (a b c : Src) (i : Instr) (l : Layout),
    (i = .iadd h sat t a b ∨ i = .isub h sat t a b ∨ i = .imul h sat t a b ∨ i = .imulh h sat t a b ∨
      i = .idiv h sat t a b ∨ i = .irem h sat t a b ∨ i = .imin h sat t a b ∨ i = .imax h sat t a b ∨
      i = .iabs h sat t a ∨ i = .ineg h sat t a ∨ i = .imad h sat t a b c) → layout i = some l → WellFormed i →
    l.latch = some 0 ∧ l.dest = .vec (if fmtBits t = 64 then 2 else 1) ∧
    (fmtBits t = 64 → h.dreg.toNat % 2 = 0)) ∧
  ∀ (h : Head) (t : Fmt) (a b c : Src), ¬ WellFormed (.imulh h true t a b) ∧ ¬ WellFormed (.irem h true t a b) ∧
    ¬ WellFormed (.imin h true t a b) ∧ ¬ WellFormed (.imax h true t a b) ∧ ¬ WellFormed (.isad h true t a b c) ∧
    ¬ WellFormed (.iclamp h true t a b c) ∧ ¬ WellFormed (.imulw h true t a b)) ∧
  (∀ (h : Head) (sat : Bool) (t : Fmt) (a b c : Src),
    Results (.iadd h sat t a b) (val2 (rdInt · t a) (rdInt · t b) fun x y => intResult t sat (x + y)) ∧
    Results (.isub h sat t a b) (val2 (rdInt · t a) (rdInt · t b) fun x y => intResult t sat (x - y)) ∧
    Results (.imul h sat t a b) (val2 (rdInt · t a) (rdInt · t b) fun x y => intResult t sat (x * y)) ∧
    Results (.imulh h sat t a b) (val2 (rdInt · t a) (rdInt · t b) fun x y =>
      intResult t sat (x * y / ((2 ^ fmtBits t : Nat) : Int))) ∧
    Results (.imin h sat t a b) (val2 (rdInt · t a) (rdInt · t b) fun x y => intResult t sat (min x y)) ∧
    Results (.imax h sat t a b) (val2 (rdInt · t a) (rdInt · t b) fun x y => intResult t sat (max x y)) ∧
    Results (.iabs h sat t a) (val1 (rdInt · t a) fun x => intResult t sat (x.natAbs : Int)) ∧
    Results (.ineg h sat t a) (val1 (rdInt · t a) fun x => intResult t sat (-x)) ∧
    Results (.imad h sat t a b c) (val3 (rdInt · t a) (rdInt · t b) (rdInt · t c) fun x y z =>
      intResult t sat (x * y + z)) ∧
    Results (.isad h sat t a b c) (val3 (rdInt · t a) (rdInt · t b) (rdInt · (acc32 t) c) fun x y z =>
      wrap 32 (((x - y).natAbs : Int) + z)) ∧
    Results (.idot4 h sat t a b c) (val3 (rdN · a) (rdN · b) (rdInt · (acc32 t) c) fun x y z =>
      intResult (acc32 t) sat (z + ((List.range 4).map fun k =>
        intOf t (x / 2 ^ (8 * k) % 256) * intOf t (y / 2 ^ (8 * k) % 256)).foldl (· + ·) 0)) ∧
    Results (.iclamp h sat t a b c) (val3 (rdInt · t a) (rdInt · t b) (rdInt · t c) fun x y z =>
      intResult t sat (min (max x y) z)) ∧
    Results (.imulw h sat t a b) (val2 (rdInt · t a) (rdInt · t b) fun x y => wrap 64 (x * y)) ∧
    ∀ wide, Results (.iext h wide t a) (val1 (rdInt · t a) fun x => wrap (if wide then 64 else 32) x))) ∧
  (∀ (h : Head) (sat : Bool) (t : Fmt) (a b : Src),
    Results (.idiv h sat t a b) (divVal (rdInt · t a) (rdInt · t b) fun x y => intResult t sat (x.tdiv y)) ∧
    Results (.irem h sat t a b) (divVal (rdInt · t a) (rdInt · t b) fun x y => intResult t sat (x.tmod y)) ∧
    ∀ x y : Int, y ≠ 0 → x = y * x.tdiv y + x.tmod y ∧ (x.tmod y).natAbs < y.natAbs ∧
      (0 ≤ x → 0 ≤ x.tmod y) ∧ (x ≤ 0 → x.tmod y ≤ 0))

/-- Logic, shifts and bit counts (R334), bit fields, the truth table, the funnel shift and the byte permutation (R335),
and what their bit functions give, bit by bit: a rotation moves bit k to k + n modulo the width, BREV to width − 1 − k,
and CLZ and CTZ count the zeros above the highest and below the lowest set bit, the width for 0. -/
def Obligations.LogicAndShifts : Prop :=
  ((∀ (h : Head) (t : Fmt) (a b : Src),
    Results (.and h t a b) (val2 (rd · t a) (rd · t b) fun x y => x &&& y) ∧
    Results (.or h t a b) (val2 (rd · t a) (rd · t b) fun x y => x ||| y) ∧
    Results (.xor h t a b) (val2 (rd · t a) (rd · t b) fun x y => x ^^^ y) ∧
    Results (.not h t a) (val1 (rd · t a) fun x => 2 ^ wordBits t - 1 - x) ∧
    Results (.shl h t a b) (val2 (rd · t a) (rdN · b) fun x n => x * 2 ^ n % 2 ^ wordBits t) ∧
    Results (.shr h t a b) (val2 (rd · t a) (rdN · b) fun x n => if n < wordBits t then x / 2 ^ n else 0) ∧
    Results (.sar h t a b) (val2 (rd · t a) (rdN · b) fun x n =>
      wrap (wordBits t) (signed (wordBits t) x / ((2 ^ min n (wordBits t) : Nat) : Int))) ∧
    Results (.rot h t a b) (val2 (rd · t a) (rdN · b) fun x n => rotBits (wordBits t) x n) ∧
    Results (.popc h t a) (val1 (rd · t a) fun x => ((List.range (wordBits t)).filter x.testBit).length) ∧
    Results (.clz h t a) (val1 (rd · t a) fun x => clzBits (wordBits t) x) ∧
    Results (.ctz h t a) (val1 (rd · t a) fun x => ctzBits (wordBits t) x) ∧
    Results (.brev h t a) (val1 (rd · t a) fun x => revBits (wordBits t) x)) ∧
  (∀ (w x n : Nat), (w = 32 ∨ w = 64) → x < 2 ^ w →
    (∀ k, k < w → (rotBits w x n).testBit ((k + n) % w) = x.testBit k) ∧
    (∀ k, k < w → (revBits w x).testBit (w - 1 - k) = x.testBit k) ∧
    (x ≠ 0 → clzBits w x < w ∧ x.testBit (w - 1 - clzBits w x) = true ∧ x < 2 ^ (w - clzBits w x)) ∧
    (x ≠ 0 → ctzBits w x < w ∧ x.testBit (ctzBits w x) = true ∧ x % 2 ^ ctzBits w x = 0) ∧
    clzBits w 0 = w ∧ ctzBits w 0 = w)) ∧
  ((∀ (h : Head) (t : Fmt) (lut : BitVec 8) (dir : Bool) (a b c : Src),
    Results (.bfx h t a b c) (val3 (rdN · a) (rdN · b) (rdN · c) fun x y z => bfxBits t x (y % 256) (z % 256)) ∧
    Results (.bfi h a b c) (val3 (rdN · a) (rdN · b) (rdN · c) fun x y z => bfiBits x y (z % 256) (z / 256 % 256)) ∧
    Results (.tern h lut a b c) (val3 (rdN · a) (rdN · b) (rdN · c) fun x y z => ternBits 32 lut.toNat x y z) ∧
    Results (.shf h dir a b c) (val3 (rdN · a) (rdN · b) (rdN · c) fun x y z =>
      if dir then (x + 2 ^ 32 * y) * 2 ^ min z 32 / 2 ^ 32 % 2 ^ 32 else (x + 2 ^ 32 * y) / 2 ^ min z 32 % 2 ^ 32) ∧
    Results (.perm h a b c) (val3 (rdN · a) (rdN · b) (rdN · c) fun x y z => permBits x y z)) ∧
  ((∀ (x y pos len k : Nat), x < 2 ^ 32 → y < 2 ^ 32 → pos < 256 → len < 256 → k < 32 →
    (bfiBits x y pos len).testBit k = if pos ≤ k ∧ k < pos + len then y.testBit (k - pos) else x.testBit k) ∧
  (∀ (lut x y z k : Nat), k < 32 → (ternBits 32 lut x y z).testBit k =
    lut.testBit ((x.testBit k).toNat + 2 * (y.testBit k).toNat + 4 * (z.testBit k).toNat)) ∧
  (∀ (t : Fmt) (x pos len k : Nat), (t = .n32 ∨ t = .i32) → x < 2 ^ 32 → pos < 256 → len < 256 → k < 32 →
    (bfxBits t x pos len).testBit k =
      if len = 0 ∨ (len ≤ k ∧ t = .n32) then false
      else if pos + min k (len - 1) < 32 then x.testBit (pos + min k (len - 1)) else (t == .i32) && x.testBit 31) ∧
  (∀ (x y z k : Nat), x < 2 ^ 32 → y < 2 ^ 32 → k < 4 → permBits x y z / 2 ^ (8 * k) % 256 =
    let c := z / 2 ^ (4 * k) % 16
    let v := (x + 2 ^ 32 * y) / 2 ^ (8 * (c % 8)) % 256
    if c < 8 then v else if v < 128 then 0 else 255)))

/-- Moves and selections (R329 to R331, R336), comparisons and predicate logic (R327, R328), and PMOV (R329): CMB 0 sets,
1 ands, 2 ors; PMOV of all sixteen predicates gives every lane whose guard is true the low 16 bits, and none under NW = 1.
-/
def Obligations.Predicates : Prop :=
  ((∀ (h : Head) (cmb : BitVec 2) (cc : BitVec 3) (t : Fmt) (pb pa lut : BitVec 4) (bit : BitVec 5) (a b : Src),
    ResultsK (.icmp h cmb cc t a b) (val3 (rdInt · t a) (rdInt · t b) (fun x => .ok (predAt x.g x.lane h.dreg.toNat))
      fun x y p => flag (combine cmb.toNat p (intCmp cc.toNat x y))) ∧
    ResultsK (.fcmp h cmb cc t a b) (val3 (rdBits · t a) (rdBits · t b)
      (fun x => .ok (predAt x.g x.lane h.dreg.toNat)) fun x y p => flag (combine cmb.toNat p (fCmp t cc.toNat x y))) ∧
    ResultsK (.plog h pb pa lut) (fun x => .ok (flag (lut.toNat.testBit
      (2 * flag (predAt x.g x.lane pa.toNat) + flag (predAt x.g x.lane pb.toNat))))) ∧
    ResultsK (.pmov h false bit a) (val1 (rdN · a) fun x => flag (x.testBit bit.toNat))) ∧
  (∀ (h : Head) (bit : BitVec 5) (a : Src) (s : State) (l : Layout) (v : Nat → Nat → Nat),
    MidLeaf s → s.FilesCanon → layout (.pmov h true bit a) = some l → legal (.pmov h true bit a) = true →
    Computes s l (rdN · a) v → ∃ t, exec (.pmov h true bit a) s = .next t ∧ Passed s t fun gh lanes g g' =>
      (∀ i k, k < 16 → predAt g' i k = if i ∈ takers g h lanes ∧ h.nw = false then (v gh i).testBit k else predAt g i k) ∧
      g'.files = { g with preds := g'.preds }.files)) ∧
  (∀ (h : Head) (t : Fmt) (sh : BitVec 5) (pn : Bool) (ps : BitVec 4) (a b : Src),
    Results (.mov h t a) (val1 (rd · t a) fun x => x) ∧
    Results (.lea h sh t a b) (val2 (rd · t a) (rdN · b) fun x y =>
      wrap (wordBits t) ((x : Int) + (if t = .i64 then signed 32 y else (y : Int)) * ((2 ^ sh.toNat : Nat) : Int))) ∧
    Results (.sel h pn ps t a b) (val3 (rd · t a) (rd · t b) (fun x => .ok (predAt x.g x.lane ps.toNat))
      fun x y p => if p = pn then y else x) ∧
    Results (.prd h) (fun x => .ok (sget 0 x.g.preds x.lane).toNat) ∧
    Results (.pmask h) (fun x => .ok (((participants x h).map fun i => 2 ^ slotLane x.g i).foldl (· + ·) 0)))

/-- Elementwise floating point (R340 to R342, R344, R345): each function of R338's values, in every lane whose guard is
true; packed floating point (R343): each 16-bit half as the scalar instruction computes it; conversions and dequantisation
(R346 to R348, R351). -/
def Obligations.FloatArithmetic : Prop :=
  ((∀ (h : Head) (t : Fmt) (mode : BitVec 2) (a b c : Src),
    Results (.fadd h t a b) (val2 (rdBits · t a) (rdBits · t b) (fAdd t)) ∧
    Results (.fsub h t a b) (val2 (rdBits · t a) (rdBits · t b) (fSub t)) ∧
    Results (.fmul h t a b) (val2 (rdBits · t a) (rdBits · t b) (fMul t)) ∧
    Results (.ffma h t a b c) (val3 (rdBits · t a) (rdBits · t b) (rdBits · t c) (fFma t)) ∧
    Results (.fmin h t a b) (val2 (rdBits · t a) (rdBits · t b) (fMinMax t false)) ∧
    Results (.fmax h t a b) (val2 (rdBits · t a) (rdBits · t b) (fMinMax t true)) ∧
    Results (.fsgn h mode t a b) (val2 (rdBits · t a) (rdBits · t b) (fSgn t mode.toNat)) ∧
    Results (.frcp h t a) (val1 (rdBits · t a) fRcp) ∧ Results (.frsq h t a) (val1 (rdBits · t a) fRsq) ∧
    Results (.fexp2 h t a) (val1 (rdBits · t a) fExp2) ∧ Results (.flog2 h t a) (val1 (rdBits · t a) fLog2) ∧
    Results (.fsqrt h t a) (val1 (rdBits · t a) fSqrt) ∧ Results (.fclass h t a) (val1 (rdBits · t a) (fClass t))) ∧
  (∀ (h : Head) (t : Fmt) (a b c : Src),
    let two := fun (f : Nat → Nat → Nat) (x y : Nat) =>
      f (x % 65536) (y % 65536) + 65536 * f (x / 65536 % 65536) (y / 65536 % 65536)
    Results (.hadd2 h t a b) (val2 (rdN · a) (rdN · b) (two (fAdd t))) ∧
    Results (.hmul2 h t a b) (val2 (rdN · a) (rdN · b) (two (fMul t))) ∧
    Results (.hmin2 h t a b) (val2 (rdN · a) (rdN · b) (two (fMinMax t false))) ∧
    Results (.hmax2 h t a b) (val2 (rdN · a) (rdN · b) (two (fMinMax t true))) ∧
    Results (.hfma2 h t a b c) (val3 (rdN · a) (rdN · b) (rdN · c) fun x y z =>
      fFma t (x % 65536) (y % 65536) (z % 65536)
        + 65536 * fFma t (x / 65536 % 65536) (y / 65536 % 65536) (z / 65536 % 65536)))) ∧
  (∀ (h : Head) (sf t : Fmt) (a b : Src),
    Results (.fcvt h sf t a) (val1 (rdBits · sf a) (fCvt t sf)) ∧
    Results (.icvtf h sf t a) (val1 (rdInt · sf a) (iCvtF t)) ∧
    Results (.fcvti h sf t a) (val1 (rdBits · sf a) fun x => intBits t (fCvtI t sf x)) ∧
    Results (.dqnt h t a b) (val2 (rdN · a) (rdN · b) fun x y => dqnt t (x % 2 ^ fmtBits t) (y % 256)))

/-! ### Exchange -/

/-- Lane exchange (R353, R355, R356): the source lane each shuffle names, the lane's own value where that lane does not
participate, and the votes of a segment. -/
def Obligations.Exchange : Prop :=
  ∀ (h : Head) (seg opr : BitVec 3) (t : Fmt) (a b : Src),
    let n := 2 ^ seg.toNat
    Exchanges (.shfl h seg t a b) seg (rd · t a) (rdN · b) (fun _ who va i k =>
      if i / n * n + k % n ∈ who then va (i / n * n + k % n) else va i) ∧
    Exchanges (.shflup h seg t a b) seg (rd · t a) (rdN · b) (fun _ who va i k =>
      if k ≤ i % n ∧ i - k ∈ who then va (i - k) else va i) ∧
    Exchanges (.shfldn h seg t a b) seg (rd · t a) (rdN · b) (fun _ who va i k =>
      if i % n + k < n ∧ i + k ∈ who then va (i + k) else va i) ∧
    Exchanges (.shflx h seg t a b) seg (rd · t a) (rdN · b) (fun _ who va i k =>
      if i / n * n + (i % n ^^^ k % n) ∈ who then va (i / n * n + (i % n ^^^ k % n)) else va i) ∧
    Exchanges (.bcast h seg t a) seg (rd · t a) (fun _ => .ok 0) (fun _ who va i _ =>
      ((who.filter fun j => j / n = i / n).head?.map va).getD 0) ∧
    Exchanges (.vote h opr seg a) seg (rdN · a) (fun _ => .ok 0) (fun g who va i _ =>
      let on := who.filter fun j => j / n = i / n
      if opr = 0 then ((on.filter fun j => va j ≠ 0).map fun j => 2 ^ slotLane g j).foldl (· + ·) 0
      else if (opr = 1 ∧ ∀ j ∈ on, va j ≠ 0) ∨ (opr = 2 ∧ ∃ j ∈ on, va j ≠ 0) ∨
        (opr = 3 ∧ ∀ j ∈ on, ∀ k ∈ on, va j = va k) then 2 ^ 64 - 1 else 0)

/-- Integer reductions and scans (R357): every lane of P receives the combination of the A values of every lane of P, a
scan that of the lanes at positions up to its own, or below it for EXC; ADD is modulo 2^n, MIN and MAX compare in the
type's signedness, the combination over no lanes is the identity, and the order of the lanes does not matter. Float
reductions and scans (R358): sums in the pairwise tree and the left fold, with −0 in place of a lane that does not
participate; the least and greatest elements; a scan up to the lane itself, which EXC = 1 leaves out. -/
def Obligations.IntReductions : Prop :=
  ((∀ (h : Head) (exc : Bool) (seg opr : BitVec 3) (t : Fmt) (a : Src),
    let n := 2 ^ seg.toNat
    let on := fun (who : List Nat) (i : Nat) => who.filter fun j => j / n = i / n
    let upto := fun (who : List Nat) (i : Nat) => (on who i).filter fun j => if exc then j < i else j ≤ i
    Exchanges (.redi h opr seg t a) seg (rd · t a) (fun _ => .ok 0) (fun _ who va i _ =>
      ((on who i).map va).foldl (redOp t opr.toNat) (redIdent t opr.toNat)) ∧
    Exchanges (.scani h exc opr seg t a) seg (rd · t a) (fun _ => .ok 0) (fun _ who va i _ =>
      ((upto who i).map va).foldl (redOp t opr.toNat) (redIdent t opr.toNat))) ∧
  ∀ (t : Fmt) (o : Nat), (t = .i32 ∨ t = .n32 ∨ t = .i64 ∨ t = .n64) →
    let top := 2 ^ fmtBits t
    redIdent t 0 = 0 ∧ redIdent t 3 = top - 1 ∧ redIdent t 4 = 0 ∧ redIdent t 5 = 0 ∧
    (∀ x, x < top → redIdent t 1 < top ∧ intOf t x ≤ intOf t (redIdent t 1) ∧ redIdent t 2 < top ∧
      intOf t (redIdent t 2) ≤ intOf t x) ∧
    (∀ x y, x < top → y < top → redOp t 0 x y = (x + y) % top ∧
      intOf t (redOp t 1 x y) = min (intOf t x) (intOf t y) ∧ (redOp t 1 x y = x ∨ redOp t 1 x y = y) ∧
      intOf t (redOp t 2 x y) = max (intOf t x) (intOf t y) ∧ (redOp t 2 x y = x ∨ redOp t 2 x y = y) ∧
      redOp t 3 x y = x &&& y ∧ redOp t 4 x y = x ||| y ∧ redOp t 5 x y = x ^^^ y) ∧
    ∀ l l' : List Nat, l.Perm l' → (∀ v ∈ l, v < top) →
      l.foldl (redOp t o) (redIdent t o) = l'.foldl (redOp t o) (redIdent t o)) ∧
  (∀ (h : Head) (exc : Bool) (seg opr : BitVec 3) (t : Fmt) (a : Src),
    let n := 2 ^ seg.toNat
    let on := fun (who : List Nat) (i : Nat) => who.filter fun j => j / n = i / n
    let upto := fun (who : List Nat) (i : Nat) => (on who i).filter fun j => if exc then j < i else j ≤ i
    let put := fun (va : Nat → Nat) (l : List Nat) => l.map fun j => (j, va j)
    Exchanges (.redf h opr seg t a) seg (rdBits · t a) (fun _ => .ok 0) (fun _ who va i _ =>
      if opr = 0 then sumTree seg.toNat (sumInputs (put va who) (i / n * n) n)
      else floatExt (opr == 2) (put va (on who i))) ∧
    Exchanges (.scanf h exc opr seg t a) seg (rdBits · t a) (fun _ => .ok 0) (fun _ who va i _ =>
      if opr = 0 then
        (if exc then (if i % n = 0 then 0 else sumFold (sumInputs (put va who) (i / n * n) (i % n)))
         else sumFold (sumInputs (put va who) (i / n * n) (i % n + 1)))
      else floatExt (opr == 2) (put va (upto who i))))

/-! ### Control -/

/-- NOP, YIELD and HALT (R319, R324, R325): the lanes pass the instruction and nothing else of their groups changes, but that YIELD
has its group pass its turn at the end of the cycle; HALT also leaves a record of TYPE 6 in its layer's ring, and its group
halts at the end of the cycle (DebugHalts). -/
def Obligations.NopYieldHalt : Prop :=
  ∀ (c : Ctl) (s : State), MidLeaf s → s.FilesCanon →
    (legal (.nop c) = true → ∃ t, exec (.nop c) s = .next t ∧
      Passed s t fun _ lanes g g' => g'.files = g.files ∧ LatchesKept c s.issue.priv lanes g g') ∧
    (legal (.yield c) = true → ∃ t, exec (.yield c) s = .next t ∧ Passed s t fun _ _ g g' =>
      g'.files = g.files ∧ (s.issue.priv = false → g'.yielding = true)) ∧
    ∀ code gh lanes g, Lone s gh lanes g → lanes ≠ [] → legal (.halt c code) = true →
      let n := layerOfCore s.issue.core
      let u := onGroup (traceRecord s n 6 n (toBytes 2 gh ++ toBytes 2 code.toNat ++ List.replicate 12 0)) gh
        fun x => { x with halting := true }
      ∃ t, exec (.halt c code) s = .next t ∧ Passed u t fun _ _ g g' => g'.files = g.files

/-- EXIT, NEXT and RET (R279, R320): every lane of the issue leaves the frames the instruction names and walks on from
there; more than its call has is ILLOP, and so is RET at a trap frame (in a handler it kills: WholeIssueTraps). The node
records of the frames are at hand (R278), or their fill traps. -/
def Obligations.ExitNextRet : Prop :=
  ∀ (c : Ctl) (n : BitVec 8) (s : State) (gh : Nat) (lanes : List Nat) (g : Group) (q : Program) (k : Nat)
    (i : Instr) (pops : List Frame → Option Nat) (went : Nat → Nat → Lane),
    Lone s gh lanes g → s.FilesCanon → progOf s g = some q → coreOf g = some k → bit g.pitw.toNat 24 = false →
    ((i = .exit c n ∧ pops = fun fs => if n.toNat ≤ frameFc s q fs then some n.toNat else none) ∨
     (i = .next c n ∧ pops = fun fs => aboveLoop s q fs (frameFc s q fs) n.toNat) ∨
     (i = .ret c ∧ pops = fun fs => match fs.drop (frameFc s q fs) with
        | f :: _ => if f.node = 0xFFFF then none else some (frameFc s q fs)
        | [] => some (frameFc s q fs))) →
    legal i = true →
    (∀ t, (∀ j ∈ lanes, recordBar s s.issue.core g j i = some (.trap t)) → TrapsAll i s c .nothing t) ∧
    ((∀ j ∈ lanes, recordBar s s.issue.core g j i = none ∧ pops (laneAt g j).frames = none) → TrapsAll i s c .nothing
      { code := 0x01, addr1 := s.issue.addr, addr2 := none, info := s.issue.word0 }) ∧
    ((∀ j ∈ lanes, recordBar s s.issue.core g j i = none ∧ (laneAt g j).frames.length ≤ 24 ∧ ∃ m log, pops (laneAt g j).frames = some m ∧
      walkLoop s g q (coreAt s k) (funcOf s g) (cycOf s k) j walkBound
        { laneAt g j with frames := (laneAt g j).frames.drop m, pos := .advance s.issue.priv } WalkLog.none
        = .stands (went gh j) log ∧ log.frames = [] ∧ log.tret = false) →
    ∃ t, exec i s = .next t ∧ Moves s t went fun _ lanes g g' => LatchesKept c s.issue.priv lanes g g')

/-- Traps that a whole issue raises (R228, R229, R306, R307, R321): TRAP with its immediate, an encoding that names no
instruction, and an illegal instruction, whatever the guard; they are pending until the end of the cycle (R236). Kills
(R234): there the first of a group's traps, where its lane's path already holds a trap frame (TRAP's or a RET's in a handler
among them, R320), kills the group with NESTED, and one without a usable handler with NOHANDLER; no lane of the group runs
on, its held stores are discarded, its outstanding accesses stay, and the record names the lane. -/
def Obligations.WholeIssueTraps : Prop :=
  (∀ s : State,
    (∀ (c : Ctl) (imm : BitVec 16), legal (.trap c imm) = true → TrapsAll (.trap c imm) s c .nothing
      { code := 0x0A, addr1 := s.issue.addr, addr2 := none, info := imm.toNat }) ∧
    (∀ w0 : Word, TrapsAll (.unassignedEncoding w0) s (ctlOfWord w0.toNat) (destOfBytes s.issue.len s.issue.bytes)
      { code := 0x01, addr1 := s.issue.addr, addr2 := none, info := s.issue.word0 }) ∧
    ∀ (i : Instr) (l : Layout), layout i = some l → legal i = false → TrapsAll i s l.head.ctl (savedDst l)
      { code := 0x01, addr1 := s.issue.addr, addr2 := none, info := s.issue.word0 }) ∧
  (∀ (s : State) (gh i code : Nat) (g : Group) (q : Program) (x : HeldTrap),
    mfind s.groups gh = some g → progOf s g = some q → g.Quiet → g.ck = none → i < g.lanes.length →
    (∀ j, j < i → (laneAt g j).pendTrap = []) → (laneAt g i).pendTrap.head? = some x → liveLane (laneAt g i) = true →
    ((code = 0x23 ∧ (laneAt g i).saved ≠ none) ∨
     (code = 0x22 ∧ (laneAt g i).saved = none ∧
       (g.traptree.toNat.testBit 31 = false ∨ q.nfunc ≤ g.traptree.toNat % 2 ^ 16))) →
    let off := match x.place.pos with | .leaf _ o => o | _ => 0
    let u := errorRecord s (layerRing g) (trapRecord s gh g i x.place.frames off x.priv 4 code
      { x.trap with info := x.trap.code })
    let t := endCycle s gh
    ∃ g', mfind t.groups gh = some g' ∧ (∀ j, liveLane (laneAt g' j) = false) ∧
      g'.held = [] ∧ g'.waits = [] ∧ g'.ck = none ∧ g'.pend = g.pend ∧ g'.vregs = g.vregs ∧ g'.spad = g.spad ∧
      t.mem = u.mem ∧ t.lines = u.lines ∧ t.rings = u.rings)

/-- TRET (R233, R322, R323): in every lane whose guard is true, in its handler, RETRY returns to the saved instruction,
SKIP to the one after it, and SKIPV to that one with the operand in the saved destination: a register, a pair, of which a register
at or above NV takes nothing, or a predicate; a scalar destination is saved as none and takes nothing. The other lanes pass it. -/
def Obligations.TrapReturn : Prop :=
  (∀ (i : Instr) (l : Layout), layout i = some l → l.head.ds = true ∨ l.head.nw = true → savedDst l = .nothing) ∧
  ∀ (h : Head) (act : BitVec 2) (a : Src) (s : State) (l : Layout) (gh : Nat) (lanes : List Nat) (g : Group)
    (q : Program) (v : Nat → Nat),
    Lone s gh lanes g → s.FilesCanon → progOf s g = some q →
    (act = 0 ∨ act = 1 ∨ act = 2) →
    layout (.tret h act 0 (if act = 2 then some a else none)) = some l →
    legal (.tret h act 0 (if act = 2 then some a else none)) = true →
    (∀ j ∈ takers g h lanes, partOk g l = true ∧ (laneAt g j).frames.length ≤ 24 ∧ ∃ sv n o,
      (laneAt g j).saved = some sv ∧ sv.pos = .leaf n o ∧ (act ≠ 0 → sv.after < leafLen s q n) ∧
      (act = 2 → match sv.dst with
        | .vec d m => d < 256 ∧ 1 ≤ m ∧
          if m = 1 then rdN (hereAt s gh g j) a = .ok (v j)
          else srcOk 2 a = true ∧ srcIn g 2 (some a) = true ∧ rdD (hereAt s gh g j) a = .ok (v j)
        | .pred k => k < 16 ∧ rdN (hereAt s gh g j) a = .ok (v j)
        | .nothing => rdN (hereAt s gh g j) a = .ok (v j))) →
    ∃ t, exec (.tret h act 0 (if act = 2 then some a else none)) s = .next t ∧ t.world = s.world ∧
      ∃ g', mfind t.groups gh = some g' ∧ g'.files = { g with vregs := g'.vregs, preds := g'.preds }.files ∧
        (∀ j r, r < 256 → vregAt g' j r =
          match (if act = 2 ∧ j ∈ takers g h lanes then
            (laneAt g j).saved.bind fun sv => skipvReg (nvOf g) sv.dst (v j) r else none) with
          | some x => BitVec.ofNat 32 x
          | none => vregAt g j r) ∧
        (∀ j k, k < 16 → predAt g' j k =
          if act = 2 ∧ j ∈ takers g h lanes ∧ (laneAt g j).saved.map (·.dst) = some (.pred k) then v j % 2 == 1
          else predAt g j k) ∧
        (∀ j ∈ takers g h lanes, ∀ sv n o, (laneAt g j).saved = some sv → sv.pos = .leaf n o →
          (laneAt g' j).path = { leaveHandler (laneAt g j) sv with pos := .leaf n (if act = 0 then o else sv.after) }.path) ∧
        (∀ j ∈ lanes, j ∉ takers g h lanes → ∀ n o, (laneAt g j).pos = .leaf n o →
          (laneAt g' j).path = { laneAt g j with pos := .leaf n (o + s.issue.len) }.path) ∧
        ∀ j, j ∉ lanes → (laneAt g' j).path = (laneAt g j).path

/-! ### Device memory -/

/-- LDX, STX and ATOM at issue (R153, R365, R367): each lane whose guard is true has one more outstanding access, with its
bytes translated through its group's extents; nothing else changes until it is performed. -/
def Obligations.DeviceAccesses : Prop :=
  ∀ (h : Head) (sz : BitVec 3) (scope : Scope) (ord : Ord) (sx : Bool) (aop : Aop) (t : Fmt) (a b : Src) (c : Option Src)
    (s : State) (l : Layout) (acc : Nat → Nat → Access) (i : Instr), MidLeaf s → s.FilesCanon →
    layout i = some l → legal i = true →
    (∀ p ∈ s.issue.parts, ∀ g, mfind s.groups p.1 = some g → ∀ j ∈ takers g l.head p.2, partOk g l = true ∧
      ∃ va pas, rdD (hereAt s p.1 g j) a = .ok va ∧
        ((i = .ldx h sz scope ord sx a ∧ transBytes (hereAt s p.1 g j) kRead (2 ^ sz.toNat) va = .ok pas ∧
          acc p.1 j = mkAccess (hereAt s p.1 g j) l .load ord scope va pas [] (loadDst l false (2 ^ sz.toNat) sx)) ∨
         (i = .stx h sz scope ord a b ∧ transBytes (hereAt s p.1 g j) kWrite (2 ^ sz.toNat) va = .ok pas ∧
          ∃ data, storeData (hereAt s p.1 g j) sz b = .ok data ∧
          acc p.1 j = mkAccess (hereAt s p.1 g j) l .store ord scope va pas data (loadDst l false (2 ^ sz.toNat) false)) ∨
         (i = .atom h aop scope ord t a b c ∧ va % (fmtBits t / 8) = 0 ∧
          transWord (hereAt s p.1 g j) kAtomic (fmtBits t / 8) va = .ok pas ∧
          ∃ vb vc, rd (hereAt s p.1 g j) t b = .ok vb ∧ rdCmp (hereAt s p.1 g j) t c = .ok vc ∧
          acc p.1 j = mkAccess (hereAt s p.1 g j) l (.atom aop t vb vc) ord scope va pas []
            (loadDst l false (fmtBits t / 8) false)))) →
    (i = .ldx h sz scope ord sx a ∨ i = .stx h sz scope ord a b ∨ i = .atom h aop scope ord t a b c) →
    ∃ t, exec i s = .next t ∧ Passed s t fun gh lanes g g' =>
      g'.files = { g with pend := g.pend ++ (takers g l.head lanes).map (acc gh) }.files ∧
      LatchesKept l.head.ctl s.issue.priv (endingLanes l g lanes) g g'

/-- LOAD_COMPLETE of a load or an atomic that nothing must precede (R172, R174, R364 to R367): the value read, a narrow
signed load extended, goes to the destination and to L2; an atomic's word becomes the combined value. -/
def Obligations.LoadsPerformed : Prop :=
  (∀ (gh idx : Nat) (s : State) (g : Group) (a : Access) (old : Nat),
    mfind s.groups gh = some g → g.Canon → g.pend[idx]? = some a → (a.op ≠ .store) → mayPerform s gh g a = true →
    stalled s g = false → homesStall s a.pas = false → (∀ p ∈ a.pas, keyLive s p.2 = true) → accPoisoned s a = false → g.ck = none → s.NoWaits → s.subs = [] →
    (∀ i, liveLane (laneAt g i) = true → ∃ n o, (laneAt g i).pos = .leaf n o) →
    (a.dst.nw = false → a.dst.ds = false → a.dst.reg + a.dst.regs ≤ 256) → old = ofBytes (accBytes s a) →
    let v := match a.op with | .load => loadValue a.dst old | _ => old
    ∃ t g', exec (.loadComplete gh idx) s = .next t ∧ mfind t.groups gh = some g' ∧
      (∀ j r, r < 256 → vregAt g' j r =
        if j = a.lane ∧ a.dst.nw = false ∧ a.dst.ds = false ∧ a.dst.reg ≤ r ∧ r < a.dst.reg + a.dst.regs then
          BitVec.ofNat 32 (v / 2 ^ (32 * (r - a.dst.reg))) else vregAt g j r) ∧
      (∀ r, sget 0 g'.sregs r =
        if a.dst.nw = false ∧ a.dst.ds = true ∧ a.dst.reg ≤ r ∧ r < a.dst.reg + a.dst.regs then
          BitVec.ofNat 32 (v / 2 ^ (32 * (r - a.dst.reg))) else sget 0 g.sregs r) ∧
      (∀ j b, b < 4 → sget none g'.latches (4 * j + b) =
        if j = a.lane ∧ a.dst.lr = true then none else if j = a.lane ∧ b = 2 then some (BitVec.ofNat 64 v)
        else sget none g.latches (4 * j + b)) ∧
      g'.pend.length + 1 = g.pend.length ∧
      { g' with vregs := g.vregs, sregs := g.sregs, latches := g.latches, pend := g.pend } = g ∧
      (∀ k, k ≠ gh → mfind t.groups k = mfind s.groups k) ∧
      { t with groups := s.groups, mem := s.mem, lines := s.lines, services := s.services } = s ∧
      (a.op = .load → t.mem = s.mem ∧ t.lines = s.lines ∧ t.services = s.services) ∧
      ∀ aop ty b c w, a.op = .atom aop ty b c → (∀ p ∈ a.pas, isMemory (region s p.1) = true) →
        (∃ k, ∀ p ∈ a.pas, p.2 = k) → (a.pas.map (·.1)).Nodup → Memory.wf s.mem = true →
        swf LineKey.fresh s.lines = true → a.held = a.pas.map (fun _ => none) →
        atomNew aop ty old b c = some w → a.pas.map (fun p => readAs t (keyView s p.2) p.1) = toBytes a.pas.length w) ∧
  (∀ (d : LoadDst) (n : Nat), n < 2 ^ (8 * d.size) → loadValue d n =
    if d.size ≤ 2 ∧ d.sx = true ∧ 2 ^ (8 * d.size) ≤ 2 * n then n + 2 ^ 32 - 2 ^ (8 * d.size) else n) ∧
  ∀ (t : Fmt) (old b c : Nat), (t = .i32 ∨ t = .n32 ∨ t = .f32 ∨ t = .i64 ∨ t = .n64) → old < 2 ^ fmtBits t →
    b < 2 ^ fmtBits t → c < 2 ^ fmtBits t →
    atomNew .swap t old b c = some b ∧ atomNew .cas t old b c = (if old = c then some b else none) ∧
    atomNew .add t old b c = some ((old + b) % 2 ^ fmtBits t) ∧ atomNew .and t old b c = some (old &&& b) ∧
    atomNew .or t old b c = some (old ||| b) ∧ atomNew .xor t old b c = some (old ^^^ b) ∧
    (t ≠ .f32 → ∃ x y, atomNew .min t old b c = some x ∧ (x = old ∨ x = b) ∧ intOf t x = min (intOf t old) (intOf t b) ∧
      atomNew .max t old b c = some y ∧ (y = old ∨ y = b) ∧ intOf t y = max (intOf t old) (intOf t b)) ∧
    (t = .f32 → atomNew .fadd t old b c = some (if fpIsNaN t b then 0x7FC00021 else if fpIsNaN t old then 0x7FC00031
      else fAdd t old b))

/-- HOME_STORE (R139, R190, R226): the stored bytes read back under their key, every other byte under that key, and every
byte of other lines under any key, reads as before. That a store ends the service cores' LR reservations on its words is the
model's choice (PRESUMED, log 3). -/
def Obligations.StoresPerformed : Prop :=
  ∀ (s : State) (v : LineKey) (pa : Nat) (bytes : List Byte) (by_ : StoreBy),
    Memory.wf s.mem = true → swf LineKey.fresh s.lines = true → s.subs = [] → s.NoWaits → bytes ≠ [] →
    (∀ x, pa ≤ x → x < pa + bytes.length → isMemory (region s x) = true) →
    ((∃ gh idx g a k, by_ = .lane gh idx ∧ mfind s.groups gh = some g ∧ g.pend[idx]? = some a ∧ a.op = .store ∧
        mayPerform s gh g a = true ∧ homesStall s a.pas = false ∧ keyLive s k = true ∧ v = keyView s k ∧ a.data = bytes ∧
        a.pas = (List.range bytes.length).map (fun j => (pa + j, k)) ∧
        ∀ i, liveLane (laneAt g i) = true → ∃ n o, (laneAt g i).pos = .leaf n o) ∨
     (∃ k, k < 16 ∧ by_ = .service k pa bytes ∧ pa / 8 = (pa + bytes.length - 1) / 8 ∧ frameView s pa = some v ∧
        entryPair s pa = none ∧ homeStalls s pa = false ∧ servicePermitted s k pa bytes.length 2 = true)) →
    ∃ t, exec (.homeStore by_) s = .next t ∧
      (∀ j, j < bytes.length → readAs t v (pa + j) = bytes.getD j 0) ∧
      (∀ x, isMemory (region s x) = true → (x < pa ∨ pa + bytes.length ≤ x) → readAs t v x = readAs s v x) ∧
      (∀ x w, isMemory (region s x) = true → (x / 64 < pa / 64 ∨ (pa + bytes.length - 1) / 64 < x / 64) →
        readAs t w x = readAs s w x) ∧
      { t with mem := s.mem, lines := s.lines, groups := s.groups, services := s.services } = s ∧
      (swf Service.reset s.services = true → ∀ k, serviceAt t k =
        if ∃ r, (serviceAt s k).resv = some r ∧ r.1 ∈ wordsOf pa bytes.length then { serviceAt s k with resv := none }
        else serviceAt s k) ∧
      ∀ k, (mfind t.groups k).map (fun g => { g with pend := [] }) = (mfind s.groups k).map fun g => { g with pend := [] }

/-! ### Scratchpad -/

/-- LDS, STS, ATOMS, SLRD, SWINIT, SWADD and QNT at issue (R175, R360, R364, R367, R371, R374, R349): each lane whose
guard is true makes its requests, which join the queues of the banks they name, and each request counts until it is
served. -/
def Obligations.ScratchpadRequests : Prop :=
  ∀ (h : Head) (sz : BitVec 3) (scope : Scope) (ord : Ord) (sx : Bool) (aop : Aop) (ty : Fmt) (had : BitVec 2)
    (a b d : Src) (c : Option Src) (s : State) (l : Layout) (gh : Nat) (lanes : List Nat) (g : Group)
    (rq : Nat → List BankReq) (i : Instr), Lone s gh lanes g → s.FilesCanon → layout i = some l → legal i = true →
    (i = .lds h sz scope ord sx a ∨ i = .sts h sz scope ord a b ∨ i = .atoms h aop scope ord ty a b c ∨
      i = .slrd h a ∨ i = .swinit h a b ∨ i = .swadd h scope a b ∨ i = .qnt h had ty a b d) →
    (∀ j ∈ takers g l.head lanes, partOk g l = true ∧ ∃ va target off, rdN (hereAt s gh g j) a = .ok va ∧
      ((i = .lds h sz scope ord sx a ∧ resolveSpad s gh g va (2 ^ sz.toNat) = some (target, off) ∧
        rq j = accessReqs (hereAt s gh g j) l target off (2 ^ sz.toNat) (fun _ _ => .load) ord sx 2) ∨
       (i = .sts h sz scope ord a b ∧ resolveSpad s gh g va (2 ^ sz.toNat) = some (target, off) ∧
        ∃ data, storeData (hereAt s gh g j) sz b = .ok data ∧
        rq j = accessReqs (hereAt s gh g j) l target off (2 ^ sz.toNat) (fun k n => .store ((data.drop k).take n)) ord
          false 4) ∨
       (i = .atoms h aop scope ord ty a b c ∧ va % (fmtBits ty / 8) = 0 ∧
        resolveSpad s gh g va (fmtBits ty / 8) = some (target, off) ∧
        ∃ vb vc, rd (hereAt s gh g j) ty b = .ok vb ∧ rdCmp (hereAt s gh g j) ty c = .ok vc ∧
        rq j = accessReqs (hereAt s gh g j) l target off (fmtBits ty / 8) (fun _ _ => .atom aop ty vb vc) ord false 2) ∨
       (i = .slrd h a ∧ va % 16 = 0 ∧ va.testBit 28 = false ∧ resolveSpad s gh g va 16 = some (target, off) ∧
        rq j = accessReqs (hereAt s gh g j) l target off 16 (fun _ _ => .slrd) .weak false 2) ∨
       (i = .swinit h a b ∧ va % 16 = 0 ∧ resolveSpad s gh g va 16 = some (target, off) ∧
        ∃ vb, rdN (hereAt s gh g j) b = .ok vb ∧
        rq j = accessReqs (hereAt s gh g j) l target off 16 (fun _ _ => .swinit vb) .weak false 4) ∨
       (i = .swadd h scope a b ∧ va % 16 = 0 ∧ resolveSpad s gh g va 16 = some (target, off) ∧
        ∃ vb, rdN (hereAt s gh g j) b = .ok vb ∧
        rq j = accessReqs (hereAt s gh g j) l target off 16 (fun _ _ => .swadd vb) .rel false 4) ∨
       (i = .qnt h had ty a b d ∧ va % 4 = 0 ∧ va + 128 ≤ spadLimit g ∧
        ∃ vb vd, rdN (hereAt s gh g j) b = .ok vb ∧ rdN (hereAt s gh g j) d = .ok vd ∧ vb % 4 = 0 ∧
        vb + (if ty = .ln6 then 24 else 32) ≤ spadLimit g ∧
        rq j = accessReqs (hereAt s gh g j) l gh va 128 (fun _ _ => .qnt ty had.toNat (vd % 256) vb) .weak false 0))) →
    Does i s (Requests s g l lanes rq)

/-- BANK_REQUEST_SERVED (R175, R194, R202, R203, R364): the head of a bank's queue is served, by its kind, and completes;
a sync word counts an addition against its target, and without a target sets ERR (R202). -/
def Obligations.BankRequests : Prop :=
  (∀ (core bank : Nat) (r : BankReq) (s : State) (g : Group),
    (layerAt s (layerOfCore core)).clock.relock = none →
    bankQueue (coreAt s core) bank = [[r]] → (coreAt s core).port = [] → swf [] (coreAt s core).banks = true →
    swf Core.reset s.cores = true → s.NoWaits → g.ck = none → g.Canon →
    r.target = r.gh → mfind s.groups r.gh = some g → r.dst.priv = false → g.counter = 1 → r.size = r.dst.size →
    g.halted = false → (∀ i, liveLane (laneAt g i) = true → ∃ n o, (laneAt g i).pos = .leaf n o) →
    (r.dst.nw = false → r.dst.ds = false → r.dst.reg + r.dst.regs ≤ 256) →
    let old := spadNum g r.off r.size
    ∃ t g', exec (.bankRequestServed core bank) s = .next t ∧ mfind t.groups r.gh = some g' ∧ g'.counter = 0 ∧
      bankQueue (coreAt t core) bank = [] ∧
      (∀ data, r.op = .store data → data.length = r.size → ∀ x, sget 0 g'.spad x =
        if r.off ≤ x ∧ x < r.off + r.size then data.getD (x - r.off) 0 else sget 0 g.spad x) ∧
      (∀ n, r.op = .swadd n → r.size = 16 → spadNum g' r.off 16 = syncAdd old n) ∧
      (∀ n, r.op = .swinit n → r.size = 16 → spadNum g' r.off 16 = n % 2 ^ 32) ∧
      (r.op = .slrd → r.size = 16 → spadNum g' r.off 12 = spadNum g r.off 12 ∧ spadNum g' (r.off + 12) 4 =
        spadNum g (r.off + 12) 4 / 8 * 8) ∧
      (∀ aop ty b c w, r.op = .atom aop ty b c → atomNew aop ty old b c = some w →
        spadNum g' r.off r.size = w % 2 ^ (8 * r.size)) ∧
      (r.op = .load → g'.spad = g.spad) ∧
      (r.op = .load ∨ r.op = .slrd → ∀ j k, k < 256 → vregAt g' j k =
        if j = r.lane ∧ r.dst.nw = false ∧ r.dst.ds = false ∧ r.dst.reg ≤ k ∧ k < r.dst.reg + r.dst.regs then
          BitVec.ofNat 32 ((if r.op = .load then loadValue r.dst old else old) / 2 ^ (32 * (k - r.dst.reg)))
        else vregAt g j k) ∧
      (∀ data, r.op = .store data → g'.vregs = g.vregs ∧ g'.sregs = g.sregs ∧ g'.latches = g.latches) ∧
      g'.preds = g.preds ∧ g'.tiles = g.tiles ∧ g'.pitw = g.pitw ∧ t.mem = s.mem) ∧
  ∀ old n : Nat, old < 2 ^ 128 → n < 2 ^ 32 →
    let target := old % 2 ^ 32
    let count := old / 2 ^ 32 % 2 ^ 32
    let new := syncAdd old n
    new % 2 ^ 32 = target ∧ new < 2 ^ 97 ∧
    (target = 0 → new / 2 ^ 32 % 2 ^ 64 = old / 2 ^ 32 % 2 ^ 64 ∧ new.testBit 96 = true) ∧
    (target ≠ 0 → new / 2 ^ 32 % 2 ^ 32 = (count + n) % target ∧
      new / 2 ^ 64 % 2 ^ 32 = (old / 2 ^ 64 + (count + n) / target) % 2 ^ 32 ∧ new.testBit 96 = old.testBit 96)

/-! ### Subscriptions -/

/-- SUB and UNSUB (R187, R196, R369, R370): SUB of one lane lists the slot, enters the word in its home's table with a
first push of the word's value, and waits for that push, whose landing writes the status and lets the lane go on; a slot
already listed is BUSY at once, whatever room there is (the order of the statuses: log 17), and of two lanes that name one
slot the first subscribes and the second is BUSY; UNSUB of a slot with nothing on its way ends the subscription and
returns 0. -/
def Obligations.Subscriptions : Prop :=
  ((∀ (h : Head) (a b : Src) (s : State) (gh : Nat) (lanes : List Nat) (g : Group) (j va slot : Nat),
    Lone s gh lanes g → s.FilesCanon → s.NoWaits → g.halted = false → stalled s g = false → commitWaits s g = false →
    takers g h lanes = [j] → rdN (hereAt s gh g j) a = .ok va → va % 16 = 0 → va.testBit 28 = false →
    resolveSpad s gh g va 16 = some (gh, slot) →
    (∀ l vb pa key r, layout (.sub h a b) = some l → legal (.sub h a b) = true → partOk g l = true →
      rdD (hereAt s gh g j) b = .ok vb → vb % 8 = 0 →
      transWord (hereAt s gh g j) kRead 8 vb = .ok ((pa, key) :: r) → (∀ x ∈ g.subs, x.slot ≠ slot) →
      keyLive s key = true → g.subs.length < 256 → tableUse s pa < 32768 →
      let push : Push := { val := BitVec.ofNat 64 (homeNum s (keyView s key) pa 8), count := 0, first := true, release := false }
      let entry : Sub := { pa := pa, gh := gh, slot := slot, armed := false, pseq := 0, push := some push }
      let w : Wait := { ticket := s.ticket, lanes := lanes, who := [j], what := .subs [slot] [(j, 0)] [], spill := false, woken := false, head := h, len := s.issue.len, dst := savedDst l }
      Waits (.sub h a b) s (beginWait
        { setGroup s gh { g with subs := g.subs ++ [{ slot := slot, pa := pa }] } with subs := s.subs ++ [entry] } gh w)) ∧
    (∀ l vb pa key r, layout (.sub h a b) = some l → legal (.sub h a b) = true → partOk g l = true →
      rdD (hereAt s gh g j) b = .ok vb → vb % 8 = 0 →
      transWord (hereAt s gh g j) kRead 8 vb = .ok ((pa, key) :: r) → (∃ x ∈ g.subs, x.slot = slot) →
      ∃ t, exec (.sub h a b) s = .next t ∧ Passed s t fun _ lanes g g' =>
        Received h 1 (some 0) (fun _ => 2) s.issue.priv lanes g g') ∧
    (∀ l, layout (.unsub h a) = some l → legal (.unsub h a) = true → partOk g l = true →
      (∃ x ∈ g.subs, x.slot = slot) → (∀ f ∈ s.flying, ¬ (f.gh = gh ∧ f.slot = slot)) →
      (∀ x ∈ s.subs, x.armed = false → x.gh = gh → x.slot = slot → x.push = none) →
      (∀ n ∈ s.notices, ¬ (n.1 = gh ∧ n.2 = slot)) →
      ∃ t, exec (.unsub h a) s = .next t ∧ Passed
        { setGroup s gh { g with subs := g.subs.filter fun x => x.slot ≠ slot } with
          subs := s.subs.filter fun x => !(!x.armed && x.gh == gh && x.slot == slot) } t
        fun _ lanes g g' => Received h 1 (some 0) (fun _ => 0) s.issue.priv lanes g g')) ∧
  ∀ (s : State) (gh c j st n o : Nat) (g : Group) (q : Program) (w : Wait) (f : Flying), s.groups = [(gh, g)] → g.Canon →
    g.halted = false → coreOf g = some c → progOf s g = some q → g.ck = none → stalled s g = false → commitWaits s g = false →
    (∀ k b, bankQueue (coreAt s k) b = []) → s.flying = [f] → f.gh = gh → g.waits = [w] →
    w.what = .subs [f.slot] [(j, st)] [] → w.who = [j] → w.lanes = [j] → j < g.lanes.length →
    liveLane (laneAt g j) = true → (laneAt g j).pos = .leaf n o → o + w.len < leafLen s q n → w.head.nw = false →
    w.head.ds = false → ∃ t g', exec (.pushLanding 0) s = .next t ∧ mfind t.groups gh = some g' ∧ g'.waits = [] ∧
      vregAt g' j w.head.dreg.toNat = BitVec.ofNat 32 st ∧ (laneAt g' j).pos = .leaf n (o + w.len) ∧
      (laneAt g' j).waiting = false) ∧
  ∀ (h : Head) (a b : Src) (s : State) (gh : Nat) (lanes : List Nat) (g : Group) (l : Layout)
    (j k va vb vc slot pa key pa' key' : Nat) (r r' : List (Nat × Nat)), Lone s gh lanes g → s.FilesCanon → s.NoWaits →
    g.halted = false → stalled s g = false → commitWaits s g = false → takers g h lanes = [j, k] → j ≠ k → layout (.sub h a b) = some l →
    legal (.sub h a b) = true → partOk g l = true → rdN (hereAt s gh g j) a = .ok va → rdN (hereAt s gh g k) a = .ok va →
    va % 16 = 0 → va.testBit 28 = false → resolveSpad s gh g va 16 = some (gh, slot) →
    rdD (hereAt s gh g j) b = .ok vb → vb % 8 = 0 → transWord (hereAt s gh g j) kRead 8 vb = .ok ((pa, key) :: r) →
    rdD (hereAt s gh g k) b = .ok vc → vc % 8 = 0 → transWord (hereAt s gh g k) kRead 8 vc = .ok ((pa', key') :: r') →
    (∀ x ∈ g.subs, x.slot ≠ slot) → keyLive s key = true → g.subs.length < 256 → tableUse s pa < 32768 →
    let push : Push := { val := BitVec.ofNat 64 (homeNum s (keyView s key) pa 8), count := 0, first := true, release := false }
    let entry : Sub := { pa := pa, gh := gh, slot := slot, armed := false, pseq := 0, push := some push }
    let w : Wait := { ticket := s.ticket, lanes := lanes, who := [j, k], what := .subs [slot] [(j, 0), (k, 2)] [], spill := false, woken := false, head := h, len := s.issue.len, dst := savedDst l }
    Waits (.sub h a b) s (beginWait
      { setGroup s gh { g with subs := g.subs ++ [{ slot := slot, pa := pa }] } with subs := s.subs ++ [entry] } gh w)

/-- Pushes (R188, R191, R192, R198): a store to a subscribed word enters a push or is merged into the one that waits
(R189, R190); a push departs from its home once, lands in the slot with the word's value, a PSEQ that counts the stores,
NEW, and OVR and COAL for what it overwrote and merged (those of a first push merged with stores: log 18); a teardown
notice removes the slot. -/
def Obligations.Pushes : Prop :=
  (∀ (s : State) (x : Sub) (p : Push) (g : Group) (l r : List Sub), s.subs = l ++ x :: r → x.push = some p →
    x.armed = false → mfind s.groups x.gh = some g → coreOf g ≠ none → g.drained = false →
    exec (.pushDepart (homeOf x.pa) (l.filter fun y => homeOf y.pa == homeOf x.pa).length) s = .next
      { s with subs := l ++ { x with push := none, pseq := (x.pseq + p.count) % 2 ^ 32 } :: r,
               flying := s.flying ++ [{ gh := x.gh, slot := x.slot, push := p }] }) ∧
  (∀ (s : State) (f : Flying) (g : Group), s.flying = [f] → mfind s.groups f.gh = some g → g.Canon → g.ck = none →
    stalled s g = false → s.NoWaits → (∀ c b, bankQueue (coreAt s c) b = []) →
    ∃ t g', exec (.pushLanding 0) s = .next t ∧ t.flying = [] ∧ mfind t.groups f.gh = some g' ∧
      spadNum g' f.slot 8 = f.push.val.toNat ∧
      spadNum g' (f.slot + 8) 4 =
        (if f.push.first then f.push.count % 2 ^ 32 else (spadNum g (f.slot + 8) 4 + f.push.count) % 2 ^ 32) ∧
      spadNum g' (f.slot + 12) 4 =
        (let old := spadNum g (f.slot + 12) 4
         1 + (if !f.push.first && (old.testBit 0 || old.testBit 1) then 2 else 0)
           + (if f.push.count > 1 || (!f.push.first && old.testBit 2) then 4 else 0)) ∧
      (∀ x, x < f.slot ∨ f.slot + 16 ≤ x → sget 0 g'.spad x = sget 0 g.spad x) ∧
      g'.vregs = g.vregs ∧ g'.sregs = g.sregs ∧ g'.preds = g.preds ∧ g'.tiles = g.tiles ∧ g'.latches = g.latches ∧
      t.mem = s.mem) ∧
  (∀ (s : State) (k pa : Nat) (bytes : List Byte) (x : Sub) (g : Group) (v : LineKey), s.subs = [x] → x.pa = pa →
    x.armed = false → mfind s.groups x.gh = some g → coreOf g ≠ none → s.MemCanon → s.NoWaits → k < 16 → pa % 8 = 0 →
    bytes.length = 8 → (∀ j, j < 8 → isMemory (region s (pa + j)) = true) → frameView s pa = some v → entryPair s pa = none →
    homeStalls s pa = false → servicePermitted s k pa 8 2 = true →
    let val := BitVec.ofNat 64 (ofBytes bytes)
    ∃ t, exec (.homeStore (.service k pa bytes)) s = .next t ∧ t.flying = s.flying ∧ t.groups = s.groups ∧
      t.subs = [{ x with push := some (match x.push with
        | none => { val := val, count := 1, first := false, release := false }
        | some p => { p with val := val, count := p.count + 1 }) }]) ∧
  ∀ (s : State) (gh slot : Nat) (g : Group), s.notices = [(gh, slot)] → s.NoWaits → mfind s.groups gh = some g →
    (∀ f ∈ s.flying, ¬ (f.gh = gh ∧ f.slot = slot)) →
    exec (.teardownNotice 0) s = .next
      (setGroup { s with notices := [] } gh { g with subs := g.subs.filter fun x => x.slot ≠ slot })

/-! ### Waits and fences -/

/-- SLWAIT, SWWAIT and MWAIT whose condition holds at once (R195, R204, R205, R372, R374, R376): every participating lane
receives the sequence, generation or word that it found, and the lanes go on. FENCE, XFENCE, AFENCE, DRAIN and JOIN where
nothing they wait for is outstanding (R220, R223, R378, R396, R407): the lanes pass and nothing else changes, but for what an
XFENCE that joins the core and matrix classes at pod or wider does for R217: from then on the group's matrix array reads every
byte as it stands (`behind` is the model's record of the bytes it may still read as they were: log 9). -/
def Obligations.WaitsMet : Prop :=
  (∀ (h : Head) (spl sp : Bool) (scope : Scope) (a b c : Src) (s : State) (l : Layout) (gh : Nat) (lanes : List Nat)
    (g : Group) (i : Instr) (v : Nat → Nat), Lone s gh lanes g → s.FilesCanon → s.NoWaits → g.halted = false →
    stalled s g = false → commitWaits s g = false → g.held = [] →
    layout i = some l → legal i = true →
    (i = .slwait h spl a b ∨ i = .swwait h spl scope a b ∨ i = .mwait h spl sp a b c) →
    (∀ j ∈ takers g l.head lanes, partOk g l = true ∧
      ((i = .slwait h spl a b ∧ ∃ va off expected, rdN (hereAt s gh g j) a = .ok va ∧
          rdN (hereAt s gh g j) b = .ok expected ∧ va % 16 = 0 ∧ va.testBit 28 = false ∧
          resolveSpad s gh g va 16 = some (gh, off) ∧
          (spadNum g (off + 8) 4 ≠ expected ∨ ∀ x ∈ g.subs, x.slot ≠ off) ∧
          v j = spadNum g (off + 8) 4 + (if g.subs.any fun x => x.slot == off then 2 ^ 32 else 0)) ∨
       (i = .swwait h spl scope a b ∧ ∃ va target off gen t, rdN (hereAt s gh g j) a = .ok va ∧
          rdN (hereAt s gh g j) b = .ok gen ∧ va % 16 = 0 ∧ resolveSpad s gh g va 16 = some (target, off) ∧
          mfind s.groups target = some t ∧ (spadNum t (off + 8) 4 + 2 ^ 32 - gen) % 2 ^ 32 < 2 ^ 31 ∧
          v j = spadNum t (off + 8) 4) ∨
       (i = .mwait h spl sp a b c ∧ ∃ va expected vc, rdD (hereAt s gh g j) b = .ok expected ∧
          rdN (hereAt s gh g j) c = .ok vc ∧ v j ≠ expected ∧
          ((sp = true ∧ rdN (hereAt s gh g j) a = .ok va ∧ ∃ target off t, (va + vc) % 2 ^ 32 % 8 = 0 ∧
              resolveSpad s gh g ((va + vc) % 2 ^ 32) 8 = some (target, off) ∧ mfind s.groups target = some t ∧
              v j = spadNum t off 8) ∨
           (sp = false ∧ rdD (hereAt s gh g j) a = .ok va ∧ ∃ pa key r, wrap 64 ((va : Int) + signed 32 vc) % 8 = 0 ∧
              transWord (hereAt s gh g j) kRead 8 (wrap 64 ((va : Int) + signed 32 vc)) = .ok ((pa, key) :: r) ∧
              keyLive s key = true ∧ (∀ k, k < 8 → poisoned s (pa + k) = false) ∧
              v j = homeNum s (keyView s key) pa 8))))) →
    ∃ t, exec i s = .next t ∧ Passed s t fun _ lanes g g' =>
      Received l.head (resultRegs l.dest) l.latch v s.issue.priv lanes g g') ∧
  (∀ (h : Head) (c : Ctl) (scope : Scope) (mask : BitVec 4) (a : Src) (s : State) (l : Layout) (gh : Nat)
    (lanes : List Nat) (g : Group) (i : Instr), Lone s gh lanes g → s.FilesCanon → s.NoWaits → g.halted = false →
    stalled s g = false → commitWaits s g = false → layout i = some l → legal i = true →
    let noPend := ∀ x ∈ g.pend, x.lane ∉ lanes
    let joins := i = .xfence c mask scope ∧ mask.toNat.testBit 0 = true ∧ mask.toNat.testBit 2 = true ∧ lanes ≠ [] ∧
      (scope = .pod ∨ scope = .lyr ∨ scope = .dev ∨ scope = .host ∨ scope = .fab)
    let noMatrix := ∀ k ∈ s.cores, ∀ e ∈ k.2.mq, e.gh ≠ gh
    ((i = .fence c scope ∧ noPend) ∨
     (i = .xfence c mask scope ∧ (mask.toNat.testBit 0 = true → noPend) ∧ (mask.toNat.testBit 2 = true → noMatrix)) ∨
     (i = .afence c ∧ ∀ x ∈ g.pend, x.lane ∈ lanes → x.op = .load) ∨
     (i = .drain c ∧ (∀ f ∈ s.flying, f.gh ≠ gh) ∧ (∀ x ∈ g.pend, x.op = .store) ∧
        (∀ r ∈ bankReqs s, r.gh = gh → isLoadReq r = false) ∧ noMatrix) ∨
     (i = .join h a ∧ ∀ j ∈ takers g h lanes, partOk g l = true ∧ ∃ va pa key r, rdD (hereAt s gh g j) a = .ok va ∧
        va % 8 = 0 ∧ transWord (hereAt s gh g j) kRead 8 va = .ok ((pa, key) :: r) ∧
        keyLive s key = true ∧ homeNum s (keyView s key) pa 8 = 0)) →
    ∃ t, exec i s = .next t ∧ Passed s t fun _ lanes g g' =>
      { g' with behind := g.behind }.files = g.files ∧ LatchesKept l.head.ctl s.issue.priv lanes g g' ∧
      (joins → g'.behind = []) ∧ ((∀ m x, i ≠ .xfence c m x) → g'.behind = g.behind))

/-- A FENCE with an earlier access of its lanes outstanding waits (R378), and so does a JOIN whose counter is not zero,
with its word's home entry armed (R206, R396). MWAIT_REREAD (R206): a group whose wait has no armed entry reads its word
again, and where it has changed the wait ends with the word in the lane's registers and in L2. -/
def Obligations.FencesOutstanding : Prop :=
  (∀ (s : State) (gh : Nat) (lanes : List Nat) (g : Group), Lone s gh lanes g → s.FilesCanon → s.NoWaits →
    (∀ (c : Ctl) (scope : Scope), legal (.fence c scope) = true →
      (∃ x ∈ g.pend, x.lane ∈ lanes ∧ x.ticket < s.ticket) →
      Waits (.fence c scope) s (beginWait s gh { ticket := s.ticket, lanes := lanes, who := lanes, what := .fence true true false, spill := false, woken := false, head := noHead c, len := s.issue.len, dst := .nothing })) ∧
    ∀ (h : Head) (a : Src) (l : Layout) (j : Nat) (va pa key : Nat) (r : List (Nat × Nat)),
      layout (.join h a) = some l → legal (.join h a) = true → takers g h lanes = [j] → partOk g l = true →
      rdD (hereAt s gh g j) a = .ok va → va % 8 = 0 → transWord (hereAt s gh g j) kRead 8 va = .ok ((pa, key) :: r) →
      keyLive s key = true → homeNum s (keyView s key) pa 8 ≠ 0 → tableUse s pa < 32768 →
      Waits (.join h a) s (beginWait
        { s with subs := s.subs ++ [{ pa := pa, gh := gh, slot := s.ticket, armed := true, pseq := 0, push := none }] } gh
        { ticket := s.ticket, lanes := lanes, who := [j], what := .counter va pa key true false, spill := false, woken := false, head := h, len := s.issue.len, dst := savedDst l })) ∧
  (∀ (s : State) (gh j va pa key want n o c val : Nat) (g : Group) (q : Program) (w : Wait) (armed : Bool) (i : Instr),
    mfind s.groups gh = some g → g.Canon → g.halted = false → stalled s g = false → coreOf g = some c →
    progOf s g = some q → g.ck = none → g.held = [] → commitWaits s g = false → g.waits = [w] →
    w.what = .word [{ lane := j, va := va, pa := pa, key := key, want := want, armed := armed, got := none }] →
    w.who = [j] → w.lanes = [j] → j < g.lanes.length → liveLane (laneAt g j) = true → (laneAt g j).pos = .leaf n o →
    o + w.len < leafLen s q n → keyLive s key = true → (∀ k, k < 8 → poisoned s (pa + k) = false) →
    ((i = .mwaitReread gh ∧ armed = false ∧ homeStalls s pa = false ∧ val = homeNum s (keyView s key) pa 8) ∨
     (∃ k bytes pseq, i = .homeStore (.service k pa bytes) ∧ armed = true ∧ k < 16 ∧ pa % 8 = 0 ∧ bytes.length = 8 ∧
        val = ofBytes bytes ∧ s.groups = [(gh, g)] ∧
        s.subs = [{ pa := pa, gh := gh, slot := w.ticket, armed := true, pseq := pseq, push := none }] ∧
        (∀ x, x < 8 → isMemory (region s (pa + x)) = true) ∧ s.MemCanon ∧ frameView s pa = some (keyView s key) ∧
        entryPair s pa = none ∧ homeStalls s pa = false ∧ servicePermitted s k pa 8 2 = true ∧
        leafLen (writeSpan s (keyView s key) pa bytes) q n = leafLen s q n)) →
    val ≠ want → w.head.nw = false → w.head.ds = false → w.head.dreg.toNat + 2 ≤ 256 → lrBit w.head.ctl = false →
    ∃ t g', exec i s = .next t ∧ mfind t.groups gh = some g' ∧ g'.waits = [] ∧
      vregAt g' j w.head.dreg.toNat = BitVec.ofNat 32 val ∧
      vregAt g' j (w.head.dreg.toNat + 1) = BitVec.ofNat 32 (val / 2 ^ 32) ∧
      sget none g'.latches (4 * j + 2) = some (BitVec.ofNat 64 val) ∧
      (laneAt g' j).pos = .leaf n (o + w.len) ∧ (laneAt g' j).waiting = false ∧
      g'.preds = g.preds ∧ g'.sregs = g.sregs ∧ g'.spad = g.spad ∧ (armed = false → t.mem = s.mem) ∧
      ∀ x ∈ t.subs, x.armed = true → ¬ (x.gh = gh ∧ x.slot = w.ticket))

/-! ### The matrix array -/

/-- The matrix instructions at issue (R178, R380 to R390): where the core's queue has room behind what the lower slot still offers in
the cycle, one entry joins it, with its operands read and checked in the lowest participating lane, and the lanes go on. -/
def Obligations.MatrixEntries : Prop :=
  ∀ (h : Head) (cz su sp : Bool) (pts : BitVec 2) (st nm tl : BitVec 6) (cl : Ctl) (a b : Src) (s : State) (l : Layout)
    (gh : Nat) (lanes : List Nat) (g : Group) (j : Nat) (r : List Nat) (i : Instr) (tile : Option Nat) (op : MatOp),
    Lone s gh lanes g → s.FilesCanon → layout i = some l → legal i = true → takers g l.head lanes = j :: r →
    partOk g l = true → 1 ≤ queueRoom s s.issue.core s.issue.slot →
    let x := hereAt s gh g j
    ((∃ ty, ((i = .mmaLn6 h cz a b ∧ ty = .ln6) ∨ (i = .mmaLn8 h cz a b ∧ ty = .ln8) ∨ (i = .mmaI8 h cz a b ∧ ty = .i8) ∨
          (i = .mmaBf16 h cz a b ∧ ty = .bf16) ∨ (i = .mmaF16 h cz a b ∧ ty = .f16)) ∧
        ∃ va vb ta tb, rdN x a = .ok va ∧ rdN x b = .ok vb ∧ va % 32 = 0 ∧ vb % 32 = 0 ∧
          resolveSpad s gh g va 12288 = some ta ∧ resolveSpad s gh g vb 12288 = some tb ∧
          tile = (if h.nw then none else some h.dreg.toNat) ∧ op = .mma ty cz ta.1 ta.2 tb.1 tb.2) ∨
     (i = .had h pts st ∧ st.toNat < tilesOf g ∧ tile = (if h.nw then none else some h.dreg.toNat) ∧
        op = .had (8 * 2 ^ pts.toNat) st.toNat) ∨
     (i = .scacc h su st a b ∧ st.toNat < tilesOf g ∧ tile = (if h.nw then none else some h.dreg.toNat) ∧
        ∃ va vb, rdN x a = .ok va ∧ rdN x b = .ok vb ∧
          ((su = true ∧ op = .scaccUni st.toNat (va % 256) (vb % 256)) ∨
           (su = false ∧ ∃ ta tb, resolveSpad s gh g va 32 = some ta ∧ resolveSpad s gh g vb 32 = some tb ∧
              op = .scaccVec st.toNat ta.1 ta.2 tb.1 tb.2))) ∨
     (i = .accld h sp a b ∧ tile = (if h.nw then none else some h.dreg.toNat) ∧
        ∃ va vb, rdN x b = .ok vb ∧ va % 4 = 0 ∧ vb % 4 = 0 ∧
          ((sp = true ∧ rdD x a = .ok va ∧ ∃ rows, devRows x kRead va vb = .ok rows ∧
              op = .accldDev (rows.map fun r => (r.1, r.2.map fun p => (p, heldAt g p.1)))) ∨
           (sp = false ∧ rdN x a = .ok va ∧ ∃ rows, spadRows x va vb = .ok rows ∧ op = .accldSpad rows))) ∨
     (i = .accst h sp st a b ∧ st.toNat < tilesOf g ∧ tile = none ∧
        ∃ va vb, rdN x b = .ok vb ∧ va % 4 = 0 ∧ vb % 4 = 0 ∧
          ((sp = true ∧ rdD x a = .ok va ∧ ∃ rows, devRows x kWrite va vb = .ok rows ∧ op = .accstDev st.toNat rows) ∨
           (sp = false ∧ rdN x a = .ok va ∧ ∃ rows, spadRows x va vb = .ok rows ∧ op = .accstSpad st.toNat rows))) ∨
     (i = .accz cl nm tl ∧ tl.toNat + nm.toNat < tilesOf g ∧ tile = some tl.toNat ∧ op = .accz (nm.toNat + 1))) →
    Does i s (offer s s.issue.core s.issue.slot
      { ticket := s.ticket, gh := gh, tile := tile, op := op, fetched := none,
        lanes := (j :: r).map fun k => (k, placeOf s (laneAt g k) .nothing) })

/-- MATRIX_ENTRY_COMPLETE (R178, R383, R386, R387, R389, R390): the entry in work writes its tile, all 1 024 elements, and
leaves the queue; every other tile, register and byte of memory stays. Where the entry reads scratchpad as it completes, no
request waits at a bank and the array reads every byte as it stands (R176, R217). -/
def Obligations.MatrixComplete : Prop :=
  ∀ (core : Nat) (s : State) (e : MatEntry) (g : Group) (tile : Nat) (new : List Nat),
    (coreAt s core).mq = [e] → swf Core.reset s.cores = true → s.NoWaits → mfind s.groups e.gh = some g → g.Canon →
    g.ck = none → e.tile = some tile → (layerAt s (layerOfCore core)).clock.relock = none →
    let still := (∀ c b, bankQueue (coreAt s c) b = []) ∧ g.behind = []
    ((∃ ty cz fa fb ga a gb b, e.op = .mma ty cz ga a gb b ∧ e.fetched = some (fa, fb) ∧
        new = mmaTile ty fa fb (if cz then List.replicate 1024 0 else tileOf g tile)) ∨
     (∃ n st, e.op = .had n st ∧ (n = 16 ∨ n = 32 ∨ n = 64) ∧ new = hadTile n (tileOf g st)) ∨
     (∃ st a b, e.op = .scaccUni st a b ∧
        new = scaccTile (tileOf g st) (tileOf g tile) (List.replicate 32 a) (List.replicate 32 b)) ∨
     (∃ st ha a hb b ga gb, e.op = .scaccVec st ha a hb b ∧ still ∧ mfind s.groups ha = some ga ∧ mfind s.groups hb = some gb ∧
        new = scaccTile (tileOf g st) (tileOf g tile) ((spadBytes ga a 32).map (·.toNat)) ((spadBytes gb b 32).map (·.toNat))) ∨
     (∃ rows, e.op = .accldSpad rows ∧ still ∧ rows.length = 32 ∧ (∀ r ∈ rows, r.1 = e.gh) ∧
        new = rows.flatMap fun r => (List.range 32).map fun k => spadNum g (r.2 + 4 * k) 4) ∨
     (e.op = .accz 1 ∧ new = List.replicate 1024 0)) →
    ∃ t g', exec (.matrixEntryComplete core) s = .next t ∧ (coreAt t core).mq = [] ∧ mfind t.groups e.gh = some g' ∧
      (∀ k, sget 0 g'.tiles k = if 1024 * tile ≤ k ∧ k < 1024 * tile + 1024 then BitVec.ofNat 32 (new.getD (k - 1024 * tile) 0)
        else sget 0 g.tiles k) ∧
      { g' with tiles := g.tiles } = g ∧ t.mem = s.mem ∧ ∀ k, k ≠ e.gh → mfind t.groups k = mfind s.groups k

/-! ### System instructions -/

/-- SYSRD and SYSWR (R400, R401, R405, R406): a read gives the CSR's value in the lane; a write waits for the end of its cycle,
which gives EXTSEL its index of five bits or TRAPTREE its function and valid bit, the reserved bits ignored. DTIME is the layer's
copy of device time; that the group keeps what it has read last, and reads that again where the copy is behind it by at most 8 ns,
as far as two copies can differ, is the model's reading (DEDUCED, log 27). -/
def Obligations.SystemRegisters : Prop :=
  (∀ (h : Head) (csr : BitVec 12), csr ≠ 0x42 → Results (.sysrd h csr) fun x => .ok (csrValue x csr.toNat)) ∧
  (∀ (h : Head) (s : State) (l : Layout) (v : Nat → Nat → Nat), MidLeaf s → s.FilesCanon →
    layout (.sysrd h 0x42) = some l → legal (.sysrd h 0x42) = true →
    Computes s l (fun x => .ok (csrValue x 0x42)) v → ∃ t, exec (.sysrd h 0x42) s = .next t ∧
      Passed s t fun gh lanes g g' => Received l.head (resultRegs l.dest) l.latch (v gh) s.issue.priv lanes
        { g with lastTime := match (takers g l.head lanes).head? with
          | some i => some (BitVec.ofNat 64 (v gh i))
          | none => g.lastTime } g') ∧
  (∀ x : Here, let copy := localTime x.st (layerOfCore (hereCore x))
    ∃ now : DWord, csrValue x 0x42 = now.toNat ∧ (now = copy ∨ x.g.lastTime = some now ∧ (now - copy).toNat ≤ 2 ^ 19) ∧
      ∀ v : DWord, x.g.lastTime = some v → (v - copy).toNat ≤ 2 ^ 19 ∨ (copy - v).toNat < 2 ^ 63 → (now - v).toNat < 2 ^ 63) ∧
  (∀ x : Here, csrValue x 3 = x.gh ∧ csrValue x 8 = x.g.x ∧ csrValue x 9 = x.g.y ∧ csrValue x 0xA = x.g.z ∧
    csrValue x 0xB = x.g.stage ∧ csrValue x 0xC = x.g.member ∧ csrValue x 0xD = x.g.gindex ∧
    csrValue x 0x10 = x.g.pitw.toNat ∧ csrValue x 0x11 = x.g.subfail.toNat ∧ csrValue x 0x20 = x.g.traptree.toNat ∧
    ∀ k, k < 16 → csrValue x (0x30 + k) = ((laneAt x.g x.lane).trec.getD k 0).toNat) ∧
  ∀ (h : Head) (csr : BitVec 12) (a : Src) (s : State) (l : Layout) (gh : Nat) (lanes : List Nat) (g : Group) (j v : Nat)
    (r : List Nat), Lone s gh lanes g → s.FilesCanon → layout (.syswr h csr a) = some l →
    legal (.syswr h csr a) = true → takers g h lanes = j :: r → partOk g l = true → rdN (hereAt s gh g j) a = .ok v →
    (csr = 0x18 ∨ csr = 0x20) ∧
    Does (.syswr h csr a) s (setGroup s gh { g with csrNext := g.csrNext ++ [(csr.toNat, BitVec.ofNat 32 v)] }) ∧
    ((∀ i, (laneAt g i).pendTrap = []) → g.halting = false → g.yielding = false → g.attribs = [] → ∀ w : Word,
      endCycle (setGroup s gh { g with csrNext := [(csr.toNat, w)] }) gh = setGroup s gh
        (if csr = 0x18 then { g with csrNext := [], extsel := BitVec.ofNat 32 (w.toNat % 32) }
        else { g with csrNext := [], traptree := BitVec.ofNat 32 (w.toNat % 65536 + (if w.toNat.testBit 31 then 2 ^ 31 else 0)) }))

/-- QPUT, FORK and GCRAISE (R124, R392 to R397): a claim of slots with its index or its status, a range task at the head
of the core's deque or false where it is full, and a launch's group count raised. -/
def Obligations.TaskInstructions : Prop :=
  ∀ (h : Head) (a b c : Src) (s : State) (l : Layout) (gh : Nat) (lanes : List Nat) (g : Group) (j : Nat) (r : List Nat),
    Lone s gh lanes g → s.FilesCanon → takers g h lanes = j :: r → partOk g l = true →
    let x := hereAt s gh g j
    (∀ q n, layout (.qput h a b) = some l → legal (.qput h a b) = true → rdN x a = .ok q → rdN x b = .ok n →
      let y := queueAt s q
      let ok := q < 4096 ∧ y.ctx = g.ctx ∧ 1 ≤ n ∧ n ≤ 64 ∧ y.enable = true ∧ y.size ≤ 10 ∧
        y.wridx.toNat + n ≤ y.rdidx.toNat + 2 ^ (6 + y.size)
      (ok → Does (.qput h a b) s (setGroup (setQueue s q { y with wridx := y.wridx + BitVec.ofNat 64 n }) gh
        (putResults g h 2 (some 0) ((j :: r).map fun k => (k, y.wridx.toNat))))) ∧
      ∃ status, (¬ ok → 0x8000000000000001 ≤ status ∧ status ≤ 0x8000000000000004 ∧
        Does (.qput h a b) s (setGroup (if q < 4096 then setQueue s q y else s) gh
          (putResults g h 2 (some 0) ((j :: r).map fun k => (k, status)))))) ∧
    (∀ va lo hi off d, s.NoWaits → layout (.fork h a b c) = some l → legal (.fork h a b c) = true →
      rdN x a = .ok va → rdD x b = .ok lo → rdD x c = .ok hi → va % 16 = 0 → resolveSpad s gh g va 32 = some (gh, off) →
      d = forkDesc (spadNum g off 32) → d.join = 0 → forkOk d lo hi = true →
      ((dequeAt s s.issue.core).length < 64 → Does (.fork h a b c) s (setGroup (pushTask s s.issue.core
        { ctx := g.ctx, queue := (queueOf s g).getD 0, pkt := none, image := d.image, args := d.args, func := d.func,
          pitw := BitVec.ofNat 32 d.pitw, width := d.width, join := none, joinVa := 0, prog := none, parts := 1, exited := 0, ended := (0, 0), killed := false, acc := [] }
        lo hi) gh (putPreds g h ((j :: r).map fun k => (k, 1))))) ∧
      (64 ≤ (dequeAt s s.issue.core).length → Does (.fork h a b c) s
        (setGroup s gh (putPreds g h ((j :: r).map fun k => (k, 0)))))) ∧
    ∀ n id lc, layout (.gcraise h a) = some l → legal (.gcraise h a) = true → rdN x a = .ok n → g.owner = .launch id →
      mfind s.launches id = some lc → 1 ≤ n → n ≤ 2 ^ 24 → lc.members ≠ 0 → n % lc.members = 0 → lc.stages = 1 →
      lc.total + n < 2 ^ 32 →
      Does (.gcraise h a) s { s with launches := mput s.launches id { lc with total := lc.total + n } }

/-- REGROW and REGROW_GRANT (R134, R398, R399): a change that needs no more granules, with nothing busy that it removes,
takes effect at once with predicate true; one beyond 128 granules gives false; a growth waits until the core grants it. -/
def Obligations.Regrow : Prop :=
  (∀ (h : Head) (fld : Bool) (a : Src) (s : State) (l : Layout) (gh : Nat) (lanes : List Nat) (g : Group) (j v : Nat)
    (r : List Nat), Lone s gh lanes g → s.FilesCanon → s.NoWaits → g.halted = false → stalled s g = false →
    commitWaits s g = false → layout (.regrow h fld a) = some l →
    legal (.regrow h fld a) = true → takers g h lanes = j :: r → partOk g l = true → rdN (hereAt s gh g j) a = .ok v →
    v ≤ (if fld then 16 else 31) →
    let old := granules g.pitw.toNat g.width
    let new := granules (pitwWith g.pitw.toNat fld v) g.width
    (new ≤ 128 → new ≤ old → g.pend = [] → (∀ x ∈ g.vbusy, x.1 % 256 < 8 * (v + 1)) → (∀ r ∈ bankReqs s, r.gh ≠ gh) →
      (∀ k ∈ s.cores, ∀ e ∈ k.2.mq, e.gh ≠ gh) → ∃ t, exec (.regrow h fld a) s = .next t ∧
        Passed s t fun _ lanes g g' => g'.pitw = BitVec.ofNat 32 (pitwWith g.pitw.toNat fld v) ∧
          (∀ i k, predAt g' i k = if i ∈ takers g h lanes ∧ h.nw = false ∧ k = h.dreg.toNat then true else predAt g i k) ∧
          (∀ i k, k < 8 * (bits g'.pitw.toNat 0 5 + 1) → vregAt g' i k = vregAt g i k) ∧
          g'.sregs = g.sregs ∧ g'.spad = g.spad) ∧
    (128 < new → ∃ t, exec (.regrow h fld a) s = .next t ∧ Passed s t fun _ lanes g g' =>
      ReceivedK h (fun _ => 0) s.issue.priv lanes g g') ∧
    (new ≤ 128 → old < new → Waits (.regrow h fld a) s (beginWait s gh
      { ticket := s.ticket, lanes := lanes, who := j :: r, what := .grow fld v (new - old), spill := false, woken := false, head := h, len := s.issue.len, dst := savedDst l }))) ∧
  ∀ (s : State) (core gh : Nat) (g : Group) (w : Wait) (fld : Bool) (v d : Nat) (q : Program),
    s.groups = [(gh, g)] → g.Canon → coreOf g = some core → (layerAt s (layerOfCore core)).clock.relock = none →
    progOf s g = some q → g.ck = none → w.lanes.Nodup →
    (∀ i ∈ w.lanes, i < g.lanes.length ∧ liveLane (laneAt g i) = true ∧
      ∃ n o, (laneAt g i).pos = .leaf n o ∧ o + w.len < leafLen s q n) → g.waits = [w] → w.what = .grow fld v d → w.who.Nodup → w.head.nw = false →
    w.head.dreg.toNat < 16 →
    ∃ t g', exec (.regrowGrant core) s = .next t ∧ mfind t.groups gh = some g' ∧ g'.waits = [] ∧
      g'.pitw = (if d ≤ 128 - granulesUsed s core then BitVec.ofNat 32 (pitwWith g.pitw.toNat fld v) else g.pitw) ∧
      ∀ i ∈ w.who, predAt g' i w.head.dreg.toNat = decide (d ≤ 128 - granulesUsed s core)

/-! ### Package, layers, cores and clocks -/

/-- POWER_OFF, PERST_ASSERT and PERST_RELEASE (R25, R29, R64, R65): a reset loses every key, context and group, power-off
the memory too; bring-up signals ready where the three images verify, the links train and the partition fits, with every
layer in its role, and answers THERMAL where the cooling class does not permit the profile. -/
def Obligations.PowerAndReset : Prop :=
  (∀ s, ∃ t, exec .powerOff s = .next t ∧ t.mem = [] ∧ t.lines = [] ∧ t.keys = [] ∧ t.contexts = [] ∧ t.groups = [] ∧
    t.pkg.power = false ∧ t.pkg.rdy = false) ∧
  (∀ s, s.pkg.power = true → ∃ t, exec .perstAssert s = .next t ∧ t.mem = s.mem ∧ t.lines = s.lines ∧ t.keys = [] ∧
    t.contexts = [] ∧ t.groups = [] ∧ t.queues = [] ∧ t.pkg.power = false ∧ t.pkg.rdy = false) ∧
  ∀ (s : State) (b : BringUp), s.pkg.power = false → s.pkg.rdy = false → s.TablesCanon →
    ∃ t, exec (.perstRelease b) s = .next t ∧ t.pkg.power = true ∧ t.mem = s.mem ∧
      t.pkg.rdy = ((bootChain 0 none b.images { s.pkg with power := true }).2 && b.images.length == 3 &&
        b.hbmTrained && b.cxlTrained && coolingOk b.enhanced b.profile && rolesOk b.profile b.roles) ∧
      (t.pkg.rdy = true → t.pkg.profile = some b.profile ∧ ∀ n, n < 8 →
        (layerAt t n).role = b.roles.getD n .unassigned ∧
        (layerAt t n).state = if b.roles.getD n .unassigned = .fenced then .off else .active) ∧
      ((bootChain 0 none b.images { s.pkg with power := true }).2 = true → b.images.length = 3 → b.hbmTrained = true →
        b.cxlTrained = true → coolingOk b.enhanced b.profile = false →
        t.pkg.out = s.pkg.out ++ [.trap 0x44 2, .status 2])

/-- Partitions and layer roles (R13, R14, R16): a partition that fits records its plan; its layers then go one at a time
through DRAIN, FLUSH and REENUM to their new role, FLUSH lasting while a context has pages there, and every context is
told when REENUM begins. That a profile is refused whose ceiling a clock, its target or its waiting request passes, and that the
profile is current from APPLY_PARTITION on, are the model's reading (DEDUCED, log 37), and so is that a page in migration still
counts by the frame its leaf names (DEDUCED, log 52). -/
def Obligations.LayerRoles : Prop :=
  ∀ (s : State), s.TablesCanon →
    (∀ p roles, s.pkg.rdy = true → coolingOk s.pkg.enhanced p = true → rolesOk p roles = true →
      (∀ n, n < 8 → changing (layerAt s n) = false ∧ ∀ k, (k = (layerAt s n).clock ∨ k = sget Clock.reset s.pkg.hull n) →
        k.code ≤ (profileOf p).2.2 ∧ k.target ≤ (profileOf p).2.2 ∧ ∀ c, k.waiting = some c → c ≤ (profileOf p).2.2) →
      ∃ t, exec (.applyPartition p roles) s = .next t ∧ t.pkg.profile = some p ∧
        (∀ n, n < 8 → ((∃ r, (n, r) ∈ t.pkg.plan) ↔ (layerAt s n).role ≠ roles.getD n .unassigned)) ∧
        { t with pkg := s.pkg } = s) ∧
    (∀ p roles n, s.pkg.rdy = true → n < 8 → coolingOk s.pkg.enhanced p = true →
      (∃ k, (k = (layerAt s n).clock ∨ k = sget Clock.reset s.pkg.hull n) ∧ ((profileOf p).2.2 < k.code ∨
        (profileOf p).2.2 < k.target ∨ ∃ c, k.waiting = some c ∧ (profileOf p).2.2 < c)) →
      exec (.applyPartition p roles) s = .next s) ∧
    ∀ n r, n < 8 →
      ((n, r) ∈ s.pkg.plan → (∀ k, k < 8 → changing (layerAt s k) = false) →
        ∃ t, exec (.roleChangeRequest n r) s = .next t ∧ (layerAt t n).state = .drain ∧ (layerAt t n).newRole = some r ∧
          (layerAt t n).role = (layerAt s n).role ∧ ∀ k, k ≠ n → layerAt t k = layerAt s k) ∧
      ((layerAt s n).state = .drain → onLayer s n = [] → s.NoWaits →
        (∀ x ∈ s.subs, ¬ (windowOf n ≤ x.pa ∧ x.pa < windowOf n + 0x10000000)) →
        ∃ t, exec (.layerDrainComplete n []) s = .next t ∧ (layerAt t n).state = .flush ∧
          ∀ k, k ≠ n → layerAt t k = layerAt s k) ∧
      ((layerAt s n).state = .flush → pagesIn s n = true → exec (.layerFlushComplete n) s = .next s) ∧
      ((layerAt s n).state = .flush → s.notices = [] → pagesIn s n = false → ∃ t, exec (.layerFlushComplete n) s = .next t ∧
        (layerAt t n).state = .reenum ∧
        t.pkg.out = s.pkg.out ++ s.contexts.map fun c => .roleChange c.1 n false) ∧
      ((layerAt s n).state = .reenum → (layerAt s n).newRole = some r → ∃ t, exec (.layerReenumComplete n) s = .next t ∧
        (layerAt t n).role = r ∧ (layerAt t n).newRole = none ∧
        (layerAt t n).state = (if r = .fenced then .off else .active) ∧ ∀ q ∈ t.pkg.plan, q.1 ≠ n)

/-- Failures and errors (R26, R27, R235, R435): a failed core waits for its Pod's spare, which takes its place with empty
caches and is then used up; without a spare the core is fenced; its groups go back to their checkpoints (R183) where a
spare takes over and the copies are intact, and are killed otherwise, as by an uncorrectable error in a group's core; a
line marked uncorrectable is poisoned; a corrected error is counted. That the groups of a fenced core are killed (log 37) and that
the failure itself says whose copies are damaged (log 40) are the model's choices. -/
def Obligations.Failures : Prop :=
  ∀ (s : State) (c : Nat) (damaged : List Nat), s.TablesCanon → s.NoWaits → c < 256 →
    let spare := !(sget false (layerAt s (c / 32)).spareUsed (c % 32 / 8) || sget false (layerAt s (c / 32)).noSpare (c % 32 / 8)
      || (List.range 8).any fun k => (coreAt s (c / 8 * 8 + k)).failing)
    ((coreAt s c).fenced = false → (coreAt s c).failing = false → (∀ p ∈ s.groups, coreOf p.2 ≠ some c) →
      ∃ t, exec (.coreFailure ⟨c, damaged⟩) s = .next t ∧ (coreAt t c).failing = spare ∧ (coreAt t c).fenced = !spare ∧
        (∀ k, k ≠ c → coreAt t k = coreAt s k) ∧ { t with cores := s.cores } = s) ∧
    (∀ gh g i intact, s.groups = [(gh, g)] → coreOf g = some c → g.lanes.any liveLane = true →
      (∀ k ∈ s.cores, ∀ e ∈ k.2.mq, e.fetched = none → ∀ ty cz ha a hb b, e.op ≠ .mma ty cz ha a hb b) →
      (i = .uncorrectableError (.group gh intact) ∨ ((coreAt s c).fenced = false ∧ (coreAt s c).failing = false ∧
        i = .coreFailure ⟨c, damaged⟩ ∧ intact = (spare && !damaged.contains gh))) →
      ∃ t g', exec i s = .next t ∧ mfind t.groups gh = some g' ∧ g'.held = [] ∧
        (∀ k, g.ck = some k → intact = true → g'.ck = some k ∧ g'.vregs = k.vregs ∧ g'.sregs = k.sregs ∧ g'.preds = k.preds ∧
          g'.tiles = k.tiles ∧ g'.spad = k.spad ∧ g'.pitw = k.pitw ∧ g'.latches = [] ∧
          g'.lanes.map (fun l => (l.pos, l.frames, l.saved, l.trec, l.exited)) =
            k.lanes.map (fun l => (l.pos, l.frames, l.saved, l.trec, l.exited)) ∧
          ∀ x, x ∈ g'.pend ↔ x ∈ g.pend ∧ x.ticket < k.ticket) ∧
        ((g.ck = none ∨ intact = false) → g'.ck = none ∧ ∀ j, liveLane (laneAt g' j) = false) ∧
        (i = .coreFailure ⟨c, damaged⟩ → (coreAt t c).failing = spare ∧ (coreAt t c).fenced = !spare)) ∧
    ((coreAt s c).failing = true → ∃ t, exec (.spareTakeover c) s = .next t ∧ (coreAt t c).failing = false ∧
      (coreAt t c).icache = [] ∧ (coreAt t c).nodes = [] ∧ (coreAt t c).mq = (coreAt s c).mq ∧
      (coreAt t c).banks = (coreAt s c).banks ∧ t.groups = s.groups ∧
      (swf false (layerAt s (c / 32)).spareUsed = true → sget false (layerAt t (c / 32)).spareUsed (c % 32 / 8) = true)) ∧
    (∀ pa, isMemory (region s pa) = true → swf false s.poison = true →
      ∃ t, exec (.uncorrectableError (.line pa)) s = .next t ∧ poisoned t pa = true ∧ { t with poison := s.poison } = s ∧
        ∀ x, x / 64 ≠ pa / 64 → poisoned t x = poisoned s x) ∧
    ∃ t, exec .singleBitSoftError s = .next t ∧ t.pkg.correctable = s.pkg.correctable + 1 ∧
      { t with pkg := s.pkg } = s

/-- Clocks and power (R21 to R24): a request for a code within the ceiling starts a relock to it, one above is answered
BADFREQ; a relock ends after 2 µs; over the cap every compute layer steps down one code, at most every 100 µs, and up
again towards its target after 1 ms under the cap. Time exchanges (R42, R43): an offset is slewed, a forward one beyond 10
µs stepped at once; after 2 s without a valid exchange synchronisation is lost, with its trap. -/
def Obligations.Clocks : Prop :=
  (∀ (s : State), s.TablesCanon → s.pkg.power = true →
    (∀ n c p, n < 8 → s.pkg.profile = some p → c ≤ (profileOf p).2.2 → ((layerAt s n).role = .compute ∨ (layerAt s n).role = .memory) →
      (layerAt s n).clock.relock = none → c ≠ (layerAt s n).clock.code → ∃ t, exec (.freqRequest (.layer n) c) s = .next t ∧
        (layerAt t n).clock.code = c ∧ (layerAt t n).clock.target = c ∧
        (layerAt t n).clock.relock = some (s.time.now + BitVec.ofNat 64 (2000 * 65536)).toNat ∧
        ∀ k, k ≠ n → layerAt t k = layerAt s k) ∧
    (∀ n c, n < 8 → (28 < c ∨ (∃ p, s.pkg.profile = some p ∧ (profileOf p).2.2 < c) ∨ (layerAt s n).role = .fenced ∨
        (layerAt s n).role = .unassigned) → exec (.freqRequest (.layer n) c) s = .next (emit s (.status 3))) ∧
    (∀ n e, n < 8 → s.NoWaits → (layerAt s n).clock.relock = some e → e < 2 ^ 64 →
      (s.time.now - BitVec.ofNat 64 e).toNat < 2 ^ 63 → (layerAt s n).clock.waiting = none →
      ∃ t, exec (.relockEnd (.layer n)) s = .next t ∧ (layerAt t n).clock.relock = none ∧
        (layerAt t n).clock.code = (layerAt s n).clock.code ∧ ∀ k, k ≠ n → layerAt t k = layerAt s k) ∧
    (∀ p mw, s.pkg.profile = some p → ∃ t, exec (.powerSample mw) s = .next t ∧
      t.pkg.overCap = decide (capOf p < mw) ∧ t.layers = s.layers) ∧
    (s.pkg.overCap = true → 100000 * 65536 ≤ (s.time.now - BitVec.ofNat 64 s.pkg.lastStep).toNat →
      ∃ t, exec .powerStepDown s = .next t ∧ t.pkg.lastStep = s.time.now.toNat ∧ ∀ n, n < 8 →
        (layerAt s n).clock.relock = none → (layerAt s n).clock.waiting = none →
        (layerAt t n).clock.code = (if (layerAt s n).role = .compute then (layerAt s n).clock.code - 1
          else (layerAt s n).clock.code)) ∧
    ∀ p, s.pkg.overCap = false → s.pkg.profile = some p →
      1000000 * 65536 ≤ (s.time.now - BitVec.ofNat 64 s.pkg.underSince).toNat →
      100000 * 65536 ≤ (s.time.now - BitVec.ofNat 64 s.pkg.lastStep).toNat →
      ∃ t, exec .powerStepUp s = .next t ∧ t.pkg.lastStep = s.time.now.toNat ∧ ∀ n, n < 8 →
        (layerAt s n).clock.relock = none → (layerAt s n).clock.waiting = none →
        (layerAt t n).clock.code = (if (layerAt s n).role = .compute ∧ (layerAt s n).clock.code < (layerAt s n).clock.target
          then (layerAt s n).clock.code + 1 else (layerAt s n).clock.code)) ∧
  (∀ (s : State) (d : Int),
    (s.time.tsrc = 1 → s.pkg.power = true → ∃ t, exec (.timeExchange .host d) s = .next t ∧ t.time.tsync = true ∧
      t.time.now = (if 10000 * 65536 < d then s.time.now + BitVec.ofInt 64 d else s.time.now) ∧
      t.time.slew = (if 10000 * 65536 < d then 0 else d) ∧ { t with time := s.time } = s) ∧
    ((s.time.tsync = true ∨ (s.time.tsrc ≠ 0 ∧ s.time.tlost = false)) →
      (2000000000 * 65536 ≤ s.time.quiet ∨ (s.time.tsrc = 2 ∧ (portAt s s.time.tport).state ≠ .up)) →
      ∃ t, exec .tsyncLoss s = .next t ∧
      t.time.tsync = false ∧ t.time.tlost = true ∧ t.time.slew = 0 ∧ t.time.now = s.time.now ∧
      t.pkg.out = s.pkg.out ++ [.trap 0x43 s.time.tport]))

/-! ### Links and device time -/

/-- The states of a port (R33, R38, R39): enabling trains it, training leads to KEYWAIT, and once slot 0 of both
directions holds a key at both ends it is UP with sequence numbers from 0; disabling, a lock loss beyond 10 µs and the
index limit take it down, with LINKDOWN for each open request and each command under way over it, and both directions'
keys gone. -/
def Obligations.PortStates : Prop :=
  ∀ (s : State) (n : Nat), s.TablesCanon → n < 16 →
    (∀ asid, (portAt s n).state = .down → ∃ t, exec (.portEnable n asid) s = .next t ∧
      portAt t n = { portAt s n with enable := true, rxAsid := asid, state := .train } ∧ { t with ports := s.ports } = s) ∧
    (∀ ready, (portAt s n).state = .train → (slotAt (portAt s n).tx false).loaded = false → ∃ t, exec (.trainDone ⟨n, ready⟩) s = .next t ∧
      portAt t n = { portAt s n with state := .keywait, peerReady := (portAt s n).peerReady || ready } ∧ { t with ports := s.ports } = s) ∧
    (∀ key, (portAt s n).state = .keywait → (portAt s n).tx.length = 2 → (portAt s n).rx.length = 2 →
      (slotAt (portAt s n).rx false).loaded = true → (portAt s n).peerReady = true →
      ∃ t, exec (.valobKeyLoad n true false key) s = .next t ∧ (portAt t n).state = .up ∧ (portAt t n).sendSeq = 0 ∧
        (portAt t n).wantSeq = 0 ∧ (slotAt (portAt t n).tx false).key = key ∧
        (slotAt (portAt t n).tx false).loaded = true ∧ (slotAt (portAt t n).tx false).ic = 0 ∧
        { t with ports := s.ports } = s) ∧
    ∀ (i : Instr) (why : Nat), (portAt s n).state = .up → portsRun s = true → s.NoWaits →
      ((i = .portDisable n ∧ why = 4) ∨ (∃ d, i = .phyLockLoss n d ∧ 10000 * 65536 < d ∧ why = 3) ∨
       (∃ e, i = .iclimitTimeout n ∧ (portAt s n).stopped = some e ∧
          10000000 * 65536 ≤ (s.time.now - BitVec.ofNat 64 e).toNat ∧ why = 2)) →
      ∃ t, exec i s = .next t ∧ (portAt t n).state = .down ∧ (portAt t n).downWhy = why ∧ (portAt t n).replay = [] ∧
        (∀ k, (slotAt (portAt t n).tx k).loaded = false ∧ (slotAt (portAt t n).rx k).loaded = false) ∧
        t.pkg.out = s.pkg.out ++ List.replicate (portAt s n).requests (.linkdown n) ∧
        (∀ p x, mfind s.packets p = some x → usesPort n x = true →
          (mfind t.packets p).map (·.phase) = some (.finished 5 (pseqOf x.body.toNat))) ∧
        ∀ k, k ≠ n → portAt t k = portAt s k

/-- Flits sent (R31, R34, R35, R37): a DATA flit takes the next SEQ and the slot's next IC, goes on the wire under the
transmit slot's key and stays for replay; a switch sends a MARKER under the spare slot and turns to it, at once or when
the buffer has room; a timeout resends what is outstanding; a port's time exchange begins with a TIME flit. -/
def Obligations.FlitsSent : Prop :=
  ∀ (s : State) (n : Nat), s.TablesCanon → s.NoWaits → portUp s n = true → (portAt s n).tx.length = 2 →
    let p := portAt s n
    let k := slotAt p.tx p.txSlot
    let head := fun (kind cls seq len ic : Nat) (slot : Bool) => FlitHead.mk kind slot cls seq ((p.wantSeq + 65535) % 65536) len ic
    (∀ cls payload, p.stopped = none → p.replay.length < 512 → payload.length ≤ 256 → k.ic + 1 < 2 ^ 43 →
      ∃ t, exec (.flitSend n { kind := 0, cls := cls, payload := payload }) s = .next t ∧
        let f := makeFlit k.key (head 0 cls.toNat p.sendSeq payload.length k.ic p.txSlot) payload
        (portAt t n).wire = p.wire ++ [f] ∧ (portAt t n).sendSeq = (p.sendSeq + 1) % 65536 ∧
        (portAt t n).replay = p.replay ++ [{ seq := p.sendSeq, flit := f, resent := 0, marker := false }] ∧
        (slotAt (portAt t n).tx p.txSlot).ic = k.ic + 1 ∧ (portAt t n).txSlot = p.txSlot ∧
        (portAt t n).requests = p.requests + (if cls = 0 then 1 else 0) ∧ { t with ports := s.ports } = s) ∧
    (p.swBusy = false → (slotAt p.tx (!p.txSlot)).loaded = true → p.replay.length < 512 →
      (slotAt p.tx (!p.txSlot)).ic + 1 < 2 ^ 43 → ∃ t, exec (.switch n) s = .next t ∧
        let y := slotAt p.tx (!p.txSlot)
        let f := makeFlit y.key (head 1 3 p.sendSeq 0 y.ic (!p.txSlot)) []
        (portAt t n).txSlot = !p.txSlot ∧ (portAt t n).swBusy = true ∧ (portAt t n).wire = p.wire ++ [f] ∧
        (portAt t n).replay = p.replay ++ [{ seq := p.sendSeq, flit := f, resent := 0, marker := true }]) ∧
    (p.swBusy = false → (slotAt p.tx (!p.txSlot)).loaded = true → 512 ≤ p.replay.length →
      exec (.switch n) s = .next (setPort s n { p with swBusy := true, markerDue := true })) ∧
    (p.replay ≠ [] → 4000 * 65536 ≤ (s.time.now - BitVec.ofNat 64 p.lastAck).toNat → (∀ x ∈ p.replay, x.resent < 7) →
      ∃ t, exec (.replayTimeout n) s = .next t ∧ (portAt t n).wire = p.wire ++ p.replay.map (·.flit) ∧
        (portAt t n).replay = p.replay.map (fun x => { x with resent := x.resent + 1 }) ∧ (portAt t n).state = .up) ∧
    (s.time.tsrc = 2 → s.time.tport = n → p.stopped = none → k.ic + 1 < 2 ^ 43 →
      ∃ t, exec (.timeExchange (.port n) 0) s = .next t ∧ (portAt t n).replay = p.replay ∧
        (portAt t n).wire = p.wire ++ [makeFlit k.key (head 2 3 0 0 k.ic p.txSlot) []] ∧ (portAt t n).sendSeq = p.sendSeq)

/-- Flits received (R35, R36, R37, R43): a DATA flit that verifies with the awaited SEQ and a rising IC is taken, one that
does not is discarded, counted and answered NAK; ACK and NAK retire what their ACKSEQ covers, and NAK resends the rest; an
IDLE flit only counts its IC; a TIME flit of the selected source disciplines the time; a MARKER retires the old receive
slot; a reserved kind is discarded. -/
def Obligations.FlitsReceived : Prop :=
  ∀ (s : State) (n : Nat) (f : WireFlit), s.TablesCanon → s.NoWaits → portUp s n = true → (portAt s n).rx.length = 2 →
    let p := portAt s n
    let h := headFields f.header
    let k := slotAt p.rx h.kslot
    (∀ b, h.kind = 0 → acceptNumbered p f = some b → p.replay = [] → ∃ t, exec (.dataFlit n f) s = .next t ∧
      (portAt t n).got = p.got ++ [b] ∧ (portAt t n).wantSeq = (p.wantSeq + 1) % 65536 ∧
      (slotAt (portAt t n).rx h.kslot).seenData = some h.ic ∧ (portAt t n).authFail = p.authFail ∧ (portAt t n).wire = p.wire) ∧
    (h.kind = 0 → acceptNumbered p f = none → ∃ t, exec (.dataFlit n f) s = .next t ∧ (portAt t n).got = p.got ∧
      (portAt t n).wantSeq = p.wantSeq ∧ (portAt t n).authFail = min (p.authFail + 1) 255 ∧
      (portAt t n).wire.length = p.wire.length + 1 ∧ (portAt t n).replay = p.replay) ∧
    (∀ b, h.kind = 1 → acceptNumbered p f = some b → p.replay = [] → h.kslot ≠ p.rxSlot → ∃ t, exec (.markerFlit n f) s = .next t ∧
      (portAt t n).rxSlot = h.kslot ∧ (slotAt (portAt t n).rx p.rxSlot).loaded = false ∧
      (portAt t n).wantSeq = (p.wantSeq + 1) % 65536 ∧ (portAt t n).got = p.got) ∧
    (acceptControl p f = true →
      (∀ x r, h.kind = 3 → p.replay = x :: r → x.seq = h.ackSeq → x.marker = false → p.markerDue = true → r.length < 512 →
        ∃ t, exec (.ackFlit n f) s = .next t ∧ (portAt t n).markerDue = false ∧ (portAt t n).txSlot = !p.txSlot ∧
          (portAt t n).wire.length = p.wire.length + 1 ∧ (portAt t n).replay.length = r.length + 1) ∧
      (∀ x r, h.kind = 3 → p.replay = x :: r → x.seq = h.ackSeq → x.marker = false → p.markerDue = false → ∃ t, exec (.ackFlit n f) s = .next t ∧
        (portAt t n).replay = r ∧ (portAt t n).ackSeq = h.ackSeq ∧ (portAt t n).wire = p.wire ∧
        (slotAt (portAt t n).rx h.kslot).seenCtl = some h.ic) ∧
      (∀ x r, h.kind = 4 → p.replay = x :: r → x.seq = h.ackSeq → x.marker = false → p.markerDue = false → (∀ y ∈ r, y.resent < 7) →
        ∃ t, exec (.nakFlit n f) s = .next t ∧ (portAt t n).wire = p.wire ++ r.map (·.flit) ∧
          (portAt t n).replay = r.map fun y => { y with resent := y.resent + 1 }) ∧
      (h.kind = 5 → p.replay = [] → ∃ t, exec (.idleFlit n f) s = .next t ∧
        portAt t n = { p with rx := setSlot p.rx h.kslot { k with seenCtl := some h.ic } } ∧ { t with ports := s.ports } = s) ∧
      ∀ d : Int, h.kind = 2 → p.replay = [] → s.time.tsrc = 2 → s.time.tport = n → d ≤ 10000 * 65536 →
        ∃ t, exec (.timeFlit n f d) s = .next t ∧ t.time.slew = d ∧ t.time.tsync = true ∧ t.time.now = s.time.now) ∧
    (6 ≤ h.kind → ∃ t, exec (.reservedKindFlit n f) s = .next t ∧
      portAt t n = { p with authFail := min (p.authFail + 1) 255 } ∧ { t with ports := s.ports } = s)

/-! ### Host port and security -/

/-- The host port (R6, R47 to R50, R54, R77, R436): a read of a key window gives zeros and sets ACCVIOL, a write to a
window the host may not write is dropped and sets it; APBASE and RINGBASE keep their address bits; a host write to a queue
page is dropped, a read gives its registers; each access needs the access table's grant (R61); an aperture access reads or
writes under the frame's key where the table grants it, reads ones from a bound context's frames, and is otherwise
answered Unsupported Request. -/
def Obligations.HostPort : Prop :=
  ∀ s : State, s.TablesCanon → s.MemCanon → s.NoWaits →
    (∀ off, off + 8 ≤ 0x4000000 → (tableGrants s 20 (initHost 0) off (off + 7) 1 = true →
        ∃ t bytes, exec (.keyWindowRead (.mgmt off)) s = .next t ∧ t.pkg.out = s.pkg.out ++ [.hostData bytes] ∧
          bytes.length = 8 ∧ (t.pkg.accviol = true ↔ s.pkg.accviol = true ∨ ∃ k, k < 8 ∧ keyWindow (off + k) = true) ∧
          (∀ k, k < 8 → keyWindow (off + k) = true → bytes.getD k 0 = 0) ∧ { t with pkg := s.pkg } = s) ∧
      (tableGrants s 20 (initHost 0) off (off + 7) 1 = false →
        exec (.keyWindowRead (.mgmt off)) s = .next (emit s .unsupported))) ∧
    (∀ fn page off q, queueOfPage s fn page = some q → q < 4096 → off + 8 ≤ 0x1000 → off % 8 = 0 →
      (fn = 0 → tableGrants s 21 (initHost 0) (0x1000 * page + off) (0x1000 * page + off + 7) 1 = true) →
      exec (.keyWindowRead (.page fn page off)) s =
        .next (emit s (.hostData (toBytes 8 (queueReg s (headWait s q) q off))))) ∧
    (∀ off d, (0x2000 ≤ off ∧ off < 0x2800) ∨ (0x10000 ≤ off ∧ off < 0x11800) ∨ (0x12000 ≤ off ∧ off < 0x12100) ∨ off < 4 →
      hostPermitted s (.mgmt off) 2 = true →
      exec (.protectedWrite off d) s = .next { s with pkg := { s.pkg with accviol := true } }) ∧
    (∀ who d, (who = .host → hostPermitted s (.mgmt 0x1088) 2 = true) →
      (∀ k, who = .service k → servicePermitted s k 0xF00001088 8 2 = true) →
      ∃ t, exec (.registerWrite who (.mgmt 0x1088) d) s = .next t ∧
        t.pkg.apbase = d &&& 0x000FFFFFC0000000 ∧ { t with pkg := s.pkg } = s) ∧
    (∀ q d, q < 4096 → (servicePermitted s (q % 16) (0xF10000000 + 0x1000 * q + 0x18) 8 2 = true →
        ∃ t, exec (.registerWrite (.service (q % 16)) (.queue q 0x18) d) s = .next t ∧
          queueAt t q = { queueAt s q with ringbase := d &&& 0xFFFFFFFFFFFFF000 } ∧ { t with queues := s.queues } = s) ∧
      (servicePermitted s (q % 16) (0xF10000000 + 0x1000 * q + 0x18) 8 2 = false →
        exec (.registerWrite (.service (q % 16)) (.queue q 0x18) d) s =
          .next (serviceTrap s (q % 16) causeLoadFault (0xF10000000 + 0x1000 * q + 0x18))) ∧
      (hostPermitted s (.queue q 0) 2 = true → exec (.registerWrite .host (.queue q 0) d) s = .next s)) ∧
    (∀ off n, 0 < n → off + n ≤ 2 ^ (34 + s.pkg.bar4) → s.pkg.apbase.toNat + off + n ≤ 2 ^ 52 →
      (tableGrants s 22 (initHost 0) off (off + n - 1) 1 = true →
        tablePermits s (initHost 0) (s.pkg.apbase.toNat + off) n 1 = true → spanStalls s (s.pkg.apbase.toNat + off) n = false →
        ∃ t bytes, exec (.apertureAccess off n none) s = .next t ∧ t.pkg.out = s.pkg.out ++ [.hostData bytes] ∧
          bytes.length = n ∧ { t with pkg := s.pkg, free := s.free } = s ∧
          ∀ k, k < n → isMemory (region s (s.pkg.apbase.toNat + off + k)) = true →
            (lockedFrame s (s.pkg.apbase.toNat + off + k) = true → bytes.getD k 0 = 0xFF) ∧
            ∀ v, lockedFrame s (s.pkg.apbase.toNat + off + k) = false → badAt s (s.pkg.apbase.toNat + off + k) = false →
              frameView s (s.pkg.apbase.toNat + off + k) = some v →
              bytes.getD k 0 = readAs s v (s.pkg.apbase.toNat + off + k)) ∧
      (tableGrants s 22 (initHost 0) off (off + n - 1) 1 = false →
        exec (.apertureAccess off n none) s = .next (emit s .unsupported))) ∧
    ∀ off (l : List Byte) v, l ≠ [] → off + l.length ≤ 2 ^ (34 + s.pkg.bar4) → s.pkg.apbase.toNat + off + l.length ≤ 2 ^ 52 →
      tableGrants s 22 (initHost 0) off (off + l.length - 1) 2 = true →
      tablePermits s (initHost 0) (s.pkg.apbase.toNat + off) l.length 2 = true →
      spanStalls s (s.pkg.apbase.toNat + off) l.length = false →
      (s.pkg.apbase.toNat + off) / 65536 = (s.pkg.apbase.toNat + off + l.length - 1) / 65536 →
      (∀ k, k < l.length → isMemory (region s (s.pkg.apbase.toNat + off + k)) = true) →
      lockedFrame s (s.pkg.apbase.toNat + off) = false → frameView s (s.pkg.apbase.toNat + off) = some v →
      ∃ t, exec (.apertureAccess off l.length (some l)) s = .next t ∧
        (∀ k, k < l.length → readAs t v (s.pkg.apbase.toNat + off + k) = l.getD k 0) ∧
        (∀ x, isMemory (region s x) = true →
          (x < s.pkg.apbase.toNat + off ∨ s.pkg.apbase.toNat + off + l.length ≤ x) → readAs t v x = readAs s v x) ∧
        { t with mem := s.mem, lines := s.lines, subs := s.subs, groups := s.groups } = s

/-- The TDISP states (R51 to R53): LOCK binds an unlocked interface and disables its context's queues, START runs a locked
one, STOP without copies in flight returns it to CONFIG_UNLOCKED and with them to ERROR, as does an unprotected TLP, and
ERROR loses the context, its queues and its key. -/
def Obligations.Interfaces : Prop :=
  ∀ (s : State) (k : Nat), s.TablesCanon → s.NoWaits → k < 64 →
    (∀ stream, stream < 16 → (tdiAt s k).state = .unlocked → sharedKey s k = false →
      (∀ p ∈ s.tables, forbidden s k (p.1 / 64) p.2.toNat = false) →
      ∃ t, exec (.tdispLock k stream) s = .next t ∧ tdiAt t k = { state := .locked, stream := stream } ∧
        (∀ j, j ≠ k → tdiAt t j = tdiAt s j) ∧ (∀ q, queueAt t q =
          if (queueAt s q).ctx = k then { queueAt s q with enable := false } else queueAt s q) ∧
        { t with tdis := s.tdis, queues := s.queues } = s) ∧
    ((tdiAt s k).state = .locked → ∃ t, exec (.tdispStart k) s = .next t ∧
      tdiAt t k = { tdiAt s k with state := .run } ∧ (∀ j, j ≠ k → tdiAt t j = tdiAt s j) ∧ (∀ q, queueAt t q =
        if (queueAt s q).ctx = k ∧ queueAt s q ≠ Queue.reset then { queueAt s q with enable := true } else queueAt s q) ∧
      { t with tdis := s.tdis, queues := s.queues } = s) ∧
    (copiesOut s k = false → ∃ t, exec (.stopInterface k) s = .next t ∧ tdiAt t k = Tdi.reset ∧
      (∀ j, j ≠ k → tdiAt t j = tdiAt s j) ∧ { t with tdis := s.tdis } = s) ∧
    (∀ stream tbit intact, (tdiAt s k).state = .run → tbit = true → stream = (tdiAt s k).stream → intact = true →
      exec (.hostTlp k tbit stream intact) s = .next s) ∧
    ∀ i, ((i = .stopInterface k ∧ frozen s k = true ∧ copiesOut s k = true) ∨
        (∃ stream tbit intact, i = .hostTlp k tbit stream intact ∧ (tdiAt s k).state = .run ∧
          (tbit = false ∨ stream ≠ (tdiAt s k).stream ∨ intact = false))) →
      ∃ t, exec i s = .next t ∧ (tdiAt t k).state = .error ∧ (sget MemKey.reset t.keys k).valid = false ∧
        (∀ q, (queueAt s q).ctx = k → (queueAt t q).enable = false) ∧
        ∀ c, mfind s.contexts k = some c → ctxState t k = some .lost

/-- Keys, access tables, measurements and the second tier (R57 to R59, R62, R63, R66, R92): a load makes a key valid, an
erase invalid, its attributes are set; those of a bound context are refused with LOCKED; an entry keeps no reserved bit;
the report is signed; a CXL error is recorded and told. -/
def Obligations.KeysAndTables : Prop :=
  ∀ (s : State) (k : Nat), s.TablesCanon → s.NoWaits → k < 64 →
    (frozen s k = false →
      (∀ key, ∃ t, exec (.memoryKeyLoad k key) s = .next t ∧
        sget MemKey.reset t.keys k = { sget MemKey.reset s.keys k with mat := key, valid := true } ∧
        (∀ j, j ≠ k → sget MemKey.reset t.keys j = sget MemKey.reset s.keys j) ∧ { t with keys := s.keys } = s) ∧
      (∃ t, exec (.memoryKeyErase k) s = .next t ∧ (sget MemKey.reset t.keys k).valid = false ∧
        (∀ j, j ≠ k → sget MemKey.reset t.keys j = sget MemKey.reset s.keys j) ∧ { t with keys := s.keys } = s) ∧
      ∀ shared (owner : BitVec 6), ∃ t, exec (.setKattr k shared owner) s = .next t ∧
        sget MemKey.reset t.keys k =
          { sget MemKey.reset s.keys k with owner := owner.toNat, shared := shared && !frozen s owner.toNat } ∧
        (∀ j, j ≠ k → sget MemKey.reset t.keys j = sget MemKey.reset s.keys j) ∧ { t with keys := s.keys } = s) ∧
    (frozen s k = true → ∀ i, ((∃ key, i = .memoryKeyLoad k key) ∨ i = .memoryKeyErase k ∨
        ∃ shared owner, i = .setKattr k shared owner) → exec i s = .next (emit s (.status 5))) ∧
    (∀ key, ∃ t, exec (.copyInKeyLoad k key) s = .next t ∧ (sget CopyKey.reset t.copyKeys k).key = key ∧
      (sget CopyKey.reset t.copyKeys k).loaded = true ∧
      (sget CopyKey.reset t.copyKeys k).ictr = 0 ∧
      { t with copyKeys := s.copyKeys } = s) ∧
    (∀ n e, n < 55 → frozenEntry s e.toNat = false → frozenEntry s (sget 0 s.tables (64 * n + k)).toNat = false →
      (∀ j, j < 64 → frozen s j = false) → ∃ t, exec (.accessTableWrite n k e) s = .next t ∧
        (∀ b, b < 128 → (sget 0 t.tables (64 * n + k)).getLsbD b = (e.getLsbD b && (decide (b < 5) || decide (32 ≤ b)))) ∧
        (∀ j, j ≠ 64 * n + k → sget 0 t.tables j = sget 0 s.tables j) ∧ { t with tables := s.tables } = s) ∧
    (∀ nonce : BitVec 256, ∃ t bytes, exec (.getMeasurements nonce) s = .next t ∧ ofBytes (bytes.take 32) = nonce.toNat ∧
      t.pkg.out = s.pkg.out ++ [.report bytes (Config.slhSign bytes)] ∧ { t with pkg := s.pkg } = s) ∧
    (∀ pa off, region s pa = .tier2 off → swf false s.cxlBad = true → swf false s.pkg.cxlError = true →
      ∃ t, exec (.cxlPoison (cxlPortOf s off) pa) s = .next t ∧ sget false t.cxlBad (pa / 64) = true ∧
        (∀ x, x ≠ pa / 64 → sget false t.cxlBad x = sget false s.cxlBad x) ∧
        (∀ x, x / 64 ≠ pa / 64 → sget 0 t.mem x = sget 0 s.mem x) ∧ sget false t.pkg.cxlError (cxlPortOf s off) = true ∧
        t.pkg.out = s.pkg.out ++ [.cxl (cxlPortOf s off)] ∧
        { t with pkg := s.pkg, cxlBad := s.cxlBad, mem := s.mem, free := s.free } = s) ∧
    ∀ port, sget false s.pkg.cxlUp port = true → swf false s.pkg.cxlUp = true → swf false s.pkg.cxlError = true →
      ∃ t, exec (.cxlLinkDown port) s = .next t ∧ sget false t.pkg.cxlUp port = false ∧
        sget false t.pkg.cxlError port = true ∧ t.pkg.out = s.pkg.out ++ [.cxl port] ∧ { t with pkg := s.pkg } = s

/-- KSPAWN (R70 to R73): illegal in U mode; else rd receives the status, NOCTX 1, BADARG 2, STOPPED 3, DENIED 4 where the
descriptor or the counter cannot be reached, BUSY 5, or 0 with the launch that the descriptor and the arguments describe and its
groups added to the counter that a7 names; and the pc moves on. -/
def Obligations.Spawns : Prop :=
  ∀ (rd rs1 rs2 : BitVec 5) (s : State), s.TablesCanon → s.NoWaits →
    let k := s.issue.service
    let x := serviceAt s k
    let a := spawnOf x rs1.toNat rs2.toNat
    let answers := fun (code : Nat) => ∃ t, exec (.kspawn rd rs1 rs2) s = .next t ∧
      serviceAt t k = { writeX x rd.toNat code with pc := x.pc + 4, instret := x.instret + 1 } ∧ { t with services := s.services } = s
    (x.mode = 0 → exec (.kspawn rd rs1 rs2) s = .next (serviceTrap s k causeIllegal s.issue.word0)) ∧
    (x.mode ≠ 0 →
      (ctxOfAsid s a.asid = none → answers 1) ∧
      ∀ ctx, ctxOfAsid s a.asid = some ctx →
        spawnStalls s k a = false →
        let word := counterAt s (.virt ctx a.counter k)
        ((a.rest ≠ 0 ∨ 6 < a.n ∨ a.desc % 64 ≠ 0 ∨ a.counter % 8 ≠ 0) → answers 2) ∧
        (a.rest = 0 → a.n ≤ 6 → a.desc % 64 = 0 → a.counter % 8 = 0 →
          (ctxState s ctx ≠ some .run → answers 3) ∧
          (ctxState s ctx = some .run →
            ((∀ pas leaves, reach s ctx (initService k) a.desc 64 kRead 1 ≠ .ok pas leaves) → answers 4) ∧
            ∀ pas leaves, reach s ctx (initService k) a.desc 64 kRead 1 = .ok pas leaves →
              let body := ofBytes (readPas s pas)
              let l := spawnLaunch s k ctx a body
              (a.counter ≠ 0 → word = none → answers 4) ∧
              ((a.counter = 0 ∨ word.isSome = true) → s.issue.busy = true → answers 5) ∧
              ((a.counter = 0 ∨ word.isSome = true) → s.issue.busy = false → launchOk body = true → launchFits l = true →
                ∃ t, exec (.kspawn rd rs1 rs2) s = .next t ∧
                  { serviceAt t k with resv := x.resv } = { writeX x rd.toNat 0 with pc := x.pc + 4, instret := x.instret + 1 } ∧
                  mfind t.launches s.fresh = some l ∧
                  (∀ j, j ≠ s.fresh → mfind t.launches j = mfind s.launches j) ∧ t.fresh = s.fresh + 1 ∧
                  (a.counter = 0 → { t with services := s.services, launches := s.launches, fresh := s.fresh } = s) ∧
                  ∀ pa key, s.MemCanon → a.counter ≠ 0 → word = some (pa, key) →
                    (∀ j, j < 8 → isMemory (region s (pa + j)) = true) →
                    let v := keyView s key
                    (List.range 8).map (fun j => readAs t v (pa + j)) = toBytes 8 (homeNum s v pa 8 + l.total) ∧
                    ∀ y, isMemory (region s y) = true → (y < pa ∨ pa + 8 ≤ y) → readAs t v y = readAs s v y))))

/-! ### Queues, packets and the Shucker -/

/-- Queue indices and consumption (R47, R52, R77, R78, R81): a fetch-and-add at a queue's page in the function's BAR2,
PF0's by number and a VF's in the order of assignment, claims a slot where the queue and the table allow it and answers
the index, another is refused; a consumed slot becomes a waiting packet, its TYPE byte reads zero, and RDIDX advances. That an
access to a page without a queue is Unsupported Request (log 29), and that a ring slot is read and cleared with the home slice's
Shucker as the initiator (log 30), are the model's choices. -/
def Obligations.QueueIndices : Prop :=
  ∀ (s : State) (q : Nat), s.TablesCanon → s.NoWaits → q < 4096 →
    let x := queueAt s q
    (∀ fn page, queueOfPage s fn page = some q →
      let ok := x.hostp = true ∧ accepts s x.ctx = true ∧
        (fn = 0 → tableGrants s 21 (initHost 0) (0x1000 * page) (0x1000 * page + 7) 3 = true)
      (ok → ∃ t, exec (.hostFetchAdd fn page) s = .next t ∧ queueAt t q = { x with wridx := x.wridx + 1 } ∧
          (∀ j, j ≠ q → queueAt t j = queueAt s j) ∧ t.pkg.out = s.pkg.out ++ [.hostIndex x.wridx] ∧
          { t with queues := s.queues, pkg := s.pkg } = s) ∧
      (¬ ok → exec (.hostFetchAdd fn page) s = .next (emit s .unsupported))) ∧
    (∀ fn page, (64 < fn ∨ (fn = 0 ∧ 4096 ≤ page) ∨ (0 < fn ∧ (64 ≤ page ∨ (sget [] s.pkg.assigned (fn - 1)).length ≤ page))) →
      exec (.hostFetchAdd fn page) s = .next (emit s .unsupported)) ∧
    (∀ port peer, portUp s port = true → x.peerp = true → accepts s x.ctx = true →
      tableGrants s (q % 16) (initPeer port peer) (0xF10000000 + 0x1000 * q) (0xF10000000 + 0x1000 * q + 7) 3 = true →
      ∃ t, exec (.peerFetchAdd port peer q) s = .next t ∧ queueAt t q = { x with wridx := x.wridx + 1 } ∧
        t.pkg.out = s.pkg.out ++ [.peerData port (toBytes 8 x.wridx.toNat)] ∧
        { t with queues := s.queues, pkg := s.pkg } = s) ∧
    (∃ t, exec (.ringfaultClear q) s = .next t ∧ queueAt t q = { x with ringfault := false } ∧
      { t with queues := s.queues } = s) ∧
    ∀ pas l a key leaves, s.MemCanon → x.enable = true → x.size ≤ 10 → x.ringfault = false →
      ctxState s x.ctx ≠ some .lost →
      reach s x.ctx (pktInit q) (slotVa x x.rdidx.toNat) 64 kRead 1 = .ok pas l →
      reach s x.ctx (pktInit q) (slotVa x x.rdidx.toNat) 1 kWrite 2 = .ok [(a, key)] leaves →
      ofBytes (readPas s pas) % 256 ≠ 0 → isMemory (region s a) = true →
      ∃ t, exec (.packetConsume q) s = .next t ∧ readAs t (keyView s key) a = 0 ∧
        queueAt t q = { x with rdidx := x.rdidx + 1 } ∧
        mfind t.packets s.fresh = some { queue := q, slot := x.rdidx.toNat, body := BitVec.ofNat 512 (ofBytes (readPas s pas)), phase := .waiting, cmd := Cmd.reset } ∧
        (∀ j, j ≠ s.fresh → mfind t.packets j = mfind s.packets j) ∧ t.fresh = s.fresh + 1

/-- Packets (R82, R83, R87, R88, R99 to R102, R105, R120, R124): in turn one starts, or ends BADPKT where a field breaks
its limits; LAUNCH makes a held launch, RANGE a task on the least full deque, MARKER ends OK with the device time, BWAIT
waits and wakes on its stamp's value, RAISE raises its launch's group count, and the stamp is written as the packet goes. That the
unnamed bits of BWAIT and RAISE count as reserved in `packetOk`, and that the controller's initiator is its slice's Shucker, are the
model's choices (DESIGN CHOICE, log 30). -/
def Obligations.PacketWork : Prop :=
  ∀ (s : State) (p : Nat) (x : Packet), s.TablesCanon → s.NoWaits → mfind s.packets p = some x → x.cmd.pins = [] →
    let b := x.body.toNat
    let runs := { s with packets := mput s.packets p { x with phase := .running } }
    (x.phase = .waiting → pktRuns s x = true → mayStart s p x = true →
      (packetOk b = true →
        exec (.packetStart p) s = .next { s with packets := mput s.packets p { x with phase := .started } }) ∧
      (packetOk b = false → ∃ t, exec (.packetStart p) s = .next t ∧ mfind t.packets p = some (x.ended 6 (pseqOf b)) ∧
        (queueAt t x.queue).errcnt = min ((queueAt s x.queue).errcnt + 1) 0xFFFF ∧ (queueAt t x.queue).lasterr = 6)) ∧
    (x.phase = .started →
      (ptype b = 1 → launchFits (launchOf s b (pktCtx s x) x.queue (some p)) = true →
        exec (.launch p) s = .next { runs with
          launches := mput s.launches s.fresh (launchOf s b (pktCtx s x) x.queue (some p)), fresh := s.fresh + 1 }) ∧
      (ptype b = 2 → pitwOk (pfield b 60 32) (8 * 2 ^ bits b (8 * 58) 2) = true → pfield b 48 64 = 0 →
        (∃ c ∈ computeCores s, (dequeAt s c).length < 64) →
        ∃ c t, c ∈ computeCores s ∧ (∀ d ∈ computeCores s, (dequeAt s c).length ≤ (dequeAt s d).length) ∧
          exec (.range p) s = .next t ∧ dequeAt t c = (s.fresh + 1) :: dequeAt s c ∧
          mfind t.tasks s.fresh = some (rangeOf b (pktCtx s x) x.queue p none) ∧ mfind t.rangeParts (s.fresh + 1) =
            some { task := s.fresh, core := c, lo := pfield b 32 64, next := pfield b 32 64, hi := pfield b 40 64, groups := 0 } ∧
          mfind t.packets p = some { x with phase := .running } ∧
          { t with deques := s.deques, tasks := s.tasks, rangeParts := s.rangeParts, packets := s.packets, fresh := s.fresh } = s) ∧
      (ptype b = 6 → ∃ t, exec (.marker p) s = .next t ∧
        mfind t.packets p = some (x.ended 1 ((localTime s (8 + x.queue % 16)).toNat / 256)) ∧ t.groups = s.groups) ∧
      (ptype b = 7 → exec (.bwait p) s = .next runs) ∧
      ∀ id l, ptype b = 8 → launchBySeq s x.queue (pfield b 16 48) = some (id, l) → raiseOk l (pfield b 24 32) = true →
        ∃ t, exec (.raise p) s = .next t ∧
          mfind t.launches id = some { l with total := l.total + pfield b 24 32 } ∧
          mfind t.packets p = some (x.ended 1 (pseqOf b)) ∧
          { t with launches := s.launches, packets := s.packets, queues := s.queues } = s) ∧
    (∀ va pas leaves, x.phase = .running → ptype b = 7 → endpointOf (pfield b 16 64) = .dev va →
      reach s (pktCtx s x) (pktInit x.queue) va 8 kRead 1 = .ok pas leaves →
      let stamp := ofBytes (readPas s pas)
      (stamp % 256 = 0 → exec (.bwaitWake p) s = .next s) ∧
      (stamp % 256 = 1 → pfield b 24 56 ≤ stamp / 256 → ∃ t, exec (.bwaitWake p) s = .next t ∧
        mfind t.packets p = some (x.ended 1 (pseqOf b)) ∧
        { t with packets := s.packets, queues := s.queues } = s) ∧
      (2 ≤ stamp % 256 → ∃ t, exec (.bwaitWake p) s = .next t ∧ mfind t.packets p = some (x.ended 10 (pseqOf b)))) ∧
    ∀ st v, x.phase = .finished st v → x.cmd.coll = false →
      (pstamp b = 0 → exec (.stampWrite p) s = .next { s with packets := mdel s.packets p }) ∧
      ∀ va pas leaves key, s.MemCanon → stampOk b = true → pstamp b ≠ 0 → endpointOf (pstamp b) = .dev va →
        reach s (pktCtx s x) (pktInit x.queue) va 8 kWrite 2 = .ok pas leaves → (pas.map (·.1)).Nodup →
        (∀ a ∈ pas, a.2 = key ∧ isMemory (region s a.1) = true) →
        ∃ t, exec (.stampWrite p) s = .next t ∧ mfind t.packets p = none ∧
          pas.map (fun a => readAs t (keyView s key) a.1) = toBytes 8 (st + 256 * v)

/-- COPY (R84 to R86, R89 to R93, R103, R430): a copy begins with all its bytes to do, or ends at once without any; endpoints in
groups are resolved, and the registers of a destination then wait for its bytes; a piece lands its source's bytes at its
destination; a resident page resumes it; after its last byte it ends OK, or gives its matrix word to the array. A confidential
copy's source and tag are read first, and it ends FAULT where the host answers no read; then its bytes are let in where its key is
loaded, its destination is its context's, its counter agrees and its tag verifies, and it ends DENIED, REPLAY or TAGFAIL
otherwise. -/
def Obligations.Copies : Prop :=
  ∀ (s : State) (p : Nat) (x : Packet), s.TablesCanon → s.MemCanon → s.NoWaits → mfind s.packets p = some x →
    x.cmd.pins = [] → ptype x.body.toNat = 3 →
    let b := x.body.toNat
    let coll := atPeer (psrc x) || atPeer (pdst x)
    let ends := fun (i : Instr) (status value : Nat) => ∃ t, exec i s = .next t ∧
      (mfind t.packets p).map (·.phase) = some (.finished status value) ∧ t.mem = s.mem ∧ t.copyKeys = s.copyKeys
    (x.phase = .started → (coll = true → (sget Ring.reset s.rings (8 + x.queue % 16)).size = 0) →
      (0 < copyLen b → exec (.copy p) s = .next (setCmd s p { x with phase := .running }
        { Cmd.reset with todo := [(0, copyLen b)], coll := coll,
                         resolved := !(inGroup (psrc x) || inGroup (pdst x) || pswr b) && !copyEnc b })) ∧
      (copyLen b = 0 → ∃ t, exec (.copy p) s = .next t ∧
        (mfind t.packets p).map (·.phase) = some (.finished 1 (pseqOf b)) ∧
        { t with packets := s.packets, queues := s.queues } = s)) ∧
    (∀ c va, x.phase = .running → pktRuns s x = true → x.cmd.paused = some va → mfind s.contexts (pktCtx s x) = some c →
      (∀ leaf, walk s c.root va ≠ .absent leaf) →
      exec (.copyResume p) s = .next { s with packets := mput s.packets p { x with cmd := { x.cmd with paused := none } } }) ∧
    (commandAt s p = some x →
      (x.cmd.resolved = false → copyEnc b = false →
        let bound := bindTo s { x.cmd with resolved := true, gens := [] } ((touches x).map (·.1))
        (∀ status, resolveAll s x.cmd (touches x) = .stop status → ends (.endpointResolve p) status (pseqOf b)) ∧
        (resolveAll s x.cmd (touches x) = .ok → bits (pfield b 24 64) 61 3 ≠ 3 → exec (.endpointResolve p) s = .next
          { s with packets := mput s.packets p { x with cmd := { bound with marked := false } } }) ∧
        ∀ gh vreg lane0 nl g, resolveAll s x.cmd (touches x) = .ok → pdst x = .regs gh vreg lane0 nl →
          mfind s.groups gh = some g → swf 0 g.vbusy = true → ∃ t g', exec (.endpointResolve p) s = .next t ∧
            mfind t.packets p = some { x with cmd := { bound with marked := true } } ∧ mfind t.groups gh = some g' ∧
            { g' with vbusy := g.vbusy } = g ∧ (∀ k, sget 0 g'.vbusy k = sget 0 g.vbusy k +
              ((openWords (copyLen b) x.cmd.todo).filter fun w => wordReg vreg lane0 nl w == k).length) ∧
            { t with packets := s.packets, groups := s.groups } = s) ∧
      (∀ n a va pas leaves key, x.cmd.resolved = true → x.cmd.paused = none → copyEnc b = false → pswr b = false →
        x.cmd.stage = none → x.cmd.todo = [(0, n)] → 0 < n → psrc x = .host a → pdst x = .dev va →
        reach s (pktCtx s x) (pktInit x.queue) va n kWrite 2 = .ok pas leaves → pas.length = n → (pas.map (·.1)).Nodup →
        (∀ q ∈ pas, q.2 = key ∧ isMemory (region s q.1) = true) →
        (∃ t, exec (.shuckerLanding ⟨p, true⟩ 0 n) s = .next t ∧
          pas.map (fun q => readAs t (keyView s key) q.1) = sgets 0 s.hostMem a n ∧
          mfind t.packets p = some { x with cmd := { x.cmd with todo := [] } } ∧ t.hostMem = s.hostMem) ∧
        ends (.shuckerLanding ⟨p, false⟩ 0 n) 2 (a / 2 % 2 ^ 56)) ∧
      (∀ n a va pas leaves answered, x.cmd.resolved = true → x.cmd.paused = none → copyEnc b = false → pswr b = false →
        x.cmd.stage = none → x.cmd.todo = [(0, n)] → 0 < n → psrc x = .dev va → pdst x = .host a →
        reach s (pktCtx s x) (pktInit x.queue) va n kRead 1 = .ok pas leaves →
        ∃ t, exec (.shuckerLanding ⟨p, answered⟩ 0 n) s = .next t ∧ sgets 0 t.hostMem a n = readPas s pas ∧
          mfind t.packets p = some { x with cmd := { x.cmd with todo := [] } } ∧
          { t with hostMem := s.hostMem, packets := s.packets, free := s.free } = s) ∧
      (x.cmd.todo = [] → x.cmd.mmaw = false →
        (copyMmaf b = false → ends (.copyDone p) 1 (pseqOf b)) ∧
        (copyMmaf b = true → exec (.copyDone p) s = .next
          { s with packets := mput s.packets p { x with cmd := { x.cmd with mmaw := true } } })) ∧
      (∀ gh off g c e, x.cmd.mmaw = true → pdst x = .spad gh off → findFor s x.cmd gh = .here g → coreOf g = some c →
        mmawEntry s gh g (pfield b 48 64) = some e → queueRoom s c 2 ≠ 0 → (∀ r ∈ (coreAt s c).mqNew, r ≤ 2) →
        (coreAt s c).mqNew.length ≤ (coreAt s c).mq.length →
        ∃ t, exec (.mmawAccept p) s = .next t ∧ (coreAt t c).mq.map (fun (y : MatEntry) => { y with fetched := none }) =
            ((coreAt s c).mq ++ [e]).map (fun (y : MatEntry) => { y with fetched := none }) ∧
          (mfind t.packets p).map (·.phase) = some (.finished 1 (pseqOf b))) ∧
      (copyEnc b = true → x.cmd.paused = none → x.cmd.stage = none → ∀ a, psrc x = .host a →
        let k := sget CopyKey.reset s.copyKeys (pktCtx s x)
        let check := fun answered => Instr.encCopyCheck ⟨p, answered⟩
        (∀ va, pdst x = .dev va → ends (check false) 2 (a / 2 % 2 ^ 56) ∧
          (k.loaded = false → ends (check true) 4 (pseqOf b)) ∧
          ∀ v, k.loaded = true →
            ownedRuns s (pktCtx s x) (pktInit x.queue) (copyLen b / 4096 + 2) va (copyLen b) = .stop 4 v →
            ends (check true) 4 (pseqOf b)) ∧
        ∀ gh off g, pdst x = .spad gh off → findFor s x.cmd gh = .here g → off + copyLen b ≤ spadLimit g →
          let src := sgets 0 s.hostMem a (copyLen b + 16)
          ends (check false) 2 (a / 2 % 2 ^ 56) ∧
          (k.loaded = false ∨ g.ctx ≠ pktCtx s x → ends (check true) 4 (pseqOf b)) ∧
          (k.loaded = true → g.ctx = pktCtx s x → (pfield b 56 64 ≠ k.ictr.toNat ∨ k.ictr.toNat = 2 ^ 64 - 1) →
            ends (check true) 8 (pseqOf b)) ∧
          (k.loaded = true → g.ctx = pktCtx s x → pfield b 56 64 = k.ictr.toNat → k.ictr.toNat < 2 ^ 64 - 1 →
            match gcmDecrypt k.key (gcmNonce (pktCtx s x) k.ictr.toNat) [] (src.take (copyLen b)) (src.drop (copyLen b)) with
            | some pt => ∃ t, exec (check true) s = .next t ∧ mfind t.packets p = some { x with cmd :=
                  { bindTo s x.cmd [pdst x] with resolved := true, marked := false, stage := some pt } } ∧
                sget CopyKey.reset t.copyKeys (pktCtx s x) = { k with ictr := k.ictr + 1 } ∧
                { t with packets := s.packets, copyKeys := s.copyKeys } = s
            | none => ends (check true) 3 (pseqOf b) ∧ ∀ t, exec (check true) s = .next t → t.groups = s.groups)))

/-- STREAM and REDUCE (R94 to R98): a layout record within its limits starts a stream, which reads its sync words'
generations then; an absent record pauses the command; a tile whose slot is ready is filled row by row and its FULL word
counts its bytes; a REDUCE updates one element of its accumulators at a time. -/
def Obligations.Tensors : Prop :=
  ∀ (s : State) (p : Nat) (x : Packet), s.TablesCanon → s.FilesCanon → s.NoWaits → mfind s.packets p = some x → x.cmd.pins = [] →
    let b := x.body.toNat
    (∀ pas leaves, x.phase = .started → ptype b = 4 →
      reach s (pktCtx s x) (pktInit x.queue) (pfield b 16 64) 64 kRead 1 = .ok pas leaves →
      let t5 := layoutOf (ofBytes (readPas s pas))
      (∀ gh ring sync g, layoutFits t5 = true → tileBytes t5 ≤ slotBytes b → pdst x = .spad gh ring →
        endpointOf (pfield b 32 64) = .spad gh sync → findGroup s false gh = .here g →
        ring + ((slotCount b - 1) * slotBytes b + tileBytes t5) ≤ spadLimit g → sync + 32 * slotCount b ≤ spadLimit g →
        ∃ t, exec (.stream p) s = .next t ∧ { t with packets := s.packets } = s ∧ mfind t.packets p = some
          { x with phase := .running, cmd := { Cmd.reset with layout := ofBytes (readPas s pas), read := true, resolved := true, bound := [(gh, groupId g)], gens := (List.range (slotCount b)).map fun k =>
              (spadNum g (sync + 32 * k + 8) 4, spadNum g (sync + 32 * k + 24) 4) } }) ∧
      (¬ (layoutFits t5 = true ∧ tileBytes t5 ≤ slotBytes b) → ∃ t, exec (.stream p) s = .next t ∧
        (mfind t.packets p).map (·.phase) = some (.finished 6 (pseqOf b)))) ∧
    (∀ va, x.phase = .started → ptype b = 4 →
      reach s (pktCtx s x) (pktInit x.queue) (pfield b 16 64) 64 kRead 1 = .pause va → ∃ t, exec (.stream p) s = .next t ∧
        mfind t.packets p = some { x with phase := .running, cmd := { Cmd.reset with paused := some va } }) ∧
    (∀ gh ring sync g rows, commandAt s p = some x → ptype b = 4 → x.cmd.read = true → x.cmd.resolved = true → x.cmd.paused = none →
      pdst x = .spad gh ring → endpointOf (pfield b 32 64) = .spad gh sync → findFor s x.cmd gh = .here g → g.ck = none →
      (∀ c bk, bankQueue (coreAt s c) bk = []) → tileReady x g sync = true → isDrain b = false →
      let t5 := layoutOf x.cmd.layout
      let k := x.cmd.next % slotCount b
      t5.swz = 0 → layoutFits t5 = true → tileBytes t5 ≤ slotBytes b → ring + slotCount b * slotBytes b ≤ sync →
      fillRows s (pktCtx s x) (pktInit x.queue) t5 (tileRows t5 (pfield b 40 32 + x.cmd.next)) = .ok rows →
      ∃ t g', exec (.streamTile p) s = .next t ∧ mfind t.groups gh = some g' ∧
        spadBytes g' (ring + k * slotBytes b) (tileBytes t5) = rows.flatMap (·.2) ∧
        spadNum g' (sync + 32 * k) 16 = syncAdd (spadNum g (sync + 32 * k) 16) (tileBytes t5) ∧
        { g' with spad := g.spad, behind := g.behind } = g ∧ t.mem = s.mem ∧ (mfind t.packets p).map (·.phase) =
          some (if x.cmd.next + 1 = pfield b 44 32 then .finished 1 (pseqOf b) else .running) ∧
        (mfind t.packets p).map (·.cmd.next) = some (x.cmd.next + 1)) ∧
    (x.phase = .started → ptype b = 5 → ∀ n, ∃ t, exec (.reduce p n) s = .next t ∧
      mfind t.packets p = some { x with phase := .running, cmd := { Cmd.reset with resolved := !((touches x).any fun e => inGroup e.1), coll := true } }) ∧
    ∀ gh src dst g, commandAt s p = some x → ptype b = 5 → x.cmd.resolved = true → x.cmd.paused = none →
      psrc x = .spad gh src → pdst x = .spad gh dst → findFor s x.cmd gh = .here g → g.ck = none →
      (∀ c bk, bankQueue (coreAt s c) bk = []) → pfield b 35 2 = 0 →
      let i := x.cmd.next
      let e := accElem (spadNum g (dst + 16 * i) 16) (spadNum g (src + 4 * i) 4) (fscOf b)
      ∃ t g', exec (.reduce p 1) s = .next t ∧ mfind t.groups gh = some g' ∧
        spadNum g' (dst + 16 * i) 16 = e.1 % 2 ^ 128 ∧ { g' with spad := g.spad, behind := g.behind } = g ∧ t.mem = s.mem ∧
        (mfind t.packets p).map (·.phase) = some (if i + 1 = pfield b 32 24 then
          .finished (if x.cmd.satur || e.2 then 9 else 1) (pseqOf b) else .running)

/-! ### Scheduling, pre-emption and contexts -/

/-- Release and accounts (R5, R105, R113, R114, R116): a held launch whose START is reached is released; a period that is
over begins again by whole periods with its account cleared; a queue at its budget is demoted, counted and trapped while
its groups run on and USED counts on, but not where its period is over, which comes first. Accounts are kept in whole
nanoseconds of device time. -/
def Obligations.SchedulerClock : Prop :=
  ∀ (s : State), s.TablesCanon →
    let now := BitVec.ofNat 64 (s.time.now.toNat / 65536 * 65536)
    (∀ id l, mfind s.launches id = some l → l.held = true →
      ((schedTime s - l.start).toNat ≤ 2 ^ 63 →
        exec (.launchRelease id) s = .next { s with launches := mput s.launches id { l with held := false } }) ∧
      (2 ^ 63 < (schedTime s - l.start).toNat → exec (.launchRelease id) s = .next s)) ∧
    (∀ q, let x := queueAt s q
      let late := (now - (x.pstart + BitVec.ofNat 64 (65536 * x.period))).toNat
      (x.period ≠ 0 → late ≤ 2 ^ 63 →
        ∃ t, exec (.periodRollover q) s = .next t ∧ queueAt t q = { x with
            pstart := x.pstart + BitVec.ofNat 64 (65536 * x.period * ((now - x.pstart).toNat / (65536 * x.period))),
            used := 0, demoted := false } ∧
          (∀ j, j ≠ q → queueAt t j = queueAt s j) ∧ { t with queues := s.queues } = s) ∧
      (x.period ≠ 0 → x.budget ≠ 0 → x.demoted = false → min x.budget x.period ≤ x.used →
        2 ^ 63 < late →
        ∃ t, exec (.overrun q) s = .next t ∧ queueAt t q = { x with ovrcnt := min (x.ovrcnt + 1) 0xFFFF, demoted := true } ∧
          (∀ j, j ≠ q → queueAt t j = queueAt s j) ∧ t.pkg.out = s.pkg.out ++ [.trap 0x40 q] ∧
          { t with queues := s.queues, pkg := s.pkg } = s ∧
          ∀ ns, (tickQueue t ns q (queueAt t q)).used = (tickQueue s ns q x).used) ∧
      (late ≤ 2 ^ 63 → x.period ≠ 0 → exec (.overrun q) s = .next s))

/-- Dispatch, admission, stealing and exit (R107, R109, R111, R112, R117, R118, R121 to R123, R163, R197, R438): a task
dispatch accepts gets its table, one it refuses with a fault ends its packet FAULT; the groups of one coordinate start in
their places with their indices and argument words, and a part starts in its core's room; a thief splits a part in two; a
group whose lanes have exited goes with its subscriptions once the pushes sent to it have landed, and the last one ends
its launch's packet OK. The initiator that dispatch is checked as is the model's choice (log 22). -/
def Obligations.Placement : Prop :=
  ∀ (s : State), s.TablesCanon → s.NoWaits →
    (∀ id l core a, core < 256 → mfind s.launches id = some l → askedOf s core (.launch id) = some a →
      (∀ q, (dispatch s a).result = .ok q → ∃ t, exec (.dispatchTranslate (.launch id) core) s = .next t ∧
        mfind t.launches id = some { l with prog := some q } ∧ t.groups = s.groups) ∧
      ∀ va info p x, (dispatch s a).result = .error (.fault va info) → l.pkt = some p → mfind s.packets p = some x →
        ∃ t, exec (.dispatchTranslate (.launch id) core) s = .next t ∧ mfind t.launches id = none ∧
          (mfind t.packets p).map (·.phase) = some (.finished 2 (va / 2 % 2 ^ 56))) ∧
    (∀ id l q layer pls handles, mfind s.launches id = some l → l.prog = some q → 0 < l.members →
      admissible s = some (.launch id layer pls) → handlesOk s handles pls.length = true →
      ∃ t, exec (.admission handles) s = .next t ∧
        (∀ k h pl, handles[k]? = some h → pls[k]? = some pl → ∃ g, mfind t.groups h = some g ∧ g.place = pl ∧
          g.ctx = l.ctx ∧ g.owner = .launch id ∧ g.width = l.width ∧ g.pitw = l.pitw ∧
          g.gang = l.nextGang + k / l.members ∧ g.member = k % l.members ∧
          g.gindex = (l.nextGang + k / l.members) * l.members + k % l.members ∧
          g.vregs = [] ∧ g.preds = [] ∧ g.tiles = [] ∧ g.lanes.length = l.width ∧
          ∀ r, r < 6 → sget 0 g.sregs r = q.words.getD r 0) ∧
        (mfind t.launches id).map (·.nextGang) = some (l.nextGang + l.stages)) ∧
    (∀ id q t core r h, mfind s.rangeParts id = some q → mfind s.tasks q.task = some t → t.prog.isSome = true →
      admissible s = some (.part id core r) → handlesOk s [h] 1 = true →
      ∃ u, exec (.admission [h]) s = .next u ∧
        (∃ g, mfind u.groups h = some g ∧ g.place = .resident core r.1 r.2.1 r.2.2 ∧ g.owner = .part id ∧
          ∀ i, i < t.width → (laneAt g i).present = decide (q.next + i < q.hi) ∧ (q.next + i < q.hi →
            vregAt g i 0 = BitVec.ofNat 32 (q.next + i) ∧ vregAt g i 1 = BitVec.ofNat 32 ((q.next + i) / 2 ^ 32))) ∧
        mfind u.rangeParts id = some { q with next := q.next + t.width, groups := q.groups + 1 }) ∧
    (∀ thief victim id q t, admissible s = some (.steal thief victim id) → mfind s.rangeParts id = some q →
      mfind s.tasks q.task = some t → t.join = none → 2 ≤ unstarted q t → id ≠ s.fresh → q.task ≠ s.fresh →
      let mid := q.next + t.width * (unstarted q t / 2)
      ∃ u, exec (.steal thief victim) s = .next u ∧ mfind u.rangeParts id = some { q with hi := mid } ∧
        mfind u.rangeParts s.fresh = some { task := q.task, core := thief, lo := mid, next := mid, hi := q.hi, groups := 0 } ∧
        dequeAt u thief = s.fresh :: dequeAt s thief ∧ mfind u.tasks q.task = some { t with parts := t.parts + 1 }) ∧
    ∀ gh g id l, mfind s.groups gh = some g → g.lanes.any liveLane = false → inUse s gh = false → g.pend = [] →
      g.held = [] → g.ck = none → g.owner = .launch id → mfind s.launches id = some l → l.join = none → l.killed = false →
      (coreOf g ≠ none → stalled s g = false) →
      (coreOf g ≠ none → ∀ x p, x ∈ s.subs → x.gh = gh → x.push = some p →
        ∃ t, exec (.groupExit gh) s = .next t ∧ mfind t.groups gh ≠ none ∧ (∀ y ∈ t.subs, y.gh ≠ gh) ∧
          { gh := gh, slot := x.slot, push := p } ∈ t.flying) ∧
      ((∀ x ∈ s.subs, x.gh = gh → x.push = none) → (∀ f ∈ s.flying, f.gh ≠ gh) →
        ∃ t, exec (.groupExit gh) s = .next t ∧ mfind t.groups gh = none ∧ (∀ x ∈ t.subs, x.gh ≠ gh) ∧
        (∀ f ∈ t.flying, f.gh ≠ gh) ∧
        (l.exited + 1 < l.total → mfind t.launches id = some { l with exited := l.exited + 1 }) ∧
        (l.total ≤ l.exited + 1 → l.total ≤ l.nextGang * l.members → mfind t.launches id = none ∧
          ∀ p x, l.pkt = some p → mfind s.packets p = some x →
            (mfind t.packets p).map (·.phase) = some (.finished 1 (pseqOf x.body.toNat))))

/-- Pre-emption (R125 to R132): PREEMPT drains a running context and is BUSY for another; at the deadline its groups are
killed; a drained context begins to save; a written Husk saves it, a Husk not written loses it; RESTORE runs it again
where the Husk's header, counter and tag agree; a layer that has drained for 2 ms pre-empts its contexts; a waiting gang
that must leave its layer is spilled with its registers, and its image with its length written to the spill area. -/
def Obligations.Preemption : Prop :=
  ∀ (s : State) (ctx : Nat) (c : Context), s.TablesCanon → mfind s.contexts ctx = some c →
    (s.NoWaits →
      (∀ area size ns, (ns = 0 ∨ (1000 ≤ ns ∧ ns ≤ 1000000000)) →
        (c.state = .run → 144 + spilledBytes s ctx ≤ size → ∃ t x, exec (.preempt ctx area size ns) s = .next t ∧
          mfind t.contexts ctx = some x ∧ x.state = .drain ∧ x.area = area ∧ x.areaLen = size ∧
          x.deadline = (if ns = 0 then 2000000 else ns) * 65536 ∧ t.groups = s.groups ∧
          ∀ p y, mfind s.packets p = some y → pktCtx s y = ctx → y.phase = .started →
            mfind t.packets p = some { y with phase := .waiting }) ∧
        (c.state ≠ .run → exec (.preempt ctx area size ns) s = .next (emit s (.status 1)))) ∧
      (c.state = .drain → c.deadline = 0 → ∃ t x, exec (.preemptDeadline ctx) s = .next t ∧
        mfind t.contexts ctx = some x ∧ x.state = .reset ∧ x.wasReset = true ∧
        ∀ p ∈ t.groups, p.2.ctx = ctx → (coreOf p.2).isSome = true → p.2.lanes.any liveLane = false) ∧
      (c.state = .save → ∃ t, exec (.huskWritten ctx false) s = .next t ∧ ctxState t ctx = some .lost ∧
        ∀ q, (queueAt s q).ctx = ctx → (queueAt t q).enable = false) ∧
      (∀ layer area size, (layerAt s layer).state = .drain →
        2000000 * 65536 ≤ (s.time.now - BitVec.ofNat 64 (layerAt s layer).since).toNat → c.state = .run →
        onLayer s layer ≠ [] → (∀ p ∈ onLayer s layer, p.2.ctx = ctx) → 144 + spilledBytes s ctx ≤ size →
        ∃ t, exec (.layerDrainTimeout layer [(ctx, (area, size))]) s = .next t ∧ ctxState t ctx = some .drain) ∧
      (∀ area k, c.state = .saved → c.husk = some k →
        let hdr := huskBytes s area 128
        let h := ofBytes hdr
        let size := bits h 64 64
        (∀ a, area ≤ a → a < area + max 128 size → badAt s a = false) →
        (bits h 0 32 ≠ 0x4B535548 → exec (.restore ctx area) s = .next (emit s (.status 6))) ∧
        (bits h 0 32 = 0x4B535548 → bits h 32 16 = 1 → bits h 48 8 = ctx → huskLeast h ≤ size →
          (bits h 192 64 ≠ c.savectr.toNat → exec (.restore ctx area) s = .next (emit s (.status 7))) ∧
          (bits h 192 64 = c.savectr.toNat → ∃ t, exec (.restore ctx area) s = .next t ∧
            match gcmDecrypt (dataKey (sget MemKey.reset s.keys ctx).mat) (gcmNonce ctx c.savectr.toNat) hdr
              (huskBytes s (area + 128) (size - 144)) (huskBytes s (area + size - 16) 16) with
            | some _ => ctxState t ctx = some .run ∧ ∀ p ∈ t.groups, p.2.ctx = ctx → p.2.place = .spilled
            | none => ctxState t ctx = some .lost)))) ∧
    ((c.state = .drain ∨ c.state = .reset) → drained s ctx = true →
      exec (.contextDrainComplete ctx) s = .next
        (setCtx s ctx { c with state := .save, savectr := c.savectr + 1, saveTime := schedTime s })) ∧
    (c.state = .save → 128 + (huskImage s ctx c).2.1.length + 16 ≤ c.areaLen →
      areaOk s ctx c.area (128 + (huskImage s ctx c).2.1.length + 16) = true → keyLive s ctx = true →
      ∃ t x, exec (.huskWritten ctx true) s = .next t ∧ mfind t.contexts ctx = some x ∧ x.state = .saved ∧
        x.savectr = c.savectr ∧ (∀ p ∈ t.groups, p.2.ctx = ctx → p.2.place = .saved)) ∧
    ∀ gh g n k, mfind s.groups gh = some g → g.ctx = ctx → c.state = .run → coreOf g = some k → layerOfCore k = n →
      (layerAt s n).state = .drain → gangOf s g = [(gh, g)] → spillReady s (gh, g) = true → g.pend = [] → g.held = [] →
      g.ck = none → (∀ p ∈ s.groups, p.1 ≠ gh → p.2.waits = []) →
      spilledBytes s ctx + 8 + imageBytes g ≤ c.spillLen →
      ∃ t g', exec (.spill gh) s = .next t ∧ mfind t.groups gh = some g' ∧ g'.place = .spilled ∧
        { g' with place := g.place, turn := g.turn, latches := g.latches, lanes := g.lanes, waits := g.waits } = g ∧
        g'.waits.length = g.waits.length ∧
        let a := c.spill + spilledBytes s ctx
        (∀ x, (x / 64 < a / 64 ∨ (a + 7 + imageBytes g) / 64 < x / 64) → sget 0 t.mem x = sget 0 s.mem x) ∧
        ∀ v, frameView s a = some v → a / 65536 = (a + 7) / 65536 → (∀ k, k < 8 → isMemory (region s (a + k)) = true) →
          (List.range 8).map (fun k => readAs t v (a + k)) = toBytes 8 (imageBytes g)

/-- Contexts, entries and shoot-downs (R133, R138, R141, R145 to R147, R198, R436): a context is created with its ASID and
root, and destroyed with its groups and copy-in key; an entry is written by its home's instance with its companion's PINS
kept, names its granule's key, and is not taken away while pinned, which is a store access fault of the service core, as a
write the tables do not permit is a load access fault; a shoot-down lasts until every target has acknowledged. That a leaf whose
key clashes with its frame's is refused with LOCKED (`leafClash`) is the model's reading (DEDUCED, log 32). -/
def Obligations.ContextsAndEntries : Prop :=
  ∀ (s : State), s.TablesCanon → s.MemCanon → s.NoWaits →
    (∀ ctx asid root spill len, ctx < 64 → mfind s.contexts ctx = none → ctxOfAsid s asid = none →
      exec (.contextCreate ctx asid root spill len) s = .next
        { s with contexts := mput s.contexts ctx (newContext asid root spill len) }) ∧
    (∀ ctx c, mfind s.contexts ctx = some c → (∀ p ∈ s.groups, p.2.ctx = ctx → coreOf p.2 = none) →
      ∃ t, exec (.contextDestroy ctx) s = .next t ∧ mfind t.contexts ctx = none ∧
        sget CopyKey.reset t.copyKeys ctx = CopyKey.reset ∧ (∀ p ∈ t.groups, p.2.ctx ≠ ctx) ∧
        (∀ p ∈ s.groups, p.2.ctx ≠ ctx → p ∈ t.groups) ∧ ∀ k, k ≠ ctx → mfind t.contexts k = mfind s.contexts k) ∧
    (∀ pa big (entry companion : DWord) v, pa % 16 = 0 → (∀ k, k < 16 → isMemory (region s (pa + k)) = true) →
      tablePermits s (initService (homeOf pa)) pa 16 2 = true → frameView s pa = some v →
      (pinsOf s pa = 0 ∨ restricts (readFrames s pa 8) entry.toNat = false) → leafClash s big entry.toNat = false →
      ∃ t, exec (.entryWrite (homeOf pa) pa big entry companion) s = .next t ∧
        (List.range 8).map (fun k => readAs t v (pa + k)) = toBytes 8 entry.toNat ∧
        (List.range 8).map (fun k => readAs t v (pa + 8 + k)) =
          toBytes 8 (companion.toNat % 1024 + 2 ^ 48 * pinsOf s pa) ∧
        (∀ x, isMemory (region s x) = true → (x < pa ∨ pa + 16 ≤ x) → readAs t v x = readAs s v x) ∧
        (entry.toNat % 8 = 7 → swf 0 s.frameKeys = true →
          frameKey t (bits entry.toNat 16 36 * 65536) = bits entry.toNat 58 6 + 1)) ∧
    (∀ pa big (entry companion : DWord), pa % 16 = 0 → isMemory (region s pa) = true →
      (tablePermits s (initService (homeOf pa)) pa 16 2 = false →
        exec (.entryWrite (homeOf pa) pa big entry companion) s = .next (serviceTrap s (homeOf pa) causeLoadFault pa)) ∧
      (tablePermits s (initService (homeOf pa)) pa 16 2 = true →
        (pinsOf s pa ≠ 0 → restricts (readFrames s pa 8) entry.toNat = true →
          exec (.entryWrite (homeOf pa) pa big entry companion) s = .next (serviceTrap s (homeOf pa) causeStoreFault pa)) ∧
        (pinsOf s pa = 0 → leafClash s big entry.toNat = true →
          exec (.entryWrite (homeOf pa) pa big entry companion) s = .next (emit s (.status 5))))) ∧
    (∀ asid va leaf, leaf % 16 = 0 → ∃ t x, exec (.shootDown (homeOf leaf) asid va leaf) s = .next t ∧
      t.shoots = s.shoots ++ [x] ∧ x.asid = asid ∧ x.va = va ∧ x.leaf = leaf ∧
      (∀ n, n < 32 → (n ∈ x.targets ↔ (n < 9 ∧ (readFrames s (leaf + 8) 8).testBit n = true) ∨ 16 ≤ n)) ∧
      { t with shoots := s.shoots } = s) ∧
    ∀ asid va, exec (.shootDownComplete asid va) s = .next
      { s with shoots := s.shoots.filter fun x => !(x.asid == asid && x.va == va) }

/-- Migration and peers (R61, R145, R148, R154, R155): the subscriptions of a page that moves name its new words, its
bytes are copied under its key; a peer's read, write and fetch-and-add reach the page its port's ASID maps. That the copy carries
the page's poison marks is the model's reading (DEDUCED, log 15). -/
def Obligations.MigrationAndPeers : Prop :=
  ∀ (s : State), s.TablesCanon → s.MemCanon → s.NoWaits →
    (∀ leaf big frame, moving s leaf = true →
      let old := leafFrame s leaf
      let size := pageBytes big
      (spanStalls s old size = false → pushesOut s old size = false → flushing s old = false → moveFits s old frame size = true →
        ∃ t, exec (.homeFence leaf big frame) s = .next t ∧
          t.subs = s.subs.map (fun (x : Sub) => { x with pa := if old ≤ x.pa ∧ x.pa < old + size then frame + (x.pa - old) else x.pa }) ∧
          { t with subs := s.subs, groups := s.groups } = s) ∧
      (moveStalls s leaf big frame = false → (∀ k, k < size → isMemory (region s (frame + k)) = true) → (∀ k, k < size → isMemory (region s (old + k)) = true) →
        let v := keyView s (bits (readFrames s leaf 8) 58 6)
        ∃ t, exec (.pageCopy leaf big frame) s = .next t ∧
          (∀ k, k < size → readAs t v (frame + k) = readAs s v (old + k)) ∧
          (∀ k, k < size / 64 → poisoned t (frame + 64 * k) = poisoned s (old + 64 * k)) ∧
          (∀ x, isMemory (region s x) = true → (x < frame ∨ frame + size ≤ x) → readAs t v x = readAs s v x) ∧
          { t with mem := s.mem, lines := s.lines, poison := s.poison } = s)) ∧
    ∀ port peer va ctx, portUp s port = true → ctxOfAsid s (portAt s port).rxAsid = some ctx →
      (∀ n pas leaves, reach s ctx (initPeer port peer) va n kRead 1 = .ok pas leaves →
        ∃ t, exec (.peerAccess port peer va (.read n)) s = .next t ∧
          t.pkg.out = s.pkg.out ++ [.peerData port (readPas s pas)]) ∧
      (∀ bytes pas leaves key, reach s ctx (initPeer port peer) va bytes.length kWrite 2 = .ok pas leaves →
        (pas.map (·.1)).Nodup → (∀ q ∈ pas, q.2 = key ∧ isMemory (region s q.1) = true) →
        ∃ t, exec (.peerAccess port peer va (.write bytes)) s = .next t ∧
          pas.map (fun q => readAs t (keyView s key) q.1) = bytes ∧
          t.pkg.out = s.pkg.out ++ [.peerStatus port 1]) ∧
      ∀ (v : DWord) pas leaves key, va % 8 = 0 → reach s ctx (initPeer port peer) va 8 kAtomic 3 = .ok pas leaves →
        (pas.map (·.1)).Nodup → (∀ q ∈ pas, q.2 = key ∧ isMemory (region s q.1) = true) →
        ∃ t, exec (.peerAccess port peer va (.fetchAdd v)) s = .next t ∧
          pas.map (fun q => readAs t (keyView s key) q.1) = toBytes 8 (ofBytes (readPas s pas) + v.toNat) ∧
          t.pkg.out = s.pkg.out ++ [.peerData port (toBytes 8 (ofBytes (readPas s pas)))]

/-! ### The core's own steps, debug and trace -/

/-- Holds, the broadcast choice and fills (R166, R170, R278): a lane held for 1 024 cycles is released; of the ready
lanes, those that have issued nothing for 256 cycles come first, the longest waiting before the others, then the highest
priority hint, then the path with most lanes; STARVATION_LIMIT marks the former; a filled line or record is in its core's
cache. -/
def Obligations.CoreSteps : Prop :=
  (∀ (now : Nat) (l : List Cand) (x : Cand), choose now l = some x →
    let late := fun (y : Cand) => y.starved = true ∨ y.last + 256 ≤ now
    let lanes := fun (y : Cand) => (l.filter fun z => y.task = z.task ∧ y.node = z.node ∧ y.off = z.off ∧ y.frames = z.frames).length
    x ∈ l ∧
    ((∃ y ∈ l, late y) → late x ∧ ∀ y ∈ l, late y → x.last ≤ y.last) ∧
    ((∀ y ∈ l, ¬ late y) → ∀ y ∈ l, y.prio ≤ x.prio ∧ (y.prio = x.prio → lanes y ≤ lanes x))) ∧
  ∀ (s : State), s.TablesCanon →
    (∀ gh g lane h c, mfind s.groups gh = some g → lane < g.lanes.length → (laneAt g lane).held = some h → coreOf g = some c →
      h.since + 1024 ≤ cycOf s c → exec (.holdTimeout gh lane) s = .next
        (setGroup s gh (setLane g lane { laneAt g lane with held := none }))) ∧
    (∀ core slot, ∃ t, exec (.starvationLimit core slot) s = .next t ∧ { t with groups := s.groups } = s ∧
      ∀ c ∈ slotCands s core slot, (c.last + 256 ≤ cycOf s core → ∃ g, mfind t.groups c.gh = some g ∧
        (laneAt g c.lane).starved = true) ∧ ∃ g g', mfind s.groups c.gh = some g ∧ mfind t.groups c.gh = some g' ∧
          g'.files = g.files) ∧
    (∀ core pa, core < 256 → ∃ t, exec (.icacheFill core pa) s = .next t ∧ pa / 64 ∈ (coreAt t core).icache ∧
      ((coreAt s core).icache.length ≤ 1024 → (coreAt t core).icache.length ≤ 1024) ∧
      (∀ x ∈ (coreAt t core).icache, x = pa / 64 ∨ x ∈ (coreAt s core).icache) ∧ { t with cores := s.cores } = s) ∧
    ∀ core pa, core < 256 → (∀ p ∈ s.groups, coreOf p.2 ≠ some core) →
      ∃ t, exec (.nodeRecordFill core pa) s = .next t ∧ pa ∈ (coreAt t core).nodes ∧ pa / 64 ∈ (coreAt t core).icache ∧
        ((coreAt s core).nodes.length ≤ 128 → (coreAt t core).nodes.length ≤ 128) ∧ { t with cores := s.cores } = s

/-- Debug, the watchdog, sampling and trace set-up (R236 to R244): a halt stops its group at the next cycle boundary and
answers then with its status, counts and device time, a resume starts it again, a drain answers once nothing of the group is
outstanding; a silent launch raises HANG; a sample comes P cycles after the last and takes the next group of its slot;
HANGT, the period, the ring and the ranges are set within their limits. -/
def Obligations.DebugAndTrace : Prop :=
  ∀ (s : State), s.TablesCanon → s.NoWaits →
    (∀ gh g, mfind s.groups gh = some g →
      (coreOf g ≠ none → exec (.debugHalt (.group gh)) s = .next (setGroup s gh { g with halting := true })) ∧
      (∀ c m, s.groups = [(gh, g)] → coreOf g = some c → c < 256 → endsCycle g = true → s.pkg.power = true →
        (layerAt s (layerOfCore c)).phase < 2621440 → (layerAt s (layerOfCore c)).clock.code ≤ 46 → unitsToEdge s c = some m →
        elapse s m = endCycle (passTime s m) gh ∧ ∀ n, n < m → elapse s n = passTime s n) ∧
      (g.halting = true → g.yielding = false → g.attribs = [] → g.csrNext = [] →
        let t := endCycle s gh
        mfind t.groups gh = some { g with halted := true, halting := false } ∧
        t.pkg.out = s.pkg.out ++ [.halt gh 0 (outst s gh g) (pendTraps g) s.time.now.toNat] ∧
        { t with groups := s.groups, pkg := s.pkg } = s) ∧
      (coreOf g = none → ∃ t x, exec (.debugHalt (.group gh)) s = .next t ∧
        t.pkg.out = s.pkg.out ++ [.halt gh 2 (outst s gh g) (pendTraps g) x]) ∧
      ((∀ i, (laneAt g i).pendTrap = []) → (∀ i, liveLane (laneAt g i) = true → ∃ n o, (laneAt g i).pos = .leaf n o) →
        exec (.debugResume (.group gh)) s = .next
          (setGroup s gh { g with halted := false, halting := false, drained := false, drainWait := false })) ∧
      exec (.debugDrain (.group gh)) s = .next (setGroup s gh { g with drained := true, drainWait := true }) ∧
      (g.drainWait = true → outst s gh g = 0 → exec (.debugDrainDone gh) s = .next
        (emit (setGroup s gh { g with drainWait := false }) (.drained gh 0)))) ∧
    (∀ gh, mfind s.groups gh = none → ∃ t x, exec (.debugHalt (.group gh)) s = .next t ∧
      t.pkg.out = s.pkg.out ++ [.halt gh 1 0 0 x] ∧ { t with pkg := s.pkg, free := s.free } = s) ∧
    (∀ id l, mfind s.launches id = some l →
      ((∀ p ∈ s.groups, p.2.owner = .launch id → p.2.halted = false) →
        (l.hangs + 1) * l.hangt * 65536000 ≤ (s.time.now - BitVec.ofNat 64 l.lastIssue).toNat →
        ∃ t, exec (.hang id) s = .next t ∧ mfind t.launches id = some { l with hangs := l.hangs + 1 } ∧ t.groups = s.groups ∧
          ((sget Ring.reset s.rings (8 + l.queue % 16)).size ≠ 0 → (sget Ring.reset t.rings (8 + l.queue % 16)).rseq =
            ((sget Ring.reset s.rings (8 + l.queue % 16)).rseq + 1) % 2 ^ 32)) ∧
      ∀ us, 1000 ≤ us → us ≤ 60000000 →
        exec (.setHangt id us) s = .next { s with launches := mput s.launches id { l with hangt := us } }) ∧
    (∀ core slot, core < 256 → slot < 2 → cycOf s core < nthD 0 (coreAt s core).sampledAt slot + nthD 0 (coreAt s core).period slot →
      exec (.sample core slot) s = .next s) ∧
    (∀ core slot, core < 256 → slot < 2 → nthD 0 (coreAt s core).period slot ≠ 0 → (coreAt s core).sampled.length = 2 →
      (coreAt s core).sampledAt.length = 2 →
      nthD 0 (coreAt s core).sampledAt slot + nthD 0 (coreAt s core).period slot ≤ cycOf s core →
      slotGroups s core slot ≠ [] → ∃ t q, exec (.sample core slot) s = .next t ∧ q ∈ slotGroups s core slot ∧
        (∀ p ∈ slotGroups s core slot, (posOf q.2 + 7 - nthD 0 (coreAt s core).sampled slot) % 8 ≤
          (posOf p.2 + 7 - nthD 0 (coreAt s core).sampled slot) % 8) ∧
        nthD 0 (coreAt t core).sampled slot = posOf q.2 ∧ nthD 0 (coreAt t core).sampledAt slot = cycOf s core ∧
        t.groups = s.groups ∧
        ((sget Ring.reset s.rings (core / 32)).size ≠ 0 → (sget Ring.reset t.rings (core / 32)).widx =
          (sget Ring.reset s.rings (core / 32)).widx + 128)) ∧
    (∀ core slot period, core < 256 → slot < 2 → 256 ≤ period → period ≤ 2 ^ 20 → (coreAt s core).period.length = 2 →
      (coreAt s core).sampledAt.length = 2 →
      ∃ t, exec (.setSamplePeriod core slot period) s = .next t ∧ nthD 0 (coreAt t core).period slot = period ∧
        nthD 0 (coreAt t core).sampledAt slot = cycOf s core ∧ { t with cores := s.cores } = s) ∧
    (∀ unit base k, unit < 24 → 16 ≤ k → k ≤ 30 → ∃ t, exec (.setTraceRing unit base (2 ^ k)) s = .next t ∧
      (sget Ring.reset t.rings unit).base = base ∧ (sget Ring.reset t.rings unit).size = 2 ^ k ∧
      { t with rings := s.rings } = s) ∧
    ∀ core i base lim, core < 256 → i < 16 → ∃ t, exec (.setLaneCycleRange core i base lim) s = .next t ∧
      mfind (coreAt t core).lcRanges i = some (base, lim) ∧ { t with cores := s.cores } = s

/-! ### The encoding -/

/-- Decoding and encoding agree (R295 to R307, R312 to R314, R70): every well-formed Fergor instruction, with every
operand at every value, is what its words decode to, in as many words as LEN says; and so is KSPAWN for the service core's
decoder. -/
def Obligations.RoundTrip : Prop :=
  (∀ (i : Instr) (l : Layout), layout i = some l → WellFormed i →
    decode (ofWords (encode i)) = .ok i ∧ (∀ w ∈ encode i, w < 2 ^ 32) ∧
    (encode i).length = lenWords ((encode i).headD 0)) ∧
  ∀ rd rs1 rs2 : BitVec 5, decodeService (ofWords (encode (.kspawn rd rs1 rs2))) = .kspawn (.kspawn rd rs1 rs2)

/-- Words written out from the spec's encodings decode to the instructions they stand for, and a word whose opcode, format
or reserved bits name none is rejected (R295 to R307). -/
def Obligations.WrittenWords : Prop :=
  let ctl : Ctl := { k9 := true, sc := 0 }
  let hd := fun (d : BitVec 8) => Head.mk ctl none false false d
  decode 0x00000014 = .ok (.nop ctl) ∧
  decode (ofWords [0x000A0105, 0x0072040A]) = .ok (.iadd (hd 10) true .i64 (.v 10) (.s 2)) ∧
  decode (ofWords [0x00030126, 0x000BFE01, 0x00001234]) = .ok (.imul (hd 3) false .i16 (.v 1) (.lit 0x1234)) ∧
  decode (ofWords [0x00050146, 0x00500401, 0x00000003]) = .ok (.imad (hd 5) true .i32 (.v 1) (.v 2) (.v 3)) ∧
  (∀ i, decode 0x00000FF4 ≠ .ok i) ∧ (∀ i, decode 0x00000016 ≠ .ok i) ∧ (∀ i, decode 0x00010014 ≠ .ok i) ∧
  ∀ i, decode (ofWords [0x000A0105, 0x8072040A]) ≠ .ok i

/-! ### A step -/

/-- A step runs the decoded instruction (R5, R25, R67, R70, R166, R274, R307): the agenda's next event, the instruction
whose bytes stand at a slot's chosen path and in the instruction cache, or KSPAWN at a service core's pc, after the time
before it has passed; without an agenda a cycle passes, and the lowest slot with a path to issue does so (log 4). `settled` ends the waits whose
conditions have come to hold; without power only the end of PERST# happens. -/
def Obligations.StepRuns : Prop :=
  ∀ (s : State),
    (∀ (a : Agendum) (r : List Agendum), s.agenda = a :: r →
      let u := elapse { s with agenda := r } a.after
      (∀ i, a.what = .event i → ((u.pkg.power = true ∨ ∃ b, i = .perstRelease b) → step s = settled (exec i u)) ∧
        (u.pkg.power = false → (∀ b, i ≠ .perstRelease b) → step s = settled (.next u))) ∧
      (∀ k busy rd rs1 rs2, a.what = .service k busy → k < 16 → u.pkg.power = true → irqNow (serviceAt u k) = none →
        let pc := (serviceAt u k).pc.toNat
        let w := serviceNum u pc 2 + 65536 * serviceNum u (pc + 2) 2
        meets u k pc 2 1 causeLoadMisaligned = .clear → meets u k (pc + 2) 2 1 causeLoadMisaligned = .clear →
        decodeService w = .kspawn (.kspawn rd rs1 rs2) →
        step s = settled (exec (.kspawn rd rs1 rs2)
          { u with free := u.free + 8, issue := { Issue.reset with service := k, word0 := w, busy := busy } }))) ∧
    ∀ (u : State) (c slot : Nat) (x : Cand) (p : Program) (w0 len b : Nat) (i : Instr),
      ((∃ a r, s.agenda = a :: r ∧ a.what = .issue c slot ∧ u = elapse { s with agenda := r } a.after) ∨
        (s.agenda = [] ∧ u = elapse s cycleUnits ∧ readySlot u = some (c, slot))) →
      coreRuns u c = true → chosenNow u c slot = false →
      let v := beforeChoice u c slot
      choose (cycOf v c) (slotCands v c slot) = some x → (mfind v.groups x.gh).bind (progOf v) = some p →
      fetchAt v p (coreAt v c) (instrVa v p x.node x.off) = .word w0 len b →
      fetchHit p (coreAt v c) (instrVa v p x.node x.off) len = true → x.off + len ≤ leafLen v p x.node →
      decode b = .ok i → WellFormed i →
      ∃ w, step s = settled (exec i w) ∧ w.issue.parts = partsOf ((slotCands v c slot).filter (samePath x)) ∧
        w.issue.core = c ∧ w.issue.slot = slot ∧ w.issue.addr = instrVa v p x.node x.off ∧ w.issue.word0 = w0 ∧
        w.issue.len = len ∧ w.issue.priv = false ∧ w.ticket = v.ticket + 1 ∧
        { w with issue := v.issue, ticket := v.ticket, cores := v.cores } = v

/-- No instruction and no event ends a run: each answers a next state from every state (R306, R307: what an instruction
may not do is a trap, which is a next state). -/
def Obligations.ExecGoes : Prop :=
  ∀ (i : Instr) (s : State), Goes (exec i s)

/-- Every step keeps the canonical form of device memory, of the lines' keys, of the poison marks, of the frame keys and
of the memories outside the package (the model's form of memory). -/
def Obligations.StepKeepsMemory : Prop :=
  ∀ s t : State, s.MemCanon → step s = .next t → t.MemCanon

/-- Every step keeps the canonical form of the groups' files and of the state's tables (the model's form of state). -/
def Obligations.StepKeepsTables : Prop :=
  ∀ s t : State, s.FilesCanon → s.TablesCanon → step s = .next t → t.FilesCanon ∧ t.TablesCanon

/-- Reset leaves every memory and table in canonical form, and the registers at the values the spec gives (R28, R41, R49,
R50, R52, R62, R65, R75, R76, R113). -/
def Obligations.ResetState : Prop :=
  let s := State.reset
  s.MemCanon ∧ s.FilesCanon ∧ s.TablesCanon ∧
  (∀ n, lstat s n = 3 ∧ vstat s n = 0 ∧ kattr s n = 0 ∧ (portAt s n).state = .down ∧ (tdiAt s n).state = .unlocked ∧
    sget 0 s.pkg.mreg n = 0 ∧ sget 0 s.tables n = 0 ∧ ∀ hw off, off < 0x20 → queueReg s hw n off = 0) ∧
  tctl s = 0 ∧ s.pkg.apbase = 0 ∧ s.pkg.rdy = false ∧ s.pkg.accviol = false ∧ s.groups = [] ∧ s.contexts = []

/-! ### Shared rules -/

/-- What a walk makes of an entry (R142 to R144): V clear, a reserved bit, a misaligned table, LEAF where it may not
stand, or a hole is unmapped; V set with P clear is not resident; any other leaf gives its page. -/
def Obligations.WalkEntries : Prop :=
  ∀ (s : State) (pa va : Nat),
    let e := readFrames s pa 8
    let frame := e / 2 ^ 16 % 2 ^ 36 * 65536
    (∀ wide, tableOf s wide pa =
      if e % 2 = 0 ∨ e / 2 % 256 ≠ 0 ∨ e / 2 ^ 52 % 4096 ≠ 0 ∨ (wide = true ∧ e / 2 ^ 9 % 2 ^ 43 * 512 % 8192 ≠ 0) then none
      else some (e / 2 ^ 9 % 2 ^ 43 * 512)) ∧
    (∀ big, leafAt s big va pa =
      if e % 2 = 0 ∨ e / 4 % 2 = 0 ∨ e / 128 % 2 = 1 ∨ e / 2 ^ 52 % 64 ≠ 0 then Walk.unmapped
      else if e / 2 % 2 = 0 then Walk.absent pa
      else if big = true ∧ frame % 0x200000 ≠ 0 then Walk.unmapped
      else
        let page := frame + (if big then va % 0x200000 / 65536 * 65536 else 0)
        if region s page = .hole then Walk.unmapped else Walk.leaf pa e page) ∧
    ∀ root, root % 8192 ≠ 0 → walk s root va = Walk.unmapped

/-! ### Traps of some lanes, checkpoints, readiness, values and the service cores -/

/-- Traps in some lanes (R229, R230, R232, R236, R280, R333, R153, R365, R367): INTDIV, a stale latch, EXTENT and MISALIGN are
raised in the lanes concerned, which stay where they are; the others complete and go on. A word that its home finds marked as it
performs an access raises POISON in the access's lane, with the place of the instruction that made it (log 15). At the end of the
cycle each such lane is diverted to its handler, with its record, and the others stay. -/
def Obligations.LaneTraps : Prop :=
  (∀ (h : Head) (sat : Bool) (t : Fmt) (a b : Src),
    TrapsSome (.idiv h sat t a b) (divVal (rdInt · t a) (rdInt · t b) fun x y => intResult t sat (x.tdiv y)) ∧
    TrapsSome (.irem h sat t a b) (divVal (rdInt · t a) (rdInt · t b) fun x y => intResult t sat (x.tmod y)) ∧
    TrapsSome (.iadd h sat t a b) (val2 (rdInt · t a) (rdInt · t b) fun x y => intResult t sat (x + y)) ∧
    TrapsSome (.fmul h t a b) (val2 (rdBits · t a) (rdBits · t b) (fMul t)) ∧
    ∀ (x : Here) (r : BitVec 2), sget none x.g.latches (4 * x.lane + r.toNat) = none →
      rd x t (.b r) = .error { code := 0x02, addr1 := x.st.issue.addr, addr2 := none, info := r.toNat }) ∧
  (∀ (h : Head) (sz : BitVec 3) (scope : Scope) (ord : Ord) (sx : Bool) (aop : Aop) (ty : Fmt) (a b : Src) (d : Option Src)
    (s : State) (l : Layout) (gh : Nat) (lanes : List Nat) (g : Group) (acc : Nat → Access)
    (trap : Nat → Option Trap) (i : Instr), Lone s gh lanes g → s.FilesCanon → layout i = some l →
    legal i = true → partOk g l = true →
    (∀ j ∈ lanes, j ∉ takers g l.head lanes → trap j = none) →
    (∀ j ∈ takers g l.head lanes, ∃ va pas, rdD (hereAt s gh g j) a = .ok va ∧
      ((i = .ldx h sz scope ord sx a ∧
          ((trap j = none ∧ transBytes (hereAt s gh g j) kRead (2 ^ sz.toNat) va = .ok pas ∧
            acc j = mkAccess (hereAt s gh g j) l .load ord scope va pas [] (loadDst l false (2 ^ sz.toNat) sx)) ∨
           ∃ t, trap j = some t ∧ transBytes (hereAt s gh g j) kRead (2 ^ sz.toNat) va = .error t)) ∨
       (i = .atom h aop scope ord ty a b d ∧ ∃ vb vc, rd (hereAt s gh g j) ty b = .ok vb ∧ rdCmp (hereAt s gh g j) ty d = .ok vc ∧
          ((trap j = none ∧ va % (fmtBits ty / 8) = 0 ∧ transWord (hereAt s gh g j) kAtomic (fmtBits ty / 8) va = .ok pas ∧
            acc j = mkAccess (hereAt s gh g j) l (.atom aop ty vb vc) ord scope va pas []
              (loadDst l false (fmtBits ty / 8) false)) ∨
           (va % (fmtBits ty / 8) ≠ 0 ∧
            trap j = some { code := 0x06, addr1 := va, addr2 := none, info := fmtBits ty / 8 }))))) →
    ∃ t g', exec i s = .next t ∧ Splits s t gh lanes g g' (savedDst l) trap ∧
      g'.files = { g with pend := g.pend ++ ((takers g l.head lanes).filter fun j => (trap j).isNone).map acc }.files) ∧
  (∀ (gh idx : Nat) (s : State) (g : Group) (a : Access), s.TablesCanon → mfind s.groups gh = some g → g.pend[idx]? = some a →
    a.op ≠ .store → mayPerform s gh g a = true → stalled s g = false → homesStall s a.pas = false →
    (∀ p ∈ a.pas, keyLive s p.2 = true) → accPoisoned s a = true → s.NoWaits →
    (∀ i, liveLane (laneAt g i) = true → ∃ n o, (laneAt g i).pos = .leaf n o) →
    (liveLane (laneAt g a.lane) = true ∨ endedLane (laneAt g a.lane) = true) →
    let l := { laneAt g a.lane with exited := false }
    let x : HeldTrap := { trap := { code := 0x09, addr1 := a.va, addr2 := none, info := 0 }, place := a.place, priv := false }
    exec (.loadComplete gh idx) s = .next
      (setGroup s gh (setLane { g with pend := dropNth g.pend idx } a.lane { l with pendTrap := l.pendTrap ++ [x] }))) ∧
  ∀ (gh c : Nat) (s : State) (g : Group) (q : Program) (x : Nat → Option HeldTrap) (went : Nat → Lane), s.TablesCanon →
    mfind s.groups gh = some g → g.Canon → g.Quiet → progOf s g = some q → coreOf g = some c →
    (∀ i, match x i with
      | some y => Diverts s gh g q c i y (went i)
      | none => (laneAt g i).pendTrap = []) →
    ∃ g', mfind (endCycle s gh).groups gh = some g' ∧ { endCycle s gh with groups := s.groups } = s ∧
      (∀ h, h ≠ gh → mfind (endCycle s gh).groups h = mfind s.groups h) ∧ g'.files = g.files ∧
      ∀ i, match x i with
        | some _ => laneAt g' i = went i ∧ ∀ b, b < 4 → sget none g'.latches (4 * i + b) = none
        | none => laneAt g' i = laneAt g i ∧ ∀ b, b < 4 → sget none g'.latches (4 * i + b) = sget none g.latches (4 * i + b)

/-- Checkpoints (R180 to R183), of a group in which one lane issues: a broadcast move into a checkpointed node records the
group's state, one that leaves the node commits what the group holds and ends the checkpoint; in between a store is held
and changes no memory, a load takes the held bytes, and a FENCE commits them, each byte to its home, and records a new
checkpoint. -/
def Obligations.Checkpoints : Prop :=
  ∀ (s : State) (gh j core n o key : Nat) (g : Group) (q : Program), s.issue.parts = [(gh, [j])] → s.issue.priv = false →
    s.FilesCanon → s.MemCanon → s.NoWaits → s.subs = [] → mfind s.groups gh = some g → progOf s g = some q →
    coreOf g = some core → g.halted = false → stalled s g = false → j < g.lanes.length → liveLane (laneAt g j) = true →
    (laneAt g j).pos = .leaf n o → mwf g.held = true →
    (∀ p ∈ g.held, p.2.key = key ∧ isMemory (region s p.1) = true) → keyLive s key = true →
    let records := fun (k : Checkpoint) (x : Group) => k.lanes.map Lane.path = x.lanes.map Lane.path ∧ k.preds = x.preds ∧
      k.sregs = x.sregs ∧ k.vregs = x.vregs ∧ k.tiles = x.tiles ∧ k.spad = x.spad ∧ k.pitw = x.pitw
    (∀ (c : Ctl) (went : Lane) (log : WalkLog), legal (.nop c) = true → o + s.issue.len = leafLen s q n → g.pend = [] →
      walkLoop s g q (coreAt s core) (funcOf s g) (cycOf s core) j walkBound
        { laneAt g j with pos := .advance false } WalkLog.none = .stands went log → log.frames = [] → log.tret = false →
      ∃ t g', exec (.nop c) s = .next t ∧ mfind t.groups gh = some g' ∧ (laneAt g' j).path = went.path ∧
        (∀ node depth, log.hits.getLast? = some (node, depth) → log.hits.Nodup → bit g.pitw.toNat 24 = true →
          g'.held = [] ∧ ∃ k, g'.ck = some k ∧ k.ticket = s.ticket + 1 ∧ k.node = node ∧ k.depth = depth ∧ records k g') ∧
        (∀ k, log.hits = [] → g.ck = some k → insideCk k (laneAt g j) = true → insideCk k went = false →
          g'.ck = none ∧ g'.held = [] ∧ ∀ p ∈ g.held, readAs t (keyView s key) p.1 = p.2.val) ∧
        (log.hits = [] → g.ck = none → g'.ck = none)) ∧
    ∀ k, g.ck = some k → o + s.issue.len < leafLen s q n →
      (∀ (h : Head) (sz : BitVec 3) (scope : Scope) (ord : Ord) (a b : Src) (l : Layout) (va : Nat) (data : List Byte)
        (pas : List (Nat × Nat)), layout (.stx h sz scope ord a b) = some l → legal (.stx h sz scope ord a b) = true →
        guardOn g j l.head = true → partOk g l = true → isRel ord = false → rdD (hereAt s gh g j) a = .ok va →
        storeData (hereAt s gh g j) sz b = .ok data → transBytes (hereAt s gh g j) kWrite (2 ^ sz.toNat) va = .ok pas →
        (pas.map (·.1)).Nodup → (heldChunks g).length + 2 ^ sz.toNat ≤ 128 →
        ∃ t g', exec (.stx h sz scope ord a b) s = .next t ∧ mfind t.groups gh = some g' ∧ g'.ck = some k ∧ g'.pend = g.pend ∧
          t.mem = s.mem ∧ t.lines = s.lines ∧ (laneAt g' j).pos = .leaf n (o + s.issue.len) ∧
          ∀ pa, mfind g'.held pa = match (List.range pas.length).find? fun m => (pas.getD m (0, 0)).1 == pa with
            | some m => some { val := data.getD m 0, lane := j, va := va + m, key := (pas.getD m (0, 0)).2 }
            | none => mfind g.held pa) ∧
      (∀ (h : Head) (sz : BitVec 3) (scope : Scope) (ord : Ord) (sx : Bool) (a : Src) (l : Layout) (va : Nat)
        (pas : List (Nat × Nat)), layout (.ldx h sz scope ord sx a) = some l → legal (.ldx h sz scope ord sx a) = true →
        guardOn g j l.head = true → partOk g l = true → rdD (hereAt s gh g j) a = .ok va →
        transBytes (hereAt s gh g j) kRead (2 ^ sz.toNat) va = .ok pas →
        ∃ t g' acc, exec (.ldx h sz scope ord sx a) s = .next t ∧ mfind t.groups gh = some g' ∧ g'.pend = g.pend ++ [acc] ∧
          acc.pas = pas ∧ acc.held = pas.map fun p => (mfind g.held p.1).map (·.val)) ∧
      ∀ (c : Ctl) (scope : Scope), legal (.fence c scope) = true → g.pend = [] →
        (∀ x, extSpan (treeOf q) kFetch 16 (nodeVa q n) = .ok x → ∀ y ∈ x, ∀ p ∈ g.held, y.1 / 64 ≠ p.1 / 64) →
        ∃ t g' k', exec (.fence c scope) s = .next t ∧ mfind t.groups gh = some g' ∧ g'.held = [] ∧ g'.ck = some k' ∧
          k'.ticket = s.ticket ∧ k'.node = k.node ∧ k'.depth = k.depth ∧ records k' g ∧
          (laneAt g' j).pos = .leaf n (o + s.issue.len) ∧
          ∀ p ∈ g.held, readAs t (keyView s key) p.1 = p.2.val

/-- What holds an issue back (R166, R173, R174, R178, R219, R361, R374, R395, R397): a lane's next instruction may issue
exactly where the lane is free, its registers and tiles have nothing on their way, the matrix queue has room, and every
access it must wait for has been performed, no commit of it, nor a device word it reaches as it issues, would meet a relock, and the node records it reads are in the
cache. A private issue (R168) is of a lane-class instruction in the lane's loop
buffer, clear in the same way, in a lane that the cycle's broadcast leaves and that has not issued privately in the cycle. -/
def Obligations.IssueHolds : Prop :=
  (∀ (s : State) (c gh lane n o w0 len b : Nat) (g : Group) (q : Program) (i : Instr) (l : Layout), progOf s g = some q →
    (laneAt g lane).pos = .leaf n o → fetchAt s q (coreAt s c) (instrVa s q n o) = .word w0 len b →
    instrOf s q n o w0 len b = i → layout i = some l →
    let x := laneAt g lane
    let pending := fun r : Nat => sget 0 g.vbusy (256 * lane + r) ≠ 0 ∨ ∃ a ∈ g.pend, a.lane = lane ∧ a.op ≠ .store ∧
      a.dst.ds = false ∧ a.dst.nw = false ∧ a.dst.reg ≤ r ∧ r < a.dst.reg + a.dst.regs
    let spending := fun r : Nat => ∃ a ∈ g.pend, a.op ≠ .store ∧ a.dst.ds = true ∧ a.dst.nw = false ∧ a.dst.reg ≤ r ∧
      r < a.dst.reg + a.dst.regs
    let queued := fun P : MatEntry → Prop => ∃ k ∈ s.cores, ∃ e ∈ k.2.mq, e.gh = gh ∧ P e
    let writes := fun (t : Nat) (e : MatEntry) => ∃ d, e.tile = some d ∧ match e.op with
      | .accz m => d ≤ t ∧ t < d + m
      | _ => d = t
    (candOf s c gh g lane ≠ none ↔
      (liveLane x = true ∧ x.held = none ∧ x.waiting = false ∧ x.own = 0 ∧ x.pendTrap = [] ∧ g.turn = true ∧
        g.halted = false ∧ g.counter = 0 ∧ g.starting = []) ∧
      (∀ m y, ((y = l.a ∧ m = l.ra) ∨ (y = l.b ∧ m = l.rb) ∨ (y = l.c ∧ m = l.rc)) → ∀ k, k < m →
        (∀ r, y = some (.v r) → ¬ pending (r.toNat + k)) ∧ ∀ r, y = some (.s r) → ¬ spending (r.toNat + k)) ∧
      (l.head.nw = false → (∀ m k, l.dest = .vec m → k < m →
          ¬ if l.head.ds then spending (l.head.dreg.toNat + k) else pending (l.head.dreg.toNat + k)) ∧
        (l.dest = .tile → queued (writes l.head.dreg.toNat) → isMmaOp l.op = true ∧ l.moda.head? = some (1, 1))) ∧
      (∀ t ∈ readTiles i, ¬ queued (writes t)) ∧ (isMatOp l.op = true → (coreAt s c).mq.length < 4) ∧
      (isSpadOp i l.op = true → ¬ queued fun e => match e.op with
        | .mma .. | .scaccVec .. | .accldSpad .. | .accstSpad .. => True
        | _ => False) ∧
      (isMemOp l.op = true → l.op ≠ 0x72 → l.op ≠ 0x73 → l.op ≠ 0x74 → ∀ a ∈ g.pend, a.lane = lane → isAcq a.ord = false) ∧
      (((∃ h sz sc d sx a, i = .lds h sz sc d sx a ∧ isRel d = true) ∨ (∃ h sz sc d a b, i = .sts h sz sc d a b ∧ isRel d = true) ∨
          (∃ h f sc d t a b e, i = .atoms h f sc d t a b e ∧ isRel d = true) ∨ (∃ h sc a b, i = .swadd h sc a b) ∨
          (∃ h a b, i = .sub h a b) ∨ (∃ h a, i = .unsub h a) ∨ (∃ h p d a b e, i = .mwait h p d a b e)) →
        ∀ a ∈ g.pend, a.lane ≠ lane) ∧
      ((∃ h a, i = .join h a) → g.pend = []) ∧
      ((∃ h a b e, i = .fork h a b e) ∨ (∃ h a, i = .gcraise h a) →
        g.pend = [] ∧ (∀ y ∈ g.lanes, y.own = 0) ∧ ¬ queued fun _ => True) ∧
      (forcesCommit i = true → g.ck = none ∨ g.pend = []) ∧ skipvBusy g lane i = false ∧
      (commitWaits s g = true → mayCommit s g lane l i = false) ∧ recordWaits s c g lane i = false ∧
      wordStalls s gh g lane i = false)) ∧
  ∀ (s t : State) (c slot j : Nat) (i : Instr), preparePriv s c slot j = .run i t →
    coreRuns s c = true ∧ privNow (coreAt s c) slot j = false ∧ (∃ gh g lane n o q, (gh, g) ∈ slotGroups s c slot ∧ g.turn = true ∧ slotLane g lane = j ∧
      progOf s g = some q ∧ (laneAt g lane).pos = .leaf n o ∧ laneFree g (laneAt g lane) = true ∧
      clearFor s c gh g lane i = true ∧ t.issue.parts = [(gh, [lane])] ∧ t.issue.priv = true ∧
      ∃ e ∈ (laneAt g lane).buffer, e.node = n ∧ e.off = o ∧ t.issue.bytes = e.bytes ∧
        i = instrOf s q n o (e.bytes % 2 ^ 32) (4 * lenWords e.bytes) e.bytes) ∧
    (∀ l, layout i = some l → l.grp = false ∧ (l.head.ds = true → l.words = 1)) ∧
    ∀ used, mfind (coreAt s c).bcast slot = some (cycOf s c, used) → j ∉ used

/-- Floating-point values (R250 to R252, R327, R338 to R348): each elementwise function delivers its exact value rounded
once to nearest even, with the sign of a zero and the generated NaN that R338 gives; FMIN and FMAX return an input;
comparisons order the values, −0 equal to +0. Of FEXP2 and FLOG2 the special and the exact results are stated. -/
def Obligations.FloatValues : Prop :=
  (∀ (t : Fmt) (v : Exact) (z : Bool), fmtFloat t = true → Delivers t v.value (z = true) (fpRound t v z)) ∧
  (∀ o c, genNaN .f32 o c = 0x7FC00000 + 16 * o + c ∧ genNaN .f16 o c = 0x7E00 + 16 * o + c ∧
    genNaN .bf16 o c = 0x7FC0 + 16 * o + c) ∧
  (∀ (x y : Int), (intCmp 0 x y ↔ x = y) ∧ (intCmp 1 x y ↔ x ≠ y) ∧ (intCmp 2 x y ↔ x < y) ∧ (intCmp 3 x y ↔ x ≤ y) ∧
    (intCmp 4 x y ↔ y < x) ∧ (intCmp 5 x y ↔ y ≤ x)) ∧
  ∀ (t : Fmt) (a b c : Nat), fmtFloat t = true → a < 2 ^ fmtBits t → b < 2 ^ fmtBits t → c < 2 ^ fmtBits t →
    let nan := fun n => fpInf t < fpMag t n
    let inf := fun n => fpMag t n = fpInf t
    let fin := fun n => fpMag t n < fpInf t
    let v := codeValue t
    let neg := fpNeg t
    let signedInf := fun x : Bool => (if x then fpSign t else 0) + fpInf t
    (nan a → fAdd t a b = genNaN t 1 1 ∧ fSub t a b = genNaN t 1 1 ∧ fMul t a b = genNaN t 1 1 ∧ fFma t a b c = genNaN t 1 1) ∧
    (¬ nan a → nan b →
      fAdd t a b = genNaN t 2 1 ∧ fSub t a b = genNaN t 2 1 ∧ fMul t a b = genNaN t 2 1 ∧ fFma t a b c = genNaN t 2 1) ∧
    (¬ nan a → ¬ nan b → nan c → fFma t a b c = genNaN t 3 1) ∧
    (inf a → inf b → fAdd t a b = (if neg a = neg b then a else genNaN t 0 3) ∧
      fSub t a b = if neg a = neg b then genNaN t 0 3 else a) ∧
    (inf a → fin b → fAdd t a b = a ∧ fSub t a b = a) ∧ (fin a → inf b → fAdd t a b = b ∧ fSub t a b = signedInf (!neg b)) ∧
    (fin a → fin b → Delivers t (v a + v b) (a = fpSign t ∧ b = fpSign t) (fAdd t a b) ∧
      Delivers t (v a - v b) (a = fpSign t ∧ b = 0) (fSub t a b) ∧ Delivers t (v a * v b) (neg a ≠ neg b) (fMul t a b)) ∧
    ((inf a ∧ fpMag t b = 0) ∨ (fpMag t a = 0 ∧ inf b) → fMul t a b = genNaN t 0 4 ∧ (¬ nan c → fFma t a b c = genNaN t 0 4)) ∧
    ((inf a ∧ ¬ nan b ∧ fpMag t b ≠ 0) ∨ (¬ nan a ∧ fpMag t a ≠ 0 ∧ inf b) → fMul t a b = signedInf (neg a != neg b) ∧
      (¬ nan c → fFma t a b c = if inf c ∧ neg c ≠ (neg a != neg b) then genNaN t 3 3 else signedInf (neg a != neg b))) ∧
    (fin a → fin b → (inf c → fFma t a b c = c) ∧ (fin c →
      Delivers t (v a * v b + v c) (v a * v b = 0 ∧ neg a ≠ neg b ∧ c = fpSign t) (fFma t a b c))) ∧
    (∀ up, (nan a → nan b → fMinMax t up a b = genNaN t 1 1) ∧ (nan a → ¬ nan b → fMinMax t up a b = b) ∧
      (¬ nan a → nan b → fMinMax t up a b = a) ∧ (¬ nan a → ¬ nan b → v a < v b ∨ (v a = v b ∧ (neg a = true ∨ neg b = false)) →
        fMinMax t up a b = (if up then b else a) ∧ fMinMax t up b a = if up then b else a)) ∧
    (∀ m, m < 3 → fpMag t (fSgn t m a b) = fpMag t a ∧
      neg (fSgn t m a b) = if m = 0 then neg b else if m = 1 then !neg b else neg a != neg b) ∧
    (let un := nan a ∨ nan b
     (fCmp t 0 a b ↔ ¬ un ∧ v a = v b) ∧ (fCmp t 1 a b ↔ un ∨ v a ≠ v b) ∧ (fCmp t 2 a b ↔ ¬ un ∧ v a < v b) ∧
     (fCmp t 3 a b ↔ ¬ un ∧ v a ≤ v b) ∧ (fCmp t 4 a b ↔ ¬ un ∧ v b < v a) ∧ (fCmp t 5 a b ↔ ¬ un ∧ v b ≤ v a) ∧
     (fCmp t 6 a b ↔ un) ∧ (fCmp t 7 a b ↔ ¬ un)) ∧
    (let cls := if inf a then 7 else if 2 ^ (fpP t - 1) ≤ fpMag t a then 6 else if fpMag t a ≠ 0 then 5 else 4
     ¬ nan a → fClass t a = 2 ^ (if neg a then 7 - cls else cls)) ∧
    (nan a → ∀ gen : Nat, gen = (if (List.range 4).any (fun o => (List.range 5).any fun k => a == genNaN t o (k + 1)) then 1 else 0) →
      fClass t a = a % 64 * 2 ^ 16 + gen * 2 ^ 10 + if a.testBit (fpP t - 2) then 2 ^ 9 else 2 ^ 8) ∧
    (∀ to_, fmtFloat to_ = true → (nan a → fCvt to_ t a = genNaN to_ 1 1) ∧
      (inf a → fCvt to_ t a = (if neg a then fpSign to_ else 0) + fpInf to_) ∧
      (fin a → Delivers to_ (v a) (neg a = true) (fCvt to_ t a))) ∧
    (∀ x : Int, Delivers t (x : Rat) False (iCvtF t x)) ∧
    (∀ k, fmtInt k = true → (nan a → fCvtI k t a = 0) ∧ (inf a → fCvtI k t a = if neg a then intMin k else intMax k) ∧
      (fin a → ∃ y, NearestInt (v a) y ∧ fCvtI k t a = max (intMin k) (min y (intMax k)))) ∧
    (t = .f32 → (nan a → ∀ f, (f = fRcp ∨ f = fSqrt ∨ f = fRsq ∨ f = fExp2 ∨ f = fLog2) → f a = genNaN t 1 1) ∧
      (fpMag t a = 0 → fRcp a = signedInf (neg a) ∧ fSqrt a = a ∧ fRsq a = signedInf (neg a) ∧ fExp2 a = 0x3F800000 ∧
        fLog2 a = signedInf true) ∧
      (inf a → fRcp a = (if neg a then fpSign t else 0) ∧ fExp2 a = if neg a then 0 else a) ∧
      (¬ nan a → fpMag t a ≠ 0 → neg a = true → fSqrt a = 0x7FC00015 ∧ fRsq a = 0x7FC00015 ∧ fLog2 a = 0x7FC00015) ∧
      (inf a → neg a = false → fSqrt a = a ∧ fRsq a = 0 ∧ fLog2 a = a) ∧
      (fin a → v a ≠ 0 → RoundsTo t (1 / v a) (fRcp a)) ∧
      (fin a → 0 < v a → Rounds t (fun x => x < 0 ∨ x * x < v a) (fun x => 0 ≤ x ∧ x * x = v a) (fSqrt a) ∧
        Rounds t (fun x => x < 0 ∨ x * x * v a < 1) (fun x => 0 ≤ x ∧ x * x * v a = 1) (fRsq a)) ∧
      (fin a → (∀ n : Int, v a = n → -149 ≤ n → n ≤ 127 → codeValue t (fExp2 a) = twoTo n) ∧
        ∀ n : Int, v a = twoTo n → Delivers t n False (fLog2 a)))

/-- The values of the matrix array, the group sums and REDUCE (R98, R253 to R268, R358): every MMA, SCACC, HAD and DQNT
element is one exact sum or product rounded once, for BF16 and F16 one for each chunk of eight; REDUCE adds integers; the
group sums combine in the pairwise tree and from the left. -/
def Obligations.MatrixValues : Prop :=
  let cv := codeValue .f32
  let nan := fun n => fpInf .f32 < fpMag .f32 n
  let fin := fun n => fpMag .f32 n < fpInf .f32
  (∀ (t : Fmt) (a b : List Byte) (c : List Nat) (i j : Nat), i < 32 → j < 32 → (mmaTile t a b c).length = 1024 ∧
    (mmaTile t a b c).getD (32 * i + j) 0 = mmaElem t (rowElems t ((a.drop (384 * i)).take 384))
      (rowElems t ((b.drop (384 * j)).take 384)) (c.getD (32 * i + j) 0)) ∧
  (∀ (t : Fmt) (row : List Byte) (k : Nat), (t = .ln6 ∨ t = .ln8 ∨ t = .i8 ∨ t = .bf16 ∨ t = .f16) → row.length = 384 →
    k < 3072 / fmtBits t → (rowElems t row).length = 3072 / fmtBits t ∧
      (rowElems t row).getD k 0 = ofBytes row / 2 ^ (fmtBits t * k) % 2 ^ fmtBits t) ∧
  (∀ (t : Fmt) (a b : List Nat) (c : Nat), (t = .ln6 ∨ t = .ln8 ∨ t = .i8) → a.length = b.length → c < 2 ^ 32 →
    (∀ x ∈ a ++ b, x < 2 ^ fmtBits t) →
    let top := 2 ^ (fmtBits t - 1)
    let steps := if t = .ln6 then 4 else 8
    let tab := if t = .ln6 then [65536, 77936, 92682, 110218] else [65536, 71468, 77936, 84990, 92682, 101070, 110218, 120194]
    let isNaN := fun x => t ≠ .i8 ∧ x = top
    let q := fun x y : Nat => ((x % top : Nat) : Int) + (y % top : Nat) - top
    let prod := fun p : Nat × Nat => if t = .i8 then ((intOf .i8 p.1 * intOf .i8 p.2 : Int) : Rat)
      else if p.1 % top = 0 ∨ p.2 % top = 0 then 0
      else (if top ≤ p.1 ↔ top ≤ p.2 then 1 else -1) * (((tab.getD (q p.1 p.2 % steps).toNat 0 : Nat) : Rat) *
        twoTo (q p.1 p.2 / steps - 16))
    ((∃ x ∈ a, isNaN x) → mmaElem t a b c = 0x7FC00011) ∧
    ((∀ x ∈ a, ¬ isNaN x) → (∃ x ∈ b, isNaN x) → mmaElem t a b c = 0x7FC00021) ∧
    ((∀ x ∈ a ++ b, ¬ isNaN x) → (nan c → mmaElem t a b c = 0x7FC00031) ∧ (fpMag .f32 c = fpInf .f32 → mmaElem t a b c = c) ∧
      (fin c → SumsTo (cv c + sumOf ((List.zip a b).map prod)) (t ≠ .i8 ∧ c = 0x80000000 ∧
        ∀ p ∈ List.zip a b, prod p = 0 ∧ ¬ (top ≤ p.1 ↔ top ≤ p.2)) (mmaElem t a b c)))) ∧
  (∀ (t : Fmt) (a b : List Nat) (c : Nat), (t = .bf16 ∨ t = .f16) → a.length = 192 → b.length = 192 → c < 2 ^ 32 →
    (∀ x ∈ a ++ b, x < 2 ^ 16) →
    ((∃ x ∈ a, fpInf t < fpMag t x) → mmaElem t a b c = 0x7FC00011) ∧
    ((∀ x ∈ a, fpMag t x ≤ fpInf t) → (∃ x ∈ b, fpInf t < fpMag t x) → mmaElem t a b c = 0x7FC00021) ∧
    ((∀ x ∈ a ++ b, fpMag t x ≤ fpInf t) → (nan c → mmaElem t a b c = 0x7FC00031) ∧
      (¬ nan c → (∃ p ∈ List.zip a b, (fpMag t p.1 = 0 ∧ fpMag t p.2 = fpInf t) ∨ (fpMag t p.1 = fpInf t ∧ fpMag t p.2 = 0)) →
        mmaElem t a b c = 0x7FC00004)) ∧
    ((∀ x ∈ a ++ b, fpMag t x < fpInf t) → fin c → ∃ acc chunk : List Nat, acc.length = 25 ∧ chunk.length = 24 ∧
      acc.getD 0 0 = c ∧ acc.getD 24 0 = mmaElem t a b c ∧ ∀ k, k < 24 →
        let ps := ((List.zip a b).drop (8 * k)).take 8
        let val := fun p : Nat × Nat => codeValue t p.1 * codeValue t p.2
        let x := chunk.getD k 0
        let y := acc.getD k 0
        ((∀ p ∈ ps, val p = 0) → x = if ps.all fun p => fpNeg t p.1 != fpNeg t p.2 then 0x80000000 else 0) ∧
        (∀ p ∈ ps, val p ≠ 0 → ∀ e : Int, (∀ r ∈ ps, -twoTo (e + 1) < val r ∧ val r < twoTo (e + 1)) →
          (∃ r ∈ ps, twoTo e ≤ val r ∨ val r ≤ -twoTo e) → ∃ m : List Int, m.length = 8 ∧
            (∀ r ∈ List.zip m (ps.map val), (0 ≤ r.2 → 0 ≤ r.1 ∧ r.1 * twoTo (e - 47) ≤ r.2 ∧ r.2 < (r.1 + 1) * twoTo (e - 47)) ∧
              (r.2 ≤ 0 → r.1 ≤ 0 ∧ r.2 ≤ r.1 * twoTo (e - 47) ∧ (r.1 - 1) * twoTo (e - 47) < r.2)) ∧
            SumsTo (sumOf (m.map fun z : Int => (z : Rat) * twoTo (e - 47))) False x) ∧
        (fin x → fin y → SumsTo (cv y + cv x) (y = 0x80000000 ∧ x = 0x80000000) (acc.getD (k + 1) 0)) ∧
        (¬ nan y → fpMag .f32 x = fpInf .f32 → acc.getD (k + 1) 0 =
          if fpMag .f32 y = fpInf .f32 ∧ fpNeg .f32 x ≠ fpNeg .f32 y then 0x7FC00033 else x) ∧
        (fin x → ¬ fin y → acc.getD (k + 1) 0 = y))) ∧
  (∀ (n : Nat) (x : List Nat) (b k : Nat), (n = 16 ∨ n = 32 ∨ n = 64) → x.length = 1024 → (∀ y ∈ x, y < 2 ^ 32) → b < 1024 / n →
    k < n → let block := (x.drop (n * b)).take n
    let odd := fun j => popCount 6 (k &&& j) % 2 = 1
    let term := fun j => (if odd j then -1 else 1) * cv (block.getD j 0)
    let negTerm := fun j => if odd j then fpNeg .f32 (block.getD j 0) = false else fpNeg .f32 (block.getD j 0) = true
    let infTerm := fun s : Prop => ∃ j, j < n ∧ fpMag .f32 (block.getD j 0) = fpInf .f32 ∧ (negTerm j ↔ s)
    let y := (hadTile n x).getD (n * b + k) 0
    ((∃ z ∈ block, nan z) → y = 0x7FC00011) ∧
    ((∀ z ∈ block, ¬ nan z) → (infTerm True → infTerm False → y = 0x7FC00003) ∧
      (infTerm True → ¬ infTerm False → y = 0xFF800000) ∧ (¬ infTerm True → infTerm False → y = 0x7F800000)) ∧
    ((∀ z ∈ block, fin z) → SumsTo (sumOf ((List.range n).map term))
      (∀ j, j < n → fpMag .f32 (block.getD j 0) = 0 ∧ negTerm j) y)) ∧
  (∀ (src dst sa sb : List Nat) (i j : Nat), src.length = 1024 → dst.length = 1024 → i < 32 → j < 32 →
    let x := src.getD (32 * i + j) 0
    let d := dst.getD (32 * i + j) 0
    let a := sa.getD i 0
    let b := sb.getD j 0
    let y := (scaccTile src dst sa sb).getD (32 * i + j) 0
    x < 2 ^ 32 → d < 2 ^ 32 → a < 256 → b < 256 →
    (nan x → y = 0x7FC00011) ∧ (¬ nan x → a = 255 → y = 0x7FC00012) ∧ (¬ nan x → a ≠ 255 → b = 255 → y = 0x7FC00022) ∧
    (¬ nan x → a ≠ 255 → b ≠ 255 → (nan d → y = 0x7FC00031) ∧
      (fpMag .f32 x = fpInf .f32 → ¬ nan d →
        y = if fpMag .f32 d = fpInf .f32 ∧ fpNeg .f32 d ≠ fpNeg .f32 x then 0x7FC00033 else x) ∧
      (fin x → fpMag .f32 d = fpInf .f32 → y = d) ∧
      (fin x → fin d → SumsTo (cv d + cv x * twoTo ((a : Int) - 127 + ((b : Int) - 127))) (x = 0x80000000 ∧ d = 0x80000000) y))) ∧
  (∀ (t : Fmt) (code e : Nat), (t = .ln6 ∨ t = .ln8) → code < 2 ^ fmtBits t → e < 256 →
    let top := 2 ^ (fmtBits t - 1)
    let steps := if t = .ln6 then 4 else 8
    let tab := if t = .ln6 then [65536, 77936, 92682, 110218] else [65536, 71468, 77936, 84990, 92682, 101070, 110218, 120194]
    (code = top → dqnt t code e = 0x7FC00011) ∧ (code ≠ top → e = 255 → dqnt t code e = 0x7FC00022) ∧
    (code = 0 → e ≠ 255 → dqnt t code e = 0) ∧
    (code % top ≠ 0 → e ≠ 255 → RoundsTo .f32 ((if top ≤ code then -1 else 1) * (((tab.getD (code % top % steps) 0 : Nat) : Rat) *
      twoTo ((code % top / steps : Nat) - (if t = .ln6 then 20 else 24) + ((e : Int) - 127)))) (dqnt t code e))) ∧
  (∀ (old x : Nat) (fsc : Int), old < 2 ^ 128 → x < 2 ^ 32 →
    let r := accElem old x fsc
    let a := fun n => signed 96 n
    (¬ fin x → r.2 = false ∧ r.1 = old ||| 2 ^ (96 + if nan x then 1 else if fpNeg .f32 x then 3 else 2)) ∧
    (fin x → ∃ y, NearestInt (cv x * twoTo (-fsc)) y ∧ a r.1 = max (-2 ^ 95) (min (a old + y) (2 ^ 95 - 1)) ∧
      r.2 = decide (a r.1 ≠ a old + y) ∧ r.1 / 2 ^ 96 = (old / 2 ^ 96) ||| if r.2 then 1 else 0)) ∧
  (∀ x y, redComb x y = if nan x then x else if nan y then y else fAdd .f32 x y) ∧
  (∀ (n : Nat) (l r : List Nat), l.length = 2 ^ n → r.length = 2 ^ n →
    sumTree (n + 1) (l ++ r) = redComb (sumTree n l) (sumTree n r) ∧ ∀ x, sumTree 0 [x] = x) ∧
  (∀ (l : List Nat) (x : Nat), l ≠ [] → sumFold (l ++ [x]) = redComb (sumFold l) x ∧ sumFold [x] = x)

/-- A service core (R67, R73; the RISC-V architecture that R67 names, with its CSRs and exceptions, is the model's
reading, log 3): a step fetches at the pc, and runs the word there or the instruction that a compressed one stands for;
words written out do what their mnemonics say; a load and a store reach memory, LR and SC pair, a trap saves pc, cause and
status and goes to the vector, MRET returns, and KSPAWN's interrupt is taken as the machine external one. -/
def Obligations.ServiceCore : Prop :=
  (∀ (s : State) (a : Agendum) (rest : List Agendum) (k : Nat) (busy : Bool), s.agenda = a :: rest → a.what = .service k busy →
    k < 16 → let u := elapse { s with agenda := rest } a.after
    let x := serviceAt u k
    let pc := x.pc.toNat
    let lo := serviceNum u pc 2
    let w := lo + 65536 * serviceNum u (pc + 2) 2
    let v := { u with free := u.free + 8 }
    u.pkg.power = true →
    (∀ i, irqNow x = some i → step s = settled (.next (setService u k (takeIrq x i)))) ∧
    (irqNow x = none → servicePermitted u k pc 2 1 = false → pc % 2 = 0 →
      step s = settled (.next (serviceTrap u k causeLoadFault pc))) ∧
    (irqNow x = none → meets u k pc 2 1 causeLoadMisaligned = .clear →
      (lo % 4 ≠ 3 → (∀ c, expandC lo = some c → step s = settled (.next (wake (doDeed v k 2 lo (deedOf x 2 c))))) ∧
        (expandC lo = none → step s = settled (.next (serviceTrap v k causeIllegal lo)))) ∧
      (lo % 4 = 3 → meets u k (pc + 2) 2 1 causeLoadMisaligned = .clear → decodeService w = .base →
        step s = settled (.next (wake (doDeed v k 4 w (deedOf x 4 w))))))) ∧
  (∀ (x : Service) (rd r1 r2 i : Nat), rd < 32 → r1 < 32 → r2 < 32 → i < 4096 →
    let a := readX x r1
    let b := readX x r2
    let pc := x.pc.toNat
    let op := fun f3 f7 => rd * 2 ^ 7 + f3 * 2 ^ 12 + r1 * 2 ^ 15 + r2 * 2 ^ 20 + f7 * 2 ^ 25
    let im := fun f3 => rd * 2 ^ 7 + f3 * 2 ^ 12 + r1 * 2 ^ 15 + i * 2 ^ 20
    let at_ := ((a : Int) + signed 12 i) % 2 ^ 64
    deedOf x 4 (0x33 + op 0 0) = .write rd ((a + b) % 2 ^ 64) ∧
    deedOf x 4 (0x33 + op 0 32) = .write rd (wrap 64 ((a : Int) - b)) ∧
    deedOf x 4 (0x33 + op 2 0) = .write rd (if signed 64 a < signed 64 b then 1 else 0) ∧
    deedOf x 4 (0x33 + op 5 32) = .write rd (wrap 64 (signed 64 a / (2 ^ (b % 64) : Nat))) ∧
    deedOf x 4 (0x33 + op 0 1) = .write rd (a * b % 2 ^ 64) ∧
    deedOf x 4 (0x33 + op 4 1) = .write rd (if b = 0 then 2 ^ 64 - 1 else wrap 64 ((signed 64 a).tdiv (signed 64 b))) ∧
    deedOf x 4 (0x3B + op 0 0) = .write rd (wrap 64 (signed 32 (a + b))) ∧
    deedOf x 4 (0x13 + im 0) = .write rd at_.toNat ∧
    deedOf x 4 (0x03 + im 3) = .load rd at_.toNat 8 true ∧ deedOf x 4 (0x03 + im 4) = .load rd at_.toNat 1 false ∧
    deedOf x 4 (0x67 + im 0) = .jump rd ((pc + 4) % 2 ^ 64) (at_.toNat / 2 * 2) ∧
    deedOf x 4 (0x23 + 3 * 2 ^ 12 + i % 32 * 2 ^ 7 + r1 * 2 ^ 15 + r2 * 2 ^ 20 + i / 32 * 2 ^ 25) = .store at_.toNat 8 b ∧
    deedOf x 4 (0x2F + rd * 2 ^ 7 + 3 * 2 ^ 12 + r1 * 2 ^ 15 + 2 * 2 ^ 27) = .reserve rd a 8 ∧
    deedOf x 4 (0x2F + op 3 (3 * 4)) = .conditional rd a 8 b false ∧ deedOf x 4 (0x2F + op 3 0) = .amo rd a 8 0 b false ∧
    deedOf x 4 (0x73 + im 1) = .csr 1 i rd true a ∧ deedOf x 4 0x73 = .ecall ∧ deedOf x 4 0x30200073 = .mret ∧
    deedOf x 4 (0x63 + r1 * 2 ^ 15 + r2 * 2 ^ 20 + 8 * 2 ^ 8) = if a = b then .jump 0 0 ((pc + 16) % 2 ^ 64) else .write 0 0) ∧
  (∀ (s : State) (k n w rd pa size v : Nat), s.TablesCanon → k < 16 → rd < 32 → (size = 1 ∨ size = 2 ∨ size = 4 ∨ size = 8) →
    let x := serviceAt s k
    let next := BitVec.ofNat 64 (x.pc.toNat + n)
    let y := serviceAt (doDeed s k n w (.write rd v)) k
    (y.pc = next ∧ y.instret = x.instret + 1 ∧ ∀ r, r < 32 → readX y r = if r = rd ∧ r ≠ 0 then v % 2 ^ 64 else readX x r) ∧
    (∀ sg, meets s k pa size 1 causeLoadMisaligned = .clear → s.MemCanon →
      (∀ j, j < size → isMemory (region s (pa + j)) = true ∧ badAt s (pa + j) = false) →
      let t := doDeed s k n w (.load rd pa size sg)
      let got := ofBytes ((List.range size).map fun j => readFrame s (pa + j))
      (serviceAt t k).pc = next ∧ t.mem = s.mem ∧ (rd ≠ 0 → readX (serviceAt t k) rd =
        if sg then wrap 64 (signed (8 * size) got) else got)) ∧
    (∀ f, meets s k pa size 2 causeStoreMisaligned = .clear → s.MemCanon → s.subs = [] → frameView s pa = some f →
      entryPair s pa = none → (∀ j, j < size → isMemory (region s (pa + j)) = true) →
      let t := doDeed s k n w (.store pa size v)
      (serviceAt t k).pc = next ∧ ∀ j, j < size → readAs t f (pa + j) = BitVec.ofNat 8 (v / 2 ^ (8 * j))) ∧
    (∀ rl, meets s k pa size 2 causeStoreMisaligned = .clear → x.resv ≠ some (pa / 8 * 8, size) →
      let t := doDeed s k n w (.conditional rd pa size v rl)
      (rd ≠ 0 → readX (serviceAt t k) rd = 1) ∧ t.mem = s.mem ∧ (serviceAt t k).resv = none) ∧
    (∀ sg, pa % size = 0 → servicePermitted s k pa size 1 = false →
      doDeed s k n w (.load rd pa size sg) = serviceTrap s k 5 pa) ∧
    doDeed s k n w .ecall = serviceTrap s k (8 + x.mode) 0 ∧ doDeed s k n w .illegal = serviceTrap s k 2 w) ∧
  ∀ (x : Service) (irq : Bool) (cause tval : Nat), cause < 32 →
    (x.mode = 3 ∨ (csrGet x (if irq then 0x303 else 0x302)).testBit cause = false) → x.mode < 4 →
    let y := trapTo x irq cause tval
    let z := returnM y
    let vec := x.mtvec.toNat
    y.mode = 3 ∧ y.mepc = x.pc ∧ y.mcause = BitVec.ofNat 64 (cause + if irq then 2 ^ 63 else 0) ∧
    y.mtval = BitVec.ofNat 64 tval ∧ y.mstatus.getLsbD 7 = x.mstatus.getLsbD 3 ∧ y.mstatus.getLsbD 3 = false ∧
    y.mstatus.toNat / 2 ^ 11 % 4 = x.mode ∧
    y.pc = BitVec.ofNat 64 (vec / 4 * 4 + if irq = true ∧ vec % 4 = 1 then 4 * cause else 0) ∧
    z.mode = x.mode ∧ z.pc = x.pc ∧ z.mstatus.getLsbD 3 = x.mstatus.getLsbD 3 ∧
    (x.irq = true → (csrGet x 0x304).testBit 11 = true → (csrGet x 0x303).testBit 11 = false →
      (x.mode < 3 ∨ x.mstatus.getLsbD 3 = true) → irqNow x = some 11 ∧ (takeIrq x 11).irq = false ∧ (takeIrq x 11).mode = 3)
end

