-- ==== Sys2Proof/Laws/Sparse.lean ====
section
/-! SUPPORT. Laws of sparse arrays and tables of records: reading after writing, and the canonical form kept. -/

namespace Sys2Proof.Laws

open Sys2Proof.Machine

/-- A table keeps no trace of what a key held before. -/
@[simp] theorem mfind_mput_same {α : Type} (l : List (Nat × α)) (a : Nat) (x : α) : mfind (mput l a x) a = some x := by
  induction l with
  | nil => simp [mput, mfind]
  | cons p r ih =>
    obtain ⟨k, v⟩ := p
    simp only [mput]
    split
    · simp [mfind]
    · split
      · simp [mfind]
      · rename_i h1 h2
        simp [mfind, ih, Ne.symm h2, h1]

/-- Other keys keep their records. -/
theorem mfind_mput_other {α : Type} (l : List (Nat × α)) (a b : Nat) (x : α) (h : b ≠ a) :
    mfind (mput l a x) b = mfind l b := by
  induction l with
  | nil => simp [mput, mfind, Ne.symm h]
  | cons p r ih =>
    obtain ⟨k, v⟩ := p
    simp only [mput]
    split
    · rename_i h1
      simp only [mfind, Ne.symm h, if_false]
      by_cases h2 : b < a
      · have : k ≠ b := by omega
        have h3 : b < k := by omega
        simp [h2, this, h3]
      · simp [h2]
    · split
      · rename_i h1 h2
        subst h2
        simp [mfind, Ne.symm h]
      · simp [mfind, ih]

/-- Reading any key after a write to a table. -/
theorem mfind_mput {α : Type} (l : List (Nat × α)) (a b : Nat) (x : α) :
    mfind (mput l a x) b = if b = a then some x else mfind l b := by
  by_cases h : b = a
  · simp [h]
  · simp [h, mfind_mput_other l a b x h]

/-- A second write of a key replaces the first. -/
@[simp] theorem mput_mput {α : Type} (l : List (Nat × α)) (a : Nat) (x y : α) : mput (mput l a x) a y = mput l a y := by
  induction l with
  | nil => simp [mput]
  | cons p r ih =>
    obtain ⟨k, v⟩ := p
    simp only [mput]
    split
    · simp [mput]
    · split
      · simp [mput]
      · rename_i h1 h2
        simp [mput, ih, h1, h2]

/-- Writing what a key holds changes nothing. -/
theorem mput_self {α : Type} (l : List (Nat × α)) (a : Nat) (x : α) (h : mfind l a = some x) : mput l a x = l := by
  induction l with
  | nil => simp [mfind] at h
  | cons p r ih =>
    obtain ⟨k, v⟩ := p
    simp only [mfind] at h
    split at h
    · rename_i hk
      cases h
      simp [mput, hk]
    · rename_i hk
      split at h
      · simp at h
      · rename_i h2
        simp [mput, h2, Ne.symm hk, ih h]

/-- A weaker bound is still a bound. -/
theorem swfFrom_weaken {α : Type} [DecidableEq α] (d : α) (l : List (Nat × α)) (b c : Option Nat)
    (hbc : ∀ x, c = some x → ∃ y, b = some y ∧ x ≤ y) (h : swfFrom d b l = true) : swfFrom d c l = true := by
  cases l with
  | nil => rfl
  | cons p r =>
    obtain ⟨k, v⟩ := p
    simp only [swfFrom, Bool.and_eq_true] at h ⊢
    refine ⟨⟨?_, h.1.2⟩, h.2⟩
    cases c with
    | none => rfl
    | some x =>
      obtain ⟨y, rfl, hy⟩ := hbc x rfl
      simp only [decide_eq_true_eq] at h ⊢
      exact Nat.lt_of_le_of_lt hy h.1.1

/-- Keys below every listed key read as unlisted. -/
theorem sget_below {α : Type} [DecidableEq α] (d : α) (l : List (Nat × α)) (b a : Nat)
    (h : swfFrom d (some b) l = true) (hab : a ≤ b) : sget d l a = d := by
  cases l with
  | nil => rfl
  | cons p r =>
    obtain ⟨k, v⟩ := p
    simp only [swfFrom, Bool.and_eq_true, decide_eq_true_eq] at h
    have h1 : k ≠ a := by omega
    have h2 : a < k := by omega
    simp [sget, h1, h2]

/-- A write keeps a bound below its key and the canonical form. -/
theorem swfFrom_sset {α : Type} [DecidableEq α] (d : α) (l : List (Nat × α)) (b : Option Nat) (a : Nat) (x : α)
    (h : swfFrom d b l = true) (hb : ∀ y, b = some y → y < a) : swfFrom d b (sset d l a x) = true := by
  induction l generalizing b with
  | nil =>
    simp only [sset]
    split
    · rfl
    · rename_i hx
      cases b with
      | none => simp [swfFrom, hx]
      | some y => simp [swfFrom, hx, hb y rfl]
  | cons p r ih =>
    obtain ⟨k, v⟩ := p
    have h0 := h
    simp only [swfFrom, Bool.and_eq_true, decide_eq_true_eq] at h
    simp only [sset]
    split
    · rename_i hak
      split
      · exact h0
      · rename_i hx
        cases b with
        | none => simp [swfFrom, hx, hak, h.1.2, h.2]
        | some y => simp [swfFrom, hx, hak, h.1.2, h.2, hb y rfl]
    · rename_i hak
      split
      · rename_i hak2
        subst hak2
        split
        · exact swfFrom_weaken d r (some a) b
            (fun z hz => ⟨a, rfl, Nat.le_of_lt (hb z hz)⟩) h.2
        · rename_i hx
          cases b with
          | none => simp [swfFrom, hx, h.2]
          | some y => simp [swfFrom, hx, h.2, hb y rfl]
      · rename_i hne
        have := ih (some k) h.2 (fun y hy => by cases hy; omega)
        simp only [swfFrom, Bool.and_eq_true, decide_eq_true_eq]
        exact ⟨h.1, this⟩

/-- A write keeps the canonical form. -/
theorem swf_sset {α : Type} [DecidableEq α] (d : α) (l : List (Nat × α)) (a : Nat) (x : α)
    (h : swf d l = true) : swf d (sset d l a x) = true :=
  swfFrom_sset d l none a x h (by simp)

/-- Reading after a write, above a bound. -/
theorem sget_sset_from {α : Type} [DecidableEq α] (d : α) (l : List (Nat × α)) (b : Option Nat) (a c : Nat) (x : α)
    (h : swfFrom d b l = true) : sget d (sset d l a x) c = if c = a then x else sget d l c := by
  induction l generalizing b with
  | nil =>
    simp only [sset]
    split
    · rename_i hx; simp [sget, hx]
    · simp only [sget]
      by_cases hc : c = a
      · simp [hc]
      · simp [hc, Ne.symm hc]
  | cons p r ih =>
    obtain ⟨k, v⟩ := p
    simp only [swfFrom, Bool.and_eq_true] at h
    simp only [sset]
    split
    · rename_i hak
      split
      · rename_i hx
        by_cases hc : c = a
        · subst hc
          have : k ≠ c := by omega
          simp [sget, this, hak, hx]
        · simp [hc]
      · by_cases hc : c = a
        · simp [sget, hc]
        · by_cases h2 : c < a
          · have h3 : k ≠ c := by omega
            have h4 : c < k := by omega
            simp [sget, hc, Ne.symm hc, h2, h3, h4]
          · simp [sget, hc, Ne.symm hc, h2]
    · split
      · rename_i hk1 hk2
        subst hk2
        split
        · rename_i hx
          by_cases hc : c = a
          · subst hc
            simp [sget_below d r c c h.2 (Nat.le_refl c), hx]
          · by_cases h2 : c < a
            · have := sget_below d r a c h.2 (Nat.le_of_lt h2)
              simp [hc, sget, Ne.symm hc, h2, this]
            · simp [hc, sget, Ne.symm hc, h2]
        · by_cases hc : c = a
          · simp [sget, hc]
          · simp [sget, hc, Ne.symm hc]
      · rename_i hk1 hk2
        have := ih (some k) h.2
        simp only [sget, this]
        by_cases hc : c = a
        · subst hc
          simp [Ne.symm hk2, hk1]
        · simp [hc]

/-- Reading after a write: the value written, or what stood there. -/
theorem sget_sset {α : Type} [DecidableEq α] (d : α) (l : List (Nat × α)) (a c : Nat) (x : α)
    (h : swf d l = true) : sget d (sset d l a x) c = if c = a then x else sget d l c :=
  sget_sset_from d l none a c x h

/-- Consecutive writes keep the canonical form. -/
theorem swf_ssets {α : Type} [DecidableEq α] (d : α) (l : List (Nat × α)) (a : Nat) (v : List α)
    (h : swf d l = true) : swf d (ssets d l a v) = true := by
  induction v generalizing l a with
  | nil => exact h
  | cons x r ih => exact ih _ _ (swf_sset d l a x h)

/-- Reading after consecutive writes. -/
theorem sget_ssets {α : Type} [DecidableEq α] (d : α) (l : List (Nat × α)) (a c : Nat) (v : List α)
    (h : swf d l = true) :
    sget d (ssets d l a v) c = if a ≤ c ∧ c < a + v.length then nthD d v (c - a) else sget d l c := by
  induction v generalizing l a with
  | nil => simp [ssets, show ¬ (a ≤ c ∧ c < a) by omega]
  | cons x r ih =>
    simp only [ssets]
    rw [ih _ _ (swf_sset d l a x h), sget_sset d l a c x h]
    by_cases h1 : c = a
    · subst h1
      have h2 : ¬ c + 1 ≤ c := by omega
      simp [nthD, h2]
    · by_cases h2 : a + 1 ≤ c ∧ c < a + 1 + r.length
      · have h3 : a ≤ c ∧ c < a + (r.length + 1) := by omega
        have h4 : c - a = (c - (a + 1)) + 1 := by omega
        simp [h2, h3, h4, nthD]
      · have h3 : ¬ (a ≤ c ∧ c < a + (r.length + 1)) := by omega
        rw [if_neg h2, if_neg h1]
        simp only [List.length_cons, if_neg h3]

/-- An empty array is canonical. -/
@[simp] theorem swf_nil {α : Type} [DecidableEq α] (d : α) : swf d ([] : List (Nat × α)) = true := rfl

/-- Element i after a change of element j. -/
theorem nthD_setNth {α : Type} (d : α) (l : List α) (i j : Nat) (x : α) :
    nthD d (setNth l j x) i = if i = j ∧ j < l.length then x else nthD d l i := by
  induction l generalizing i j with
  | nil => simp [setNth, nthD]
  | cons y r ih =>
    cases j with
    | zero => cases i <;> simp [setNth, nthD]
    | succ j =>
      cases i with
      | zero => simp [setNth, nthD]
      | succ i => simp [setNth, nthD, ih]

/-- The number of elements stays. -/
@[simp] theorem length_setNth {α : Type} (l : List α) (j : Nat) (x : α) : (setNth l j x).length = l.length := by
  induction l generalizing j with
  | nil => rfl
  | cons y r ih => cases j <;> simp [setNth, ih]

end Sys2Proof.Laws
end

