-- ==== Sys2Proof/Laws/Memory.lean ====
section
/-! SUPPORT. Memory: every operation keeps the canonical form, and what a read gives after a write (R139, R436). -/

namespace Sys2Proof.Laws

open Sys2Proof.Machine

/-! ### Lengths of ciphered lines -/

@[simp] theorem length_upFrom (n a : Nat) : (upFrom n a).length = n := by
  induction n generalizing a with
  | zero => rfl
  | succ n ih => simp [upFrom, ih]

@[simp] theorem length_toBytes (n x : Nat) : (toBytes n x).length = n := by
  induction n generalizing x with
  | zero => rfl
  | succ n ih => simp [toBytes, ih]

@[simp] theorem length_sgets {α : Type} (d : α) (l : List (Nat × α)) (a n : Nat) : (sgets d l a n).length = n := by
  induction n generalizing a with
  | zero => rfl
  | succ n ih => simp [sgets, ih]

theorem nthD_sgets {α : Type} (d : α) (l : List (Nat × α)) (a n i : Nat) (h : i < n) :
    nthD d (sgets d l a n) i = sget d l (a + i) := by
  induction n generalizing a i with
  | zero => omega
  | succ n ih =>
    cases i with
    | zero => rfl
    | succ i => simp only [sgets, nthD]; rw [ih (a + 1) i (by omega)]; congr 1; omega

@[simp] theorem length_xorBytes (a b : List Nat) : (xorBytes a b).length = min a.length b.length := by
  induction a generalizing b with
  | nil => simp [xorBytes]
  | cons x r ih => cases b with
    | nil => simp [xorBytes]
    | cons y s => simp [xorBytes, ih, Nat.succ_min_succ]

theorem pieces_all {α : Type} (n k : Nat) (l : List α) (h : n * k ≤ l.length) : ∀ p ∈ pieces n k l, p.length = k := by
  induction n generalizing l with
  | zero => simp [pieces]
  | succ n ih =>
    intro p hp
    have h1 : k + n * k ≤ l.length := by rw [Nat.succ_mul] at h; omega
    simp only [pieces, List.mem_cons] at hp
    rcases hp with rfl | hp
    · simp; omega
    · exact ih (l.drop k) (by simp; omega) p hp

@[simp] theorem length_pieces {α : Type} (n k : Nat) (l : List α) : (pieces n k l).length = n := by
  induction n generalizing l with
  | zero => rfl
  | succ n ih => simp [pieces, ih]

theorem mem_pieces {α : Type} (n k : Nat) (l : List α) : ∀ p ∈ pieces n k l, ∀ x ∈ p, x ∈ l := by
  induction n generalizing l with
  | zero => simp [pieces]
  | succ n ih =>
    intro p hp x hx
    simp only [pieces, List.mem_cons] at hp
    rcases hp with rfl | hp
    · exact List.mem_of_mem_take hx
    · exact List.mem_of_mem_drop (ih _ p hp x hx)

theorem nthD_mem {α : Type} (d : α) (l : List α) (i : Nat) (h : i < l.length) : nthD d l i ∈ l := by
  induction l generalizing i with
  | nil => simp at h
  | cons x r ih => cases i with
    | zero => simp [nthD]
    | succ i => simp only [nthD, List.mem_cons]; exact Or.inr (ih i (by simpa using h))

theorem keyWords_spec (n i rcon : Nat) (ws : List (List Nat)) (h8 : 8 ≤ ws.length) (h4 : ∀ w ∈ ws, w.length = 4) :
    (keyWords n i rcon ws).length = n + ws.length ∧ ∀ w ∈ keyWords n i rcon ws, w.length = 4 := by
  induction n generalizing i rcon ws with
  | zero => simp [keyWords]; exact h4
  | succ n ih =>
    have h0 := h4 _ (nthD_mem [] ws 0 (by omega))
    have h7 := h4 _ (nthD_mem [] ws 7 (by omega))
    have := ih (i + 1) (if i % 8 = 0 then xtime rcon else rcon)
      (xorBytes (if i % 8 = 0 then xorBytes (((nthD [] ws 0).drop 1 ++ (nthD [] ws 0).take 1).map subByte) [rcon, 0, 0, 0]
        else if i % 8 = 4 then (nthD [] ws 0).map subByte else nthD [] ws 0) (nthD [] ws 7) :: ws)
      (by simp; omega)
      (by
        intro w hw
        rcases List.mem_cons.1 hw with rfl | hw
        · split
          · simp [h0, h7]
          · split <;> simp [h0, h7]
        · exact h4 w hw)
    refine ⟨?_, this.2⟩
    have h := this.1
    simp only [List.length_cons] at h
    simp only [keyWords]
    omega

theorem roundKeys_spec (key : List Nat) (h : key.length = 32) :
    (roundKeys key).length = 15 ∧ ∀ k ∈ roundKeys key, k.length = 16 := by
  have hp := pieces_all 8 4 key (by omega)
  have hw := keyWords_spec 52 8 1 (pieces 8 4 key).reverse (by simp) (by simpa using hp)
  refine ⟨by simp [roundKeys], ?_⟩
  intro k hk
  simp only [roundKeys, List.mem_map] at hk
  obtain ⟨p, hp, rfl⟩ := hk
  have hl := pieces_all 15 4 (keyWords 52 8 1 (pieces 8 4 key).reverse).reverse (by simp [hw.1]) p hp
  have hm : ∀ w ∈ p, w.length = 4 := fun w hw' => hw.2 w (by
    have := mem_pieces _ _ _ p hp w hw'
    simpa using this)
  match p, hl with
  | [a, b, c, d], _ => simp [hm a (by simp), hm b (by simp), hm c (by simp), hm d (by simp)]

theorem length_encRounds (ks : List (List Nat)) (s : List Nat) (hn : ks ≠ []) (h : ∀ k ∈ ks, k.length = 16) :
    (encRounds ks s).length = 16 := by
  induction ks generalizing s with
  | nil => exact absurd rfl hn
  | cons k r ih =>
    cases r with
    | nil => simp [encRounds, shiftRows, h k (by simp)]
    | cons j r => exact ih _ (by simp) fun x hx => h x (by simp [hx])

theorem length_decRounds (ks : List (List Nat)) (s : List Nat) (hn : ks ≠ []) (h : ∀ k ∈ ks, k.length = 16) :
    (decRounds ks s).length = 16 := by
  induction ks generalizing s with
  | nil => exact absurd rfl hn
  | cons k r ih =>
    cases r with
    | nil => simp [decRounds, shiftRows, h k (by simp)]
    | cons j r => exact ih _ (by simp) fun x hx => h x (by simp [hx])

@[simp] theorem length_keyBytes (k : BitVec 256) : (keyBytes k).length = 32 := by simp [keyBytes]

theorem length_aesEnc (k : BitVec 256) (b : List Nat) : (aesEnc (keyBytes k) b).length = 16 := by
  obtain ⟨hl, hk⟩ := roundKeys_spec (keyBytes k) (by simp)
  simp only [aesEnc]
  split
  · rename_i h; simp [h] at hl
  · rename_i a r h
    rw [h] at hl hk
    exact length_encRounds r _ (by rintro rfl; simp at hl) fun x hx => hk x (by simp [hx])

theorem length_aesDec (k : BitVec 256) (b : List Nat) : (aesDec (keyBytes k) b).length = 16 := by
  obtain ⟨hl, hk⟩ := roundKeys_spec (keyBytes k) (by simp)
  simp only [aesDec]
  split
  · rename_i h; simp at h; simp [h] at hl
  · rename_i a r h
    have hl' : (roundKeys (keyBytes k)).reverse.length = 15 := by simpa using hl
    have hk' : ∀ x ∈ (roundKeys (keyBytes k)).reverse, x.length = 16 := by simpa using hk
    rw [h] at hl' hk'
    exact length_decRounds r _ (by rintro rfl; simp at hl') fun x hx => hk' x (by simp [hx])

theorem length_xtsBlocks (f : List Nat → List Nat) (hf : ∀ b, (f b).length = 16) (l : List (List Nat)) (t : Nat) :
    (xtsBlocks f l t).length = 16 * l.length := by
  induction l generalizing t with
  | nil => rfl
  | cons b r ih => simp [xtsBlocks, ih, hf, nats]; omega

@[simp] theorem length_xtsEnc (k : BitVec 512) (n : Nat) (line : List Byte) : (xtsEnc k n line).length = 64 := by
  simp [xtsEnc, bytesOf, length_xtsBlocks _ (length_aesEnc (dataKey k))]

@[simp] theorem length_xtsDec (k : BitVec 512) (n : Nat) (line : List Byte) : (xtsDec k n line).length = 64 := by
  simp [xtsDec, bytesOf, length_xtsBlocks _ (length_aesDec (dataKey k))]

/-- A line stays 64 bytes long whatever its views. -/
theorem length_viewAs (a b : LineKey) (n : Nat) (line : List Byte) (h : line.length = 64) :
    (viewAs a b n line).length = 64 := by
  have hr : (match a with | .under k => xtsEnc k n line | _ => line).length = 64 := by
    cases a with
    | fresh => exact h
    | plain => exact h
    | under k => exact length_xtsEnc k n line
  unfold viewAs
  by_cases hc : a = b ∨ a = .fresh
  · rw [if_pos hc]; exact h
  · rw [if_neg hc]
    cases b with
    | fresh => exact hr
    | plain => exact hr
    | under k => exact length_xtsDec k n _

/-! ### The regions and a write -/

@[simp] theorem region_writeAs (s : State) (v : LineKey) (pa : Nat) (b : Byte) (x : Nat) :
    region (writeAs s v pa b) x = region s x := by
  simp only [writeAs]
  split
  · rfl
  split
  · rfl
  split <;> rfl

/-- Two bytes of one line that are both memory are both ciphered or both plain at rest (R136, R139). -/
theorem isCipher_line (s : State) (x y : Nat) (hl : x / 64 = y / 64) (hx : isMemory (region s x) = true)
    (hy : isMemory (region s y) = true) : isCipher (region s x) = isCipher (region s y) := by
  have key : ∀ z, isMemory (region s z) = true → (isCipher (region s z) = true ↔ ¬ (0x020000000000 ≤ z ∧ z < 0x020080000000)) := by
    intro z hz
    revert hz
    simp only [region]
    split
    · simp [isMemory]
    split
    · simp [isMemory]
    split
    · rename_i h; simp [isMemory, isCipher]; omega
    split
    · rename_i h
      split <;> simp [isMemory, isCipher]; omega
    split
    · rename_i h1 h; simp [isMemory, isCipher]; omega
    · simp [isMemory]
  have hx' := key x hx
  have hy' := key y hy
  rw [Bool.eq_iff_iff, hx', hy']
  omega

/-! ### Canonical form -/

theorem memCanon_writeAs (s : State) (v : LineKey) (pa : Nat) (b : Byte) (h : s.MemCanon) : (writeAs s v pa b).MemCanon := by
  have hm : swf 0 s.mem = true := h.mem
  simp only [writeAs]
  split
  · exact h
  split
  · exact { h with mem := swf_sset 0 s.mem pa b hm }
  split
  · exact { h with mem := swf_sset 0 s.mem pa b hm }
  · exact { h with mem := swf_sset 0 _ pa b (swf_ssets 0 s.mem _ _ hm), lines := swf_sset _ _ _ _ h.lines }

theorem memCanon_writeSpan (s : State) (v : LineKey) (pa : Nat) (l : List Byte) (h : s.MemCanon) :
    (writeSpan s v pa l).MemCanon := by
  induction l generalizing s pa with
  | nil => exact h
  | cons b r ih => exact ih _ _ (memCanon_writeAs s v pa b h)

/-- The canonical form is kept by a fold of operations that keep it. -/
theorem memCanon_foldl {α : Type} (f : State → α → State) (hf : ∀ s a, s.MemCanon → (f s a).MemCanon) (l : List α)
    (s : State) (h : s.MemCanon) : (l.foldl f s).MemCanon := by
  induction l generalizing s with
  | nil => exact h
  | cons a r ih => exact ih _ (hf s a h)

theorem memCanon_setGroup (s : State) (k : Nat) (g : Group) (h : s.MemCanon) : (setGroup s k g).MemCanon := { h with }

theorem memCanon_markWoken (s : State) (gh : Nat) (f : Wait → Bool) (h : s.MemCanon) : (markWoken s gh f).MemCanon := by
  simp only [markWoken]
  split
  · exact h
  split
  · exact h
  · exact memCanon_setGroup _ _ _ h

theorem memCanon_issueReq (s : State) (l : List BankReq) (h : s.MemCanon) : (issueReq s l).MemCanon := by
  simp only [issueReq]
  split
  · exact h
  split
  · exact { h with }
  · exact h

theorem memCanon_settleLane (s : State) (gh lane : Nat) (l : Lane) (log : WalkLog) (priv : Bool) (h : s.MemCanon) :
    (settleLane s gh lane l log priv).MemCanon := by
  simp only [settleLane]
  split
  · exact h
  · exact memCanon_foldl _ (fun _ _ hs => memCanon_issueReq _ _ hs) _ _ (memCanon_setGroup _ _ _ h)

/-- Raising a lane trap keeps the canonical form. -/
theorem memCanon_divert (s : State) (gh lane : Nat) (t : Trap) (sv : SavedPath) (priv : Bool) (h : s.MemCanon) :
    (divert s gh lane t sv priv).MemCanon := by
  simp only [divert]
  split
  · exact h
  split
  · exact h
  · exact memCanon_setGroup _ _ _ h

theorem memCanon_lookAt (sel : Nat → Bool → Bool) (gh k : Nat) (s : State) (h : s.MemCanon) :
    (lookAt sel gh k s).MemCanon := by
  simp only [lookAt]
  split
  · exact h
  split
  · exact h
  · refine memCanon_foldl _ (fun st q hst => ?_) _ _ (memCanon_setGroup _ _ _ h)
    split
    · exact hst
    · exact memCanon_divert _ _ _ _ _ _ hst

theorem memCanon_breakResv (s : State) (pa : Nat) (h : s.MemCanon) : (breakResv s pa).MemCanon := by
  simp only [breakResv]
  split
  · exact { h with }
  · exact h

theorem memCanon_notifyArmed (s : State) (x : Sub) (h : s.MemCanon) : (notifyArmed s x).MemCanon := by
  simp only [notifyArmed]
  split
  · exact memCanon_lookAt _ _ _ _ h
  · exact memCanon_markWoken _ _ _ h

theorem memCanon_notifySubs (s : State) (v : LineKey) (pa : Nat) (r : Bool) (h : s.MemCanon) :
    (notifySubs s v pa r).MemCanon := by
  simp only [notifySubs]
  split
  · exact h
  · refine memCanon_foldl _ (fun st x hs => ?_) _ _ { h with }
    split
    · exact memCanon_notifyArmed _ _ hs
    · exact memCanon_markWoken _ _ _ hs

theorem memCanon_notifyWord (s : State) (v : LineKey) (pa : Nat) (r : Bool) (h : s.MemCanon) :
    (notifyWord s v pa r).MemCanon := memCanon_notifySubs _ v pa r (memCanon_breakResv s pa h)

theorem memCanon_storeHome (s : State) (v : LineKey) (pa : Nat) (l : List Byte) (r : Bool) (h : s.MemCanon) :
    (storeHome s v pa l r).MemCanon :=
  memCanon_foldl _ (fun s w hs => memCanon_notifyWord s v w r hs) _ _ (memCanon_writeSpan s v pa l h)

theorem memCanon_rings (s : State) (r : List (Nat × Ring)) (h : s.MemCanon) : { s with rings := r }.MemCanon := { h with }

theorem memCanon_storeFrames (n : Nat) (s : State) (pa : Nat) (l : List Byte) (h : s.MemCanon) :
    (storeFrames n s pa l).MemCanon := by
  induction n generalizing s pa l with
  | zero => exact h
  | succ n ih =>
    simp only [storeFrames]
    split
    · exact h
    · refine ih _ _ _ ?_
      split
      · exact h
      · exact memCanon_storeHome _ _ _ _ _ h

theorem memCanon_traceRecord (s : State) (unit type src : Nat) (body : List Byte) (h : s.MemCanon) :
    (traceRecord s unit type src body).MemCanon := by
  unfold traceRecord
  dsimp only
  split
  · exact h
  · exact memCanon_rings _ _ (memCanon_storeFrames _ _ _ _ (memCanon_storeFrames _ _ _ _ h))

theorem memCanon_killGroup (s : State) (gh lane : Nat) (fr : List Frame) (off : Nat) (priv : Bool) (code : Nat) (t : Trap)
    (h : s.MemCanon) : (killGroup s gh lane fr off priv code t).MemCanon := by
  simp only [killGroup]
  split
  · exact h
  · exact memCanon_setGroup _ _ _ (memCanon_traceRecord _ _ _ _ _ h)

theorem memCanon_moveLane (s : State) (gh lane : Nat) (l : Lane) (log : WalkLog) (priv : Bool)
    (onTrap : State → Lane → Trap → State) (ht : ∀ s l t, s.MemCanon → (onTrap s l t).MemCanon) (h : s.MemCanon) :
    (moveLane s gh lane l log priv onTrap).1.MemCanon := by
  simp only [moveLane]
  split
  · exact h
  split
  · split
    · exact memCanon_settleLane _ _ _ _ _ _ h
    · exact ht _ _ _ (memCanon_settleLane _ _ _ _ _ _ h)
  · exact h

theorem memCanon_storeBytes (s : State) (l : List (Nat × Nat × Byte)) (r : Bool) (h : s.MemCanon) :
    (storeBytes s l r).MemCanon :=
  memCanon_foldl _ (fun s w hs => memCanon_notifyWord s _ w.1 r hs) _ _
    (memCanon_foldl _ (fun s _ hs => memCanon_writeAs s _ _ _ hs) _ _ h)

theorem memCanon_markLeaf (s : State) (leaf mask : Nat) (h : s.MemCanon) : (markLeaf s leaf mask).MemCanon := by
  simp only [markLeaf]
  split
  · exact h
  · exact memCanon_writeSpan _ _ _ _ h

theorem memCanon_setPins (s : State) (leaf n : Nat) (h : s.MemCanon) : (setPins s leaf n).MemCanon := by
  simp only [setPins]
  split
  · exact h
  · exact memCanon_writeSpan _ _ _ _ h

theorem memCanon_placeBytes (s : State) (pa n w : Nat) (h : s.MemCanon) : (placeBytes s pa n w).MemCanon :=
  { h with mem := swf_ssets 0 s.mem pa _ h.mem }

theorem memCanon_reset : State.reset.MemCanon := ⟨rfl, rfl, rfl, rfl, rfl, rfl, rfl⟩

/-! ### Reads after writes -/

theorem readAs_cellAs (s : State) (v : LineKey) (pa : Nat) (h : isMemory (region s pa) = true) :
    readAs s v pa = cellAs s v pa := by
  simp only [readAs]
  split <;> simp_all [isMemory]

theorem sgets_congr {α : Type} (d : α) (l l' : List (Nat × α)) (a n : Nat)
    (h : ∀ i, i < n → sget d l (a + i) = sget d l' (a + i)) : sgets d l a n = sgets d l' a n := by
  induction n generalizing a with
  | zero => rfl
  | succ n ih =>
    have h0 : sget d l a = sget d l' a := h 0 (by omega)
    have hr := ih (a + 1) fun i hi => by
      have := h (i + 1) (by omega)
      rwa [show a + (i + 1) = a + 1 + i by omega] at this
    simp only [sgets, h0, hr]

/-- What a write leaves: the byte itself; the rest of its line as it read under the view; other lines as they stood. -/
theorem cells_writeAs (s : State) (v : LineKey) (pa : Nat) (b : Byte) (hc : s.MemCanon)
    (hp : isMemory (region s pa) = true) :
    (∀ n, sget LineKey.fresh (writeAs s v pa b).lines n =
      if isCipher (region s pa) = true ∧ n = pa / 64 then v else sget LineKey.fresh s.lines n) ∧
    (∀ x, x / 64 ≠ pa / 64 → sget 0 (writeAs s v pa b).mem x = sget 0 s.mem x) ∧
    (isCipher (region s pa) = false → ∀ x, x ≠ pa → sget 0 (writeAs s v pa b).mem x = sget 0 s.mem x) ∧
    sget 0 (writeAs s v pa b).mem pa = b ∧
    (isCipher (region s pa) = true → ∀ x, x / 64 = pa / 64 → x ≠ pa → sget 0 (writeAs s v pa b).mem x =
      if sget LineKey.fresh s.lines (pa / 64) = v then sget 0 s.mem x
      else nthD 0 (viewAs (sget LineKey.fresh s.lines (pa / 64)) v (pa / 64) (sgets 0 s.mem (64 * (pa / 64)) 64)) (x % 64)) := by
  have hm : swf 0 s.mem = true := hc.mem
  unfold writeAs
  simp only [hp, Bool.not_true, Bool.false_eq_true, if_false]
  by_cases hcp : isCipher (region s pa) = true
  · simp only [hcp, Bool.not_true, Bool.false_eq_true, if_false, true_and]
    by_cases hk : sget LineKey.fresh s.lines (pa / 64) = v
    · simp only [hk, if_true]
      refine ⟨fun n => ?_, fun x hx => ?_, fun h => absurd h (by simp), ?_, fun _ x _ hx => ?_⟩
      · by_cases hn : n = pa / 64
        · rw [if_pos hn, hn]; exact hk
        · rw [if_neg hn]
      · rw [sget_sset _ _ _ _ _ hm, if_neg]; rintro rfl; exact hx rfl
      · rw [sget_sset _ _ _ _ _ hm, if_pos rfl]
      · rw [sget_sset _ _ _ _ _ hm, if_neg hx]
    · simp only [hk, if_false]
      have hlen := length_viewAs (sget LineKey.fresh s.lines (pa / 64)) v (pa / 64)
        (sgets 0 s.mem (64 * (pa / 64)) 64) (length_sgets _ _ _ _)
      generalize viewAs (sget LineKey.fresh s.lines (pa / 64)) v (pa / 64) (sgets 0 s.mem (64 * (pa / 64)) 64) = line at hlen ⊢
      have hm2 := swf_ssets 0 s.mem (64 * (pa / 64)) line hm
      refine ⟨fun n => ?_, fun x hx => ?_, fun h => absurd h (by simp), ?_, fun _ x hl hx => ?_⟩
      · rw [sget_sset _ _ _ _ _ hc.lines]
      · rw [sget_sset _ _ _ _ _ hm2, if_neg (by rintro rfl; exact hx rfl), sget_ssets _ _ _ _ _ hm, if_neg (by omega)]
      · rw [sget_sset _ _ _ _ _ hm2, if_pos rfl]
      · rw [sget_sset _ _ _ _ _ hm2, if_neg hx, sget_ssets _ _ _ _ _ hm, if_pos (by omega)]
        congr 1; omega
  · have hcp' : isCipher (region s pa) = false := by simpa using hcp
    simp only [hcp', Bool.not_false, if_true]
    refine ⟨fun n => by simp, fun x hx => ?_, fun _ x hx => ?_, ?_, fun h => absurd h (by simp)⟩
    · rw [sget_sset _ _ _ _ _ hm, if_neg]; rintro rfl; exact hx rfl
    · rw [sget_sset _ _ _ _ _ hm, if_neg hx]
    · rw [sget_sset _ _ _ _ _ hm, if_pos rfl]

/-- A byte of memory written under a view reads back under it, and every other byte of memory reads as before under that
view. -/
theorem readAs_writeAs (s : State) (v : LineKey) (pa x : Nat) (b : Byte) (hc : s.MemCanon)
    (hp : isMemory (region s pa) = true) (hx : isMemory (region s x) = true) :
    readAs (writeAs s v pa b) v x = if x = pa then b else readAs s v x := by
  obtain ⟨hlines, hother, hplain, hself, hcip⟩ := cells_writeAs s v pa b hc hp
  rw [readAs_cellAs _ _ _ (by simpa using hx), readAs_cellAs _ _ _ hx]
  unfold cellAs
  simp only [region_writeAs, hlines]
  by_cases hl : x / 64 = pa / 64
  · by_cases hcp : isCipher (region s pa) = true
    · have hcx : isCipher (region s x) = true := by rw [isCipher_line s x pa hl hx hp]; exact hcp
      simp only [hl, hcp, hcx, and_self, if_true, beq_self_eq_true, Bool.or_true, Bool.true_or]
      by_cases he : x = pa
      · rw [if_pos he, he]; exact hself
      · rw [if_neg he, hcip hcp x hl he]
        by_cases hk : sget LineKey.fresh s.lines (pa / 64) = v
        · simp [hk]
        · have hk' : (sget LineKey.fresh s.lines (pa / 64) == v) = false := by simpa using hk
          rw [if_neg hk]
          by_cases hf : sget LineKey.fresh s.lines (pa / 64) = .fresh
          · have hv : viewAs (sget LineKey.fresh s.lines (pa / 64)) v (pa / 64) (sgets 0 s.mem (64 * (pa / 64)) 64)
                = sgets 0 s.mem (64 * (pa / 64)) 64 := by
              unfold viewAs; rw [if_pos (Or.inr hf)]
            rw [hv, nthD_sgets _ _ _ _ _ (by omega)]
            simp only [hf, beq_self_eq_true, Bool.or_true, if_true]
            congr 1; omega
          · have hf' : (sget LineKey.fresh s.lines (pa / 64) == LineKey.fresh) = false := by simpa using hf
            simp only [hk', hf', Bool.not_true, Bool.or_self, Bool.false_eq_true, if_false]
    · have hcp' : isCipher (region s pa) = false := by simpa using hcp
      have hcx : isCipher (region s x) = false := by rw [isCipher_line s x pa hl hx hp]; exact hcp'
      simp only [hcx, Bool.not_false, Bool.true_or, if_true]
      by_cases he : x = pa
      · rw [if_pos he, he]; exact hself
      · rw [if_neg he]; exact hplain hcp' x he
  · have hne : ¬ (isCipher (region s pa) = true ∧ x / 64 = pa / 64) := fun h => hl h.2
    have he : x ≠ pa := fun h => hl (by rw [h])
    have hg : sgets 0 (writeAs s v pa b).mem (64 * (x / 64)) 64 = sgets 0 s.mem (64 * (x / 64)) 64 :=
      sgets_congr _ _ _ _ _ fun i hi => hother _ (by omega)
    rw [if_neg hne, if_neg he, hg, hother x hl]

/-- A write under one view leaves every byte of other lines as it reads under any view. -/
theorem readAs_writeAs_line (s : State) (v w : LineKey) (pa x : Nat) (b : Byte) (hc : s.MemCanon)
    (hx : isMemory (region s x) = true) (hl : x / 64 ≠ pa / 64) :
    readAs (writeAs s v pa b) w x = readAs s w x := by
  by_cases hp : isMemory (region s pa) = true
  · obtain ⟨hlines, hother, -, -, -⟩ := cells_writeAs s v pa b hc hp
    rw [readAs_cellAs _ _ _ (by simpa using hx), readAs_cellAs _ _ _ hx]
    unfold cellAs
    have hne : ¬ (isCipher (region s pa) = true ∧ x / 64 = pa / 64) := fun h => hl h.2
    have hg : sgets 0 (writeAs s v pa b).mem (64 * (x / 64)) 64 = sgets 0 s.mem (64 * (x / 64)) 64 :=
      sgets_congr _ _ _ _ _ fun i hi => hother _ (by omega)
    simp only [region_writeAs, hlines, if_neg hne, hg, hother x hl]
  · have : writeAs s v pa b = s := by unfold writeAs; simp [hp]
    rw [this]

@[simp] theorem region_writeSpan (s : State) (v : LineKey) (pa : Nat) (l : List Byte) (x : Nat) :
    region (writeSpan s v pa l) x = region s x := by
  induction l generalizing s pa with
  | nil => rfl
  | cons b r ih => simp [writeSpan, ih]

/-- Bytes of memory written under a view read back under it, and every other byte of memory reads as before under that
view. -/
theorem readAs_writeSpan (s : State) (v : LineKey) (pa x : Nat) (l : List Byte) (hc : s.MemCanon)
    (hp : ∀ i, i < l.length → isMemory (region s (pa + i)) = true) (hx : isMemory (region s x) = true) :
    readAs (writeSpan s v pa l) v x = if pa ≤ x ∧ x < pa + l.length then nthD 0 l (x - pa) else readAs s v x := by
  induction l generalizing s pa with
  | nil => rw [if_neg (by simp only [List.length_nil]; omega)]; rfl
  | cons b r ih =>
    have h0 := hp 0 (by simp)
    simp only [writeSpan]
    rw [ih _ _ (memCanon_writeAs s v pa b hc) (fun i hi => by
        have := hp (i + 1) (by simpa using hi)
        rwa [region_writeAs, show pa + 1 + i = pa + (i + 1) by omega]) (by simpa using hx),
      readAs_writeAs s v pa x b hc h0 hx]
    simp only [List.length_cons]
    by_cases h1 : x = pa
    · subst h1
      rw [if_neg (by omega), if_pos rfl, if_pos (by omega), Nat.sub_self]; rfl
    · by_cases h2 : pa + 1 ≤ x ∧ x < pa + 1 + r.length
      · rw [if_pos h2, if_pos (by omega), show x - pa = (x - (pa + 1)) + 1 by omega]; rfl
      · rw [if_neg h2, if_neg h1, if_neg (by omega)]

/-- Bytes of lines that a span of writes does not touch read as before under any view. -/
theorem readAs_writeSpan_line (s : State) (v w : LineKey) (pa x : Nat) (l : List Byte) (hc : s.MemCanon)
    (hx : isMemory (region s x) = true) (hl : ∀ i, i < l.length → x / 64 ≠ (pa + i) / 64) :
    readAs (writeSpan s v pa l) w x = readAs s w x := by
  induction l generalizing s pa with
  | nil => rfl
  | cons b r ih =>
    simp only [writeSpan]
    rw [ih _ _ (memCanon_writeAs s v pa b hc) (by simpa using hx) (fun i hi => by
      have := hl (i + 1) (by simpa using hi)
      rwa [show pa + 1 + i = pa + (i + 1) by omega]),
      readAs_writeAs_line s v w pa x b hc hx (by simpa using hl 0 (by simp))]

end Sys2Proof.Laws
end

