-- ==== Sys2Proof/Laws/Flit.lean ====
section
/-! SUPPORT. Protected flits: the ciphers' values are bytes, GCM opens what it closed, and a header's fields come back (R31,
R32). -/

namespace Sys2Proof.Laws

open Sys2Proof.Machine

/-- Every number of a list is a byte. -/
def Bytes (l : List Nat) : Prop := ∀ x ∈ l, x < 256

theorem bytes_nil : Bytes [] := by simp [Bytes]

theorem bytes_cons {x : Nat} {l : List Nat} : Bytes (x :: l) ↔ x < 256 ∧ Bytes l := by simp [Bytes]

theorem bytes_append {a b : List Nat} (ha : Bytes a) (hb : Bytes b) : Bytes (a ++ b) := fun x hx =>
  (List.mem_append.1 hx).elim (ha x) (hb x)

theorem xor_byte {a b : Nat} (ha : a < 256) (hb : b < 256) : Nat.xor a b < 256 :=
  Nat.xor_lt_two_pow (n := 8) ha hb

theorem bytes_xorBytes {a b : List Nat} (ha : Bytes a) (hb : Bytes b) : Bytes (xorBytes a b) := by
  induction a generalizing b with
  | nil => simp [xorBytes, Bytes]
  | cons x r ih =>
    cases b with
    | nil => simp [xorBytes, Bytes]
    | cons y t =>
      simp only [xorBytes, bytes_cons] at *
      exact ⟨xor_byte ha.1 hb.1, ih ha.2 hb.2⟩

theorem sbox_bytes : ∀ r ∈ sbox, Bytes r := by unfold Bytes; decide

theorem nthD_all {α : Type} (p : α → Prop) (d : α) (l : List α) (i : Nat) (hd : p d) (hl : ∀ x ∈ l, p x) : p (nthD d l i) := by
  induction l generalizing i with
  | nil => exact hd
  | cons x r ih => cases i with
    | zero => exact hl x (by simp)
    | succ i => exact ih i fun y hy => hl y (by simp [hy])

theorem subByte_lt (x : Nat) : subByte x < 256 :=
  nthD_all (· < 256) 0 _ _ (by decide) (nthD_all Bytes [] sbox _ bytes_nil sbox_bytes)

theorem bytes_subBytes (l : List Nat) : Bytes (l.map subByte) := by
  intro x hx
  obtain ⟨y, -, rfl⟩ := List.mem_map.1 hx
  exact subByte_lt y

theorem xtime_lt {a : Nat} (h : a < 256) : xtime a < 256 := by
  unfold xtime
  split
  · exact xor_byte (Nat.mod_lt _ (by decide)) (by decide)
  · omega

theorem bytes_keyWords (n i rcon : Nat) (ws : List (List Nat)) (hr : rcon < 256) (h : ∀ w ∈ ws, Bytes w) :
    ∀ w ∈ keyWords n i rcon ws, Bytes w := by
  induction n generalizing i rcon ws with
  | zero => exact h
  | succ n ih =>
    refine ih _ _ _ (by split; exact xtime_lt hr; exact hr) ?_
    intro w hw
    rcases List.mem_cons.1 hw with rfl | hw
    · refine bytes_xorBytes ?_ (nthD_all Bytes [] ws 7 bytes_nil h)
      split
      · exact bytes_xorBytes (bytes_subBytes _) (by simp [Bytes]; exact hr)
      · split
        · exact bytes_subBytes _
        · exact nthD_all Bytes [] ws 0 bytes_nil h
    · exact h w hw

theorem bytes_roundKeys (key : List Nat) (h : Bytes key) : ∀ k ∈ roundKeys key, Bytes k := by
  intro k hk
  simp only [roundKeys, List.mem_map] at hk
  obtain ⟨p, hp, rfl⟩ := hk
  intro x hx
  obtain ⟨w, hw, hxw⟩ := List.mem_flatten.1 hx
  have hm := mem_pieces _ _ _ p hp w hw
  rw [List.mem_reverse] at hm
  refine bytes_keyWords 52 8 1 _ (by decide) ?_ w hm x hxw
  intro w' hw'
  rw [List.mem_reverse] at hw'
  exact fun y hy => h y (mem_pieces _ _ _ w' hw' y hy)

theorem bytes_keyBytes (k : BitVec 256) : Bytes (keyBytes k) := by
  intro x hx
  obtain ⟨b, -, rfl⟩ := List.mem_map.1 hx
  exact b.isLt

theorem bytes_shiftRows (d : Nat) (l : List Nat) (h : Bytes l) : Bytes (shiftRows d l) := by
  intro x hx
  obtain ⟨i, -, rfl⟩ := List.mem_map.1 hx
  exact nthD_all (· < 256) 0 l _ (by decide) h

theorem bytes_encRounds (ks : List (List Nat)) (s : List Nat) (hn : ks ≠ []) (h : ∀ k ∈ ks, Bytes k) :
    Bytes (encRounds ks s) := by
  induction ks generalizing s with
  | nil => exact absurd rfl hn
  | cons k r ih =>
    cases r with
    | nil => exact bytes_xorBytes (bytes_shiftRows 1 _ (bytes_subBytes s)) (h k (by simp))
    | cons j r => exact ih _ (by simp) fun x hx => h x (by simp [hx])

theorem bytes_aesEnc (k : BitVec 256) (b : List Nat) : Bytes (aesEnc (keyBytes k) b) := by
  have hl := (roundKeys_spec (keyBytes k) (by simp)).1
  have hk := bytes_roundKeys _ (bytes_keyBytes k)
  unfold aesEnc
  split
  · rename_i h; simp [h] at hl
  · rename_i a r h
    rw [h] at hl hk
    exact bytes_encRounds r _ (by rintro rfl; simp at hl) fun x hx => hk x (by simp [hx])

theorem gcmStream_spec (n : Nat) (k : BitVec 256) (iv : List Nat) (c : Nat) :
    (gcmStream n (keyBytes k) iv c).length = 16 * n ∧ Bytes (gcmStream n (keyBytes k) iv c) := by
  induction n generalizing c with
  | zero => simp [gcmStream, Bytes]
  | succ n ih =>
    simp only [gcmStream, List.length_append, length_aesEnc, (ih (c + 1)).1]
    exact ⟨by omega, bytes_append (bytes_aesEnc _ _) (ih (c + 1)).2⟩

theorem nats_bytesOf {l : List Nat} (h : Bytes l) : nats (bytesOf l) = l := by
  induction l with
  | nil => rfl
  | cons x r ih =>
    simp only [bytes_cons] at h
    have hr := ih h.2
    simp only [nats, bytesOf, List.map_map] at hr ⊢
    simp only [List.map_cons, hr, List.cons.injEq, and_true, Function.comp_apply, BitVec.toNat_ofNat]
    exact Nat.mod_eq_of_lt h.1

@[simp] theorem bytesOf_nats (l : List Byte) : bytesOf (nats l) = l := by
  induction l with
  | nil => rfl
  | cons b r ih =>
    simp only [nats, bytesOf, List.map_map] at ih ⊢
    simp only [List.map_cons, ih, Function.comp_apply, BitVec.ofNat_toNat, BitVec.setWidth_eq]

theorem bytes_nats (l : List Byte) : Bytes (nats l) := by
  intro x hx
  obtain ⟨b, -, rfl⟩ := List.mem_map.1 hx
  exact b.isLt

theorem xorBytes_twice (a b : List Nat) (h : a.length ≤ b.length) : xorBytes (xorBytes a b) b = a := by
  induction a generalizing b with
  | nil => simp [xorBytes]
  | cons x r ih =>
    cases b with
    | nil => simp at h
    | cons y t =>
      simp only [xorBytes, List.cons.injEq]
      refine ⟨?_, ih t (by simpa using h)⟩
      show (x ^^^ y) ^^^ y = x
      rw [Nat.xor_assoc, Nat.xor_self, Nat.xor_zero]

@[simp] theorem length_nats (l : List Byte) : (nats l).length = l.length := by simp [nats]
@[simp] theorem length_bytesOf (l : List Nat) : (bytesOf l).length = l.length := by simp [bytesOf]

/-- GCM opens what it closed (R32). -/
theorem gcmDecrypt_gcmEncrypt (key : BitVec 256) (iv : List Nat) (aad pt : List Byte) :
    gcmDecrypt key iv aad (gcmEncrypt key iv aad pt).1 (gcmEncrypt key iv aad pt).2 = some pt := by
  obtain ⟨hl, hb⟩ := gcmStream_spec (ceilDiv pt.length 16) key iv 2
  have hle : pt.length ≤ 16 * ceilDiv pt.length 16 := by unfold ceilDiv; omega
  have hx : Bytes (xorBytes (nats pt) (gcmStream (ceilDiv pt.length 16) (keyBytes key) iv 2)) :=
    bytes_xorBytes (bytes_nats pt) hb
  have hlen : (xorBytes (nats pt) (gcmStream (ceilDiv pt.length 16) (keyBytes key) iv 2)).length = pt.length := by
    rw [length_xorBytes, length_nats, hl]; omega
  simp only [gcmDecrypt, gcmEncrypt, nats_bytesOf hx, if_true, length_bytesOf, hlen]
  rw [xorBytes_twice _ _ (by rw [length_nats, hl]; exact hle), bytesOf_nats]

theorem toBytes_ofBytes (l : List Byte) : toBytes l.length (ofBytes l) = l := by
  induction l with
  | nil => rfl
  | cons b r ih =>
    have hb : b.toNat < 256 := b.isLt
    simp only [List.length_cons, toBytes, ofBytes, List.cons.injEq]
    refine ⟨?_, ?_⟩
    · apply BitVec.eq_of_toNat_eq
      rw [BitVec.toNat_ofNat]
      omega
    · rw [show (b.toNat + 256 * ofBytes r) / 256 = ofBytes r by omega]; exact ih

theorem ofBytes_lt (l : List Byte) : ofBytes l < 256 ^ l.length := by
  induction l with
  | nil => simp [ofBytes]
  | cons b r ih =>
    have hb : b.toNat < 256 := b.isLt
    simp only [ofBytes, List.length_cons, Nat.pow_succ]
    omega

/-- The fields of a header come back (R31). -/
theorem headFields_packHead (h : FlitHead) (hk : h.kind < 16) (hc : h.cls < 4) (hs : h.seq < 65536) (ha : h.ackSeq < 65536)
    (hl : h.len < 512) (hi : h.ic < 2 ^ 64) : headFields (packHead h) = h := by
  obtain ⟨kind, kslot, cls, seq, ackSeq, len, ic⟩ := h
  simp only at hk hc hs ha hl hi
  have hf : flag kslot ≤ 1 := by cases kslot <;> simp [flag]
  have hn : (packHead ⟨kind, kslot, cls, seq, ackSeq, len, ic⟩).toNat = kind + 16 * (flag kslot + 2 * (0 + 8 * (cls + 4 *
      (0 + 64 * (seq + 65536 * (ackSeq + 65536 * (len + 512 * (0 + 128 * ic)))))))) := by
    simp only [packHead, BitVec.toNat_ofNat, pack]
    omega
  simp only [headFields, hn, bits, bit, FlitHead.mk.injEq]
  refine ⟨by omega, ?_, by omega, by omega, by omega, by omega, by omega⟩
  cases kslot <;> simp only [flag, Bool.false_eq_true, if_true, if_false] <;> simp <;> omega

theorem headOk_packHead (h : FlitHead) (hk : h.kind ≤ 5) (hc : h.cls < 4) (hs : h.seq < 65536) (ha : h.ackSeq < 65536)
    (hl : h.len ≤ 256) (hi : h.ic < 2 ^ 64) : headOk (packHead h) = true := by
  obtain ⟨kind, kslot, cls, seq, ackSeq, len, ic⟩ := h
  simp only at hk hc hs ha hl hi
  have hf : flag kslot ≤ 1 := by cases kslot <;> simp [flag]
  have hn : (packHead ⟨kind, kslot, cls, seq, ackSeq, len, ic⟩).toNat = kind + 16 * (flag kslot + 2 * (0 + 8 * (cls + 4 *
      (0 + 64 * (seq + 65536 * (ackSeq + 65536 * (len + 512 * (0 + 128 * ic)))))))) := by
    simp only [packHead, BitVec.toNat_ofNat, pack]
    omega
  simp only [headOk, hn, bits, Bool.and_eq_true, beq_iff_eq, decide_eq_true_eq]
  refine ⟨⟨⟨⟨by omega, by omega⟩, by omega⟩, by omega⟩, by omega⟩

/-- A protected flit opens, under the same key with the slot loaded, to its payload (R31, R32). -/
theorem openFlit_makeFlit (key : BitVec 256) (k : KeySlot) (h : FlitHead) (payload : List Byte) (hld : k.loaded = true)
    (hkey : k.key = key) (hk : h.kind ≤ 5) (hc : h.cls < 4) (hs : h.seq < 65536) (ha : h.ackSeq < 65536)
    (hi : h.ic < 2 ^ 64) (hl : h.len = payload.length) (hp : payload.length ≤ 256) :
    headFields (makeFlit key h payload).header = h ∧ openFlit k (makeFlit key h payload) = some payload := by
  have hf : headFields (packHead h) = h := headFields_packHead h (by omega) hc hs ha (by omega) hi
  refine ⟨hf, ?_⟩
  have hg := gcmDecrypt_gcmEncrypt key (gcmNonce 0 h.ic) (toBytes 16 (packHead h).toNat)
    (payload ++ List.replicate (256 - payload.length) 0)
  have ht : (gcmEncrypt key (gcmNonce 0 h.ic) (toBytes 16 (packHead h).toNat)
      (payload ++ List.replicate (256 - payload.length) 0)).2.length = 16 := by
    simp [gcmEncrypt, gcmTag, length_aesEnc, beBytes]
  have hb := ofBytes_lt (gcmEncrypt key (gcmNonce 0 h.ic) (toBytes 16 (packHead h).toNat)
      (payload ++ List.replicate (256 - payload.length) 0)).2
  have hr := toBytes_ofBytes (gcmEncrypt key (gcmNonce 0 h.ic) (toBytes 16 (packHead h).toNat)
      (payload ++ List.replicate (256 - payload.length) 0)).2
  rw [ht] at hb hr
  have hm : (BitVec.ofNat 128 (ofBytes (gcmEncrypt key (gcmNonce 0 h.ic) (toBytes 16 (packHead h).toNat)
      (payload ++ List.replicate (256 - payload.length) 0)).2)).toNat = ofBytes (gcmEncrypt key (gcmNonce 0 h.ic)
      (toBytes 16 (packHead h).toNat) (payload ++ List.replicate (256 - payload.length) 0)).2 := by
    rw [BitVec.toNat_ofNat]
    exact Nat.mod_eq_of_lt (Nat.lt_of_lt_of_eq hb (by decide))
  simp only [openFlit, makeFlit, headOk_packHead h hk hc hs ha (by omega) hi, hld, hf, hkey, hm, hr, hg, Bool.not_true,
    Bool.or_self, Bool.false_eq_true, if_false, Option.map_some, hl]
  simp

end Sys2Proof.Laws
end

