-- ==== Sys2Proof/Laws/State.lean ====
section
/-! SUPPORT. What each named update of the state and of a group does to each of its fields. -/

namespace Sys2Proof.Laws

open Sys2Proof.Machine

/-! ### setGroup -/

@[simp] theorem setGroup_pkg (s : State) (k : Nat) (x : Group) : (setGroup s k x).pkg = s.pkg := rfl
@[simp] theorem setGroup_time (s : State) (k : Nat) (x : Group) : (setGroup s k x).time = s.time := rfl
@[simp] theorem setGroup_layers (s : State) (k : Nat) (x : Group) : (setGroup s k x).layers = s.layers := rfl
@[simp] theorem setGroup_ports (s : State) (k : Nat) (x : Group) : (setGroup s k x).ports = s.ports := rfl
@[simp] theorem setGroup_tdis (s : State) (k : Nat) (x : Group) : (setGroup s k x).tdis = s.tdis := rfl
@[simp] theorem setGroup_keys (s : State) (k : Nat) (x : Group) : (setGroup s k x).keys = s.keys := rfl
@[simp] theorem setGroup_copyKeys (s : State) (k : Nat) (x : Group) : (setGroup s k x).copyKeys = s.copyKeys := rfl
@[simp] theorem setGroup_tables (s : State) (k : Nat) (x : Group) : (setGroup s k x).tables = s.tables := rfl
@[simp] theorem setGroup_services (s : State) (k : Nat) (x : Group) : (setGroup s k x).services = s.services := rfl
@[simp] theorem setGroup_queues (s : State) (k : Nat) (x : Group) : (setGroup s k x).queues = s.queues := rfl
@[simp] theorem setGroup_packets (s : State) (k : Nat) (x : Group) : (setGroup s k x).packets = s.packets := rfl
@[simp] theorem setGroup_contexts (s : State) (k : Nat) (x : Group) : (setGroup s k x).contexts = s.contexts := rfl
@[simp] theorem setGroup_launches (s : State) (k : Nat) (x : Group) : (setGroup s k x).launches = s.launches := rfl
@[simp] theorem setGroup_tasks (s : State) (k : Nat) (x : Group) : (setGroup s k x).tasks = s.tasks := rfl
@[simp] theorem setGroup_rangeParts (s : State) (k : Nat) (x : Group) : (setGroup s k x).rangeParts = s.rangeParts := rfl
@[simp] theorem setGroup_deques (s : State) (k : Nat) (x : Group) : (setGroup s k x).deques = s.deques := rfl
@[simp] theorem setGroup_lastBackground (s : State) (k : Nat) (x : Group) : (setGroup s k x).lastBackground = s.lastBackground := rfl
@[simp] theorem setGroup_groups (s : State) (k : Nat) (x : Group) : (setGroup s k x).groups = mput s.groups k x := rfl
@[simp] theorem setGroup_cores (s : State) (k : Nat) (x : Group) : (setGroup s k x).cores = s.cores := rfl
@[simp] theorem setGroup_mem (s : State) (k : Nat) (x : Group) : (setGroup s k x).mem = s.mem := rfl
@[simp] theorem setGroup_lines (s : State) (k : Nat) (x : Group) : (setGroup s k x).lines = s.lines := rfl
@[simp] theorem setGroup_poison (s : State) (k : Nat) (x : Group) : (setGroup s k x).poison = s.poison := rfl
@[simp] theorem setGroup_cxlBad (s : State) (k : Nat) (x : Group) : (setGroup s k x).cxlBad = s.cxlBad := rfl
@[simp] theorem setGroup_frameKeys (s : State) (k : Nat) (x : Group) : (setGroup s k x).frameKeys = s.frameKeys := rfl
@[simp] theorem setGroup_hostMem (s : State) (k : Nat) (x : Group) : (setGroup s k x).hostMem = s.hostMem := rfl
@[simp] theorem setGroup_peerMem (s : State) (k : Nat) (x : Group) : (setGroup s k x).peerMem = s.peerMem := rfl
@[simp] theorem setGroup_subs (s : State) (k : Nat) (x : Group) : (setGroup s k x).subs = s.subs := rfl
@[simp] theorem setGroup_flying (s : State) (k : Nat) (x : Group) : (setGroup s k x).flying = s.flying := rfl
@[simp] theorem setGroup_notices (s : State) (k : Nat) (x : Group) : (setGroup s k x).notices = s.notices := rfl
@[simp] theorem setGroup_shoots (s : State) (k : Nat) (x : Group) : (setGroup s k x).shoots = s.shoots := rfl
@[simp] theorem setGroup_rings (s : State) (k : Nat) (x : Group) : (setGroup s k x).rings = s.rings := rfl
@[simp] theorem setGroup_fresh (s : State) (k : Nat) (x : Group) : (setGroup s k x).fresh = s.fresh := rfl
@[simp] theorem setGroup_ticket (s : State) (k : Nat) (x : Group) : (setGroup s k x).ticket = s.ticket := rfl
@[simp] theorem setGroup_free (s : State) (k : Nat) (x : Group) : (setGroup s k x).free = s.free := rfl
@[simp] theorem setGroup_issue (s : State) (k : Nat) (x : Group) : (setGroup s k x).issue = s.issue := rfl
@[simp] theorem setGroup_agenda (s : State) (k : Nat) (x : Group) : (setGroup s k x).agenda = s.agenda := rfl

/-! ### setCore -/

@[simp] theorem setCore_pkg (s : State) (k : Nat) (x : Core) : (setCore s k x).pkg = s.pkg := rfl
@[simp] theorem setCore_time (s : State) (k : Nat) (x : Core) : (setCore s k x).time = s.time := rfl
@[simp] theorem setCore_layers (s : State) (k : Nat) (x : Core) : (setCore s k x).layers = s.layers := rfl
@[simp] theorem setCore_ports (s : State) (k : Nat) (x : Core) : (setCore s k x).ports = s.ports := rfl
@[simp] theorem setCore_tdis (s : State) (k : Nat) (x : Core) : (setCore s k x).tdis = s.tdis := rfl
@[simp] theorem setCore_keys (s : State) (k : Nat) (x : Core) : (setCore s k x).keys = s.keys := rfl
@[simp] theorem setCore_copyKeys (s : State) (k : Nat) (x : Core) : (setCore s k x).copyKeys = s.copyKeys := rfl
@[simp] theorem setCore_tables (s : State) (k : Nat) (x : Core) : (setCore s k x).tables = s.tables := rfl
@[simp] theorem setCore_services (s : State) (k : Nat) (x : Core) : (setCore s k x).services = s.services := rfl
@[simp] theorem setCore_queues (s : State) (k : Nat) (x : Core) : (setCore s k x).queues = s.queues := rfl
@[simp] theorem setCore_packets (s : State) (k : Nat) (x : Core) : (setCore s k x).packets = s.packets := rfl
@[simp] theorem setCore_contexts (s : State) (k : Nat) (x : Core) : (setCore s k x).contexts = s.contexts := rfl
@[simp] theorem setCore_launches (s : State) (k : Nat) (x : Core) : (setCore s k x).launches = s.launches := rfl
@[simp] theorem setCore_tasks (s : State) (k : Nat) (x : Core) : (setCore s k x).tasks = s.tasks := rfl
@[simp] theorem setCore_rangeParts (s : State) (k : Nat) (x : Core) : (setCore s k x).rangeParts = s.rangeParts := rfl
@[simp] theorem setCore_deques (s : State) (k : Nat) (x : Core) : (setCore s k x).deques = s.deques := rfl
@[simp] theorem setCore_lastBackground (s : State) (k : Nat) (x : Core) : (setCore s k x).lastBackground = s.lastBackground := rfl
@[simp] theorem setCore_groups (s : State) (k : Nat) (x : Core) : (setCore s k x).groups = s.groups := rfl
@[simp] theorem setCore_cores (s : State) (k : Nat) (x : Core) : (setCore s k x).cores = sset Core.reset s.cores k x := rfl
@[simp] theorem setCore_mem (s : State) (k : Nat) (x : Core) : (setCore s k x).mem = s.mem := rfl
@[simp] theorem setCore_lines (s : State) (k : Nat) (x : Core) : (setCore s k x).lines = s.lines := rfl
@[simp] theorem setCore_poison (s : State) (k : Nat) (x : Core) : (setCore s k x).poison = s.poison := rfl
@[simp] theorem setCore_cxlBad (s : State) (k : Nat) (x : Core) : (setCore s k x).cxlBad = s.cxlBad := rfl
@[simp] theorem setCore_frameKeys (s : State) (k : Nat) (x : Core) : (setCore s k x).frameKeys = s.frameKeys := rfl
@[simp] theorem setCore_hostMem (s : State) (k : Nat) (x : Core) : (setCore s k x).hostMem = s.hostMem := rfl
@[simp] theorem setCore_peerMem (s : State) (k : Nat) (x : Core) : (setCore s k x).peerMem = s.peerMem := rfl
@[simp] theorem setCore_subs (s : State) (k : Nat) (x : Core) : (setCore s k x).subs = s.subs := rfl
@[simp] theorem setCore_flying (s : State) (k : Nat) (x : Core) : (setCore s k x).flying = s.flying := rfl
@[simp] theorem setCore_notices (s : State) (k : Nat) (x : Core) : (setCore s k x).notices = s.notices := rfl
@[simp] theorem setCore_shoots (s : State) (k : Nat) (x : Core) : (setCore s k x).shoots = s.shoots := rfl
@[simp] theorem setCore_rings (s : State) (k : Nat) (x : Core) : (setCore s k x).rings = s.rings := rfl
@[simp] theorem setCore_fresh (s : State) (k : Nat) (x : Core) : (setCore s k x).fresh = s.fresh := rfl
@[simp] theorem setCore_ticket (s : State) (k : Nat) (x : Core) : (setCore s k x).ticket = s.ticket := rfl
@[simp] theorem setCore_free (s : State) (k : Nat) (x : Core) : (setCore s k x).free = s.free := rfl
@[simp] theorem setCore_issue (s : State) (k : Nat) (x : Core) : (setCore s k x).issue = s.issue := rfl
@[simp] theorem setCore_agenda (s : State) (k : Nat) (x : Core) : (setCore s k x).agenda = s.agenda := rfl

/-! ### setLayer -/

@[simp] theorem setLayer_pkg (s : State) (k : Nat) (x : Layer) : (setLayer s k x).pkg = s.pkg := rfl
@[simp] theorem setLayer_time (s : State) (k : Nat) (x : Layer) : (setLayer s k x).time = s.time := rfl
@[simp] theorem setLayer_layers (s : State) (k : Nat) (x : Layer) : (setLayer s k x).layers = sset Layer.reset s.layers k x := rfl
@[simp] theorem setLayer_ports (s : State) (k : Nat) (x : Layer) : (setLayer s k x).ports = s.ports := rfl
@[simp] theorem setLayer_tdis (s : State) (k : Nat) (x : Layer) : (setLayer s k x).tdis = s.tdis := rfl
@[simp] theorem setLayer_keys (s : State) (k : Nat) (x : Layer) : (setLayer s k x).keys = s.keys := rfl
@[simp] theorem setLayer_copyKeys (s : State) (k : Nat) (x : Layer) : (setLayer s k x).copyKeys = s.copyKeys := rfl
@[simp] theorem setLayer_tables (s : State) (k : Nat) (x : Layer) : (setLayer s k x).tables = s.tables := rfl
@[simp] theorem setLayer_services (s : State) (k : Nat) (x : Layer) : (setLayer s k x).services = s.services := rfl
@[simp] theorem setLayer_queues (s : State) (k : Nat) (x : Layer) : (setLayer s k x).queues = s.queues := rfl
@[simp] theorem setLayer_packets (s : State) (k : Nat) (x : Layer) : (setLayer s k x).packets = s.packets := rfl
@[simp] theorem setLayer_contexts (s : State) (k : Nat) (x : Layer) : (setLayer s k x).contexts = s.contexts := rfl
@[simp] theorem setLayer_launches (s : State) (k : Nat) (x : Layer) : (setLayer s k x).launches = s.launches := rfl
@[simp] theorem setLayer_tasks (s : State) (k : Nat) (x : Layer) : (setLayer s k x).tasks = s.tasks := rfl
@[simp] theorem setLayer_rangeParts (s : State) (k : Nat) (x : Layer) : (setLayer s k x).rangeParts = s.rangeParts := rfl
@[simp] theorem setLayer_deques (s : State) (k : Nat) (x : Layer) : (setLayer s k x).deques = s.deques := rfl
@[simp] theorem setLayer_lastBackground (s : State) (k : Nat) (x : Layer) : (setLayer s k x).lastBackground = s.lastBackground := rfl
@[simp] theorem setLayer_groups (s : State) (k : Nat) (x : Layer) : (setLayer s k x).groups = s.groups := rfl
@[simp] theorem setLayer_cores (s : State) (k : Nat) (x : Layer) : (setLayer s k x).cores = s.cores := rfl
@[simp] theorem setLayer_mem (s : State) (k : Nat) (x : Layer) : (setLayer s k x).mem = s.mem := rfl
@[simp] theorem setLayer_lines (s : State) (k : Nat) (x : Layer) : (setLayer s k x).lines = s.lines := rfl
@[simp] theorem setLayer_poison (s : State) (k : Nat) (x : Layer) : (setLayer s k x).poison = s.poison := rfl
@[simp] theorem setLayer_cxlBad (s : State) (k : Nat) (x : Layer) : (setLayer s k x).cxlBad = s.cxlBad := rfl
@[simp] theorem setLayer_frameKeys (s : State) (k : Nat) (x : Layer) : (setLayer s k x).frameKeys = s.frameKeys := rfl
@[simp] theorem setLayer_hostMem (s : State) (k : Nat) (x : Layer) : (setLayer s k x).hostMem = s.hostMem := rfl
@[simp] theorem setLayer_peerMem (s : State) (k : Nat) (x : Layer) : (setLayer s k x).peerMem = s.peerMem := rfl
@[simp] theorem setLayer_subs (s : State) (k : Nat) (x : Layer) : (setLayer s k x).subs = s.subs := rfl
@[simp] theorem setLayer_flying (s : State) (k : Nat) (x : Layer) : (setLayer s k x).flying = s.flying := rfl
@[simp] theorem setLayer_notices (s : State) (k : Nat) (x : Layer) : (setLayer s k x).notices = s.notices := rfl
@[simp] theorem setLayer_shoots (s : State) (k : Nat) (x : Layer) : (setLayer s k x).shoots = s.shoots := rfl
@[simp] theorem setLayer_rings (s : State) (k : Nat) (x : Layer) : (setLayer s k x).rings = s.rings := rfl
@[simp] theorem setLayer_fresh (s : State) (k : Nat) (x : Layer) : (setLayer s k x).fresh = s.fresh := rfl
@[simp] theorem setLayer_ticket (s : State) (k : Nat) (x : Layer) : (setLayer s k x).ticket = s.ticket := rfl
@[simp] theorem setLayer_free (s : State) (k : Nat) (x : Layer) : (setLayer s k x).free = s.free := rfl
@[simp] theorem setLayer_issue (s : State) (k : Nat) (x : Layer) : (setLayer s k x).issue = s.issue := rfl
@[simp] theorem setLayer_agenda (s : State) (k : Nat) (x : Layer) : (setLayer s k x).agenda = s.agenda := rfl

/-! ### setQueue -/

@[simp] theorem setQueue_pkg (s : State) (k : Nat) (x : Queue) : (setQueue s k x).pkg = s.pkg := rfl
@[simp] theorem setQueue_time (s : State) (k : Nat) (x : Queue) : (setQueue s k x).time = s.time := rfl
@[simp] theorem setQueue_layers (s : State) (k : Nat) (x : Queue) : (setQueue s k x).layers = s.layers := rfl
@[simp] theorem setQueue_ports (s : State) (k : Nat) (x : Queue) : (setQueue s k x).ports = s.ports := rfl
@[simp] theorem setQueue_tdis (s : State) (k : Nat) (x : Queue) : (setQueue s k x).tdis = s.tdis := rfl
@[simp] theorem setQueue_keys (s : State) (k : Nat) (x : Queue) : (setQueue s k x).keys = s.keys := rfl
@[simp] theorem setQueue_copyKeys (s : State) (k : Nat) (x : Queue) : (setQueue s k x).copyKeys = s.copyKeys := rfl
@[simp] theorem setQueue_tables (s : State) (k : Nat) (x : Queue) : (setQueue s k x).tables = s.tables := rfl
@[simp] theorem setQueue_services (s : State) (k : Nat) (x : Queue) : (setQueue s k x).services = s.services := rfl
@[simp] theorem setQueue_queues (s : State) (k : Nat) (x : Queue) : (setQueue s k x).queues = sset Queue.reset s.queues k x := rfl
@[simp] theorem setQueue_packets (s : State) (k : Nat) (x : Queue) : (setQueue s k x).packets = s.packets := rfl
@[simp] theorem setQueue_contexts (s : State) (k : Nat) (x : Queue) : (setQueue s k x).contexts = s.contexts := rfl
@[simp] theorem setQueue_launches (s : State) (k : Nat) (x : Queue) : (setQueue s k x).launches = s.launches := rfl
@[simp] theorem setQueue_tasks (s : State) (k : Nat) (x : Queue) : (setQueue s k x).tasks = s.tasks := rfl
@[simp] theorem setQueue_rangeParts (s : State) (k : Nat) (x : Queue) : (setQueue s k x).rangeParts = s.rangeParts := rfl
@[simp] theorem setQueue_deques (s : State) (k : Nat) (x : Queue) : (setQueue s k x).deques = s.deques := rfl
@[simp] theorem setQueue_lastBackground (s : State) (k : Nat) (x : Queue) : (setQueue s k x).lastBackground = s.lastBackground := rfl
@[simp] theorem setQueue_groups (s : State) (k : Nat) (x : Queue) : (setQueue s k x).groups = s.groups := rfl
@[simp] theorem setQueue_cores (s : State) (k : Nat) (x : Queue) : (setQueue s k x).cores = s.cores := rfl
@[simp] theorem setQueue_mem (s : State) (k : Nat) (x : Queue) : (setQueue s k x).mem = s.mem := rfl
@[simp] theorem setQueue_lines (s : State) (k : Nat) (x : Queue) : (setQueue s k x).lines = s.lines := rfl
@[simp] theorem setQueue_poison (s : State) (k : Nat) (x : Queue) : (setQueue s k x).poison = s.poison := rfl
@[simp] theorem setQueue_cxlBad (s : State) (k : Nat) (x : Queue) : (setQueue s k x).cxlBad = s.cxlBad := rfl
@[simp] theorem setQueue_frameKeys (s : State) (k : Nat) (x : Queue) : (setQueue s k x).frameKeys = s.frameKeys := rfl
@[simp] theorem setQueue_hostMem (s : State) (k : Nat) (x : Queue) : (setQueue s k x).hostMem = s.hostMem := rfl
@[simp] theorem setQueue_peerMem (s : State) (k : Nat) (x : Queue) : (setQueue s k x).peerMem = s.peerMem := rfl
@[simp] theorem setQueue_subs (s : State) (k : Nat) (x : Queue) : (setQueue s k x).subs = s.subs := rfl
@[simp] theorem setQueue_flying (s : State) (k : Nat) (x : Queue) : (setQueue s k x).flying = s.flying := rfl
@[simp] theorem setQueue_notices (s : State) (k : Nat) (x : Queue) : (setQueue s k x).notices = s.notices := rfl
@[simp] theorem setQueue_shoots (s : State) (k : Nat) (x : Queue) : (setQueue s k x).shoots = s.shoots := rfl
@[simp] theorem setQueue_rings (s : State) (k : Nat) (x : Queue) : (setQueue s k x).rings = s.rings := rfl
@[simp] theorem setQueue_fresh (s : State) (k : Nat) (x : Queue) : (setQueue s k x).fresh = s.fresh := rfl
@[simp] theorem setQueue_ticket (s : State) (k : Nat) (x : Queue) : (setQueue s k x).ticket = s.ticket := rfl
@[simp] theorem setQueue_free (s : State) (k : Nat) (x : Queue) : (setQueue s k x).free = s.free := rfl
@[simp] theorem setQueue_issue (s : State) (k : Nat) (x : Queue) : (setQueue s k x).issue = s.issue := rfl
@[simp] theorem setQueue_agenda (s : State) (k : Nat) (x : Queue) : (setQueue s k x).agenda = s.agenda := rfl

/-! ### setPort -/

@[simp] theorem setPort_pkg (s : State) (k : Nat) (x : Port) : (setPort s k x).pkg = s.pkg := rfl
@[simp] theorem setPort_time (s : State) (k : Nat) (x : Port) : (setPort s k x).time = s.time := rfl
@[simp] theorem setPort_layers (s : State) (k : Nat) (x : Port) : (setPort s k x).layers = s.layers := rfl
@[simp] theorem setPort_ports (s : State) (k : Nat) (x : Port) : (setPort s k x).ports = sset Port.reset s.ports k x := rfl
@[simp] theorem setPort_tdis (s : State) (k : Nat) (x : Port) : (setPort s k x).tdis = s.tdis := rfl
@[simp] theorem setPort_keys (s : State) (k : Nat) (x : Port) : (setPort s k x).keys = s.keys := rfl
@[simp] theorem setPort_copyKeys (s : State) (k : Nat) (x : Port) : (setPort s k x).copyKeys = s.copyKeys := rfl
@[simp] theorem setPort_tables (s : State) (k : Nat) (x : Port) : (setPort s k x).tables = s.tables := rfl
@[simp] theorem setPort_services (s : State) (k : Nat) (x : Port) : (setPort s k x).services = s.services := rfl
@[simp] theorem setPort_queues (s : State) (k : Nat) (x : Port) : (setPort s k x).queues = s.queues := rfl
@[simp] theorem setPort_packets (s : State) (k : Nat) (x : Port) : (setPort s k x).packets = s.packets := rfl
@[simp] theorem setPort_contexts (s : State) (k : Nat) (x : Port) : (setPort s k x).contexts = s.contexts := rfl
@[simp] theorem setPort_launches (s : State) (k : Nat) (x : Port) : (setPort s k x).launches = s.launches := rfl
@[simp] theorem setPort_tasks (s : State) (k : Nat) (x : Port) : (setPort s k x).tasks = s.tasks := rfl
@[simp] theorem setPort_rangeParts (s : State) (k : Nat) (x : Port) : (setPort s k x).rangeParts = s.rangeParts := rfl
@[simp] theorem setPort_deques (s : State) (k : Nat) (x : Port) : (setPort s k x).deques = s.deques := rfl
@[simp] theorem setPort_lastBackground (s : State) (k : Nat) (x : Port) : (setPort s k x).lastBackground = s.lastBackground := rfl
@[simp] theorem setPort_groups (s : State) (k : Nat) (x : Port) : (setPort s k x).groups = s.groups := rfl
@[simp] theorem setPort_cores (s : State) (k : Nat) (x : Port) : (setPort s k x).cores = s.cores := rfl
@[simp] theorem setPort_mem (s : State) (k : Nat) (x : Port) : (setPort s k x).mem = s.mem := rfl
@[simp] theorem setPort_lines (s : State) (k : Nat) (x : Port) : (setPort s k x).lines = s.lines := rfl
@[simp] theorem setPort_poison (s : State) (k : Nat) (x : Port) : (setPort s k x).poison = s.poison := rfl
@[simp] theorem setPort_cxlBad (s : State) (k : Nat) (x : Port) : (setPort s k x).cxlBad = s.cxlBad := rfl
@[simp] theorem setPort_frameKeys (s : State) (k : Nat) (x : Port) : (setPort s k x).frameKeys = s.frameKeys := rfl
@[simp] theorem setPort_hostMem (s : State) (k : Nat) (x : Port) : (setPort s k x).hostMem = s.hostMem := rfl
@[simp] theorem setPort_peerMem (s : State) (k : Nat) (x : Port) : (setPort s k x).peerMem = s.peerMem := rfl
@[simp] theorem setPort_subs (s : State) (k : Nat) (x : Port) : (setPort s k x).subs = s.subs := rfl
@[simp] theorem setPort_flying (s : State) (k : Nat) (x : Port) : (setPort s k x).flying = s.flying := rfl
@[simp] theorem setPort_notices (s : State) (k : Nat) (x : Port) : (setPort s k x).notices = s.notices := rfl
@[simp] theorem setPort_shoots (s : State) (k : Nat) (x : Port) : (setPort s k x).shoots = s.shoots := rfl
@[simp] theorem setPort_rings (s : State) (k : Nat) (x : Port) : (setPort s k x).rings = s.rings := rfl
@[simp] theorem setPort_fresh (s : State) (k : Nat) (x : Port) : (setPort s k x).fresh = s.fresh := rfl
@[simp] theorem setPort_ticket (s : State) (k : Nat) (x : Port) : (setPort s k x).ticket = s.ticket := rfl
@[simp] theorem setPort_free (s : State) (k : Nat) (x : Port) : (setPort s k x).free = s.free := rfl
@[simp] theorem setPort_issue (s : State) (k : Nat) (x : Port) : (setPort s k x).issue = s.issue := rfl
@[simp] theorem setPort_agenda (s : State) (k : Nat) (x : Port) : (setPort s k x).agenda = s.agenda := rfl

/-! ### setService -/

@[simp] theorem setService_pkg (s : State) (k : Nat) (x : Service) : (setService s k x).pkg = s.pkg := rfl
@[simp] theorem setService_time (s : State) (k : Nat) (x : Service) : (setService s k x).time = s.time := rfl
@[simp] theorem setService_layers (s : State) (k : Nat) (x : Service) : (setService s k x).layers = s.layers := rfl
@[simp] theorem setService_ports (s : State) (k : Nat) (x : Service) : (setService s k x).ports = s.ports := rfl
@[simp] theorem setService_tdis (s : State) (k : Nat) (x : Service) : (setService s k x).tdis = s.tdis := rfl
@[simp] theorem setService_keys (s : State) (k : Nat) (x : Service) : (setService s k x).keys = s.keys := rfl
@[simp] theorem setService_copyKeys (s : State) (k : Nat) (x : Service) : (setService s k x).copyKeys = s.copyKeys := rfl
@[simp] theorem setService_tables (s : State) (k : Nat) (x : Service) : (setService s k x).tables = s.tables := rfl
@[simp] theorem setService_services (s : State) (k : Nat) (x : Service) : (setService s k x).services = sset Service.reset s.services k x := rfl
@[simp] theorem setService_queues (s : State) (k : Nat) (x : Service) : (setService s k x).queues = s.queues := rfl
@[simp] theorem setService_packets (s : State) (k : Nat) (x : Service) : (setService s k x).packets = s.packets := rfl
@[simp] theorem setService_contexts (s : State) (k : Nat) (x : Service) : (setService s k x).contexts = s.contexts := rfl
@[simp] theorem setService_launches (s : State) (k : Nat) (x : Service) : (setService s k x).launches = s.launches := rfl
@[simp] theorem setService_tasks (s : State) (k : Nat) (x : Service) : (setService s k x).tasks = s.tasks := rfl
@[simp] theorem setService_rangeParts (s : State) (k : Nat) (x : Service) : (setService s k x).rangeParts = s.rangeParts := rfl
@[simp] theorem setService_deques (s : State) (k : Nat) (x : Service) : (setService s k x).deques = s.deques := rfl
@[simp] theorem setService_lastBackground (s : State) (k : Nat) (x : Service) : (setService s k x).lastBackground = s.lastBackground := rfl
@[simp] theorem setService_groups (s : State) (k : Nat) (x : Service) : (setService s k x).groups = s.groups := rfl
@[simp] theorem setService_cores (s : State) (k : Nat) (x : Service) : (setService s k x).cores = s.cores := rfl
@[simp] theorem setService_mem (s : State) (k : Nat) (x : Service) : (setService s k x).mem = s.mem := rfl
@[simp] theorem setService_lines (s : State) (k : Nat) (x : Service) : (setService s k x).lines = s.lines := rfl
@[simp] theorem setService_poison (s : State) (k : Nat) (x : Service) : (setService s k x).poison = s.poison := rfl
@[simp] theorem setService_cxlBad (s : State) (k : Nat) (x : Service) : (setService s k x).cxlBad = s.cxlBad := rfl
@[simp] theorem setService_frameKeys (s : State) (k : Nat) (x : Service) : (setService s k x).frameKeys = s.frameKeys := rfl
@[simp] theorem setService_hostMem (s : State) (k : Nat) (x : Service) : (setService s k x).hostMem = s.hostMem := rfl
@[simp] theorem setService_peerMem (s : State) (k : Nat) (x : Service) : (setService s k x).peerMem = s.peerMem := rfl
@[simp] theorem setService_subs (s : State) (k : Nat) (x : Service) : (setService s k x).subs = s.subs := rfl
@[simp] theorem setService_flying (s : State) (k : Nat) (x : Service) : (setService s k x).flying = s.flying := rfl
@[simp] theorem setService_notices (s : State) (k : Nat) (x : Service) : (setService s k x).notices = s.notices := rfl
@[simp] theorem setService_shoots (s : State) (k : Nat) (x : Service) : (setService s k x).shoots = s.shoots := rfl
@[simp] theorem setService_rings (s : State) (k : Nat) (x : Service) : (setService s k x).rings = s.rings := rfl
@[simp] theorem setService_fresh (s : State) (k : Nat) (x : Service) : (setService s k x).fresh = s.fresh := rfl
@[simp] theorem setService_ticket (s : State) (k : Nat) (x : Service) : (setService s k x).ticket = s.ticket := rfl
@[simp] theorem setService_free (s : State) (k : Nat) (x : Service) : (setService s k x).free = s.free := rfl
@[simp] theorem setService_issue (s : State) (k : Nat) (x : Service) : (setService s k x).issue = s.issue := rfl
@[simp] theorem setService_agenda (s : State) (k : Nat) (x : Service) : (setService s k x).agenda = s.agenda := rfl

/-! ### emit -/

@[simp] theorem emit_pkg (s : State) (m : Message) : (emit s m).pkg = { s.pkg with out := s.pkg.out ++ [m] } := rfl
@[simp] theorem emit_time (s : State) (m : Message) : (emit s m).time = s.time := rfl
@[simp] theorem emit_layers (s : State) (m : Message) : (emit s m).layers = s.layers := rfl
@[simp] theorem emit_ports (s : State) (m : Message) : (emit s m).ports = s.ports := rfl
@[simp] theorem emit_tdis (s : State) (m : Message) : (emit s m).tdis = s.tdis := rfl
@[simp] theorem emit_keys (s : State) (m : Message) : (emit s m).keys = s.keys := rfl
@[simp] theorem emit_copyKeys (s : State) (m : Message) : (emit s m).copyKeys = s.copyKeys := rfl
@[simp] theorem emit_tables (s : State) (m : Message) : (emit s m).tables = s.tables := rfl
@[simp] theorem emit_services (s : State) (m : Message) : (emit s m).services = s.services := rfl
@[simp] theorem emit_queues (s : State) (m : Message) : (emit s m).queues = s.queues := rfl
@[simp] theorem emit_packets (s : State) (m : Message) : (emit s m).packets = s.packets := rfl
@[simp] theorem emit_contexts (s : State) (m : Message) : (emit s m).contexts = s.contexts := rfl
@[simp] theorem emit_launches (s : State) (m : Message) : (emit s m).launches = s.launches := rfl
@[simp] theorem emit_tasks (s : State) (m : Message) : (emit s m).tasks = s.tasks := rfl
@[simp] theorem emit_rangeParts (s : State) (m : Message) : (emit s m).rangeParts = s.rangeParts := rfl
@[simp] theorem emit_deques (s : State) (m : Message) : (emit s m).deques = s.deques := rfl
@[simp] theorem emit_lastBackground (s : State) (m : Message) : (emit s m).lastBackground = s.lastBackground := rfl
@[simp] theorem emit_groups (s : State) (m : Message) : (emit s m).groups = s.groups := rfl
@[simp] theorem emit_cores (s : State) (m : Message) : (emit s m).cores = s.cores := rfl
@[simp] theorem emit_mem (s : State) (m : Message) : (emit s m).mem = s.mem := rfl
@[simp] theorem emit_lines (s : State) (m : Message) : (emit s m).lines = s.lines := rfl
@[simp] theorem emit_poison (s : State) (m : Message) : (emit s m).poison = s.poison := rfl
@[simp] theorem emit_cxlBad (s : State) (m : Message) : (emit s m).cxlBad = s.cxlBad := rfl
@[simp] theorem emit_frameKeys (s : State) (m : Message) : (emit s m).frameKeys = s.frameKeys := rfl
@[simp] theorem emit_hostMem (s : State) (m : Message) : (emit s m).hostMem = s.hostMem := rfl
@[simp] theorem emit_peerMem (s : State) (m : Message) : (emit s m).peerMem = s.peerMem := rfl
@[simp] theorem emit_subs (s : State) (m : Message) : (emit s m).subs = s.subs := rfl
@[simp] theorem emit_flying (s : State) (m : Message) : (emit s m).flying = s.flying := rfl
@[simp] theorem emit_notices (s : State) (m : Message) : (emit s m).notices = s.notices := rfl
@[simp] theorem emit_shoots (s : State) (m : Message) : (emit s m).shoots = s.shoots := rfl
@[simp] theorem emit_rings (s : State) (m : Message) : (emit s m).rings = s.rings := rfl
@[simp] theorem emit_fresh (s : State) (m : Message) : (emit s m).fresh = s.fresh := rfl
@[simp] theorem emit_ticket (s : State) (m : Message) : (emit s m).ticket = s.ticket := rfl
@[simp] theorem emit_free (s : State) (m : Message) : (emit s m).free = s.free := rfl
@[simp] theorem emit_issue (s : State) (m : Message) : (emit s m).issue = s.issue := rfl
@[simp] theorem emit_agenda (s : State) (m : Message) : (emit s m).agenda = s.agenda := rfl

/-! ### Updates of a group -/

@[simp] theorem setLane_ctx (g : Group) (i : Nat) (l : Lane) : (setLane g i l).ctx = g.ctx := rfl
@[simp] theorem setLane_owner (g : Group) (i : Nat) (l : Lane) : (setLane g i l).owner = g.owner := rfl
@[simp] theorem setLane_gindex (g : Group) (i : Nat) (l : Lane) : (setLane g i l).gindex = g.gindex := rfl
@[simp] theorem setLane_gang (g : Group) (i : Nat) (l : Lane) : (setLane g i l).gang = g.gang := rfl
@[simp] theorem setLane_x (g : Group) (i : Nat) (l : Lane) : (setLane g i l).x = g.x := rfl
@[simp] theorem setLane_y (g : Group) (i : Nat) (l : Lane) : (setLane g i l).y = g.y := rfl
@[simp] theorem setLane_z (g : Group) (i : Nat) (l : Lane) : (setLane g i l).z = g.z := rfl
@[simp] theorem setLane_stage (g : Group) (i : Nat) (l : Lane) : (setLane g i l).stage = g.stage := rfl
@[simp] theorem setLane_member (g : Group) (i : Nat) (l : Lane) : (setLane g i l).member = g.member := rfl
@[simp] theorem setLane_width (g : Group) (i : Nat) (l : Lane) : (setLane g i l).width = g.width := rfl
@[simp] theorem setLane_place (g : Group) (i : Nat) (l : Lane) : (setLane g i l).place = g.place := rfl
@[simp] theorem setLane_turn (g : Group) (i : Nat) (l : Lane) : (setLane g i l).turn = g.turn := rfl
@[simp] theorem setLane_pitw (g : Group) (i : Nat) (l : Lane) : (setLane g i l).pitw = g.pitw := rfl
@[simp] theorem setLane_subfail (g : Group) (i : Nat) (l : Lane) : (setLane g i l).subfail = g.subfail := rfl
@[simp] theorem setLane_extsel (g : Group) (i : Nat) (l : Lane) : (setLane g i l).extsel = g.extsel := rfl
@[simp] theorem setLane_traptree (g : Group) (i : Nat) (l : Lane) : (setLane g i l).traptree = g.traptree := rfl
@[simp] theorem setLane_sregs (g : Group) (i : Nat) (l : Lane) : (setLane g i l).sregs = g.sregs := rfl
@[simp] theorem setLane_vregs (g : Group) (i : Nat) (l : Lane) : (setLane g i l).vregs = g.vregs := rfl
@[simp] theorem setLane_preds (g : Group) (i : Nat) (l : Lane) : (setLane g i l).preds = g.preds := rfl
@[simp] theorem setLane_latches (g : Group) (i : Nat) (l : Lane) : (setLane g i l).latches = g.latches := rfl
@[simp] theorem setLane_tiles (g : Group) (i : Nat) (l : Lane) : (setLane g i l).tiles = g.tiles := rfl
@[simp] theorem setLane_spad (g : Group) (i : Nat) (l : Lane) : (setLane g i l).spad = g.spad := rfl
@[simp] theorem setLane_lanes (g : Group) (i : Nat) (l : Lane) : (setLane g i l).lanes = setNth g.lanes i l := rfl
@[simp] theorem setLane_vbusy (g : Group) (i : Nat) (l : Lane) : (setLane g i l).vbusy = g.vbusy := rfl
@[simp] theorem setLane_counter (g : Group) (i : Nat) (l : Lane) : (setLane g i l).counter = g.counter := rfl
@[simp] theorem setLane_pend (g : Group) (i : Nat) (l : Lane) : (setLane g i l).pend = g.pend := rfl
@[simp] theorem setLane_held (g : Group) (i : Nat) (l : Lane) : (setLane g i l).held = g.held := rfl
@[simp] theorem setLane_ck (g : Group) (i : Nat) (l : Lane) : (setLane g i l).ck = g.ck := rfl
@[simp] theorem setLane_subs (g : Group) (i : Nat) (l : Lane) : (setLane g i l).subs = g.subs := rfl
@[simp] theorem setLane_waits (g : Group) (i : Nat) (l : Lane) : (setLane g i l).waits = g.waits := rfl
@[simp] theorem setLane_halted (g : Group) (i : Nat) (l : Lane) : (setLane g i l).halted = g.halted := rfl
@[simp] theorem setLane_halting (g : Group) (i : Nat) (l : Lane) : (setLane g i l).halting = g.halting := rfl
@[simp] theorem setLane_csrNext (g : Group) (i : Nat) (l : Lane) : (setLane g i l).csrNext = g.csrNext := rfl
@[simp] theorem setLane_yielding (g : Group) (i : Nat) (l : Lane) : (setLane g i l).yielding = g.yielding := rfl
@[simp] theorem setLane_attribs (g : Group) (i : Nat) (l : Lane) : (setLane g i l).attribs = g.attribs := rfl
@[simp] theorem setLane_issuedAt (g : Group) (i : Nat) (l : Lane) : (setLane g i l).issuedAt = g.issuedAt := rfl
@[simp] theorem setLane_behind (g : Group) (i : Nat) (l : Lane) : (setLane g i l).behind = g.behind := rfl
@[simp] theorem setLane_drained (g : Group) (i : Nat) (l : Lane) : (setLane g i l).drained = g.drained := rfl
@[simp] theorem setLane_drainWait (g : Group) (i : Nat) (l : Lane) : (setLane g i l).drainWait = g.drainWait := rfl
@[simp] theorem setLane_starting (g : Group) (i : Nat) (l : Lane) : (setLane g i l).starting = g.starting := rfl
@[simp] theorem setLane_lastPath (g : Group) (i : Nat) (l : Lane) : (setLane g i l).lastPath = g.lastPath := rfl
@[simp] theorem setLane_lastOff (g : Group) (i : Nat) (l : Lane) : (setLane g i l).lastOff = g.lastOff := rfl
@[simp] theorem setLane_lastCount (g : Group) (i : Nat) (l : Lane) : (setLane g i l).lastCount = g.lastCount := rfl
@[simp] theorem setLane_lastTime (g : Group) (i : Nat) (l : Lane) : (setLane g i l).lastTime = g.lastTime := rfl
@[simp] theorem setLane_halves (g : Group) (i : Nat) (l : Lane) : (setLane g i l).halves = g.halves := rfl

@[simp] theorem setLatch_ctx (g : Group) (lane b v : Nat) : (setLatch g lane b v).ctx = g.ctx := rfl
@[simp] theorem setLatch_owner (g : Group) (lane b v : Nat) : (setLatch g lane b v).owner = g.owner := rfl
@[simp] theorem setLatch_gindex (g : Group) (lane b v : Nat) : (setLatch g lane b v).gindex = g.gindex := rfl
@[simp] theorem setLatch_gang (g : Group) (lane b v : Nat) : (setLatch g lane b v).gang = g.gang := rfl
@[simp] theorem setLatch_x (g : Group) (lane b v : Nat) : (setLatch g lane b v).x = g.x := rfl
@[simp] theorem setLatch_y (g : Group) (lane b v : Nat) : (setLatch g lane b v).y = g.y := rfl
@[simp] theorem setLatch_z (g : Group) (lane b v : Nat) : (setLatch g lane b v).z = g.z := rfl
@[simp] theorem setLatch_stage (g : Group) (lane b v : Nat) : (setLatch g lane b v).stage = g.stage := rfl
@[simp] theorem setLatch_member (g : Group) (lane b v : Nat) : (setLatch g lane b v).member = g.member := rfl
@[simp] theorem setLatch_width (g : Group) (lane b v : Nat) : (setLatch g lane b v).width = g.width := rfl
@[simp] theorem setLatch_place (g : Group) (lane b v : Nat) : (setLatch g lane b v).place = g.place := rfl
@[simp] theorem setLatch_turn (g : Group) (lane b v : Nat) : (setLatch g lane b v).turn = g.turn := rfl
@[simp] theorem setLatch_pitw (g : Group) (lane b v : Nat) : (setLatch g lane b v).pitw = g.pitw := rfl
@[simp] theorem setLatch_subfail (g : Group) (lane b v : Nat) : (setLatch g lane b v).subfail = g.subfail := rfl
@[simp] theorem setLatch_extsel (g : Group) (lane b v : Nat) : (setLatch g lane b v).extsel = g.extsel := rfl
@[simp] theorem setLatch_traptree (g : Group) (lane b v : Nat) : (setLatch g lane b v).traptree = g.traptree := rfl
@[simp] theorem setLatch_sregs (g : Group) (lane b v : Nat) : (setLatch g lane b v).sregs = g.sregs := rfl
@[simp] theorem setLatch_vregs (g : Group) (lane b v : Nat) : (setLatch g lane b v).vregs = g.vregs := rfl
@[simp] theorem setLatch_preds (g : Group) (lane b v : Nat) : (setLatch g lane b v).preds = g.preds := rfl
@[simp] theorem setLatch_latches (g : Group) (lane b v : Nat) : (setLatch g lane b v).latches = sset none g.latches (4 * lane + b) (some (BitVec.ofNat 64 v)) := rfl
@[simp] theorem setLatch_tiles (g : Group) (lane b v : Nat) : (setLatch g lane b v).tiles = g.tiles := rfl
@[simp] theorem setLatch_spad (g : Group) (lane b v : Nat) : (setLatch g lane b v).spad = g.spad := rfl
@[simp] theorem setLatch_lanes (g : Group) (lane b v : Nat) : (setLatch g lane b v).lanes = g.lanes := rfl
@[simp] theorem setLatch_vbusy (g : Group) (lane b v : Nat) : (setLatch g lane b v).vbusy = g.vbusy := rfl
@[simp] theorem setLatch_counter (g : Group) (lane b v : Nat) : (setLatch g lane b v).counter = g.counter := rfl
@[simp] theorem setLatch_pend (g : Group) (lane b v : Nat) : (setLatch g lane b v).pend = g.pend := rfl
@[simp] theorem setLatch_held (g : Group) (lane b v : Nat) : (setLatch g lane b v).held = g.held := rfl
@[simp] theorem setLatch_ck (g : Group) (lane b v : Nat) : (setLatch g lane b v).ck = g.ck := rfl
@[simp] theorem setLatch_subs (g : Group) (lane b v : Nat) : (setLatch g lane b v).subs = g.subs := rfl
@[simp] theorem setLatch_waits (g : Group) (lane b v : Nat) : (setLatch g lane b v).waits = g.waits := rfl
@[simp] theorem setLatch_halted (g : Group) (lane b v : Nat) : (setLatch g lane b v).halted = g.halted := rfl
@[simp] theorem setLatch_halting (g : Group) (lane b v : Nat) : (setLatch g lane b v).halting = g.halting := rfl
@[simp] theorem setLatch_csrNext (g : Group) (lane b v : Nat) : (setLatch g lane b v).csrNext = g.csrNext := rfl
@[simp] theorem setLatch_yielding (g : Group) (lane b v : Nat) : (setLatch g lane b v).yielding = g.yielding := rfl
@[simp] theorem setLatch_attribs (g : Group) (lane b v : Nat) : (setLatch g lane b v).attribs = g.attribs := rfl
@[simp] theorem setLatch_issuedAt (g : Group) (lane b v : Nat) : (setLatch g lane b v).issuedAt = g.issuedAt := rfl
@[simp] theorem setLatch_behind (g : Group) (lane b v : Nat) : (setLatch g lane b v).behind = g.behind := rfl
@[simp] theorem setLatch_drained (g : Group) (lane b v : Nat) : (setLatch g lane b v).drained = g.drained := rfl
@[simp] theorem setLatch_drainWait (g : Group) (lane b v : Nat) : (setLatch g lane b v).drainWait = g.drainWait := rfl
@[simp] theorem setLatch_starting (g : Group) (lane b v : Nat) : (setLatch g lane b v).starting = g.starting := rfl
@[simp] theorem setLatch_lastPath (g : Group) (lane b v : Nat) : (setLatch g lane b v).lastPath = g.lastPath := rfl
@[simp] theorem setLatch_lastOff (g : Group) (lane b v : Nat) : (setLatch g lane b v).lastOff = g.lastOff := rfl
@[simp] theorem setLatch_lastCount (g : Group) (lane b v : Nat) : (setLatch g lane b v).lastCount = g.lastCount := rfl
@[simp] theorem setLatch_lastTime (g : Group) (lane b v : Nat) : (setLatch g lane b v).lastTime = g.lastTime := rfl
@[simp] theorem setLatch_halves (g : Group) (lane b v : Nat) : (setLatch g lane b v).halves = g.halves := rfl

@[simp] theorem setK_ctx (g : Group) (lane k : Nat) (b : Bool) : (setK g lane k b).ctx = g.ctx := rfl
@[simp] theorem setK_owner (g : Group) (lane k : Nat) (b : Bool) : (setK g lane k b).owner = g.owner := rfl
@[simp] theorem setK_gindex (g : Group) (lane k : Nat) (b : Bool) : (setK g lane k b).gindex = g.gindex := rfl
@[simp] theorem setK_gang (g : Group) (lane k : Nat) (b : Bool) : (setK g lane k b).gang = g.gang := rfl
@[simp] theorem setK_x (g : Group) (lane k : Nat) (b : Bool) : (setK g lane k b).x = g.x := rfl
@[simp] theorem setK_y (g : Group) (lane k : Nat) (b : Bool) : (setK g lane k b).y = g.y := rfl
@[simp] theorem setK_z (g : Group) (lane k : Nat) (b : Bool) : (setK g lane k b).z = g.z := rfl
@[simp] theorem setK_stage (g : Group) (lane k : Nat) (b : Bool) : (setK g lane k b).stage = g.stage := rfl
@[simp] theorem setK_member (g : Group) (lane k : Nat) (b : Bool) : (setK g lane k b).member = g.member := rfl
@[simp] theorem setK_width (g : Group) (lane k : Nat) (b : Bool) : (setK g lane k b).width = g.width := rfl
@[simp] theorem setK_place (g : Group) (lane k : Nat) (b : Bool) : (setK g lane k b).place = g.place := rfl
@[simp] theorem setK_turn (g : Group) (lane k : Nat) (b : Bool) : (setK g lane k b).turn = g.turn := rfl
@[simp] theorem setK_pitw (g : Group) (lane k : Nat) (b : Bool) : (setK g lane k b).pitw = g.pitw := rfl
@[simp] theorem setK_subfail (g : Group) (lane k : Nat) (b : Bool) : (setK g lane k b).subfail = g.subfail := rfl
@[simp] theorem setK_extsel (g : Group) (lane k : Nat) (b : Bool) : (setK g lane k b).extsel = g.extsel := rfl
@[simp] theorem setK_traptree (g : Group) (lane k : Nat) (b : Bool) : (setK g lane k b).traptree = g.traptree := rfl
@[simp] theorem setK_sregs (g : Group) (lane k : Nat) (b : Bool) : (setK g lane k b).sregs = g.sregs := rfl
@[simp] theorem setK_vregs (g : Group) (lane k : Nat) (b : Bool) : (setK g lane k b).vregs = g.vregs := rfl
@[simp] theorem setK_latches (g : Group) (lane k : Nat) (b : Bool) : (setK g lane k b).latches = g.latches := rfl
@[simp] theorem setK_tiles (g : Group) (lane k : Nat) (b : Bool) : (setK g lane k b).tiles = g.tiles := rfl
@[simp] theorem setK_spad (g : Group) (lane k : Nat) (b : Bool) : (setK g lane k b).spad = g.spad := rfl
@[simp] theorem setK_lanes (g : Group) (lane k : Nat) (b : Bool) : (setK g lane k b).lanes = g.lanes := rfl
@[simp] theorem setK_vbusy (g : Group) (lane k : Nat) (b : Bool) : (setK g lane k b).vbusy = g.vbusy := rfl
@[simp] theorem setK_counter (g : Group) (lane k : Nat) (b : Bool) : (setK g lane k b).counter = g.counter := rfl
@[simp] theorem setK_pend (g : Group) (lane k : Nat) (b : Bool) : (setK g lane k b).pend = g.pend := rfl
@[simp] theorem setK_held (g : Group) (lane k : Nat) (b : Bool) : (setK g lane k b).held = g.held := rfl
@[simp] theorem setK_ck (g : Group) (lane k : Nat) (b : Bool) : (setK g lane k b).ck = g.ck := rfl
@[simp] theorem setK_subs (g : Group) (lane k : Nat) (b : Bool) : (setK g lane k b).subs = g.subs := rfl
@[simp] theorem setK_waits (g : Group) (lane k : Nat) (b : Bool) : (setK g lane k b).waits = g.waits := rfl
@[simp] theorem setK_halted (g : Group) (lane k : Nat) (b : Bool) : (setK g lane k b).halted = g.halted := rfl
@[simp] theorem setK_halting (g : Group) (lane k : Nat) (b : Bool) : (setK g lane k b).halting = g.halting := rfl
@[simp] theorem setK_csrNext (g : Group) (lane k : Nat) (b : Bool) : (setK g lane k b).csrNext = g.csrNext := rfl
@[simp] theorem setK_yielding (g : Group) (lane k : Nat) (b : Bool) : (setK g lane k b).yielding = g.yielding := rfl
@[simp] theorem setK_attribs (g : Group) (lane k : Nat) (b : Bool) : (setK g lane k b).attribs = g.attribs := rfl
@[simp] theorem setK_issuedAt (g : Group) (lane k : Nat) (b : Bool) : (setK g lane k b).issuedAt = g.issuedAt := rfl
@[simp] theorem setK_behind (g : Group) (lane k : Nat) (b : Bool) : (setK g lane k b).behind = g.behind := rfl
@[simp] theorem setK_drained (g : Group) (lane k : Nat) (b : Bool) : (setK g lane k b).drained = g.drained := rfl
@[simp] theorem setK_drainWait (g : Group) (lane k : Nat) (b : Bool) : (setK g lane k b).drainWait = g.drainWait := rfl
@[simp] theorem setK_starting (g : Group) (lane k : Nat) (b : Bool) : (setK g lane k b).starting = g.starting := rfl
@[simp] theorem setK_lastPath (g : Group) (lane k : Nat) (b : Bool) : (setK g lane k b).lastPath = g.lastPath := rfl
@[simp] theorem setK_lastOff (g : Group) (lane k : Nat) (b : Bool) : (setK g lane k b).lastOff = g.lastOff := rfl
@[simp] theorem setK_lastCount (g : Group) (lane k : Nat) (b : Bool) : (setK g lane k b).lastCount = g.lastCount := rfl
@[simp] theorem setK_lastTime (g : Group) (lane k : Nat) (b : Bool) : (setK g lane k b).lastTime = g.lastTime := rfl
@[simp] theorem setK_halves (g : Group) (lane k : Nat) (b : Bool) : (setK g lane k b).halves = g.halves := rfl

end Sys2Proof.Laws
end

