-- ==== Sys2Proof/Laws/Issue.lean ====
section
/-! SUPPORT. What the shared course of an issue does in the midst of leaves: marks, results, the lanes' next offset. -/

namespace Sys2Proof.Laws

open Sys2Proof.Machine

/-! ### What depends on the world alone -/

theorem readAs_world (s : State) (v : LineKey) (pa : Nat) : readAs s.world v pa = readAs s v pa := rfl
theorem keyView_world (s : State) (k : Nat) : keyView s.world k = keyView s k := rfl
theorem leafLen_world (s : State) (p : Program) (n : Nat) : leafLen s.world p n = leafLen s p n := rfl

theorem leafLen_congr {s t : State} (h : t.world = s.world) (p : Program) (n : Nat) : leafLen t p n = leafLen s p n := by
  rw [← leafLen_world t, h, leafLen_world]

@[simp] theorem world_setGroup (s : State) (k : Nat) (g : Group) : (setGroup s k g).world = s.world := rfl

theorem issue_of_world {s t : State} (h : t.world = s.world) : t.issue = s.issue := by
  have := congrArg State.issue h; exact this
theorem layers_of_world {s t : State} (h : t.world = s.world) : t.layers = s.layers := by
  have := congrArg State.layers h; exact this
theorem cores_of_world {s t : State} (h : t.world = s.world) : t.cores = s.cores := by
  have := congrArg State.cores h; exact this

/-! ### Two states alike but for groups and the watchdog -/

/-- Alike but for groups and the launches' watchdogs. -/
structure SameView (s t : State) : Prop where
  world : t.world = s.world
  launches : ∀ id, (mfind t.launches id).map Launch.quiet = (mfind s.launches id).map Launch.quiet

theorem SameView.refl (s : State) : SameView s s := ⟨rfl, fun _ => rfl⟩

theorem SameView.trans {s t u : State} (h : SameView s t) (k : SameView t u) : SameView s u :=
  ⟨k.world.trans h.world, fun id => (k.launches id).trans (h.launches id)⟩

theorem SameView.setGroup (s : State) (k : Nat) (g : Group) : SameView s (setGroup s k g) := ⟨rfl, fun _ => rfl⟩

theorem launchProg_congr {s t : State} (h : SameView s t) (id : Nat) :
    (mfind t.launches id).bind (·.prog) = (mfind s.launches id).bind (·.prog) := by
  have hq : ∀ o : Option Launch, (o.map Launch.quiet).bind (·.prog) = o.bind (·.prog) := fun o => by cases o <;> rfl
  rw [← hq, h.launches id, hq]

theorem rangeParts_of_world {s t : State} (h : t.world = s.world) : t.rangeParts = s.rangeParts := by
  have := congrArg State.rangeParts h; exact this
theorem tasks_of_world {s t : State} (h : t.world = s.world) : t.tasks = s.tasks := by
  have := congrArg State.tasks h; exact this

theorem progOf_congr {s t : State} (h : SameView s t) {g g' : Group} (ho : g'.owner = g.owner) :
    progOf t g' = progOf s g := by
  unfold progOf
  rw [ho]
  cases g.owner with
  | launch id => exact launchProg_congr h id
  | part id => simp only [rangeParts_of_world h.world, tasks_of_world h.world]

/-! ### The marks of an issue -/

/-- Alike but for holds, loop buffers, last issues and waiting marks of lanes. -/
structure Marked (g g' : Group) : Prop where
  files : g'.files = g.files
  latches : g'.latches = g.latches
  turn : g'.turn = g.turn
  length : g'.lanes.length = g.lanes.length
  path : ∀ i, (laneAt g' i).path = (laneAt g i).path

theorem Marked.refl (g : Group) : Marked g g := ⟨rfl, rfl, rfl, rfl, fun _ => rfl⟩

theorem Marked.trans {a b c : Group} (h : Marked a b) (k : Marked b c) : Marked a c :=
  ⟨k.files.trans h.files, k.latches.trans h.latches, k.turn.trans h.turn, k.length.trans h.length,
    fun i => (k.path i).trans (h.path i)⟩

theorem laneAt_setLane (g : Group) (i j : Nat) (l : Lane) :
    laneAt (setLane g i l) j = if j = i ∧ i < g.lanes.length then l else laneAt g j :=
  nthD_setNth absentLane g.lanes j i l

theorem marked_setLane (g : Group) (i : Nat) (l : Lane) (h : l.path = (laneAt g i).path) : Marked g (setLane g i l) := by
  refine ⟨rfl, rfl, rfl, by simp, fun j => ?_⟩
  rw [laneAt_setLane]
  split
  · rename_i hj; rw [hj.1, h]
  · rfl

theorem marked_foldl {α : Type} (f : Group → α → Group) (hf : ∀ g a, Marked g (f g a)) (l : List α) (g : Group) :
    Marked g (l.foldl f g) := by
  induction l generalizing g with
  | nil => exact Marked.refl g
  | cons a r ih => exact (hf g a).trans (ih _)

theorem bufferInsert_path (l : Lane) (e : Buffered) : (bufferInsert l e).path = l.path := by
  unfold bufferInsert; split <;> rfl

theorem marked_noteLane (s : State) (g : Group) (i : Nat) : Marked g (noteLane s g i) := by
  apply marked_setLane
  split
  · split
    · rfl
    · rw [bufferInsert_path]; rfl
  · rfl

theorem marked_notePath {g g' : Group} (l : Lane) (n : Nat) (h : Marked g g') : Marked g (notePath l n g') :=
  ⟨h.files, h.latches, h.turn, h.length, h.path⟩

theorem noteLaunch_groups (o : Owner) (s : State) : (noteLaunch o s).groups = s.groups := by
  cases o with
  | part id => rfl
  | launch id => simp only [noteLaunch]; split <;> rfl

theorem noteLaunch_view (o : Owner) (s : State) : SameView s (noteLaunch o s) := by
  cases o with
  | part id => exact SameView.refl s
  | launch id =>
    simp only [noteLaunch]
    split
    · rename_i l hl
      refine ⟨rfl, fun k => ?_⟩
      by_cases hk : k = id
      · subst hk; rw [mfind_mput_same, hl]; rfl
      · rw [mfind_mput_other _ _ _ _ hk]
    · exact SameView.refl s

/-- What one group's marks come to. -/
theorem noteIssue_spec (s : State) (gh : Nat) (lanes : List Nat) (g : Group) (hg : mfind s.groups gh = some g) :
    SameView s (noteIssue s gh lanes) ∧ (∃ g', mfind (noteIssue s gh lanes).groups gh = some g' ∧ Marked g g') ∧
      ∀ k, k ≠ gh → mfind (noteIssue s gh lanes).groups k = mfind s.groups k := by
  simp only [noteIssue, hg]
  refine ⟨(SameView.setGroup s gh _).trans (noteLaunch_view _ _), ?_, fun k hk => ?_⟩
  · rw [noteLaunch_groups, setGroup_groups, mfind_mput_same]
    refine ⟨_, rfl, ?_⟩
    have h0 := marked_foldl (noteLane s) (marked_noteLane s) lanes g
    have h1 : Marked g { lanes.foldl (noteLane s) g with issuedAt := some (cycOf s s.issue.core) } :=
      ⟨h0.files, h0.latches, h0.turn, h0.length, h0.path⟩
    cases lanes with
    | nil => exact h1
    | cons i r =>
      dsimp only
      split
      · exact h1
      · exact marked_notePath _ _ h1
  · rw [noteLaunch_groups, setGroup_groups, mfind_mput_other _ _ _ _ hk]

/-- What the marks of a whole issue come to. -/
theorem noteAll_spec (s : State) : SameView s (noteAll s) ∧
    ∀ k g, mfind s.groups k = some g → ∃ g', mfind (noteAll s).groups k = some g' ∧ Marked g g' ∧
      (k ∉ s.issue.parts.map (·.1) → g' = g) := by
  unfold noteAll
  generalize s.issue.parts = ps
  induction ps generalizing s with
  | nil => exact ⟨SameView.refl s, fun k g h => ⟨g, h, Marked.refl g, fun _ => rfl⟩⟩
  | cons p r ih =>
    simp only [List.foldl_cons]
    cases hp : mfind s.groups p.1 with
    | none =>
      have he : noteIssue s p.1 p.2 = s := by simp only [noteIssue, hp]
      rw [he]
      refine ⟨(ih s).1, fun k g h => ?_⟩
      obtain ⟨g', h1, h2, h3⟩ := (ih s).2 k g h
      exact ⟨g', h1, h2, fun hk => h3 (fun hm => hk (List.mem_cons_of_mem _ hm))⟩
    | some gp =>
      obtain ⟨hv, ⟨g1, hg1, hm1⟩, ho⟩ := noteIssue_spec s p.1 p.2 gp hp
      obtain ⟨iv, ig⟩ := ih (noteIssue s p.1 p.2)
      refine ⟨hv.trans iv, fun k g h => ?_⟩
      by_cases hk : k = p.1
      · subst hk
        rw [hp] at h; cases h
        obtain ⟨g', h1, h2, _⟩ := ig p.1 g1 hg1
        exact ⟨g', h1, hm1.trans h2, fun hn => absurd (List.mem_cons_self ..) hn⟩
      · obtain ⟨g', h1, h2, h3⟩ := ig k g ((ho k hk).trans h)
        exact ⟨g', h1, h2, fun hn => h3 (fun hm => hn (List.mem_cons_of_mem _ hm))⟩

theorem noteAll_none (s : State) (k : Nat) (h : mfind s.groups k = none) : mfind (noteAll s).groups k = none := by
  unfold noteAll
  generalize s.issue.parts = ps
  induction ps generalizing s with
  | nil => exact h
  | cons p r ih =>
    simp only [List.foldl_cons]
    apply ih
    cases hp : mfind s.groups p.1 with
    | none => simp only [noteIssue, hp]; exact h
    | some gp =>
      have hk : k ≠ p.1 := fun e => by rw [e, hp] at h; exact absurd h (by simp)
      rw [(noteIssue_spec s p.1 p.2 gp hp).2.2 k hk, h]

/-! ### The turn -/

/-- Alike but for watchdogs and what a passed turn changes. -/
structure Quiet (s t : State) : Prop where
  view : SameView s t
  still : ∀ k g, mfind s.groups k = some g → ∃ g', mfind t.groups k = some g' ∧ g'.still = g.still
  none : ∀ k, mfind s.groups k = none → mfind t.groups k = none

theorem Quiet.refl (s : State) : Quiet s s := ⟨SameView.refl s, fun _ g h => ⟨g, h, rfl⟩, fun _ h => h⟩

theorem Quiet.trans {s t u : State} (h : Quiet s t) (k : Quiet t u) : Quiet s u :=
  ⟨h.view.trans k.view, fun i g hg => by
    obtain ⟨g1, h1, h2⟩ := h.still i g hg
    obtain ⟨g2, h3, h4⟩ := k.still i g1 h1
    exact ⟨g2, h3, h4.trans h2⟩, fun i hi => k.none i (h.none i hi)⟩

theorem Quiet.map {s t : State} (h : Quiet s t) (k : Nat) :
    (mfind t.groups k).map Group.still = (mfind s.groups k).map Group.still := by
  cases hs : mfind s.groups k with
  | none => rw [h.none k hs]
  | some g =>
    obtain ⟨g', h1, h2⟩ := h.still k g hs
    rw [h1]; simp [h2]

theorem quiet_foldl {α : Type} (f : State → α → State) (hf : ∀ s a, Quiet s (f s a)) (l : List α) (s : State) :
    Quiet s (l.foldl f s) := by
  induction l generalizing s with
  | nil => exact Quiet.refl s
  | cons a r ih => exact (hf s a).trans (ih _)

theorem quiet_onGroup (s : State) (k : Nat) (f : Group → Group) (hf : ∀ g, (f g).still = g.still) :
    Quiet s (onGroup s k f) := by
  simp only [onGroup]
  split
  · exact Quiet.refl s
  · rename_i g hg
    refine ⟨SameView.setGroup s k _, fun i gi hi => ?_, fun i hi => ?_⟩
    · simp only [setGroup_groups, mfind_mput]
      split
      · rename_i hik; rw [hik, hg] at hi; cases hi; exact ⟨_, rfl, hf g⟩
      · exact ⟨gi, hi, rfl⟩
    · have hik : i ≠ k := fun e => by rw [e, hg] at hi; exact absurd hi (by simp)
      rw [setGroup_groups, mfind_mput_other _ _ _ _ hik, hi]

theorem still_takeTurn (g : Group) : (takeTurn g).still = g.still := rfl

theorem still_loseBlock (g : Group) : (loseBlock g).still = g.still := by
  simp [loseBlock, Group.still, List.map_map, Function.comp_def]

theorem quiet_startFree (s : State) (c slot : Nat) : Quiet s (startFree s c slot) := by
  apply quiet_foldl
  intro s p
  split
  · exact Quiet.refl s
  · exact quiet_onGroup _ _ _ still_takeTurn

theorem quiet_passTurn (s : State) (gh : Nat) : Quiet s (passTurn s gh) := by
  simp only [passTurn]
  split
  · exact Quiet.refl s
  · split
    · split
      · exact Quiet.refl s
      · refine Quiet.trans (quiet_foldl _ ?_ _ s) ((quiet_onGroup _ _ _ still_takeTurn).trans (quiet_startFree _ _ _))
        intro st p
        split
        · exact quiet_onGroup _ _ _ still_loseBlock
        · exact Quiet.refl st
    · exact Quiet.refl s

/-- Alike but for the groups that ask to pass their turn. -/
structure Asked (s t : State) : Prop where
  view : SameView s t
  group : ∀ k g, mfind s.groups k = some g → ∃ y, mfind t.groups k = some { g with yielding := y }
  none : ∀ k, mfind s.groups k = none → mfind t.groups k = none

theorem Asked.refl (s : State) : Asked s s := ⟨SameView.refl s, fun _ g h => ⟨g.yielding, h⟩, fun _ h => h⟩

theorem Asked.trans {s t u : State} (h : Asked s t) (k : Asked t u) : Asked s u :=
  ⟨h.view.trans k.view, fun i g hg => by
    obtain ⟨y, h1⟩ := h.group i g hg
    obtain ⟨z, h2⟩ := k.group i _ h1
    exact ⟨z, h2⟩, fun i hi => k.none i (h.none i hi)⟩

theorem asked_askTurn (s : State) (gh : Nat) : Asked s (askTurn s gh) := by
  simp only [askTurn, onGroup]
  split
  · exact Asked.refl s
  · rename_i g hg
    refine ⟨SameView.setGroup s gh _, fun i gi hi => ?_, fun i hi => ?_⟩
    · simp only [setGroup_groups, mfind_mput]
      split
      · rename_i hik; rw [hik, hg] at hi; cases hi; exact ⟨true, rfl⟩
      · exact ⟨gi.yielding, hi⟩
    · have hik : i ≠ gh := fun e => by rw [e, hg] at hi; exact absurd hi (by simp)
      rw [setGroup_groups, mfind_mput_other _ _ _ _ hik, hi]

theorem askTurn_other (s : State) (gh k : Nat) (h : k ≠ gh) : mfind (askTurn s gh).groups k = mfind s.groups k := by
  simp only [askTurn, onGroup]
  split
  · rfl
  · rw [setGroup_groups, mfind_mput_other _ _ _ _ h]

/-- What Y comes to at an issue (R110, R297): its groups ask to pass their turn, and nothing else changes. -/
theorem asked_yieldAfter (s : State) (c : Ctl) :
    Asked s (yieldAfter s c) ∧ ∀ k, k ∉ s.issue.parts.map (·.1) → mfind (yieldAfter s c).groups k = mfind s.groups k := by
  simp only [yieldAfter]
  split
  · rename_i hy
    clear hy
    generalize s.issue.parts = ps
    induction ps generalizing s with
    | nil => exact ⟨Asked.refl s, fun _ _ => rfl⟩
    | cons p r ih =>
      simp only [List.foldl_cons, List.map_cons, List.mem_cons, not_or]
      obtain ⟨h1, h2⟩ := ih (askTurn s p.1)
      exact ⟨(asked_askTurn s p.1).trans h1, fun k hk => (h2 k hk.2).trans (askTurn_other s p.1 k hk.1)⟩
  · exact ⟨Asked.refl s, fun _ _ => rfl⟩

/-! ### The end of an instruction in the midst of leaves -/

/-- Lanes gone on by len bytes at their leaves. -/
structure Advanced (len : Nat) (lanes : List Nat) (g g' : Group) : Prop where
  files : g'.files = g.files
  turn : g'.turn = g.turn
  length : g'.lanes.length = g.lanes.length
  moved : ∀ i ∈ lanes, ∀ n o, (laneAt g i).pos = .leaf n o →
    (laneAt g' i).path = { (laneAt g i).path with pos := .leaf n (o + len) }
  stay : ∀ i, i ∉ lanes → (laneAt g' i).path = (laneAt g i).path

theorem nthD_releaseFrom (g : Group) (l : List Lane) (k i : Nat) :
    (nthD absentLane (releaseFrom g k l) i).path = (nthD absentLane l i).path := by
  induction l generalizing k i with
  | nil => rfl
  | cons x r ih =>
    cases i with
    | zero =>
      simp only [releaseFrom, nthD]
      split
      · split <;> rfl
      · rfl
    | succ i => simp only [releaseFrom, nthD]; exact ih _ _

@[simp] theorem length_releaseFrom (g : Group) (l : List Lane) (k : Nat) : (releaseFrom g k l).length = l.length := by
  induction l generalizing k with
  | nil => rfl
  | cons x r ih => simp [releaseFrom, ih]

theorem settleHolds_spec (s : State) (gh : Nat) (g : Group) (h : mfind s.groups gh = some g) :
    ∃ g', settleHolds s gh = setGroup s gh g' ∧ Marked g g' := by
  simp only [settleHolds, h]
  exact ⟨_, rfl, rfl, rfl, rfl, by simp, fun i => nthD_releaseFrom g g.lanes 0 i⟩

theorem walkLoop_leaf (s : State) (g : Group) (p : Program) (c : Core) (root now lane k : Nat) (l : Lane) (log : WalkLog)
    (n o : Nat) (hx : l.exited = false) (hp : l.pos = .leaf n o) :
    walkLoop s g p c root now lane (k + 1) l log = .stands l log := by
  simp [walkLoop, hx, hp]

theorem passInstr_mid (s : State) (gh lane len : Nat) (priv : Bool) (g : Group) (q : Program) (c n o : Nat)
    (hg : mfind s.groups gh = some g) (hq : progOf s g = some q) (hc : coreOf g = some c)
    (hl : liveLane (laneAt g lane) = true) (hp : (laneAt g lane).pos = .leaf n o) (hm : o + len < leafLen s q n) :
    passInstr s gh lane len priv =
      (setGroup s gh (setLane g lane { laneAt g lane with pos := .leaf n (o + len), waiting := false }), []) := by
  have hx : (laneAt g lane).exited = false := by
    simp only [liveLane, Bool.and_eq_true, Bool.not_eq_true'] at hl; exact hl.2
  have ha : afterInstr s q priv n (o + len) = .leaf n (o + len) := by
    simp [afterInstr, Nat.not_le.mpr hm]
  have hw : walkLoop s g q (coreAt s c) (funcOf s g) (cycOf s c) lane walkBound
      { laneAt g lane with pos := .leaf n (o + len), waiting := false } WalkLog.none
      = .stands { laneAt g lane with pos := .leaf n (o + len), waiting := false } WalkLog.none :=
    walkLoop_leaf _ _ _ _ _ _ _ 399 _ _ n (o + len) hx rfl
  simp only [passInstr, hg, hl, hp, hq, ha, walkLane, moveLane, hc, hw, Bool.not_true, Bool.false_eq_true, if_false]
  simp [settleLane, hg, WalkLog.none]

theorem Advanced.nil (len : Nat) (g : Group) : Advanced len [] g g :=
  ⟨rfl, rfl, rfl, fun _ h => absurd h (by simp), fun _ _ => rfl⟩

theorem liveLane_path {a b : Lane} (h : a.path = b.path) : liveLane a = liveLane b := by
  have h1 : a.present = b.present := by have := congrArg Lane.present h; exact this
  have h2 : a.exited = b.exited := by have := congrArg Lane.exited h; exact this
  simp [liveLane, h1, h2]

theorem pos_path {a b : Lane} (h : a.path = b.path) : a.pos = b.pos := by have := congrArg Lane.pos h; exact this

theorem owner_files {a b : Group} (h : a.files = b.files) : a.owner = b.owner := by
  have := congrArg Group.owner h; exact this
theorem place_files {a b : Group} (h : a.files = b.files) : a.place = b.place := by
  have := congrArg Group.place h; exact this
theorem ck_files {a b : Group} (h : a.files = b.files) : a.ck = b.ck := by have := congrArg Group.ck h; exact this
theorem preds_files {a b : Group} (h : a.files = b.files) : a.preds = b.preds := by
  have := congrArg Group.preds h; exact this
theorem pitw_files {a b : Group} (h : a.files = b.files) : a.pitw = b.pitw := by
  have := congrArg Group.pitw h; exact this

theorem coreOf_files {a b : Group} (h : a.files = b.files) : coreOf a = coreOf b := by
  simp only [coreOf, place_files h]

/-- A group all of whose given lanes stand in the midst of leaves. -/
structure Stands (s : State) (len : Nat) (lanes : List Nat) (g : Group) : Prop where
  core : ∃ q c, progOf s g = some q ∧ coreOf g = some c ∧ g.ck = none ∧
    ∀ i ∈ lanes, i < g.lanes.length ∧ liveLane (laneAt g i) = true ∧
      ∃ n o, (laneAt g i).pos = .leaf n o ∧ o + len < leafLen s q n

theorem Stands.marked {s t : State} {len : Nat} {lanes : List Nat} {g g' : Group} (h : Stands s len lanes g)
    (hv : SameView s t) (hf : g'.files = g.files) (hl : g'.lanes.length = g.lanes.length)
    (hp : ∀ i ∈ lanes, (laneAt g' i).path = (laneAt g i).path) : Stands t len lanes g' := by
  obtain ⟨q, c, hq, hc, hk, hs⟩ := h.core
  refine ⟨q, c, (progOf_congr hv (owner_files hf)).trans hq, (coreOf_files hf).trans hc, (ck_files hf).trans hk, ?_⟩
  intro i hi
  obtain ⟨h1, h2, n, o, h3, h4⟩ := hs i hi
  refine ⟨by rw [hl]; exact h1, by rw [liveLane_path (hp i hi)]; exact h2, n, o, ?_, ?_⟩
  · rw [pos_path (hp i hi)]; exact h3
  · rw [leafLen_congr hv.world]; exact h4

@[simp] theorem setGroup_setGroup (s : State) (k : Nat) (a b : Group) : setGroup (setGroup s k a) k b = setGroup s k b := by
  simp [setGroup]

/-- Every lane of a part goes on. -/
theorem passFold (s : State) (gh len : Nat) (priv : Bool) (lanes : List Nat) (g : Group) (hd : lanes.Nodup)
    (hg : mfind s.groups gh = some g) (hs : Stands s len lanes g) :
    ∃ g', lanes.foldl (fun (acc : State × List (Nat × Nat)) i =>
        let w := passInstr acc.1 gh i len priv
        (w.1, acc.2 ++ w.2)) (s, []) = (setGroup s gh g', []) ∧ Advanced len lanes g g' ∧ g'.latches = g.latches := by
  suffices hmain : ∀ (r : List Nat) (a : Group), r.Nodup → Stands s len r a →
      ∃ g', r.foldl (fun (acc : State × List (Nat × Nat)) i =>
        let w := passInstr acc.1 gh i len priv
        (w.1, acc.2 ++ w.2)) (setGroup s gh a, []) = (setGroup s gh g', []) ∧ Advanced len r a g' ∧
        g'.latches = a.latches by
    have h0 : setGroup s gh g = setGroup s gh g := rfl
    cases lanes with
    | nil =>
      refine ⟨g, ?_, Advanced.nil len g, rfl⟩
      simp only [List.foldl_nil, Prod.mk.injEq, and_true]
      cases s
      simp only [setGroup] at hg ⊢
      congr 1
      exact (mput_self _ _ _ hg).symm
    | cons i r =>
      obtain ⟨g', h1, h2⟩ := hmain (i :: r) g hd hs
      refine ⟨g', ?_, h2⟩
      rw [← h1]
      congr 2
      cases s
      simp only [setGroup] at hg ⊢
      congr 1
      exact (mput_self _ _ _ hg).symm
  intro r
  induction r with
  | nil => intro a _ _; exact ⟨a, rfl, Advanced.nil len a, rfl⟩
  | cons i r ih =>
    intro a hn hst
    obtain ⟨q, c, hq, hc, hk, hall⟩ := hst.core
    obtain ⟨hlt, hlive, n, o, hpos, hlen⟩ := hall i (List.mem_cons_self ..)
    have hv := SameView.setGroup s gh a
    have hpass := passInstr_mid (setGroup s gh a) gh i len priv a q c n o (by simp)
      ((progOf_congr hv rfl).trans hq) hc hlive hpos (by rw [leafLen_congr hv.world]; exact hlen)
    simp only [List.foldl_cons, hpass, List.append_nil, setGroup_setGroup]
    have hni : i ∉ r := (List.nodup_cons.mp hn).1
    let b := setLane a i { laneAt a i with pos := .leaf n (o + len), waiting := false }
    have hb : ∀ j, j ≠ i → laneAt b j = laneAt a j := fun j hj => by
      rw [laneAt_setLane, if_neg (fun h => hj h.1)]
    have hbi : laneAt b i = { laneAt a i with pos := .leaf n (o + len), waiting := false } := by
      rw [laneAt_setLane, if_pos ⟨rfl, hlt⟩]
    have hsb : Stands s len r b := by
      have h1 : Stands s len r a := ⟨q, c, hq, hc, hk, fun j hj => hall j (List.mem_cons_of_mem _ hj)⟩
      refine h1.marked (SameView.refl s) rfl (by simp [b]) fun j hj => ?_
      rw [hb j (fun e => hni (e ▸ hj))]
    obtain ⟨g', h1, h2, h3⟩ := ih b (List.nodup_cons.mp hn).2 hsb
    refine ⟨g', h1, ⟨h2.files, h2.turn, h2.length.trans (by simp [b]), ?_, ?_⟩, h3⟩
    · intro j hj n' o' hp'
      rcases List.mem_cons.mp hj with hji | hjr
      · subst hji
        rw [hpos] at hp'; cases hp'
        rw [h2.stay j hni, hbi]; rfl
      · have hji : j ≠ i := fun e => hni (e ▸ hjr)
        have := h2.moved j hjr n' o' (by rw [hb j hji]; exact hp')
        rw [this, hb j hji]
    · intro j hj
      have hji : j ≠ i := fun e => hj (by rw [e]; exact List.mem_cons_self ..)
      rw [h2.stay j (fun h => hj (List.mem_cons_of_mem _ h)), hb j hji]

theorem foldl_dropLatches (lanes : List Nat) (g : Group) :
    (lanes.foldl dropLatches g).files = g.files ∧ (lanes.foldl dropLatches g).lanes = g.lanes ∧
      (lanes.foldl dropLatches g).turn = g.turn := by
  induction lanes generalizing g with
  | nil => exact ⟨rfl, rfl, rfl⟩
  | cons i r ih => exact ih (dropLatches g i)

theorem endLive_spec (c : Ctl) (lanes : List Nat) (g : Group) :
    (endLive c lanes g).files = g.files ∧ (endLive c lanes g).lanes = g.lanes ∧ (endLive c lanes g).turn = g.turn := by
  simp only [endLive]
  split
  · exact foldl_dropLatches lanes g
  · exact ⟨rfl, rfl, rfl⟩

theorem afterMove_none (s : State) (gh : Nat) (lanes : List Nat) (wasIn : Bool) (g : Group)
    (hg : mfind s.groups gh = some g) (hk : g.ck = none) : afterMove s gh lanes wasIn [] = s := by
  simp [afterMove, hg, hk]

/-- An instruction without traps ends, in the midst of leaves, with its lanes gone on. -/
theorem endGroup_mid (s : State) (gh : Nat) (c : Ctl) (dst : SavedDst) (lanes : List Nat) (g : Group)
    (hd : lanes.Nodup) (hg : mfind s.groups gh = some g) (hs : Stands s s.issue.len lanes g) :
    ∃ g', endGroup s gh c dst lanes [] = setGroup s gh g' ∧ Advanced s.issue.len lanes g g' ∧
      g'.latches = (endLive c lanes g).latches := by
  obtain ⟨hf, hl, ht⟩ := endLive_spec c lanes g
  have hs1 : Stands (setGroup s gh (endLive c lanes g)) s.issue.len lanes (endLive c lanes g) :=
    hs.marked (SameView.setGroup _ _ _) hf (by rw [hl]) fun i _ => by simp only [laneAt, hl]
  obtain ⟨g1, he, ha, hla⟩ := passFold (setGroup s gh (endLive c lanes g)) gh s.issue.len s.issue.priv lanes
    (endLive c lanes g) hd (by simp) hs1
  have hgo : lanes.filter (fun i => !(([] : List (Nat × Trap)).any fun p => p.1 == i)) = lanes := by simp
  have hck : g1.ck = none := by
    obtain ⟨q, c', _, _, hk, _⟩ := hs.core
    rw [ck_files (ha.files.trans hf)]; exact hk
  simp only [endGroup, hg, hgo]
  rw [he]
  simp only [divertAll, List.foldl_nil, setGroup_setGroup]
  rw [afterMove_none _ _ _ _ g1 (by simp) hck]
  simp only [ite_self]
  obtain ⟨g', h1, h2⟩ := settleHolds_spec (setGroup s gh g1) gh g1 (by simp)
  refine ⟨g', by rw [h1, setGroup_setGroup], ⟨h2.files.trans (ha.files.trans hf), h2.turn.trans (ha.turn.trans ht),
    h2.length.trans (ha.length.trans (by rw [hl])), ?_, ?_⟩, h2.latches.trans hla⟩
  · intro i hi n o hp
    rw [h2.path i, ha.moved i hi n o (by simpa only [laneAt, hl] using hp)]
    simp only [laneAt, hl]
  · intro i hi
    rw [h2.path i, ha.stay i hi]
    simp only [laneAt, hl]

/-! ### Instructions that act lane by lane -/

/-- A value does not depend on the marks of an issue. -/
def Local {α : Type} (f : Here → Except Trap α) : Prop :=
  ∀ s t gh (g g' : Group) i v, SameView s t → Marked g g' →
    f { st := s, gh := gh, g := g, lane := i } = .ok v → f { st := t, gh := gh, g := g', lane := i } = .ok v

theorem guardOn_files {g g' : Group} (h : g'.files = g.files) (i : Nat) (hd : Head) : guardOn g' i hd = guardOn g i hd := by
  simp only [guardOn, predAt, preds_files h]

theorem takers_files {g g' : Group} (h : g'.files = g.files) (hd : Head) (l : List Nat) : takers g' hd l = takers g hd l := by
  simp only [takers, guardOn_files h]

theorem partOk_files {g g' : Group} (h : g'.files = g.files) (l : Layout) : partOk g' l = partOk g l := by
  have hn : nvOf g' = nvOf g := by simp only [nvOf, pitw_files h]
  have ht : tilesOf g' = tilesOf g := by simp only [tilesOf, pitw_files h]
  have h1 : ∀ n x, srcIn g' n x = srcIn g n x := by
    intro n x; cases x with
    | none => rfl
    | some x => cases x <;> simp [srcIn, hn]
  have h2 : destIn g' l.head l.dest = destIn g l.head l.dest := by
    cases l.dest <;> simp [destIn, hn, ht]
  simp only [partOk, h1, h2]

/-- The outputs of lanes none of which traps. -/
theorem outs_vals (l : Layout) (f : Here → Except Trap Nat) (st : State) (gh : Nat) (g : Group) (v : Nat → Nat)
    (lanes : List Nat)
    (h : ∀ i ∈ takers g l.head lanes, partOk g l = true ∧ f { st := st, gh := gh, g := g, lane := i } = .ok (v i)) :
    valsOf (lanes.map fun i => (i, laneOut l f { st := st, gh := gh, g := g, lane := i })) =
      (takers g l.head lanes).map (fun i => (i, v i)) ∧
    trapsOf (lanes.map fun i => (i, laneOut l f { st := st, gh := gh, g := g, lane := i })) = [] := by
  induction lanes with
  | nil => exact ⟨rfl, rfl⟩
  | cons i r ih =>
    have hr : ∀ j ∈ takers g l.head r, partOk g l = true ∧ f { st := st, gh := gh, g := g, lane := j } = .ok (v j) := by
      intro j hj
      apply h
      simp only [takers, List.mem_filter] at hj ⊢
      exact ⟨List.mem_cons_of_mem _ hj.1, hj.2⟩
    obtain ⟨i1, i2⟩ := ih hr
    by_cases hgd : guardOn g i l.head = true
    · obtain ⟨h1, h2⟩ := h i (by simp [takers, hgd])
      have ho : laneOut l f { st := st, gh := gh, g := g, lane := i } = .val (v i) := by
        simp [laneOut, hgd, h1, h2]
      constructor
      · simp only [valsOf, List.map_cons, List.filterMap_cons, ho, takers, List.filter_cons, hgd, if_true]
        exact congrArg _ i1
      · simp only [trapsOf, List.map_cons, List.filterMap_cons, ho]
        exact i2
    · have ho : laneOut l f { st := st, gh := gh, g := g, lane := i } = .off := by
        simp [laneOut, hgd]
      constructor
      · simp only [valsOf, List.map_cons, List.filterMap_cons, ho, takers, List.filter_cons, hgd]
        exact i1
      · simp only [trapsOf, List.map_cons, List.filterMap_cons, ho]
        exact i2

/-- What `put` must respect: it writes files and latches of a group, from its files and latches. -/
structure PutsFiles (put : Group → List (Nat × Nat) → Group) : Prop where
  lanes : ∀ g l, (put g l).lanes = g.lanes
  owner : ∀ g l, (put g l).owner = g.owner
  place : ∀ g l, (put g l).place = g.place
  ck : ∀ g l, g.ck = none → (put g l).ck = none
  turn : ∀ g l, (put g l).turn = g.turn
  files : ∀ g g' l, g'.files = g.files → (put g' l).files = (put g l).files
  latches : ∀ g g' l, g'.latches = g.latches → (put g' l).latches = (put g l).latches

theorem foldl_dropLatches_latches (lanes : List Nat) {g g' : Group} (h : g'.latches = g.latches) :
    (lanes.foldl dropLatches g').latches = (lanes.foldl dropLatches g).latches := by
  induction lanes generalizing g g' with
  | nil => exact h
  | cons i r ih => exact ih (by simp only [dropLatches, h])

theorem endLive_latches (c : Ctl) (lanes : List Nat) {g g' : Group} (h : g'.latches = g.latches) :
    (endLive c lanes g').latches = (endLive c lanes g).latches := by
  simp only [endLive]
  split
  · exact foldl_dropLatches_latches lanes h
  · exact h

theorem stands_of_midLeaf {s : State} (hm : MidLeaf s) {p : Nat × List Nat} (hp : p ∈ s.issue.parts) {g : Group}
    (hg : mfind s.groups p.1 = some g) : Stands s s.issue.len p.2 g := by
  obtain ⟨g1, q, c, h1, h2, h3, h4, h5⟩ := hm.stand p hp
  rw [hg] at h1; cases h1
  exact ⟨q, c, h2, h3, h4, h5⟩

theorem files_of_still {a b : Group} (h : a.still = b.still) : a.files = b.files := by
  have := congrArg Group.files h; exact this

theorem nthD_map_buffer (l : List Lane) (i : Nat) :
    (nthD absentLane (l.map fun x => { x with buffer := [] }) i).path = (nthD absentLane l i).path := by
  induction l generalizing i with
  | nil => rfl
  | cons x r ih => cases i with
    | zero => rfl
    | succ i => exact ih i

theorem path_of_still {a b : Group} (h : a.still = b.still) (i : Nat) : (laneAt a i).path = (laneAt b i).path := by
  have h1 : a.lanes.map (fun x => { x with buffer := [] }) = b.lanes.map fun x => { x with buffer := [] } := by
    have := congrArg Group.lanes h; exact this
  simp only [laneAt]
  rw [← nthD_map_buffer a.lanes i, h1, nthD_map_buffer]

/-- Steps over the parts of an issue, each of which changes its own group only. -/
theorem parts_fold (s : State) (stp : State → Nat × List Nat → State) (rel : Nat × List Nat → Group → Group → Prop)
    (hd : (s.issue.parts.map (·.1)).Nodup)
    (hs : ∀ p ∈ s.issue.parts, ∃ g, mfind s.groups p.1 = some g)
    (hstep : ∀ p ∈ s.issue.parts, ∀ st g g1, SameView s st → mfind s.groups p.1 = some g →
      mfind st.groups p.1 = some g1 → Marked g g1 → ∃ g2, stp st p = setGroup st p.1 g2 ∧ rel p g g2) :
    SameView s (s.issue.parts.foldl stp (noteAll s)) ∧
    (∀ k, k ∉ s.issue.parts.map (·.1) → mfind (s.issue.parts.foldl stp (noteAll s)).groups k = mfind s.groups k) ∧
    ∀ p ∈ s.issue.parts, ∀ g, mfind s.groups p.1 = some g →
      ∃ g2, mfind (s.issue.parts.foldl stp (noteAll s)).groups p.1 = some g2 ∧ rel p g g2 := by
  obtain ⟨hv0, hn0⟩ := noteAll_spec s
  have hout : ∀ k, k ∉ s.issue.parts.map (·.1) → mfind (noteAll s).groups k = mfind s.groups k := by
    intro k hk
    cases hks : mfind s.groups k with
    | none => exact noteAll_none s k hks
    | some g =>
      obtain ⟨g', h1, _, h2⟩ := hn0 k g hks
      rw [h1, h2 hk]
  have hin : ∀ p ∈ s.issue.parts, ∀ g, mfind s.groups p.1 = some g →
      ∃ g1, mfind (noteAll s).groups p.1 = some g1 ∧ Marked g g1 := by
    intro p _ g hg
    obtain ⟨g', h1, h2, _⟩ := hn0 p.1 g hg
    exact ⟨g', h1, h2⟩
  clear hn0
  revert hv0 hout hin
  generalize noteAll s = st0
  suffices h : ∀ (r : List (Nat × List Nat)) (st : State), (r.map (·.1)).Nodup → (∀ p ∈ r, p ∈ s.issue.parts) →
      SameView s st →
      (∀ p ∈ r, ∀ g, mfind s.groups p.1 = some g → ∃ g1, mfind st.groups p.1 = some g1 ∧ Marked g g1) →
      SameView s (r.foldl stp st) ∧
      (∀ k, k ∉ r.map (·.1) → mfind (r.foldl stp st).groups k = mfind st.groups k) ∧
      ∀ p ∈ r, ∀ g, mfind s.groups p.1 = some g → ∃ g2, mfind (r.foldl stp st).groups p.1 = some g2 ∧ rel p g g2 by
    intro hv0 hout hin
    obtain ⟨h1, h2, h3⟩ := h s.issue.parts st0 hd (fun _ hp => hp) hv0 hin
    exact ⟨h1, fun k hk => (h2 k hk).trans (hout k hk), h3⟩
  intro r
  induction r with
  | nil => intro st _ _ hv _; exact ⟨hv, fun _ _ => rfl, fun _ h => absurd h (by simp)⟩
  | cons p r ih =>
    intro st hn hsub hv hin
    have hp := hsub p (List.mem_cons_self ..)
    obtain ⟨g, hg⟩ := hs p hp
    obtain ⟨g1, hg1, hm1⟩ := hin p (List.mem_cons_self ..) g hg
    obtain ⟨g2, he, hrel⟩ := hstep p hp st g g1 hv hg hg1 hm1
    obtain ⟨hpr, hnr⟩ := List.nodup_cons.mp hn
    simp only [List.foldl_cons, he]
    obtain ⟨h1, h2, h3⟩ := ih (setGroup st p.1 g2) hnr (fun q hq => hsub q (List.mem_cons_of_mem _ hq))
      (hv.trans (SameView.setGroup _ _ _)) (by
        intro q hq gq hgq
        have hne : q.1 ≠ p.1 := fun e => hpr (List.mem_map.mpr ⟨q, hq, e⟩)
        obtain ⟨g', h', h''⟩ := hin q (List.mem_cons_of_mem _ hq) gq hgq
        exact ⟨g', by rw [setGroup_groups, mfind_mput_other _ _ _ _ hne, h'], h''⟩)
    refine ⟨h1, fun k hk => ?_, fun q hq gq hgq => ?_⟩
    · simp only [List.map_cons, List.mem_cons, not_or] at hk
      rw [h2 k hk.2, setGroup_groups, mfind_mput_other _ _ _ _ hk.1]
    · rcases List.mem_cons.mp hq with hqp | hqr
      · subst hqp
        rw [hg] at hgq; cases hgq
        exact ⟨g2, by rw [h2 q.1 hpr, setGroup_groups, mfind_mput_same], hrel⟩
      · exact h3 q hqr gq hgq

/-- An issue whose groups each go on with a relation between their files, and whose turn may then pass. -/
theorem passed_of_parts (s t : State) (c : Ctl) (files : Nat → List Nat → Group → Group → Prop)
    (hfiles : ∀ k l g a b, b.files = a.files → b.latches = a.latches → files k l g a → files k l g b)
    (hv : SameView s t) (ho : ∀ k, k ∉ s.issue.parts.map (·.1) → mfind t.groups k = mfind s.groups k)
    (hp : ∀ p ∈ s.issue.parts, ∀ g, mfind s.groups p.1 = some g → ∃ g2, mfind t.groups p.1 = some g2 ∧
      files p.1 p.2 g g2 ∧
      (∀ i ∈ p.2, ∀ n o, (laneAt g i).pos = .leaf n o →
        (laneAt g2 i).path = { (laneAt g i).path with pos := .leaf n (o + s.issue.len) }) ∧
      ∀ i, i ∉ p.2 → (laneAt g2 i).path = (laneAt g i).path) :
    Passed s (yieldAfter t c) files := by
  obtain ⟨hq, hq'⟩ := asked_yieldAfter t c
  refine ⟨(hv.trans hq.view).world, (hv.trans hq.view).launches, fun k hk => ?_, ?_⟩
  · rw [hq' k (by rw [issue_of_world hv.world]; exact hk), ho k hk]
  intro p hpp g hg
  obtain ⟨g2, h1, h2, h3, h4⟩ := hp p hpp g hg
  obtain ⟨y, hy⟩ := hq.group p.1 g2 h1
  exact ⟨_, hy, hfiles p.1 p.2 g g2 _ rfl rfl h2, h3, h4⟩

/-- The course of an instruction that acts lane by lane, in the midst of leaves and without traps. -/
theorem runLanes_mid (l : Layout) (f : Here → Except Trap Nat) (put : Group → List (Nat × Nat) → Group) (s : State)
    (v : Nat → Nat → Nat) (hm : MidLeaf s) (hf : Local f) (hput : PutsFiles put) (hc : Computes s l f v) :
    Passed s (runLanes l f put s) fun gh lanes g g' =>
      g'.files = (put g ((takers g l.head lanes).map fun i => (i, v gh i))).files ∧
      ((yieldBit l.head.ctl = true → s.issue.priv = true) →
        g'.latches = (endLive l.head.ctl lanes (put g ((takers g l.head lanes).map fun i => (i, v gh i)))).latches) := by
  unfold runLanes
  obtain ⟨h1, h2, h3⟩ := parts_fold s
    (fun st p => match mfind st.groups p.1 with
      | none => st
      | some g =>
        let outs := p.2.map fun i => (i, laneOut l f { st := st, gh := p.1, g := g, lane := i })
        let st1 := setGroup st p.1 (put g (valsOf outs))
        endGroup st1 p.1 l.head.ctl (savedDst l) p.2 (trapsOf outs))
    (fun p g g2 => (g2.files = (put g ((takers g l.head p.2).map fun i => (i, v p.1 i))).files ∧
      ((yieldBit l.head.ctl = true → s.issue.priv = true) →
        g2.latches = (endLive l.head.ctl p.2 (put g ((takers g l.head p.2).map fun i => (i, v p.1 i)))).latches)) ∧
      (∀ i ∈ p.2, ∀ n o, (laneAt g i).pos = .leaf n o →
        (laneAt g2 i).path = { (laneAt g i).path with pos := .leaf n (o + s.issue.len) }) ∧
      ∀ i, i ∉ p.2 → (laneAt g2 i).path = (laneAt g i).path)
    hm.handles (fun p hp => by obtain ⟨g, _, _, h, _⟩ := hm.stand p hp; exact ⟨g, h⟩)
    (by
      intro p hp st g g1 hv hg hg1 hmk
      have hcomp : ∀ i ∈ takers g1 l.head p.2, partOk g1 l = true ∧
          f { st := st, gh := p.1, g := g1, lane := i } = .ok (v p.1 i) := by
        intro i hi
        rw [takers_files hmk.files] at hi
        obtain ⟨c1, c2⟩ := hc p hp g hg i hi
        exact ⟨by rw [partOk_files hmk.files]; exact c1, hf s st p.1 g g1 i _ hv hmk c2⟩
      obtain ⟨o1, o2⟩ := outs_vals l f st p.1 g1 (v p.1) p.2 hcomp
      simp only [hg1]
      rw [o1, o2, takers_files hmk.files]
      generalize hvals : (takers g l.head p.2).map (fun i => (i, v p.1 i)) = vals
      have hsg := stands_of_midLeaf hm hp hg
      have hl1 : ∀ i, (laneAt (put g1 vals) i).path = (laneAt g i).path := by
        intro i
        have : laneAt (put g1 vals) i = laneAt g1 i := by simp only [laneAt, hput.lanes]
        rw [this, hmk.path i]
      have hst1 : Stands (setGroup st p.1 (put g1 vals)) s.issue.len p.2 (put g1 vals) := by
        obtain ⟨q, c, hq, hcc, hk, hall⟩ := hsg.core
        refine ⟨q, c, ?_, ?_, hput.ck _ _ (by rw [ck_files hmk.files]; exact hk), ?_⟩
        · rw [progOf_congr (hv.trans (SameView.setGroup _ _ _)) ((hput.owner _ _).trans (owner_files hmk.files))]
          exact hq
        · simp only [coreOf, hput.place, place_files hmk.files] at hcc ⊢; exact hcc
        · intro i hi
          obtain ⟨a1, a2, n, o, a3, a4⟩ := hall i hi
          refine ⟨by rw [hput.lanes, hmk.length]; exact a1, by rw [liveLane_path (hl1 i)]; exact a2, n, o, ?_, ?_⟩
          · rw [pos_path (hl1 i)]; exact a3
          · rw [leafLen_congr (hv.trans (SameView.setGroup _ _ _)).world]; exact a4
      have hiss : (setGroup st p.1 (put g1 vals)).issue = s.issue :=
        issue_of_world (hv.trans (SameView.setGroup _ _ _)).world
      obtain ⟨g2, e1, e2, e3⟩ := endGroup_mid (setGroup st p.1 (put g1 vals)) p.1 l.head.ctl (savedDst l) p.2
        (put g1 vals) (hm.lanes p hp) (by simp) (by rw [hiss]; exact hst1)
      rw [hiss] at e2
      refine ⟨g2, by rw [e1, setGroup_setGroup], ⟨e2.files.trans (hput.files _ _ _ hmk.files), fun _ =>
        e3.trans (endLive_latches _ _ (hput.latches _ _ _ hmk.latches))⟩, ?_, ?_⟩
      · intro i hi n o hpos
        rw [e2.moved i hi n o (by rw [pos_path (hl1 i)]; exact hpos), hl1 i]
      · intro i hi
        rw [e2.stay i hi, hl1 i])
  exact passed_of_parts s _ _ _ (fun k l' g a b hab hl ha => ⟨hab.trans ha.1, fun hk => hl.trans (ha.2 hk)⟩) h1 h2 h3

end Sys2Proof.Laws
end

