-- ==== Sys2Proof/Laws/Results.lean ====
section
/-! SUPPORT. What the writes of results do to the registers, predicates and latches of a group, one by one. -/

namespace Sys2Proof.Laws

open Sys2Proof.Machine

/-! ### Vector registers -/

theorem setV_files (g : Group) (lane r : Nat) (w : Word) :
    (setV g false lane r w).files = { g with vregs := (setV g false lane r w).vregs }.files := rfl

theorem setV_vregs (g : Group) (lane r : Nat) (w : Word) :
    (setV g false lane r w).vregs = sset 0 g.vregs (256 * lane + r) w := rfl

/-- n registers written from r in a lane. -/
theorem setVs_spec (g : Group) (lane r n v : Nat) (hw : swf 0 g.vregs = true) (hr : r + n ≤ 256) :
    swf 0 (setVs g false lane r n v).vregs = true ∧
    (∀ i k, k < 256 → vregAt (setVs g false lane r n v) i k =
      if i = lane ∧ r ≤ k ∧ k < r + n then BitVec.ofNat 32 (v / 2 ^ (32 * (k - r))) else vregAt g i k) ∧
    setVs g false lane r n v = { g with vregs := (setVs g false lane r n v).vregs } := by
  induction n generalizing g r v with
  | zero => exact ⟨hw, fun i k _ => by simp [setVs, show ¬ (r ≤ k ∧ k < r) by omega], rfl⟩
  | succ n ih =>
    have hw1 : swf 0 (setV g false lane r (BitVec.ofNat 32 v)).vregs = true := swf_sset 0 _ _ _ hw
    obtain ⟨h1, h2, h3⟩ := ih (setV g false lane r (BitVec.ofNat 32 v)) (r + 1) (v / 2 ^ 32) hw1 (by omega)
    refine ⟨h1, fun i k hk => ?_, ?_⟩
    · simp only [setVs]
      rw [h2 i k hk]
      have hg : vregAt (setV g false lane r (BitVec.ofNat 32 v)) i k =
          if 256 * i + k = 256 * lane + r then BitVec.ofNat 32 v else vregAt g i k :=
        sget_sset 0 g.vregs _ _ _ hw
      rw [hg]
      by_cases hi : i = lane
      · subst hi
        by_cases hkr : k = r
        · subst hkr; simp [show ¬ (k + 1 ≤ k) by omega]
        · have hne : ¬ 256 * i + k = 256 * i + r := by omega
          by_cases hin : r + 1 ≤ k ∧ k < r + 1 + n
          · have hin2 : r ≤ k ∧ k < r + (n + 1) := by omega
            have he : k - r = (k - (r + 1)) + 1 := by omega
            simp only [hin, hin2, and_self, if_true]
            rw [he, Nat.div_div_eq_div_mul, ← Nat.pow_add]
            congr 3
            omega
          · have hin2 : ¬ (r ≤ k ∧ k < r + (n + 1)) := by omega
            simp only [true_and, hin, hin2, hne, if_false]
      · have hne : ¬ 256 * i + k = 256 * lane + r := by omega
        simp [hi, hne]
    · simp only [setVs]
      rw [h3]
      rfl

/-! ### Scalar registers -/

/-- n scalar registers written from r. -/
theorem setSs_spec (g : Group) (r n v : Nat) (hw : swf 0 g.sregs = true) :
    swf 0 (setSs g false r n v).sregs = true ∧
    (∀ k, sget 0 (setSs g false r n v).sregs k =
      if r ≤ k ∧ k < r + n then BitVec.ofNat 32 (v / 2 ^ (32 * (k - r))) else sget 0 g.sregs k) ∧
    setSs g false r n v = { g with sregs := (setSs g false r n v).sregs } := by
  induction n generalizing g r v with
  | zero => exact ⟨hw, fun k => by simp [setSs, show ¬ (r ≤ k ∧ k < r) by omega], rfl⟩
  | succ n ih =>
    have hw1 : swf 0 (setS g false r (BitVec.ofNat 32 v)).sregs = true := swf_sset 0 _ _ _ hw
    obtain ⟨h1, h2, h3⟩ := ih (setS g false r (BitVec.ofNat 32 v)) (r + 1) (v / 2 ^ 32) hw1
    refine ⟨h1, fun k => ?_, ?_⟩
    · simp only [setSs]
      rw [h2 k]
      have hg : sget 0 (setS g false r (BitVec.ofNat 32 v)).sregs k =
          if k = r then BitVec.ofNat 32 v else sget 0 g.sregs k := sget_sset 0 g.sregs _ _ _ hw
      rw [hg]
      by_cases hkr : k = r
      · subst hkr; simp [show ¬ (k + 1 ≤ k) by omega]
      · by_cases hin : r + 1 ≤ k ∧ k < r + 1 + n
        · have hin2 : r ≤ k ∧ k < r + (n + 1) := by omega
          have he : k - r = (k - (r + 1)) + 1 := by omega
          simp only [hin, hin2, and_self, if_true]
          rw [he, Nat.div_div_eq_div_mul, ← Nat.pow_add]
          congr 3
          omega
        · have hin2 : ¬ (r ≤ k ∧ k < r + (n + 1)) := by omega
          simp only [hin, hin2, hkr, if_false]
    · simp only [setSs]
      rw [h3]
      rfl

/-! ### Latches -/

theorem setLatch_spec (g : Group) (lane b v : Nat) (hw : swf none g.latches = true) (hb : b < 4) :
    swf none (setLatch g lane b v).latches = true ∧
    ∀ i c, c < 4 → sget none (setLatch g lane b v).latches (4 * i + c) =
      if i = lane ∧ c = b then some (BitVec.ofNat 64 v) else sget none g.latches (4 * i + c) := by
  refine ⟨swf_sset none _ _ _ hw, fun i c hc => ?_⟩
  have : sget none (setLatch g lane b v).latches (4 * i + c) =
      if 4 * i + c = 4 * lane + b then some (BitVec.ofNat 64 v) else sget none g.latches (4 * i + c) :=
    sget_sset none g.latches _ _ _ hw
  rw [this]
  by_cases h : i = lane ∧ c = b
  · simp [h]
  · have h2 : ¬ 4 * i + c = 4 * lane + b := by omega
    simp [h, h2]

theorem dropLatches_spec (g : Group) (lane : Nat) (hw : swf none g.latches = true) :
    swf none (dropLatches g lane).latches = true ∧
    ∀ i c, c < 4 → sget none (dropLatches g lane).latches (4 * i + c) =
      if i = lane then none else sget none g.latches (4 * i + c) := by
  have h0 : (dropLatches g lane).latches = sset none (sset none (sset none (sset none g.latches (4 * lane) none)
      (4 * lane + 1) none) (4 * lane + 2) none) (4 * lane + 3) none := rfl
  rw [h0]
  have w1 := swf_sset none g.latches (4 * lane) none hw
  have w2 := swf_sset none _ (4 * lane + 1) none w1
  have w3 := swf_sset none _ (4 * lane + 2) none w2
  refine ⟨swf_sset none _ _ none w3, fun i c hc => ?_⟩
  rw [sget_sset none _ _ _ _ w3, sget_sset none _ _ _ _ w2, sget_sset none _ _ _ _ w1, sget_sset none _ _ _ _ hw]
  by_cases hi : i = lane
  · subst hi
    have : c = 0 ∨ c = 1 ∨ c = 2 ∨ c = 3 := by omega
    rcases this with h | h | h | h <;> subst h <;> simp
  · have h1 : ¬ 4 * i + c = 4 * lane + 3 := by omega
    have h2 : ¬ 4 * i + c = 4 * lane + 2 := by omega
    have h3 : ¬ 4 * i + c = 4 * lane + 1 := by omega
    have h4 : ¬ 4 * i + c = 4 * lane := by omega
    simp [hi, h1, h2, h3, h4]

theorem foldl_drop_spec (lanes : List Nat) (g : Group) (hw : swf none g.latches = true) :
    swf none (lanes.foldl dropLatches g).latches = true ∧
    ∀ i c, c < 4 → sget none (lanes.foldl dropLatches g).latches (4 * i + c) =
      if i ∈ lanes then none else sget none g.latches (4 * i + c) := by
  induction lanes generalizing g with
  | nil => exact ⟨hw, fun i c _ => by simp⟩
  | cons j r ih =>
    obtain ⟨w1, e1⟩ := dropLatches_spec g j hw
    obtain ⟨w2, e2⟩ := ih (dropLatches g j) w1
    refine ⟨w2, fun i c hc => ?_⟩
    simp only [List.foldl_cons]
    rw [e2 i c hc, e1 i c hc]
    by_cases hi : i ∈ r
    · simp [hi]
    · by_cases hj : i = j <;> simp [hi, hj]

/-- The end of the live region (R172, R297). -/
theorem endLive_at (c : Ctl) (lanes : List Nat) (g : Group) (hw : swf none g.latches = true) (i b : Nat) (hb : b < 4) :
    sget none (endLive c lanes g).latches (4 * i + b) =
      if c.k9 = true ∧ bit c.sc.toNat 2 = true ∧ i ∈ lanes then none else sget none g.latches (4 * i + b) := by
  simp only [endLive]
  split
  · rename_i h
    simp only [Bool.and_eq_true] at h
    rw [(foldl_drop_spec lanes g hw).2 i b hb]
    simp [h]
  · rename_i h
    simp only [Bool.and_eq_true] at h
    rw [if_neg (fun hk => h ⟨hk.1, hk.2.1⟩)]

/-! ### Results -/

/-- One lane's result. -/
theorem putLane_spec (h : Head) (n : Nat) (latch : Option Nat) (g : Group) (i v : Nat) (hv : swf 0 g.vregs = true)
    (hl : swf none g.latches = true) (hr : h.nw = false → h.ds = false → h.dreg.toNat + n ≤ 256)
    (hb : ∀ b, latch = some b → b < 4) :
    swf 0 (putLane h n latch g (i, v)).vregs = true ∧ swf none (putLane h n latch g (i, v)).latches = true ∧
    (∀ j r, r < 256 → vregAt (putLane h n latch g (i, v)) j r =
      if j = i ∧ h.nw = false ∧ h.ds = false ∧ h.dreg.toNat ≤ r ∧ r < h.dreg.toNat + n then
        BitVec.ofNat 32 (v / 2 ^ (32 * (r - h.dreg.toNat))) else vregAt g j r) ∧
    (∀ j c, c < 4 → sget none (putLane h n latch g (i, v)).latches (4 * j + c) =
      if j = i ∧ latch = some c then some (BitVec.ofNat 64 v) else sget none g.latches (4 * j + c)) ∧
    putLane h n latch g (i, v) = { g with vregs := (putLane h n latch g (i, v)).vregs,
                                          latches := (putLane h n latch g (i, v)).latches } := by
  by_cases hw : h.nw = false ∧ h.ds = false
  · obtain ⟨h1, h2⟩ := hw
    obtain ⟨a1, a2, a3⟩ := setVs_spec g i h.dreg.toNat n v hv (hr h1 h2)
    have hlat : (setVs g false i h.dreg.toNat n v).latches = g.latches := by rw [a3]
    cases latch with
    | none =>
      simp only [putLane, h1, h2, Bool.false_or, Bool.false_eq_true, if_false]
      refine ⟨a1, by rw [hlat]; exact hl, fun j r hrr => by rw [a2 j r hrr]; simp, fun j c _ => by simp [hlat], ?_⟩
      rw [a3]
    | some b =>
      have hb4 := hb b rfl
      obtain ⟨b1, b2⟩ := setLatch_spec (setVs g false i h.dreg.toNat n v) i b v (by rw [hlat]; exact hl) hb4
      simp only [putLane, h1, h2, Bool.false_or, Bool.false_eq_true, if_false]
      refine ⟨a1, b1, fun j r hrr => ?_, fun j c hc => ?_, ?_⟩
      · have : vregAt (setLatch (setVs g false i h.dreg.toNat n v) i b v) j r
            = vregAt (setVs g false i h.dreg.toNat n v) j r := rfl
        rw [this, a2 j r hrr]; simp
      · rw [b2 j c hc, hlat]
        by_cases hc2 : j = i ∧ c = b
        · simp [hc2]
        · rw [if_neg hc2, if_neg (fun hk => hc2 ⟨hk.1, by injection hk.2 with e; exact e.symm⟩)]
      · show setLatch _ _ _ _ = _
        unfold setLatch
        rw [a3]
  · have hc : (h.nw || h.ds) = true := by
      cases h1 : h.nw <;> cases h2 : h.ds <;> simp_all
    have hno : ∀ j r, ¬ (j = i ∧ h.nw = false ∧ h.ds = false ∧ h.dreg.toNat ≤ r ∧ r < h.dreg.toNat + n) :=
      fun j r hk => hw ⟨hk.2.1, hk.2.2.1⟩
    cases latch with
    | none =>
      simp only [putLane, hc, if_true]
      exact ⟨hv, hl, fun j r _ => by rw [if_neg (hno j r)], fun j c _ => by simp, trivial⟩
    | some b =>
      obtain ⟨b1, b2⟩ := setLatch_spec g i b v hl (hb b rfl)
      simp only [putLane, hc, if_true]
      refine ⟨hv, b1, fun j r _ => by rw [if_neg (hno j r)]; rfl, fun j c hc4 => ?_, rfl⟩
      rw [b2 j c hc4]
      by_cases hc2 : j = i ∧ c = b
      · simp [hc2]
      · rw [if_neg hc2, if_neg (fun hk => hc2 ⟨hk.1, by injection hk.2 with e; exact e.symm⟩)]

/-- The lanes' results. -/
theorem foldl_putLane_spec (h : Head) (n : Nat) (latch : Option Nat) (who : List Nat) (v : Nat → Nat) (g : Group)
    (hd : who.Nodup) (hv : swf 0 g.vregs = true) (hl : swf none g.latches = true)
    (hr : who ≠ [] → h.nw = false → h.ds = false → h.dreg.toNat + n ≤ 256) (hb : ∀ b, latch = some b → b < 4) :
    let g' := (who.map fun i => (i, v i)).foldl (putLane h n latch) g
    swf none g'.latches = true ∧
    (∀ j r, r < 256 → vregAt g' j r =
      if j ∈ who ∧ h.nw = false ∧ h.ds = false ∧ h.dreg.toNat ≤ r ∧ r < h.dreg.toNat + n then
        BitVec.ofNat 32 (v j / 2 ^ (32 * (r - h.dreg.toNat))) else vregAt g j r) ∧
    (∀ j c, c < 4 → sget none g'.latches (4 * j + c) =
      if j ∈ who ∧ latch = some c then some (BitVec.ofNat 64 (v j)) else sget none g.latches (4 * j + c)) ∧
    g' = { g with vregs := g'.vregs, latches := g'.latches } := by
  induction who generalizing g with
  | nil => exact ⟨hl, fun j r _ => by simp, fun j c _ => by simp, rfl⟩
  | cons i r ih =>
    obtain ⟨p1, p2, p3, p4, p5⟩ := putLane_spec h n latch g i (v i) hv hl (hr (by simp)) hb
    obtain ⟨hni, hnr⟩ := List.nodup_cons.mp hd
    obtain ⟨q1, q2, q3, q4⟩ := ih (putLane h n latch g (i, v i)) hnr p1 p2 (fun _ => hr (by simp))
    simp only [List.map_cons, List.foldl_cons]
    refine ⟨q1, fun j k hk => ?_, fun j c hc => ?_, ?_⟩
    · rw [q2 j k hk, p3 j k hk]
      by_cases hj : j ∈ r
      · have : j ≠ i := fun e => hni (e ▸ hj)
        simp [hj, this]
      · by_cases hji : j = i
        · subst hji; simp [hni]
        · simp [hj, hji]
    · rw [q3 j c hc, p4 j c hc]
      by_cases hj : j ∈ r
      · have : j ≠ i := fun e => hni (e ▸ hj)
        simp [hj, this]
      · by_cases hji : j = i
        · subst hji; simp [hni]
        · simp [hj, hji]
    · rw [q4, p5]

theorem takers_nodup (g : Group) (h : Head) {lanes : List Nat} (hd : lanes.Nodup) : (takers g h lanes).Nodup :=
  hd.filter _

/-- Results written lane by lane are received (R172, R300, R304). -/
theorem putResults_received (h : Head) (n : Nat) (latch : Option Nat) (v : Nat → Nat) (priv : Bool) (lanes : List Nat)
    (g g' : Group) (hd : lanes.Nodup) (hcan : g.Canon)
    (hr : takers g h lanes ≠ [] → h.nw = false → h.ds = false → h.dreg.toNat + n ≤ 256)
    (hb : ∀ b, latch = some b → b < 4)
    (hf : g'.files = (putResults g h n latch ((takers g h lanes).map fun i => (i, v i))).files)
    (hl : (yieldBit h.ctl = true → priv = true) →
      g'.latches = (endLive h.ctl lanes (putResults g h n latch ((takers g h lanes).map fun i => (i, v i)))).latches) :
    Received h n latch v priv lanes g g' := by
  have hwho := takers_nodup g h hd
  have hv' : ∀ j r, vregAt g' j r = vregAt (putResults g h n latch ((takers g h lanes).map fun i => (i, v i))) j r := by
    intro j r
    have := congrArg Group.vregs hf
    simp only [vregAt]; exact congrArg (fun m => sget 0 m (256 * j + r)) this
  have hs' : ∀ r, sget 0 g'.sregs r = sget 0 (putResults g h n latch ((takers g h lanes).map fun i => (i, v i))).sregs r := by
    intro r
    have := congrArg Group.sregs hf
    exact congrArg (fun m => sget 0 m r) this
  -- the scalar registers take the first value
  obtain ⟨g1, hg1, hs1, hg1v, hg1l, hg1r⟩ : ∃ g1, putResults g h n latch ((takers g h lanes).map fun i => (i, v i)) =
      ((takers g h lanes).map fun i => (i, v i)).foldl (putLane h n latch) g1 ∧
      (∀ r, sget 0 g1.sregs r = match (takers g h lanes).head? with
        | some i => if h.nw = false ∧ h.ds = true ∧ h.dreg.toNat ≤ r ∧ r < h.dreg.toNat + n then
            BitVec.ofNat 32 (v i / 2 ^ (32 * (r - h.dreg.toNat))) else sget 0 g.sregs r
        | none => sget 0 g.sregs r) ∧ g1.vregs = g.vregs ∧ g1.latches = g.latches ∧
      g1 = { g with sregs := g1.sregs } := by
    cases hw : takers g h lanes with
    | nil => exact ⟨g, rfl, fun r => rfl, rfl, rfl, rfl⟩
    | cons i r =>
      by_cases hc : h.ds = true ∧ h.nw = false
      · obtain ⟨s1, s2, s3⟩ := setSs_spec g h.dreg.toNat n (v i) hcan.sregs
        refine ⟨setSs g false h.dreg.toNat n (v i), ?_, fun r => ?_, by rw [s3], by rw [s3], s3⟩
        · simp only [putResults, List.map_cons, hc.1, hc.2, Bool.not_false, Bool.and_self, if_true]
        · rw [s2 r]; simp [hc.1, hc.2]
      · refine ⟨g, ?_, fun r => ?_, rfl, rfl, rfl⟩
        · have : (h.ds && !h.nw) = false := by
            cases h1 : h.ds <;> cases h2 : h.nw <;> simp_all
          simp only [putResults, List.map_cons, this, Bool.false_eq_true, if_false]
        · simp only [List.head?_cons]
          rw [if_neg (fun hk => hc ⟨hk.2.1, hk.1⟩)]
  obtain ⟨q1, q2, q3, q4⟩ := foldl_putLane_spec h n latch (takers g h lanes) v g1 hwho
    (by rw [hg1v]; exact hcan.vregs) (by rw [hg1l]; exact hcan.latches) hr hb
  refine ⟨fun j r hrr => ?_, fun r => ?_, ?_, fun hk j b hb4 => ?_⟩
  · rw [hv', hg1, q2 j r hrr]
    simp only [vregAt, hg1v]
  · rw [hs', hg1, q4]
    exact hs1 r
  · rw [hf, hg1]
    have e1 : g'.vregs = (((takers g h lanes).map fun i => (i, v i)).foldl (putLane h n latch) g1).vregs := by
      rw [← hg1]; have := congrArg Group.vregs hf; exact this
    have e2 : g'.sregs = (((takers g h lanes).map fun i => (i, v i)).foldl (putLane h n latch) g1).sregs := by
      rw [← hg1]; have := congrArg Group.sregs hf; exact this
    rw [e1, e2, q4, hg1r]
    rfl
  · rw [hl hk, hg1, endLive_at _ _ _ q1 _ _ hb4, q3 j b hb4, hg1l]

/-! ### The shape of the writes, whatever the group -/

theorem setVs_shape (g : Group) (lane r n v : Nat) :
    setVs g false lane r n v = { g with vregs := (setVs g false lane r n v).vregs } := by
  induction n generalizing g r v with
  | zero => rfl
  | succ n ih => simp only [setVs]; rw [ih]; rfl

theorem setVs_congr (lane r n v : Nat) {g g' : Group} (h : g'.vregs = g.vregs) :
    (setVs g' false lane r n v).vregs = (setVs g false lane r n v).vregs := by
  induction n generalizing g g' r v with
  | zero => exact h
  | succ n ih => exact ih _ _ (by simp only [setV_vregs, h])

theorem setSs_shape (g : Group) (r n v : Nat) :
    setSs g false r n v = { g with sregs := (setSs g false r n v).sregs } := by
  induction n generalizing g r v with
  | zero => rfl
  | succ n ih => simp only [setSs]; rw [ih]; rfl

theorem setSs_congr (r n v : Nat) {g g' : Group} (h : g'.sregs = g.sregs) :
    (setSs g' false r n v).sregs = (setSs g false r n v).sregs := by
  induction n generalizing g g' r v with
  | zero => exact h
  | succ n ih => exact ih _ _ (congrArg (fun m => sset 0 m r (BitVec.ofNat 32 v)) h)

/-- The writes of one lane's result change vector registers and latches alone, by themselves. -/
theorem putLane_shape (h : Head) (n : Nat) (latch : Option Nat) (g : Group) (p : Nat × Nat) :
    putLane h n latch g p = { g with vregs := (putLane h n latch g p).vregs, latches := (putLane h n latch g p).latches } := by
  cases latch <;> simp only [putLane] <;> split <;> first | rfl | (rw [setVs_shape]; rfl) | (rw [setVs_shape])

theorem putLane_congr (h : Head) (n : Nat) (latch : Option Nat) (p : Nat × Nat) {g g' : Group}
    (hv : g'.vregs = g.vregs) : (putLane h n latch g' p).vregs = (putLane h n latch g p).vregs := by
  cases latch <;> simp only [putLane] <;> split <;>
    first | exact hv | exact setVs_congr _ _ _ _ hv

theorem putLane_latches (h : Head) (n : Nat) (latch : Option Nat) (p : Nat × Nat) {g g' : Group}
    (hl : g'.latches = g.latches) : (putLane h n latch g' p).latches = (putLane h n latch g p).latches := by
  have e : ∀ a : Group, (if h.nw || h.ds then a else setVs a false p.1 h.dreg.toNat n p.2).latches = a.latches := by
    intro a; split
    · rfl
    · rw [setVs_shape]
  cases latch with
  | none => simp only [putLane]; rw [e, e, hl]
  | some b =>
    simp only [putLane, setLatch]
    rw [e, e, hl]

theorem foldl_putLane_shape (h : Head) (n : Nat) (latch : Option Nat) (vals : List (Nat × Nat)) (g : Group) :
    vals.foldl (putLane h n latch) g = { g with vregs := (vals.foldl (putLane h n latch) g).vregs,
                                                latches := (vals.foldl (putLane h n latch) g).latches } := by
  induction vals generalizing g with
  | nil => rfl
  | cons p r ih => simp only [List.foldl_cons]; rw [ih, putLane_shape]

theorem foldl_putLane_congr (h : Head) (n : Nat) (latch : Option Nat) (vals : List (Nat × Nat)) {g g' : Group}
    (hv : g'.vregs = g.vregs) :
    (vals.foldl (putLane h n latch) g').vregs = (vals.foldl (putLane h n latch) g).vregs := by
  induction vals generalizing g g' with
  | nil => exact hv
  | cons p r ih => exact ih (putLane_congr h n latch p hv)

theorem foldl_putLane_latches (h : Head) (n : Nat) (latch : Option Nat) (vals : List (Nat × Nat)) {g g' : Group}
    (hl : g'.latches = g.latches) :
    (vals.foldl (putLane h n latch) g').latches = (vals.foldl (putLane h n latch) g).latches := by
  induction vals generalizing g g' with
  | nil => exact hl
  | cons p r ih => exact ih (putLane_latches h n latch p hl)

/-- The scalar part of a group's results. -/
def scalarPart (g : Group) (h : Head) (n : Nat) : List (Nat × Nat) → Group
  | (_, v) :: _ => if h.ds && !h.nw then setSs g false h.dreg.toNat n v else g
  | [] => g

theorem putResults_eq (g : Group) (h : Head) (n : Nat) (latch : Option Nat) (vals : List (Nat × Nat)) :
    putResults g h n latch vals = vals.foldl (putLane h n latch) (scalarPart g h n vals) := by
  cases vals with
  | nil => rfl
  | cons p r => rfl

theorem scalarPart_shape (g : Group) (h : Head) (n : Nat) (vals : List (Nat × Nat)) :
    scalarPart g h n vals = { g with sregs := (scalarPart g h n vals).sregs } := by
  cases vals with
  | nil => rfl
  | cons p r => simp only [scalarPart]; split <;> first | rfl | exact setSs_shape _ _ _ _

theorem scalarPart_congr (h : Head) (n : Nat) (vals : List (Nat × Nat)) {g g' : Group} (hs : g'.sregs = g.sregs) :
    (scalarPart g' h n vals).sregs = (scalarPart g h n vals).sregs := by
  cases vals with
  | nil => exact hs
  | cons p r => simp only [scalarPart]; split <;> first | exact hs | exact setSs_congr _ _ _ hs

/-- A group's results change its registers and latches alone. -/
theorem putResults_shape (g : Group) (h : Head) (n : Nat) (latch : Option Nat) (vals : List (Nat × Nat)) :
    putResults g h n latch vals = { g with vregs := (putResults g h n latch vals).vregs,
                                           sregs := (putResults g h n latch vals).sregs,
                                           latches := (putResults g h n latch vals).latches } := by
  rw [putResults_eq, foldl_putLane_shape, scalarPart_shape]

/-- Results of a group as `runLanes` writes them. -/
theorem putsFiles_putResults (h : Head) (n : Nat) (latch : Option Nat) :
    PutsFiles fun g vals => putResults g h n latch vals := by
  constructor
  · intro g l; rw [putResults_shape]
  · intro g l; rw [putResults_shape]
  · intro g l; rw [putResults_shape]
  · intro g l hk; rw [putResults_shape]; exact hk
  · intro g l; rw [putResults_shape]
  · intro g g' l hf
    have hv : g'.vregs = g.vregs := by have := congrArg Group.vregs hf; exact this
    have hs : g'.sregs = g.sregs := by have := congrArg Group.sregs hf; exact this
    have e1 : (putResults g' h n latch l).vregs = (putResults g h n latch l).vregs := by
      rw [putResults_eq, putResults_eq]
      apply foldl_putLane_congr
      rw [scalarPart_shape g', scalarPart_shape g]; exact hv
    have e2 : (putResults g' h n latch l).sregs = (putResults g h n latch l).sregs := by
      rw [putResults_eq, putResults_eq, foldl_putLane_shape, foldl_putLane_shape _ _ _ _ (scalarPart g h n l)]
      exact scalarPart_congr h n l hs
    rw [putResults_shape g', putResults_shape g, e1, e2]
    have := congrArg (fun x : Group => { x with vregs := (putResults g h n latch l).vregs, sregs := (putResults g h n latch l).sregs }) hf
    exact this
  · intro g g' l hl
    rw [putResults_eq, putResults_eq]
    apply foldl_putLane_latches
    rw [scalarPart_shape g', scalarPart_shape g]; exact hl

end Sys2Proof.Laws
end

