-- ==== Sys2Proof/Laws/Values.lean ====
section
/-! SUPPORT. Operands depend on a lane's own registers, and instructions that write registers or predicates complete with
their values: what exec of such an instruction comes to, once. -/

namespace Sys2Proof.Laws

open Sys2Proof.Machine

/-! ### Operands -/

theorem vregs_files {a b : Group} (h : a.files = b.files) : a.vregs = b.vregs := by
  have := congrArg Group.vregs h; exact this
theorem sregs_files {a b : Group} (h : a.files = b.files) : a.sregs = b.sregs := by
  have := congrArg Group.sregs h; exact this

theorem local_rdRegs (n : Nat) (t : Fmt) (a : Src) : Local fun x => rdRegs x n t a := by
  intro s u gh g g' i v _ hm h
  have hf := hm.files
  have hl := hm.latches
  cases a with
  | v r =>
    have e : vregAt g' i = vregAt g i := by funext k; simp only [vregAt, vregs_files hf]
    simp only [rdRegs] at h ⊢; rw [e]; exact h
  | s r => simp only [rdRegs, sregs_files hf] at h ⊢; exact h
  | b r => simp only [rdRegs, hl] at h ⊢; split at h <;> simp_all
  | imm k => exact h
  | lit w => exact h

theorem local_rd (t : Fmt) (a : Src) : Local fun x => rd x t a := local_rdRegs (fmtRegs t) t a
theorem local_rdN (a : Src) : Local fun x => rdN x a := local_rd .n32 a
theorem local_rdD (a : Src) : Local fun x => rdD x a := local_rd .n64 a

theorem local_map {α β : Type} {r : Here → Except Trap α} (h : Local r) (f : α → β) : Local fun x => (r x).map f := by
  intro s u gh g g' i v hv hm e
  cases hr : r { st := s, gh := gh, g := g, lane := i } with
  | error t => simp [hr, Except.map] at e
  | ok a =>
    have := h s u gh g g' i a hv hm hr
    simp only [hr, this, Except.map] at e ⊢; exact e

theorem local_rdInt (t : Fmt) (a : Src) : Local fun x => rdInt x t a := local_map (local_rd t a) _
theorem local_rdBits (t : Fmt) (a : Src) : Local fun x => rdBits x t a := local_map (local_rd t a) _

/-- A predicate of the lane itself. -/
theorem local_pred (k : Nat) : Local (α := Bool) fun x => .ok (predAt x.g x.lane k) := by
  intro s u gh g g' i v _ hm e
  simp only [predAt, preds_files hm.files] at e ⊢; exact e

theorem local_const {α : Type} (a : α) : Local fun _ => .ok a := by
  intro s u gh g g' i v _ _ e; exact e

theorem local_val1 {α : Type} {ra : Here → Except Trap α} (h : Local ra) (f : α → Nat) : Local (val1 ra f) := by
  intro s u gh g g' i v hv hm e
  simp only [val1] at e ⊢
  cases hr : ra { st := s, gh := gh, g := g, lane := i } with
  | error t => simp [hr] at e
  | ok a => rw [h s u gh g g' i a hv hm hr]; simpa [hr] using e

theorem local_val2 {α β : Type} {ra : Here → Except Trap α} {rb : Here → Except Trap β} (h : Local ra) (k : Local rb)
    (f : α → β → Nat) : Local (val2 ra rb f) := by
  intro s u gh g g' i v hv hm e
  simp only [val2] at e ⊢
  cases hr : ra { st := s, gh := gh, g := g, lane := i } with
  | error t => simp [hr] at e
  | ok a =>
    rw [h s u gh g g' i a hv hm hr]
    exact local_val1 k (f a) s u gh g g' i v hv hm (by simpa [hr] using e)

theorem local_val3 {α β γ : Type} {ra : Here → Except Trap α} {rb : Here → Except Trap β} {rc : Here → Except Trap γ}
    (h : Local ra) (k : Local rb) (m : Local rc) (f : α → β → γ → Nat) : Local (val3 ra rb rc f) := by
  intro s u gh g g' i v hv hm e
  simp only [val3] at e ⊢
  cases hr : ra { st := s, gh := gh, g := g, lane := i } with
  | error t => simp [hr] at e
  | ok a =>
    rw [h s u gh g g' i a hv hm hr]
    exact local_val2 k m (f a) s u gh g g' i v hv hm (by simpa [hr] using e)

/-- `val1` is the bind of its operand. -/
theorem val1_bind {α : Type} (ra : Here → Except Trap α) (f : α → Nat) (x : Here) :
    (do let a ← ra x; .ok (f a) : Except Trap Nat) = val1 ra f x := by
  simp only [val1, bind, Except.bind]; cases ra x <;> rfl

theorem val2_bind {α β : Type} (ra : Here → Except Trap α) (rb : Here → Except Trap β) (f : α → β → Nat) (x : Here) :
    (do let a ← ra x; let b ← rb x; .ok (f a b) : Except Trap Nat) = val2 ra rb f x := by
  simp only [val2, val1, bind, Except.bind]; cases ra x <;> first | rfl | (cases rb x <;> rfl)

theorem val3_bind {α β γ : Type} (ra : Here → Except Trap α) (rb : Here → Except Trap β) (rc : Here → Except Trap γ)
    (f : α → β → γ → Nat) (x : Here) :
    (do let a ← ra x; let b ← rb x; let c ← rc x; .ok (f a b c) : Except Trap Nat) = val3 ra rb rc f x := by
  simp only [val3, val2, val1, bind, Except.bind]
  cases ra x <;> first | rfl | (cases rb x <;> first | rfl | (cases rc x <;> rfl))

/-! ### Predicates -/

theorem setK_shape (g : Group) (i k : Nat) (b : Bool) : setK g i k b = { g with preds := (setK g i k b).preds } := rfl

theorem bit_testBit (n k : Nat) : bit n k = Nat.testBit n k := by
  simp only [bit, Nat.testBit_eq_decide_div_mod_eq]
  rcases Nat.mod_two_eq_zero_or_one (n / 2 ^ k) with h | h <;> simp [h]

/-- One bit replaced. -/
theorem putBit_testBit (n k j : Nat) (b : Bool) :
    Nat.testBit (n - flag (bit n k) * 2 ^ k + flag b * 2 ^ k) j = if j = k then b else Nat.testBit n j := by
  have hn : n = 2 ^ k * (n / 2 ^ k) + n % 2 ^ k := (Nat.div_add_mod n (2 ^ k)).symm
  have hr : n % 2 ^ k < 2 ^ k := Nat.mod_lt _ (Nat.two_pow_pos k)
  generalize hA : n / 2 ^ k = A at hn
  generalize hR : n % 2 ^ k = r at hn hr
  have hd : flag (bit n k) = A % 2 := by
    simp only [bit, hA]; rcases Nat.mod_two_eq_zero_or_one A with h | h <;> simp [h, flag]
  have hle : A % 2 ≤ A := Nat.mod_le _ _
  have hnew : n - flag (bit n k) * 2 ^ k + flag b * 2 ^ k = 2 ^ k * (A - A % 2 + flag b) + r := by
    rw [hd, hn, Nat.mul_add, Nat.mul_sub, Nat.mul_comm (A % 2), Nat.mul_comm (flag b)]
    have : 2 ^ k * (A % 2) ≤ 2 ^ k * A := Nat.mul_le_mul_left _ hle
    omega
  rw [hnew, Nat.testBit_two_pow_mul_add _ hr, hn, Nat.testBit_two_pow_mul_add _ hr]
  by_cases hj : j < k
  · simp [hj, show ¬ j = k by omega]
  · simp only [hj, if_false]
    by_cases hk : j = k
    · subst hk
      simp only [Nat.sub_self, if_true, Nat.testBit_zero]
      have : (A - A % 2 + flag b) % 2 = flag b := by cases b <;> simp [flag] <;> omega
      rw [this]; cases b <;> simp [flag]
    · obtain ⟨m, hm⟩ : ∃ m, j - k = m + 1 := ⟨j - k - 1, by omega⟩
      simp only [hk, if_false, hm, Nat.testBit_succ]
      congr 1
      cases b <;> simp [flag] <;> omega

/-- One predicate written. -/
theorem setK_at (g : Group) (i k : Nat) (b : Bool) (hw : swf 0 g.preds = true) (hk : k < 16) :
    swf 0 (setK g i k b).preds = true ∧
    ∀ j m, predAt (setK g i k b) j m = if j = i ∧ m = k then b else predAt g j m := by
  refine ⟨swf_sset 0 _ _ _ hw, fun j m => ?_⟩
  simp only [predAt, setK, sget_sset 0 g.preds _ _ _ hw, bit_testBit]
  by_cases hj : j = i
  · subst hj
    simp only [if_true, true_and, BitVec.toNat_ofNat, Nat.testBit_mod_two_pow]
    have := putBit_testBit (sget 0 g.preds j).toNat k m b
    simp only [bit_testBit] at this
    rw [this]
    by_cases hm : m < 16
    · simp [hm]
    · have h1 : ¬ m = k := by omega
      have h2 : (sget 0 g.preds j).toNat < 2 ^ m :=
        Nat.lt_of_lt_of_le (sget 0 g.preds j).isLt (Nat.pow_le_pow_right (by omega) (by omega))
      rw [Nat.testBit_lt_two_pow h2]; simp [h1, hm]
  · simp [hj]

theorem foldl_setK (h : Head) (who : List Nat) (v : Nat → Nat) (g : Group) (hd : who.Nodup) (hw : swf 0 g.preds = true)
    (hk : h.dreg.toNat < 16) :
    let g' := (who.map fun i => (i, v i)).foldl (fun g p => setK g p.1 h.dreg.toNat (p.2 % 2 == 1)) g
    swf 0 g'.preds = true ∧
    (∀ j k, predAt g' j k = if j ∈ who ∧ k = h.dreg.toNat then v j % 2 == 1 else predAt g j k) ∧
    g' = { g with preds := g'.preds } := by
  induction who generalizing g with
  | nil => exact ⟨hw, fun j k => by simp, rfl⟩
  | cons i r ih =>
    obtain ⟨hni, hnr⟩ := List.nodup_cons.mp hd
    obtain ⟨p1, p2⟩ := setK_at g i h.dreg.toNat (v i % 2 == 1) hw hk
    obtain ⟨q1, q2, q3⟩ := ih (setK g i h.dreg.toNat (v i % 2 == 1)) hnr p1
    simp only [List.map_cons, List.foldl_cons]
    refine ⟨q1, fun j k => ?_, ?_⟩
    · rw [q2 j k, p2 j k]
      by_cases hj : j ∈ r
      · have : j ≠ i := fun e => hni (e ▸ hj)
        simp [hj, this]
      · by_cases hji : j = i
        · subst hji; simp [hni]
        · simp [hj, hji]
    · rw [q3, setK_shape]

theorem foldl_setK_shape (h : Head) (l : List (Nat × Nat)) (g : Group) :
    l.foldl (fun g p => setK g p.1 h.dreg.toNat (p.2 % 2 == 1)) g =
      { g with preds := (l.foldl (fun g p => setK g p.1 h.dreg.toNat (p.2 % 2 == 1)) g).preds } := by
  induction l generalizing g with
  | nil => rfl
  | cons p r ih => simp only [List.foldl_cons]; rw [ih, setK_shape]

theorem foldl_setK_congr (h : Head) (l : List (Nat × Nat)) {g g' : Group} (hp : g'.preds = g.preds) :
    (l.foldl (fun g p => setK g p.1 h.dreg.toNat (p.2 % 2 == 1)) g').preds =
      (l.foldl (fun g p => setK g p.1 h.dreg.toNat (p.2 % 2 == 1)) g).preds := by
  induction l generalizing g g' with
  | nil => exact hp
  | cons p r ih => exact ih (by simp only [setK, hp])

theorem putPreds_shape (g : Group) (h : Head) (l : List (Nat × Nat)) :
    putPreds g h l = { g with preds := (putPreds g h l).preds } := by
  simp only [putPreds]; split
  · rfl
  · exact foldl_setK_shape h l g

/-- Predicates as `runLanes` writes them. -/
theorem putsFiles_putPreds (h : Head) : PutsFiles fun g vals => putPreds g h vals := by
  constructor
  · intro g l; rw [putPreds_shape]
  · intro g l; rw [putPreds_shape]
  · intro g l; rw [putPreds_shape]
  · intro g l hk; rw [putPreds_shape]; exact hk
  · intro g l; rw [putPreds_shape]
  · intro g g' l hf
    have hv : g'.preds = g.preds := preds_files hf
    have e1 : (putPreds g' h l).preds = (putPreds g h l).preds := by
      simp only [putPreds]; split
      · exact hv
      · exact foldl_setK_congr h l hv
    rw [putPreds_shape g', putPreds_shape g, e1]
    have := congrArg (fun x : Group => { x with preds := (putPreds g h l).preds }) hf
    exact this
  · intro g g' l hl
    rw [putPreds_shape g', putPreds_shape g]; exact hl

theorem putPreds_received (h : Head) (v : Nat → Nat) (priv : Bool) (lanes : List Nat) (g g' : Group)
    (hd : lanes.Nodup) (hcan : g.Canon) (hk : h.dreg.toNat < 16)
    (hf : g'.files = (putPreds g h ((takers g h lanes).map fun i => (i, v i))).files)
    (hl : (yieldBit h.ctl = true → priv = true) →
      g'.latches = (endLive h.ctl lanes (putPreds g h ((takers g h lanes).map fun i => (i, v i)))).latches) :
    ReceivedK h v priv lanes g g' := by
  have hwho := takers_nodup g h hd
  have hp : g'.preds = (putPreds g h ((takers g h lanes).map fun i => (i, v i))).preds := preds_files hf
  obtain ⟨q1, q2, q3⟩ := foldl_setK h (takers g h lanes) v g hwho hcan.preds hk
  refine ⟨fun i k => ?_, ?_, fun hy i b hb => ?_⟩
  · simp only [predAt, hp]
    change predAt (putPreds g h ((takers g h lanes).map fun i => (i, v i))) i k = _
    simp only [putPreds]
    split
    · rename_i hn; simp [hn, predAt]
    · rename_i hn
      rw [q2 i k]; simp [hn, predAt]
  · rw [hf, putPreds_shape, ← hp]
  · rw [hl hy, endLive_at _ _ _ (by rw [putPreds_shape]; exact hcan.latches) _ _ hb, putPreds_shape]
    simp

/-! ### Completion -/

theorem mfind_mem {α : Type} {m : List (Nat × α)} {k : Nat} {x : α} (h : mfind m k = some x) : (k, x) ∈ m := by
  induction m with
  | nil => simp [mfind] at h
  | cons p r ih =>
    obtain ⟨a, y⟩ := p
    simp only [mfind] at h
    split at h
    · rename_i e; injection h with h; subst h; subst e; exact List.mem_cons_self
    · split at h
      · cases h
      · exact List.mem_cons_of_mem _ (ih h)

theorem canon_of (s : State) (hc : s.FilesCanon) {k : Nat} {g : Group} (h : mfind s.groups k = some g) : g.Canon :=
  hc (k, g) (mfind_mem h)

/-- What an instruction with a register result comes to. -/
theorem toRegs_results (i : Instr) (f : Here → Except Trap Nat) (hx : ∀ s, exec i s = toRegs i s f) (hf : Local f)
    (hl : ∀ l, layout i = some l → (∃ n, l.dest = .vec n) ∧ ∀ b, l.latch = some b → b < 4) : Results i f := by
  intro s l v hm hcan hlay hleg hc
  obtain ⟨⟨n, hn⟩, hlatch⟩ := hl l hlay
  refine ⟨_, by rw [hx s, toRegs, checked, hlay]; simp only [hleg, if_true]; rfl, ?_⟩
  have hp := runLanes_mid l f _ s v hm hf (putsFiles_putResults l.head (resultRegs l.dest) l.latch) hc
  simp only [hn, resultRegs] at hp ⊢
  refine ⟨hp.world, hp.launches, hp.others, fun p hpp g hg => ?_⟩
  obtain ⟨g', h1, h2, h3, h4⟩ := hp.groups p hpp g hg
  refine ⟨g', h1, ?_, h3, h4⟩
  refine putResults_received l.head _ l.latch (v p.1) _ p.2 g g' (hm.lanes p hpp) (canon_of s hcan hg) ?_ hlatch h2.1 h2.2
  intro hne hnw hds
  obtain ⟨j, hj⟩ := List.exists_mem_of_ne_nil _ hne
  have hok := (hc p hpp g hg j hj).1
  simp only [partOk, destIn, hn, Bool.and_eq_true, Bool.or_eq_true, hnw, hds, decide_eq_true_eq] at hok
  have h256 : nvOf g ≤ 256 := by
    simp only [nvOf, bits]; have := Nat.mod_lt (g.pitw.toNat / 2 ^ 0) (show 0 < 2 ^ 5 by decide); omega
  rcases hok.2 with (h | h) | h
  · cases h
  · cases h
  · omega

/-- What an instruction with a predicate result comes to. -/
theorem toPred_results (i : Instr) (f : Here → Except Trap Nat) (hx : ∀ s, exec i s = toPred i s f) (hf : Local f)
    (hl : ∀ l, layout i = some l → legal i = true → l.head.dreg.toNat < 16) : ResultsK i f := by
  intro s l v hm hcan hlay hleg hc
  refine ⟨_, by rw [hx s, toPred, checked, hlay]; simp only [hleg, if_true]; rfl, ?_⟩
  have hp := runLanes_mid l f _ s v hm hf (putsFiles_putPreds l.head) hc
  refine ⟨hp.world, hp.launches, hp.others, fun p hpp g hg => ?_⟩
  obtain ⟨g', h1, h2, h3, h4⟩ := hp.groups p hpp g hg
  exact ⟨g', h1, putPreds_received l.head (v p.1) _ p.2 g g' (hm.lanes p hpp) (canon_of s hcan hg) (hl l hlay hleg)
    h2.1 h2.2, h3, h4⟩

end Sys2Proof.Laws
end

