-- ==== Sys2Proof/Laws/Lone.lean ====
section
/-! SUPPORT. An issue of one group in the midst of its leaf: what an instruction that acts once per issue, or in each lane, comes
to, given the state its effect leaves. -/

namespace Sys2Proof.Laws

open Sys2Proof.Machine

/-- Alike but for the marks of an issue in one group. -/
structure AlikeAt (gh : Nat) (u v : State) : Prop where
  view : SameView u v
  others : ∀ k, k ≠ gh → mfind v.groups k = mfind u.groups k
  group : ∀ g, mfind u.groups gh = some g → ∃ g', mfind v.groups gh = some g' ∧ Marked g g'

theorem AlikeAt.refl (gh : Nat) (u : State) : AlikeAt gh u u :=
  ⟨SameView.refl u, fun _ _ => rfl, fun g h => ⟨g, h, Marked.refl g⟩⟩

theorem lone_mem {s : State} {gh : Nat} {lanes : List Nat} {g : Group} (h : Lone s gh lanes g) :
    (gh, lanes) ∈ s.issue.parts := by rw [h.parts]; exact List.mem_cons_self

theorem lone_stands {s : State} {gh : Nat} {lanes : List Nat} {g : Group} (h : Lone s gh lanes g) :
    Stands s s.issue.len lanes g := stands_of_midLeaf h.mid (lone_mem h) h.group

theorem lone_nodup {s : State} {gh : Nat} {lanes : List Nat} {g : Group} (h : Lone s gh lanes g) : lanes.Nodup :=
  h.mid.lanes _ (lone_mem h)

theorem lone_ck {s : State} {gh : Nat} {lanes : List Nat} {g : Group} (h : Lone s gh lanes g) : g.ck = none := by
  obtain ⟨_, _, _, _, h, _⟩ := (lone_stands h).core; exact h

/-- The marks of a lone issue. -/
theorem noteAll_alike {s : State} {gh : Nat} {lanes : List Nat} {g : Group} (h : Lone s gh lanes g) :
    AlikeAt gh s (noteAll s) := by
  obtain ⟨hv, hn⟩ := noteAll_spec s
  refine ⟨hv, fun k hk => ?_, fun g hg => ?_⟩
  · cases hks : mfind s.groups k with
    | none => exact noteAll_none s k hks
    | some a =>
      obtain ⟨a', h1, _, h2⟩ := hn k a hks
      rw [h1, h2 (by rw [h.parts]; simp [hk])]
  · obtain ⟨a', h1, h2, _⟩ := hn gh g hg
    exact ⟨a', h1, h2⟩

theorem noteAll_issue (s : State) : (noteAll s).issue = s.issue := issue_of_world (noteAll_spec s).1.world

/-- A forced commit does nothing without a checkpoint. -/
theorem forceCommit_none {s : State} {gh : Nat} {g : Group} (h : mfind s.groups gh = some g) (hk : g.ck = none) :
    forceCommit s gh = s := by simp [forceCommit, h, hk]

/-- An instruction's end after an effect that left v, which is u but for marks. -/
theorem endGroup_does (u v : State) (gh : Nat) (lanes : List Nat) (gu : Group) (c : Ctl) (dst : SavedDst)
    (hd : lanes.Nodup) (hparts : u.issue.parts = [(gh, lanes)]) (hg : mfind u.groups gh = some gu)
    (hs : Stands u u.issue.len lanes gu) (hcan : swf none gu.latches = true) (ha : AlikeAt gh u v) :
    Passed u (yieldAfter (endGroup v gh c dst lanes []) c) fun _ lanes g g' =>
      g'.files = g.files ∧ LatchesKept c u.issue.priv lanes g g' := by
  obtain ⟨gv, hgv, hm⟩ := ha.group gu hg
  have hiss : v.issue = u.issue := issue_of_world ha.view.world
  have hsv : Stands v u.issue.len lanes gv := hs.marked ha.view hm.files hm.length fun i _ => hm.path i
  obtain ⟨g', e1, e2, e3⟩ := endGroup_mid v gh c dst lanes gv hd hgv (by rw [hiss]; exact hsv)
  rw [e1]
  rw [hiss] at e2
  refine passed_of_parts u (setGroup v gh g') c _ (fun k l g a b hab hl hfa => ⟨hab.trans hfa.1, fun hy => ?_⟩)
    (ha.view.trans (SameView.setGroup _ _ _)) (fun k hk => ?_) (fun p hp g hgp => ?_)
  · have := hfa.2 hy
    intro i b hb; rw [hl]; exact this i b hb
  · rw [hparts] at hk
    simp only [List.map_cons, List.map_nil, List.mem_singleton] at hk
    rw [setGroup_groups, mfind_mput_other _ _ _ _ hk, ha.others k hk]
  · rw [hparts] at hp
    rw [List.mem_singleton.mp hp] at hgp ⊢
    rw [hg] at hgp; cases hgp
    refine ⟨g', by simp, ⟨e2.files.trans hm.files, fun _ i b hb => ?_⟩, fun i hi n o hpos => ?_, fun i hi => ?_⟩
    · rw [e3, endLive_at c lanes gv (by rw [hm.latches]; exact hcan) i b hb, hm.latches]
      simp
    · rw [e2.moved i hi n o (by rw [pos_path (hm.path i)]; exact hpos), hm.path i]
    · rw [e2.stay i hi, hm.path i]

/-- An instruction that acts once per issue, in a lone issue in which a lane takes part. -/
theorem runOnce_lone {s : State} {gh : Nat} {lanes : List Nat} {g : Group} (h : Lone s gh lanes g) (l : Layout)
    (f : Here → List Nat → Except Trap State) (j : Nat) (r : List Nat) (ht : takers g l.head lanes = j :: r)
    (hp : partOk g l = true) {g1 : Group} (hg1 : mfind (noteAll s).groups gh = some g1) {v : State}
    (hf : f (hereAt (noteAll s) gh g1 j) (j :: r) = .ok v) :
    runOnce l f s = yieldAfter (endGroup v gh l.head.ctl (savedDst l) lanes []) l.head.ctl := by
  obtain ⟨g1', h1, hm⟩ := (noteAll_alike h).group g h.group
  rw [hg1] at h1; cases h1
  have hw : lanes.filter (fun i => guardOn g1 i l.head) = j :: r := by rw [← ht]; exact takers_files hm.files l.head lanes
  have hp1 : partOk g1 l = true := by rw [partOk_files hm.files]; exact hp
  unfold runOnce
  simp only [h.parts, List.foldl_cons, List.foldl_nil, hg1, hw]
  simp only [hereAt] at hf
  simp only [hp1, if_true, hf]

/-- It turns s into u where its effect, applied to the marked state, is u but for marks. -/
theorem does_of_runOnce {s u : State} {gh : Nat} {lanes : List Nat} {g gu : Group} (i : Instr) (h : Lone s gh lanes g)
    (l : Layout) (hlay : layout i = some l) (f : Here → List Nat → Except Trap State)
    (hx : exec i s = .next (runOnce l f s)) (j : Nat) (r : List Nat) (ht : takers g l.head lanes = j :: r)
    (hp : partOk g l = true) (hiss : u.issue = s.issue) (hgu : mfind u.groups gh = some gu)
    (hs : Stands u s.issue.len lanes gu) (hcan : swf none gu.latches = true) (hlate : isLate l = false)
    (hf : ∀ g1, mfind (noteAll s).groups gh = some g1 → Marked g g1 →
      ∃ v, f (hereAt (noteAll s) gh g1 j) (j :: r) = .ok v ∧ AlikeAt gh u v) : Does i s u := by
  obtain ⟨g1, h1, hm⟩ := (noteAll_alike h).group g h.group
  obtain ⟨v, hv, ha⟩ := hf g1 h1 hm
  refine ⟨l, _, hlay, hx, ?_⟩
  rw [runOnce_lone h l f j r ht hp h1 hv]
  simp only [endingLanes, hlate, Bool.false_eq_true, if_false]
  have := endGroup_does u v gh lanes gu l.head.ctl (savedDst l) (lone_nodup h) (by rw [hiss, h.parts]) hgu
    (by rw [hiss]; exact hs) hcan ha
  rw [hiss] at this; exact this

/-- What lanes none of which traps make of an instruction. -/
theorem tryLanes_ok {α : Type} (l : Layout) (f : Here → Except Trap α) (st : State) (gh : Nat) (g : Group)
    (lanes : List Nat) (v : Nat → α)
    (h : ∀ i ∈ takers g l.head lanes, partOk g l = true ∧ f (hereAt st gh g i) = .ok (v i)) :
    donesOf (tryLanes l f st gh g lanes) = (takers g l.head lanes).map (fun i => (i, v i)) ∧
    failsOf (tryLanes l f st gh g lanes) = [] := by
  induction lanes with
  | nil => exact ⟨rfl, rfl⟩
  | cons i r ih =>
    by_cases hg : guardOn g i l.head = true
    · have ht : takers g l.head (i :: r) = i :: takers g l.head r := by simp [takers, hg]
      rw [ht] at h ⊢
      obtain ⟨h1, h2⟩ := h i List.mem_cons_self
      obtain ⟨d, e⟩ := ih fun j hj => h j (List.mem_cons_of_mem _ hj)
      have : laneTry l f { st := st, gh := gh, g := g, lane := i } = some (.ok (v i)) := by
        simp only [laneTry, hg, h1, Bool.not_true, Bool.false_eq_true, if_false]
        exact congrArg some h2
      simp only [tryLanes, List.filterMap_cons, this, Option.map_some] at d e ⊢
      refine ⟨?_, ?_⟩
      · simp only [donesOf, List.filterMap_cons, List.map_cons] at d ⊢
        rw [d]
      · simp only [failsOf, List.filterMap_cons] at e ⊢
        exact e
    · have ht : takers g l.head (i :: r) = takers g l.head r := by simp [takers, hg]
      rw [ht] at h ⊢
      have : laneTry l f { st := st, gh := gh, g := g, lane := i } = none := by simp [laneTry, hg]
      simp only [tryLanes, List.filterMap_cons, this, Option.map_none]
      exact ih h

/-- The lanes that take part in what the lanes make of an instruction. -/
theorem tryLanes_who {α : Type} (l : Layout) (f : Here → Except Trap α) (st : State) (gh : Nat) (g : Group)
    (lanes : List Nat) : (tryLanes l f st gh g lanes).map (·.1) = takers g l.head lanes := by
  induction lanes with
  | nil => rfl
  | cons i r ih =>
    simp only [tryLanes, takers] at ih ⊢
    have hc : laneTry l f { st := st, gh := gh, g := g, lane := i } = if guardOn g i l.head then
        some (if partOk g l then f { st := st, gh := gh, g := g, lane := i } else .error (illop st)) else none := by
      simp only [laneTry]
      split <;> rename_i hg
      · simp_all
      · split <;> simp_all
    rw [List.filterMap_cons, hc, List.filter_cons]
    by_cases hg : guardOn g i l.head = true
    · simp only [hg, if_true, Option.map_some, List.map_cons, ih]
    · simp only [hg, if_false, Option.map_none, Bool.false_eq_true, ih]

theorem yieldBit_issueCtl (l : Layout) : yieldBit (issueCtl l) = yieldBit l.head.ctl := by
  simp only [issueCtl]
  split
  · simp only [yieldBit]
    generalize l.head.ctl.sc = x
    revert x; decide
  · rfl

theorem yieldAfter_issueCtl (l : Layout) (s : State) : yieldAfter s (issueCtl l) = yieldAfter s l.head.ctl := by
  simp only [yieldAfter, yieldBit_issueCtl]

theorem issueCtl_late (l : Layout) (h : isLate l = true) :
    ¬ ((issueCtl l).k9 = true ∧ bit (issueCtl l).sc.toNat 2 = true) := by
  simp only [issueCtl, h, Bool.true_and]
  split
  · generalize l.head.ctl.sc = x
    intro h
    have hb : ∀ x : BitVec 4, bit (x &&& 0b1011).toNat 2 = false := by decide
    exact absurd (h.2.symm.trans (hb x)) (by decide)
  · rename_i hk; exact fun hb => hk hb.1

/-- The end of an instruction that completes at its issue or later (R172), in a lone issue. -/
theorem endGroup_late (u v : State) (gh : Nat) (lanes : List Nat) (gu : Group) (l : Layout) (dst : SavedDst)
    (hd : lanes.Nodup) (hparts : u.issue.parts = [(gh, lanes)]) (hg : mfind u.groups gh = some gu)
    (hs : Stands u u.issue.len lanes gu) (hcan : swf none gu.latches = true) (ha : AlikeAt gh u v) :
    Passed u (yieldAfter (endGroup (endOff l gh lanes (takers gu l.head lanes) v) gh (issueCtl l) dst lanes []) l.head.ctl)
      fun _ lanes g g' => g'.files = g.files ∧ LatchesKept l.head.ctl u.issue.priv (endingLanes l g lanes) g g' := by
  cases hl : isLate l with
  | false =>
    have h1 : endOff l gh lanes (takers gu l.head lanes) v = v := by simp [endOff, hl]
    have h2 : issueCtl l = l.head.ctl := by simp [issueCtl, hl]
    rw [h1, h2]
    simp only [endingLanes, hl, Bool.false_eq_true, if_false]
    exact endGroup_does u v gh lanes gu l.head.ctl dst hd hparts hg hs hcan ha
  | true =>
    obtain ⟨gv, hgv, hm⟩ := ha.group gu hg
    have hoff : (lanes.filter fun i => !(takers gu l.head lanes).contains i) = lanes.filter fun i => !guardOn gu i l.head := by
      apply List.filter_congr
      intro i hi
      simp [takers, hi]
    obtain ⟨f1, f2, f3⟩ := endLive_spec l.head.ctl (lanes.filter fun i => !guardOn gu i l.head) gu
    obtain ⟨k1, k2, k3⟩ := endLive_spec l.head.ctl (lanes.filter fun i => !guardOn gu i l.head) gv
    have he : endOff l gh lanes (takers gu l.head lanes) v =
        setGroup v gh (endLive l.head.ctl (lanes.filter fun i => !guardOn gu i l.head) gv) := by
      simp only [endOff, hl, if_true, onGroup, hgv, hoff]
    rw [he, ← yieldAfter_issueCtl]
    have h0 := endGroup_does (setGroup u gh (endLive l.head.ctl (lanes.filter fun i => !guardOn gu i l.head) gu))
      (setGroup v gh (endLive l.head.ctl (lanes.filter fun i => !guardOn gu i l.head) gv)) gh lanes
      (endLive l.head.ctl (lanes.filter fun i => !guardOn gu i l.head) gu) (issueCtl l) dst hd hparts (by simp)
      (hs.marked (SameView.setGroup _ _ _) f1 (by rw [f2]) fun i _ => by simp only [laneAt, f2])
      (by
        simp only [endLive]
        split
        · exact (foldl_drop_spec _ gu hcan).1
        · exact hcan)
      ⟨⟨ha.view.world, ha.view.launches⟩, fun k hk => by
          simp only [setGroup_groups, mfind_mput_other _ _ _ _ hk, ha.others k hk], fun g hgg => by
          simp only [setGroup_groups, mfind_mput_same, Option.some.injEq] at hgg ⊢
          subst hgg
          exact ⟨_, rfl, k1.trans (hm.files.trans f1.symm), endLive_latches _ _ hm.latches,
            k3.trans (hm.turn.trans f3.symm), by rw [k2, f2, hm.length], fun i => by
              have := hm.path i
              simpa only [laneAt, k2, f2] using this⟩⟩
    refine ⟨h0.world, h0.launches, fun k hk => ?_, fun p hp g hgp => ?_⟩
    · have hne : k ≠ gh := by rw [hparts] at hk; simpa using hk
      have := h0.others k hk
      rwa [setGroup_groups, mfind_mput_other _ _ _ _ hne] at this
    · have hpe : p = (gh, lanes) := by rw [hparts] at hp; simpa using hp
      subst hpe
      rw [hg] at hgp; cases hgp
      obtain ⟨g', a1, ⟨a2, a3⟩, a4, a5⟩ := h0.groups (gh, lanes) hp _ (mfind_mput_same ..)
      refine ⟨g', a1, ⟨a2.trans f1, fun hy i b hb => ?_⟩, ?_, ?_⟩
      · have hy' : yieldBit (issueCtl l) = true → u.issue.priv = true := fun h => hy (by
          rw [← yieldBit_issueCtl]; exact h)
        have h3 := a3 hy' i b hb
        rw [h3, if_neg (fun h => issueCtl_late l hl ⟨h.1, h.2.1⟩), endLive_at _ _ gu hcan i b hb]
        simp [endingLanes, hl]
      · intro i hi n o hpos
        have h5 := a4 i hi n o (by simpa only [laneAt, f2] using hpos)
        simp only [laneAt, f2] at h5
        exact h5
      · intro i hi
        have h5 := a5 i hi; simpa only [laneAt, f2] using h5

/-- An instruction that acts in each lane, in a lone issue: it turns s into u where its effect, applied to the marked state,
is u but for marks. -/
theorem does_of_runEach {α : Type} {s u : State} {gh : Nat} {lanes : List Nat} {g gu : Group} (i : Instr)
    (h : Lone s gh lanes g) (l : Layout) (hlay : layout i = some l) (pre : State → Nat → State) (f : Here → Except Trap α)
    (eff : State → Nat → List (Nat × α) → State) (hx : exec i s = .next (runEach l pre f eff s))
    (hpre : pre (noteAll s) gh = noteAll s) (v : Nat → α) (hiss : u.issue = s.issue)
    (hgu : mfind u.groups gh = some gu) (hs : Stands u s.issue.len lanes gu) (hcan : swf none gu.latches = true)
    (hpreds : gu.preds = g.preds)
    (hf : ∀ g1, mfind (noteAll s).groups gh = some g1 → Marked g g1 →
      (∀ j ∈ takers g l.head lanes, partOk g l = true ∧ f (hereAt (noteAll s) gh g1 j) = .ok (v j)) ∧
      AlikeAt gh u (eff (noteAll s) gh ((takers g l.head lanes).map fun j => (j, v j)))) : Does i s u := by
  obtain ⟨g1, h1, hm⟩ := (noteAll_alike h).group g h.group
  obtain ⟨hv, ha⟩ := hf g1 h1 hm
  have ht : takers g1 l.head lanes = takers g l.head lanes := takers_files hm.files l.head lanes
  have ho := tryLanes_ok l f (noteAll s) gh g1 lanes v (by
    intro j hj; rw [ht] at hj; rw [partOk_files hm.files]; exact hv j hj)
  rw [ht] at ho
  refine ⟨l, _, hlay, hx, ?_⟩
  have htu : takers gu l.head lanes = takers g l.head lanes := by simp only [takers, guardOn, predAt, hpreds]
  have he : runEach l pre f eff s = yieldAfter (endGroup (endOff l gh lanes (takers gu l.head lanes)
      (eff (noteAll s) gh ((takers g l.head lanes).map fun j => (j, v j)))) gh (issueCtl l) (savedDst l) lanes [])
      l.head.ctl := by
    unfold runEach
    simp only [h.parts, List.foldl_cons, List.foldl_nil, h1, hpre, ite_self, ho.1, ho.2, tryLanes_who, ht, htu]
  rw [he]
  have := endGroup_late u _ gh lanes gu l (savedDst l) (lone_nodup h) (by rw [hiss, h.parts]) hgu
    (by rw [hiss]; exact hs) hcan ha
  rw [hiss] at this; exact this

end Sys2Proof.Laws
end

