-- ==== Sys2Proof/Laws/PerInstr.lean ====
section
/-! SUPPORT. The family F: an instruction's fields fill the words that its format gives them, and every field's value fits its
field (R298). A step of the package has no layout, so it says nothing there. -/

namespace Sys2Proof.Laws

open Sys2Proof.Machine

/-- The bits that fields take together. -/
def widths (l : List (Nat × Nat)) : Nat := (l.map (·.1)).foldl (· + ·) 0

/-- Every field's value fits its bits. -/
def Fits : List (Nat × Nat) → Prop
  | [] => True
  | p :: r => p.2 < 2 ^ p.1 ∧ Fits r

/-- The fields of a layout fill their words: FX of an F4 instruction 16 bits, word 1 beside A and B 14, word 2 beside C 23; and
every value fits (R298). -/
def FieldsFit (l : Layout) : Prop :=
  l.op < 256 ∧ (l.words = 1 ∨ l.words = 2 ∨ l.words = 3) ∧ widths l.fx = (if l.words = 1 then 16 else 0) ∧
  widths l.moda = (if l.words = 1 then 0 else 14) ∧ widths l.modb = (if l.words = 3 then 23 else 0) ∧
  Fits l.fx ∧ Fits l.moda ∧ Fits l.modb

theorem fmtCode_lt (t : Fmt) : fmtCode t < 2 ^ 4 := by cases t <;> decide
theorem flag_lt (b : Bool) : flag b < 2 ^ 1 := by cases b <;> decide
theorem ordCode_lt (o : Ord) : ordCode o < 2 ^ 3 := by cases o <;> decide
theorem scopeCode_lt (o : Scope) : scopeCode o < 2 ^ 4 := by cases o <;> decide
theorem aopCode_lt (o : Aop) : aopCode o < 2 ^ 4 := by cases o <;> decide

namespace F

/-- What the family says of an instruction. -/
def Statement (i : Instr) : Prop := ∀ l, layout i = some l → FieldsFit l

theorem powerOff : Statement (.powerOff) := by
  intro l h
  cases h

theorem perstRelease : ∀ x0, Statement (.perstRelease x0) := by
  intro x0 l h
  cases h

theorem applyPartition : ∀ x0 x1, Statement (.applyPartition x0 x1) := by
  intro x0 x1 l h
  cases h

theorem roleChangeRequest : ∀ x0 x1, Statement (.roleChangeRequest x0 x1) := by
  intro x0 x1 l h
  cases h

theorem layerDrainComplete : ∀ x0 x1, Statement (.layerDrainComplete x0 x1) := by
  intro x0 x1 l h
  cases h

theorem layerFlushComplete : ∀ x0, Statement (.layerFlushComplete x0) := by
  intro x0 l h
  cases h

theorem layerReenumComplete : ∀ x0, Statement (.layerReenumComplete x0) := by
  intro x0 l h
  cases h

theorem coreFailure : ∀ x0, Statement (.coreFailure x0) := by
  intro x0 l h
  cases h

theorem spareTakeover : ∀ x0, Statement (.spareTakeover x0) := by
  intro x0 l h
  cases h

theorem freqRequest : ∀ x0 x1, Statement (.freqRequest x0 x1) := by
  intro x0 x1 l h
  cases h

theorem relockEnd : ∀ x0, Statement (.relockEnd x0) := by
  intro x0 l h
  cases h

theorem powerSample : ∀ x0, Statement (.powerSample x0) := by
  intro x0 l h
  cases h

theorem powerStepDown : Statement (.powerStepDown) := by
  intro l h
  cases h

theorem powerStepUp : Statement (.powerStepUp) := by
  intro l h
  cases h

theorem valobKeyLoad : ∀ x0 x1 x2 x3, Statement (.valobKeyLoad x0 x1 x2 x3) := by
  intro x0 x1 x2 x3 l h
  cases h

theorem portEnable : ∀ x0 x1, Statement (.portEnable x0 x1) := by
  intro x0 x1 l h
  cases h

theorem portDisable : ∀ x0, Statement (.portDisable x0) := by
  intro x0 l h
  cases h

theorem trainDone : ∀ x0, Statement (.trainDone x0) := by
  intro x0 l h
  cases h

theorem phyLockLoss : ∀ x0 x1, Statement (.phyLockLoss x0 x1) := by
  intro x0 x1 l h
  cases h

theorem switch : ∀ x0, Statement (.switch x0) := by
  intro x0 l h
  cases h

theorem flitSend : ∀ x0 x1, Statement (.flitSend x0 x1) := by
  intro x0 x1 l h
  cases h

theorem iclimitTimeout : ∀ x0, Statement (.iclimitTimeout x0) := by
  intro x0 l h
  cases h

theorem dataFlit : ∀ x0 x1, Statement (.dataFlit x0 x1) := by
  intro x0 x1 l h
  cases h

theorem markerFlit : ∀ x0 x1, Statement (.markerFlit x0 x1) := by
  intro x0 x1 l h
  cases h

theorem ackFlit : ∀ x0 x1, Statement (.ackFlit x0 x1) := by
  intro x0 x1 l h
  cases h

theorem nakFlit : ∀ x0 x1, Statement (.nakFlit x0 x1) := by
  intro x0 x1 l h
  cases h

theorem idleFlit : ∀ x0 x1, Statement (.idleFlit x0 x1) := by
  intro x0 x1 l h
  cases h

theorem timeFlit : ∀ x0 x1 x2, Statement (.timeFlit x0 x1 x2) := by
  intro x0 x1 x2 l h
  cases h

theorem timeExchange : ∀ x0 x1, Statement (.timeExchange x0 x1) := by
  intro x0 x1 l h
  cases h

theorem tsyncLoss : Statement (.tsyncLoss) := by
  intro l h
  cases h

theorem replayTimeout : ∀ x0, Statement (.replayTimeout x0) := by
  intro x0 l h
  cases h

theorem keyWindowRead : ∀ x0, Statement (.keyWindowRead x0) := by
  intro x0 l h
  cases h

theorem protectedWrite : ∀ x0 x1, Statement (.protectedWrite x0 x1) := by
  intro x0 x1 l h
  cases h

theorem registerWrite : ∀ x0 x1 x2, Statement (.registerWrite x0 x1 x2) := by
  intro x0 x1 x2 l h
  cases h

theorem apertureAccess : ∀ x0 x1 x2, Statement (.apertureAccess x0 x1 x2) := by
  intro x0 x1 x2 l h
  cases h

theorem hostTlp : ∀ x0 x1 x2 x3, Statement (.hostTlp x0 x1 x2 x3) := by
  intro x0 x1 x2 x3 l h
  cases h

theorem tdispLock : ∀ x0 x1, Statement (.tdispLock x0 x1) := by
  intro x0 x1 l h
  cases h

theorem tdispStart : ∀ x0, Statement (.tdispStart x0) := by
  intro x0 l h
  cases h

theorem stopInterface : ∀ x0, Statement (.stopInterface x0) := by
  intro x0 l h
  cases h

theorem cxlPoison : ∀ x0 x1, Statement (.cxlPoison x0 x1) := by
  intro x0 x1 l h
  cases h

theorem cxlLinkDown : ∀ x0, Statement (.cxlLinkDown x0) := by
  intro x0 l h
  cases h

theorem accessTableWrite : ∀ x0 x1 x2, Statement (.accessTableWrite x0 x1 x2) := by
  intro x0 x1 x2 l h
  cases h

theorem memoryKeyLoad : ∀ x0 x1, Statement (.memoryKeyLoad x0 x1) := by
  intro x0 x1 l h
  cases h

theorem memoryKeyErase : ∀ x0, Statement (.memoryKeyErase x0) := by
  intro x0 l h
  cases h

theorem setKattr : ∀ x0 x1 x2, Statement (.setKattr x0 x1 x2) := by
  intro x0 x1 x2 l h
  cases h

theorem copyInKeyLoad : ∀ x0 x1, Statement (.copyInKeyLoad x0 x1) := by
  intro x0 x1 l h
  cases h

theorem getMeasurements : ∀ x0, Statement (.getMeasurements x0) := by
  intro x0 l h
  cases h

theorem kspawn : ∀ x0 x1 x2, Statement (.kspawn x0 x1 x2) := by
  intro x0 x1 x2 l h
  cases h

theorem hostFetchAdd : ∀ x0 x1, Statement (.hostFetchAdd x0 x1) := by
  intro x0 x1 l h
  cases h

theorem peerFetchAdd : ∀ x0 x1 x2, Statement (.peerFetchAdd x0 x1 x2) := by
  intro x0 x1 x2 l h
  cases h

theorem packetConsume : ∀ x0, Statement (.packetConsume x0) := by
  intro x0 l h
  cases h

theorem ringfaultClear : ∀ x0, Statement (.ringfaultClear x0) := by
  intro x0 l h
  cases h

theorem packetStart : ∀ x0, Statement (.packetStart x0) := by
  intro x0 l h
  cases h

theorem launch : ∀ x0, Statement (.launch x0) := by
  intro x0 l h
  cases h

theorem range : ∀ x0, Statement (.range x0) := by
  intro x0 l h
  cases h

theorem copy : ∀ x0, Statement (.copy x0) := by
  intro x0 l h
  cases h

theorem stream : ∀ x0, Statement (.stream x0) := by
  intro x0 l h
  cases h

theorem reduce : ∀ x0 x1, Statement (.reduce x0 x1) := by
  intro x0 x1 l h
  cases h

theorem marker : ∀ x0, Statement (.marker x0) := by
  intro x0 l h
  cases h

theorem bwait : ∀ x0, Statement (.bwait x0) := by
  intro x0 l h
  cases h

theorem bwaitWake : ∀ x0, Statement (.bwaitWake x0) := by
  intro x0 l h
  cases h

theorem raise : ∀ x0, Statement (.raise x0) := by
  intro x0 l h
  cases h

theorem endpointResolve : ∀ x0, Statement (.endpointResolve x0) := by
  intro x0 l h
  cases h

theorem encCopyCheck : ∀ x0, Statement (.encCopyCheck x0) := by
  intro x0 l h
  cases h

theorem shuckerLanding : ∀ x0 x1 x2, Statement (.shuckerLanding x0 x1 x2) := by
  intro x0 x1 x2 l h
  cases h

theorem copyResume : ∀ x0, Statement (.copyResume x0) := by
  intro x0 l h
  cases h

theorem copyDone : ∀ x0, Statement (.copyDone x0) := by
  intro x0 l h
  cases h

theorem mmawAccept : ∀ x0, Statement (.mmawAccept x0) := by
  intro x0 l h
  cases h

theorem streamTile : ∀ x0, Statement (.streamTile x0) := by
  intro x0 l h
  cases h

theorem stampWrite : ∀ x0, Statement (.stampWrite x0) := by
  intro x0 l h
  cases h

theorem launchRelease : ∀ x0, Statement (.launchRelease x0) := by
  intro x0 l h
  cases h

theorem dispatchTranslate : ∀ x0 x1, Statement (.dispatchTranslate x0 x1) := by
  intro x0 x1 l h
  cases h

theorem admission : ∀ x0, Statement (.admission x0) := by
  intro x0 l h
  cases h

theorem periodRollover : ∀ x0, Statement (.periodRollover x0) := by
  intro x0 l h
  cases h

theorem overrun : ∀ x0, Statement (.overrun x0) := by
  intro x0 l h
  cases h

theorem steal : ∀ x0 x1, Statement (.steal x0 x1) := by
  intro x0 x1 l h
  cases h

theorem groupExit : ∀ x0, Statement (.groupExit x0) := by
  intro x0 l h
  cases h

theorem preempt : ∀ x0 x1 x2 x3, Statement (.preempt x0 x1 x2 x3) := by
  intro x0 x1 x2 x3 l h
  cases h

theorem preemptDeadline : ∀ x0, Statement (.preemptDeadline x0) := by
  intro x0 l h
  cases h

theorem contextDrainComplete : ∀ x0, Statement (.contextDrainComplete x0) := by
  intro x0 l h
  cases h

theorem huskWritten : ∀ x0 x1, Statement (.huskWritten x0 x1) := by
  intro x0 x1 l h
  cases h

theorem restore : ∀ x0 x1, Statement (.restore x0 x1) := by
  intro x0 x1 l h
  cases h

theorem layerDrainTimeout : ∀ x0 x1, Statement (.layerDrainTimeout x0 x1) := by
  intro x0 x1 l h
  cases h

theorem spill : ∀ x0, Statement (.spill x0) := by
  intro x0 l h
  cases h

theorem regrowGrant : ∀ x0, Statement (.regrowGrant x0) := by
  intro x0 l h
  cases h

theorem contextCreate : ∀ x0 x1 x2 x3 x4, Statement (.contextCreate x0 x1 x2 x3 x4) := by
  intro x0 x1 x2 x3 x4 l h
  cases h

theorem contextDestroy : ∀ x0, Statement (.contextDestroy x0) := by
  intro x0 l h
  cases h

theorem entryWrite : ∀ x0 x1 x2 x3 x4, Statement (.entryWrite x0 x1 x2 x3 x4) := by
  intro x0 x1 x2 x3 x4 l h
  cases h

theorem shootDown : ∀ x0 x1 x2 x3, Statement (.shootDown x0 x1 x2 x3) := by
  intro x0 x1 x2 x3 l h
  cases h

theorem shootDownComplete : ∀ x0 x1, Statement (.shootDownComplete x0 x1) := by
  intro x0 x1 l h
  cases h

theorem homeFence : ∀ x0 x1 x2, Statement (.homeFence x0 x1 x2) := by
  intro x0 x1 x2 l h
  cases h

theorem peerAccess : ∀ x0 x1 x2 x3, Statement (.peerAccess x0 x1 x2 x3) := by
  intro x0 x1 x2 x3 l h
  cases h

theorem holdTimeout : ∀ x0 x1, Statement (.holdTimeout x0 x1) := by
  intro x0 x1 l h
  cases h

theorem starvationLimit : ∀ x0 x1, Statement (.starvationLimit x0 x1) := by
  intro x0 x1 l h
  cases h

theorem icacheFill : ∀ x0 x1, Statement (.icacheFill x0 x1) := by
  intro x0 x1 l h
  cases h

theorem nodeRecordFill : ∀ x0 x1, Statement (.nodeRecordFill x0 x1) := by
  intro x0 x1 l h
  cases h

theorem bankRequestServed : ∀ x0 x1, Statement (.bankRequestServed x0 x1) := by
  intro x0 x1 l h
  cases h

theorem loadComplete : ∀ x0 x1, Statement (.loadComplete x0 x1) := by
  intro x0 x1 l h
  cases h

theorem matrixEntryComplete : ∀ x0, Statement (.matrixEntryComplete x0) := by
  intro x0 l h
  cases h

theorem uncorrectableError : ∀ x0, Statement (.uncorrectableError x0) := by
  intro x0 l h
  cases h

theorem homeStore : ∀ x0, Statement (.homeStore x0) := by
  intro x0 l h
  cases h

theorem pushDepart : ∀ x0 x1, Statement (.pushDepart x0 x1) := by
  intro x0 x1 l h
  cases h

theorem pushLanding : ∀ x0, Statement (.pushLanding x0) := by
  intro x0 l h
  cases h

theorem teardownNotice : ∀ x0, Statement (.teardownNotice x0) := by
  intro x0 l h
  cases h

theorem mwaitReread : ∀ x0, Statement (.mwaitReread x0) := by
  intro x0 l h
  cases h

theorem debugHalt : ∀ x0, Statement (.debugHalt x0) := by
  intro x0 l h
  cases h

theorem debugResume : ∀ x0, Statement (.debugResume x0) := by
  intro x0 l h
  cases h

theorem debugDrain : ∀ x0, Statement (.debugDrain x0) := by
  intro x0 l h
  cases h

theorem debugDrainDone : ∀ x0, Statement (.debugDrainDone x0) := by
  intro x0 l h
  cases h

theorem hang : ∀ x0, Statement (.hang x0) := by
  intro x0 l h
  cases h

theorem setHangt : ∀ x0 x1, Statement (.setHangt x0 x1) := by
  intro x0 x1 l h
  cases h

theorem sample : ∀ x0 x1, Statement (.sample x0 x1) := by
  intro x0 x1 l h
  cases h

theorem setSamplePeriod : ∀ x0 x1 x2, Statement (.setSamplePeriod x0 x1 x2) := by
  intro x0 x1 x2 l h
  cases h

theorem setTraceRing : ∀ x0 x1 x2, Statement (.setTraceRing x0 x1 x2) := by
  intro x0 x1 x2 l h
  cases h

theorem setLaneCycleRange : ∀ x0 x1 x2 x3, Statement (.setLaneCycleRange x0 x1 x2 x3) := by
  intro x0 x1 x2 x3 l h
  cases h

theorem nop : ∀ x0, Statement (.nop x0) := by
  intro x0 l h
  obtain rfl := Option.some.inj h
  refine ⟨Nat.le_of_ble_eq_true rfl, ?_, rfl, rfl, rfl, ?_⟩
  · first | exact .inl rfl | exact .inr (.inl rfl) | exact .inr (.inr rfl)
  · and_intros <;> first | exact trivial | exact BitVec.isLt _ | exact fmtCode_lt _ | exact flag_lt _ | exact ordCode_lt _ | exact scopeCode_lt _ | exact aopCode_lt _ | exact Nat.le_of_ble_eq_true rfl

theorem exit : ∀ x0 x1, Statement (.exit x0 x1) := by
  intro x0 x1 l h
  obtain rfl := Option.some.inj h
  refine ⟨Nat.le_of_ble_eq_true rfl, ?_, rfl, rfl, rfl, ?_⟩
  · first | exact .inl rfl | exact .inr (.inl rfl) | exact .inr (.inr rfl)
  · and_intros <;> first | exact trivial | exact BitVec.isLt _ | exact fmtCode_lt _ | exact flag_lt _ | exact ordCode_lt _ | exact scopeCode_lt _ | exact aopCode_lt _ | exact Nat.le_of_ble_eq_true rfl

theorem next : ∀ x0 x1, Statement (.next x0 x1) := by
  intro x0 x1 l h
  obtain rfl := Option.some.inj h
  refine ⟨Nat.le_of_ble_eq_true rfl, ?_, rfl, rfl, rfl, ?_⟩
  · first | exact .inl rfl | exact .inr (.inl rfl) | exact .inr (.inr rfl)
  · and_intros <;> first | exact trivial | exact BitVec.isLt _ | exact fmtCode_lt _ | exact flag_lt _ | exact ordCode_lt _ | exact scopeCode_lt _ | exact aopCode_lt _ | exact Nat.le_of_ble_eq_true rfl

theorem ret : ∀ x0, Statement (.ret x0) := by
  intro x0 l h
  obtain rfl := Option.some.inj h
  refine ⟨Nat.le_of_ble_eq_true rfl, ?_, rfl, rfl, rfl, ?_⟩
  · first | exact .inl rfl | exact .inr (.inl rfl) | exact .inr (.inr rfl)
  · and_intros <;> first | exact trivial | exact BitVec.isLt _ | exact fmtCode_lt _ | exact flag_lt _ | exact ordCode_lt _ | exact scopeCode_lt _ | exact aopCode_lt _ | exact Nat.le_of_ble_eq_true rfl

theorem trap : ∀ x0 x1, Statement (.trap x0 x1) := by
  intro x0 x1 l h
  obtain rfl := Option.some.inj h
  refine ⟨Nat.le_of_ble_eq_true rfl, ?_, rfl, rfl, rfl, ?_⟩
  · first | exact .inl rfl | exact .inr (.inl rfl) | exact .inr (.inr rfl)
  · and_intros <;> first | exact trivial | exact BitVec.isLt _ | exact fmtCode_lt _ | exact flag_lt _ | exact ordCode_lt _ | exact scopeCode_lt _ | exact aopCode_lt _ | exact Nat.le_of_ble_eq_true rfl

theorem tret : ∀ x0 x1 x2 x3, Statement (.tret x0 x1 x2 x3) := by
  intro x0 x1 x2 x3 l h
  obtain rfl := Option.some.inj h
  refine ⟨Nat.le_of_ble_eq_true rfl, ?_, rfl, rfl, rfl, ?_⟩
  · first | exact .inl rfl | exact .inr (.inl rfl) | exact .inr (.inr rfl)
  · and_intros <;> first | exact trivial | exact BitVec.isLt _ | exact fmtCode_lt _ | exact flag_lt _ | exact ordCode_lt _ | exact scopeCode_lt _ | exact aopCode_lt _ | exact Nat.le_of_ble_eq_true rfl

theorem yield : ∀ x0, Statement (.yield x0) := by
  intro x0 l h
  obtain rfl := Option.some.inj h
  refine ⟨Nat.le_of_ble_eq_true rfl, ?_, rfl, rfl, rfl, ?_⟩
  · first | exact .inl rfl | exact .inr (.inl rfl) | exact .inr (.inr rfl)
  · and_intros <;> first | exact trivial | exact BitVec.isLt _ | exact fmtCode_lt _ | exact flag_lt _ | exact ordCode_lt _ | exact scopeCode_lt _ | exact aopCode_lt _ | exact Nat.le_of_ble_eq_true rfl

theorem halt : ∀ x0 x1, Statement (.halt x0 x1) := by
  intro x0 x1 l h
  obtain rfl := Option.some.inj h
  refine ⟨Nat.le_of_ble_eq_true rfl, ?_, rfl, rfl, rfl, ?_⟩
  · first | exact .inl rfl | exact .inr (.inl rfl) | exact .inr (.inr rfl)
  · and_intros <;> first | exact trivial | exact BitVec.isLt _ | exact fmtCode_lt _ | exact flag_lt _ | exact ordCode_lt _ | exact scopeCode_lt _ | exact aopCode_lt _ | exact Nat.le_of_ble_eq_true rfl

theorem icmp : ∀ x0 x1 x2 x3 x4 x5, Statement (.icmp x0 x1 x2 x3 x4 x5) := by
  intro x0 x1 x2 x3 x4 x5 l h
  obtain rfl := Option.some.inj h
  refine ⟨Nat.le_of_ble_eq_true rfl, ?_, rfl, rfl, rfl, ?_⟩
  · first | exact .inl rfl | exact .inr (.inl rfl) | exact .inr (.inr rfl)
  · and_intros <;> first | exact trivial | exact BitVec.isLt _ | exact fmtCode_lt _ | exact flag_lt _ | exact ordCode_lt _ | exact scopeCode_lt _ | exact aopCode_lt _ | exact Nat.le_of_ble_eq_true rfl

theorem fcmp : ∀ x0 x1 x2 x3 x4 x5, Statement (.fcmp x0 x1 x2 x3 x4 x5) := by
  intro x0 x1 x2 x3 x4 x5 l h
  obtain rfl := Option.some.inj h
  refine ⟨Nat.le_of_ble_eq_true rfl, ?_, rfl, rfl, rfl, ?_⟩
  · first | exact .inl rfl | exact .inr (.inl rfl) | exact .inr (.inr rfl)
  · and_intros <;> first | exact trivial | exact BitVec.isLt _ | exact fmtCode_lt _ | exact flag_lt _ | exact ordCode_lt _ | exact scopeCode_lt _ | exact aopCode_lt _ | exact Nat.le_of_ble_eq_true rfl

theorem plog : ∀ x0 x1 x2 x3, Statement (.plog x0 x1 x2 x3) := by
  intro x0 x1 x2 x3 l h
  obtain rfl := Option.some.inj h
  refine ⟨Nat.le_of_ble_eq_true rfl, ?_, rfl, rfl, rfl, ?_⟩
  · first | exact .inl rfl | exact .inr (.inl rfl) | exact .inr (.inr rfl)
  · and_intros <;> first | exact trivial | exact BitVec.isLt _ | exact fmtCode_lt _ | exact flag_lt _ | exact ordCode_lt _ | exact scopeCode_lt _ | exact aopCode_lt _ | exact Nat.le_of_ble_eq_true rfl

theorem pmov : ∀ x0 x1 x2 x3, Statement (.pmov x0 x1 x2 x3) := by
  intro x0 x1 x2 x3 l h
  obtain rfl := Option.some.inj h
  refine ⟨Nat.le_of_ble_eq_true rfl, ?_, rfl, rfl, rfl, ?_⟩
  · first | exact .inl rfl | exact .inr (.inl rfl) | exact .inr (.inr rfl)
  · and_intros <;> first | exact trivial | exact BitVec.isLt _ | exact fmtCode_lt _ | exact flag_lt _ | exact ordCode_lt _ | exact scopeCode_lt _ | exact aopCode_lt _ | exact Nat.le_of_ble_eq_true rfl

theorem prd : ∀ x0, Statement (.prd x0) := by
  intro x0 l h
  obtain rfl := Option.some.inj h
  refine ⟨Nat.le_of_ble_eq_true rfl, ?_, rfl, rfl, rfl, ?_⟩
  · first | exact .inl rfl | exact .inr (.inl rfl) | exact .inr (.inr rfl)
  · and_intros <;> first | exact trivial | exact BitVec.isLt _ | exact fmtCode_lt _ | exact flag_lt _ | exact ordCode_lt _ | exact scopeCode_lt _ | exact aopCode_lt _ | exact Nat.le_of_ble_eq_true rfl

theorem sel : ∀ x0 x1 x2 x3 x4 x5, Statement (.sel x0 x1 x2 x3 x4 x5) := by
  intro x0 x1 x2 x3 x4 x5 l h
  obtain rfl := Option.some.inj h
  refine ⟨Nat.le_of_ble_eq_true rfl, ?_, rfl, rfl, rfl, ?_⟩
  · first | exact .inl rfl | exact .inr (.inl rfl) | exact .inr (.inr rfl)
  · and_intros <;> first | exact trivial | exact BitVec.isLt _ | exact fmtCode_lt _ | exact flag_lt _ | exact ordCode_lt _ | exact scopeCode_lt _ | exact aopCode_lt _ | exact Nat.le_of_ble_eq_true rfl

theorem pmask : ∀ x0, Statement (.pmask x0) := by
  intro x0 l h
  obtain rfl := Option.some.inj h
  refine ⟨Nat.le_of_ble_eq_true rfl, ?_, rfl, rfl, rfl, ?_⟩
  · first | exact .inl rfl | exact .inr (.inl rfl) | exact .inr (.inr rfl)
  · and_intros <;> first | exact trivial | exact BitVec.isLt _ | exact fmtCode_lt _ | exact flag_lt _ | exact ordCode_lt _ | exact scopeCode_lt _ | exact aopCode_lt _ | exact Nat.le_of_ble_eq_true rfl

theorem iadd : ∀ x0 x1 x2 x3 x4, Statement (.iadd x0 x1 x2 x3 x4) := by
  intro x0 x1 x2 x3 x4 l h
  obtain rfl := Option.some.inj h
  refine ⟨Nat.le_of_ble_eq_true rfl, ?_, rfl, rfl, rfl, ?_⟩
  · first | exact .inl rfl | exact .inr (.inl rfl) | exact .inr (.inr rfl)
  · and_intros <;> first | exact trivial | exact BitVec.isLt _ | exact fmtCode_lt _ | exact flag_lt _ | exact ordCode_lt _ | exact scopeCode_lt _ | exact aopCode_lt _ | exact Nat.le_of_ble_eq_true rfl

theorem isub : ∀ x0 x1 x2 x3 x4, Statement (.isub x0 x1 x2 x3 x4) := by
  intro x0 x1 x2 x3 x4 l h
  obtain rfl := Option.some.inj h
  refine ⟨Nat.le_of_ble_eq_true rfl, ?_, rfl, rfl, rfl, ?_⟩
  · first | exact .inl rfl | exact .inr (.inl rfl) | exact .inr (.inr rfl)
  · and_intros <;> first | exact trivial | exact BitVec.isLt _ | exact fmtCode_lt _ | exact flag_lt _ | exact ordCode_lt _ | exact scopeCode_lt _ | exact aopCode_lt _ | exact Nat.le_of_ble_eq_true rfl

theorem imul : ∀ x0 x1 x2 x3 x4, Statement (.imul x0 x1 x2 x3 x4) := by
  intro x0 x1 x2 x3 x4 l h
  obtain rfl := Option.some.inj h
  refine ⟨Nat.le_of_ble_eq_true rfl, ?_, rfl, rfl, rfl, ?_⟩
  · first | exact .inl rfl | exact .inr (.inl rfl) | exact .inr (.inr rfl)
  · and_intros <;> first | exact trivial | exact BitVec.isLt _ | exact fmtCode_lt _ | exact flag_lt _ | exact ordCode_lt _ | exact scopeCode_lt _ | exact aopCode_lt _ | exact Nat.le_of_ble_eq_true rfl

theorem imulh : ∀ x0 x1 x2 x3 x4, Statement (.imulh x0 x1 x2 x3 x4) := by
  intro x0 x1 x2 x3 x4 l h
  obtain rfl := Option.some.inj h
  refine ⟨Nat.le_of_ble_eq_true rfl, ?_, rfl, rfl, rfl, ?_⟩
  · first | exact .inl rfl | exact .inr (.inl rfl) | exact .inr (.inr rfl)
  · and_intros <;> first | exact trivial | exact BitVec.isLt _ | exact fmtCode_lt _ | exact flag_lt _ | exact ordCode_lt _ | exact scopeCode_lt _ | exact aopCode_lt _ | exact Nat.le_of_ble_eq_true rfl

theorem imad : ∀ x0 x1 x2 x3 x4 x5, Statement (.imad x0 x1 x2 x3 x4 x5) := by
  intro x0 x1 x2 x3 x4 x5 l h
  obtain rfl := Option.some.inj h
  refine ⟨Nat.le_of_ble_eq_true rfl, ?_, rfl, rfl, rfl, ?_⟩
  · first | exact .inl rfl | exact .inr (.inl rfl) | exact .inr (.inr rfl)
  · and_intros <;> first | exact trivial | exact BitVec.isLt _ | exact fmtCode_lt _ | exact flag_lt _ | exact ordCode_lt _ | exact scopeCode_lt _ | exact aopCode_lt _ | exact Nat.le_of_ble_eq_true rfl

theorem idiv : ∀ x0 x1 x2 x3 x4, Statement (.idiv x0 x1 x2 x3 x4) := by
  intro x0 x1 x2 x3 x4 l h
  obtain rfl := Option.some.inj h
  refine ⟨Nat.le_of_ble_eq_true rfl, ?_, rfl, rfl, rfl, ?_⟩
  · first | exact .inl rfl | exact .inr (.inl rfl) | exact .inr (.inr rfl)
  · and_intros <;> first | exact trivial | exact BitVec.isLt _ | exact fmtCode_lt _ | exact flag_lt _ | exact ordCode_lt _ | exact scopeCode_lt _ | exact aopCode_lt _ | exact Nat.le_of_ble_eq_true rfl

theorem irem : ∀ x0 x1 x2 x3 x4, Statement (.irem x0 x1 x2 x3 x4) := by
  intro x0 x1 x2 x3 x4 l h
  obtain rfl := Option.some.inj h
  refine ⟨Nat.le_of_ble_eq_true rfl, ?_, rfl, rfl, rfl, ?_⟩
  · first | exact .inl rfl | exact .inr (.inl rfl) | exact .inr (.inr rfl)
  · and_intros <;> first | exact trivial | exact BitVec.isLt _ | exact fmtCode_lt _ | exact flag_lt _ | exact ordCode_lt _ | exact scopeCode_lt _ | exact aopCode_lt _ | exact Nat.le_of_ble_eq_true rfl

theorem imin : ∀ x0 x1 x2 x3 x4, Statement (.imin x0 x1 x2 x3 x4) := by
  intro x0 x1 x2 x3 x4 l h
  obtain rfl := Option.some.inj h
  refine ⟨Nat.le_of_ble_eq_true rfl, ?_, rfl, rfl, rfl, ?_⟩
  · first | exact .inl rfl | exact .inr (.inl rfl) | exact .inr (.inr rfl)
  · and_intros <;> first | exact trivial | exact BitVec.isLt _ | exact fmtCode_lt _ | exact flag_lt _ | exact ordCode_lt _ | exact scopeCode_lt _ | exact aopCode_lt _ | exact Nat.le_of_ble_eq_true rfl

theorem imax : ∀ x0 x1 x2 x3 x4, Statement (.imax x0 x1 x2 x3 x4) := by
  intro x0 x1 x2 x3 x4 l h
  obtain rfl := Option.some.inj h
  refine ⟨Nat.le_of_ble_eq_true rfl, ?_, rfl, rfl, rfl, ?_⟩
  · first | exact .inl rfl | exact .inr (.inl rfl) | exact .inr (.inr rfl)
  · and_intros <;> first | exact trivial | exact BitVec.isLt _ | exact fmtCode_lt _ | exact flag_lt _ | exact ordCode_lt _ | exact scopeCode_lt _ | exact aopCode_lt _ | exact Nat.le_of_ble_eq_true rfl

theorem iabs : ∀ x0 x1 x2 x3, Statement (.iabs x0 x1 x2 x3) := by
  intro x0 x1 x2 x3 l h
  obtain rfl := Option.some.inj h
  refine ⟨Nat.le_of_ble_eq_true rfl, ?_, rfl, rfl, rfl, ?_⟩
  · first | exact .inl rfl | exact .inr (.inl rfl) | exact .inr (.inr rfl)
  · and_intros <;> first | exact trivial | exact BitVec.isLt _ | exact fmtCode_lt _ | exact flag_lt _ | exact ordCode_lt _ | exact scopeCode_lt _ | exact aopCode_lt _ | exact Nat.le_of_ble_eq_true rfl

theorem ineg : ∀ x0 x1 x2 x3, Statement (.ineg x0 x1 x2 x3) := by
  intro x0 x1 x2 x3 l h
  obtain rfl := Option.some.inj h
  refine ⟨Nat.le_of_ble_eq_true rfl, ?_, rfl, rfl, rfl, ?_⟩
  · first | exact .inl rfl | exact .inr (.inl rfl) | exact .inr (.inr rfl)
  · and_intros <;> first | exact trivial | exact BitVec.isLt _ | exact fmtCode_lt _ | exact flag_lt _ | exact ordCode_lt _ | exact scopeCode_lt _ | exact aopCode_lt _ | exact Nat.le_of_ble_eq_true rfl

theorem isad : ∀ x0 x1 x2 x3 x4 x5, Statement (.isad x0 x1 x2 x3 x4 x5) := by
  intro x0 x1 x2 x3 x4 x5 l h
  obtain rfl := Option.some.inj h
  refine ⟨Nat.le_of_ble_eq_true rfl, ?_, rfl, rfl, rfl, ?_⟩
  · first | exact .inl rfl | exact .inr (.inl rfl) | exact .inr (.inr rfl)
  · and_intros <;> first | exact trivial | exact BitVec.isLt _ | exact fmtCode_lt _ | exact flag_lt _ | exact ordCode_lt _ | exact scopeCode_lt _ | exact aopCode_lt _ | exact Nat.le_of_ble_eq_true rfl

theorem idot4 : ∀ x0 x1 x2 x3 x4 x5, Statement (.idot4 x0 x1 x2 x3 x4 x5) := by
  intro x0 x1 x2 x3 x4 x5 l h
  obtain rfl := Option.some.inj h
  refine ⟨Nat.le_of_ble_eq_true rfl, ?_, rfl, rfl, rfl, ?_⟩
  · first | exact .inl rfl | exact .inr (.inl rfl) | exact .inr (.inr rfl)
  · and_intros <;> first | exact trivial | exact BitVec.isLt _ | exact fmtCode_lt _ | exact flag_lt _ | exact ordCode_lt _ | exact scopeCode_lt _ | exact aopCode_lt _ | exact Nat.le_of_ble_eq_true rfl

theorem iclamp : ∀ x0 x1 x2 x3 x4 x5, Statement (.iclamp x0 x1 x2 x3 x4 x5) := by
  intro x0 x1 x2 x3 x4 x5 l h
  obtain rfl := Option.some.inj h
  refine ⟨Nat.le_of_ble_eq_true rfl, ?_, rfl, rfl, rfl, ?_⟩
  · first | exact .inl rfl | exact .inr (.inl rfl) | exact .inr (.inr rfl)
  · and_intros <;> first | exact trivial | exact BitVec.isLt _ | exact fmtCode_lt _ | exact flag_lt _ | exact ordCode_lt _ | exact scopeCode_lt _ | exact aopCode_lt _ | exact Nat.le_of_ble_eq_true rfl

theorem imulw : ∀ x0 x1 x2 x3 x4, Statement (.imulw x0 x1 x2 x3 x4) := by
  intro x0 x1 x2 x3 x4 l h
  obtain rfl := Option.some.inj h
  refine ⟨Nat.le_of_ble_eq_true rfl, ?_, rfl, rfl, rfl, ?_⟩
  · first | exact .inl rfl | exact .inr (.inl rfl) | exact .inr (.inr rfl)
  · and_intros <;> first | exact trivial | exact BitVec.isLt _ | exact fmtCode_lt _ | exact flag_lt _ | exact ordCode_lt _ | exact scopeCode_lt _ | exact aopCode_lt _ | exact Nat.le_of_ble_eq_true rfl

theorem and : ∀ x0 x1 x2 x3, Statement (.and x0 x1 x2 x3) := by
  intro x0 x1 x2 x3 l h
  obtain rfl := Option.some.inj h
  refine ⟨Nat.le_of_ble_eq_true rfl, ?_, rfl, rfl, rfl, ?_⟩
  · first | exact .inl rfl | exact .inr (.inl rfl) | exact .inr (.inr rfl)
  · and_intros <;> first | exact trivial | exact BitVec.isLt _ | exact fmtCode_lt _ | exact flag_lt _ | exact ordCode_lt _ | exact scopeCode_lt _ | exact aopCode_lt _ | exact Nat.le_of_ble_eq_true rfl

theorem or : ∀ x0 x1 x2 x3, Statement (.or x0 x1 x2 x3) := by
  intro x0 x1 x2 x3 l h
  obtain rfl := Option.some.inj h
  refine ⟨Nat.le_of_ble_eq_true rfl, ?_, rfl, rfl, rfl, ?_⟩
  · first | exact .inl rfl | exact .inr (.inl rfl) | exact .inr (.inr rfl)
  · and_intros <;> first | exact trivial | exact BitVec.isLt _ | exact fmtCode_lt _ | exact flag_lt _ | exact ordCode_lt _ | exact scopeCode_lt _ | exact aopCode_lt _ | exact Nat.le_of_ble_eq_true rfl

theorem xor : ∀ x0 x1 x2 x3, Statement (.xor x0 x1 x2 x3) := by
  intro x0 x1 x2 x3 l h
  obtain rfl := Option.some.inj h
  refine ⟨Nat.le_of_ble_eq_true rfl, ?_, rfl, rfl, rfl, ?_⟩
  · first | exact .inl rfl | exact .inr (.inl rfl) | exact .inr (.inr rfl)
  · and_intros <;> first | exact trivial | exact BitVec.isLt _ | exact fmtCode_lt _ | exact flag_lt _ | exact ordCode_lt _ | exact scopeCode_lt _ | exact aopCode_lt _ | exact Nat.le_of_ble_eq_true rfl

theorem not : ∀ x0 x1 x2, Statement (.not x0 x1 x2) := by
  intro x0 x1 x2 l h
  obtain rfl := Option.some.inj h
  refine ⟨Nat.le_of_ble_eq_true rfl, ?_, rfl, rfl, rfl, ?_⟩
  · first | exact .inl rfl | exact .inr (.inl rfl) | exact .inr (.inr rfl)
  · and_intros <;> first | exact trivial | exact BitVec.isLt _ | exact fmtCode_lt _ | exact flag_lt _ | exact ordCode_lt _ | exact scopeCode_lt _ | exact aopCode_lt _ | exact Nat.le_of_ble_eq_true rfl

theorem shl : ∀ x0 x1 x2 x3, Statement (.shl x0 x1 x2 x3) := by
  intro x0 x1 x2 x3 l h
  obtain rfl := Option.some.inj h
  refine ⟨Nat.le_of_ble_eq_true rfl, ?_, rfl, rfl, rfl, ?_⟩
  · first | exact .inl rfl | exact .inr (.inl rfl) | exact .inr (.inr rfl)
  · and_intros <;> first | exact trivial | exact BitVec.isLt _ | exact fmtCode_lt _ | exact flag_lt _ | exact ordCode_lt _ | exact scopeCode_lt _ | exact aopCode_lt _ | exact Nat.le_of_ble_eq_true rfl

theorem shr : ∀ x0 x1 x2 x3, Statement (.shr x0 x1 x2 x3) := by
  intro x0 x1 x2 x3 l h
  obtain rfl := Option.some.inj h
  refine ⟨Nat.le_of_ble_eq_true rfl, ?_, rfl, rfl, rfl, ?_⟩
  · first | exact .inl rfl | exact .inr (.inl rfl) | exact .inr (.inr rfl)
  · and_intros <;> first | exact trivial | exact BitVec.isLt _ | exact fmtCode_lt _ | exact flag_lt _ | exact ordCode_lt _ | exact scopeCode_lt _ | exact aopCode_lt _ | exact Nat.le_of_ble_eq_true rfl

theorem sar : ∀ x0 x1 x2 x3, Statement (.sar x0 x1 x2 x3) := by
  intro x0 x1 x2 x3 l h
  obtain rfl := Option.some.inj h
  refine ⟨Nat.le_of_ble_eq_true rfl, ?_, rfl, rfl, rfl, ?_⟩
  · first | exact .inl rfl | exact .inr (.inl rfl) | exact .inr (.inr rfl)
  · and_intros <;> first | exact trivial | exact BitVec.isLt _ | exact fmtCode_lt _ | exact flag_lt _ | exact ordCode_lt _ | exact scopeCode_lt _ | exact aopCode_lt _ | exact Nat.le_of_ble_eq_true rfl

theorem rot : ∀ x0 x1 x2 x3, Statement (.rot x0 x1 x2 x3) := by
  intro x0 x1 x2 x3 l h
  obtain rfl := Option.some.inj h
  refine ⟨Nat.le_of_ble_eq_true rfl, ?_, rfl, rfl, rfl, ?_⟩
  · first | exact .inl rfl | exact .inr (.inl rfl) | exact .inr (.inr rfl)
  · and_intros <;> first | exact trivial | exact BitVec.isLt _ | exact fmtCode_lt _ | exact flag_lt _ | exact ordCode_lt _ | exact scopeCode_lt _ | exact aopCode_lt _ | exact Nat.le_of_ble_eq_true rfl

theorem popc : ∀ x0 x1 x2, Statement (.popc x0 x1 x2) := by
  intro x0 x1 x2 l h
  obtain rfl := Option.some.inj h
  refine ⟨Nat.le_of_ble_eq_true rfl, ?_, rfl, rfl, rfl, ?_⟩
  · first | exact .inl rfl | exact .inr (.inl rfl) | exact .inr (.inr rfl)
  · and_intros <;> first | exact trivial | exact BitVec.isLt _ | exact fmtCode_lt _ | exact flag_lt _ | exact ordCode_lt _ | exact scopeCode_lt _ | exact aopCode_lt _ | exact Nat.le_of_ble_eq_true rfl

theorem clz : ∀ x0 x1 x2, Statement (.clz x0 x1 x2) := by
  intro x0 x1 x2 l h
  obtain rfl := Option.some.inj h
  refine ⟨Nat.le_of_ble_eq_true rfl, ?_, rfl, rfl, rfl, ?_⟩
  · first | exact .inl rfl | exact .inr (.inl rfl) | exact .inr (.inr rfl)
  · and_intros <;> first | exact trivial | exact BitVec.isLt _ | exact fmtCode_lt _ | exact flag_lt _ | exact ordCode_lt _ | exact scopeCode_lt _ | exact aopCode_lt _ | exact Nat.le_of_ble_eq_true rfl

theorem ctz : ∀ x0 x1 x2, Statement (.ctz x0 x1 x2) := by
  intro x0 x1 x2 l h
  obtain rfl := Option.some.inj h
  refine ⟨Nat.le_of_ble_eq_true rfl, ?_, rfl, rfl, rfl, ?_⟩
  · first | exact .inl rfl | exact .inr (.inl rfl) | exact .inr (.inr rfl)
  · and_intros <;> first | exact trivial | exact BitVec.isLt _ | exact fmtCode_lt _ | exact flag_lt _ | exact ordCode_lt _ | exact scopeCode_lt _ | exact aopCode_lt _ | exact Nat.le_of_ble_eq_true rfl

theorem brev : ∀ x0 x1 x2, Statement (.brev x0 x1 x2) := by
  intro x0 x1 x2 l h
  obtain rfl := Option.some.inj h
  refine ⟨Nat.le_of_ble_eq_true rfl, ?_, rfl, rfl, rfl, ?_⟩
  · first | exact .inl rfl | exact .inr (.inl rfl) | exact .inr (.inr rfl)
  · and_intros <;> first | exact trivial | exact BitVec.isLt _ | exact fmtCode_lt _ | exact flag_lt _ | exact ordCode_lt _ | exact scopeCode_lt _ | exact aopCode_lt _ | exact Nat.le_of_ble_eq_true rfl

theorem bfx : ∀ x0 x1 x2 x3 x4, Statement (.bfx x0 x1 x2 x3 x4) := by
  intro x0 x1 x2 x3 x4 l h
  obtain rfl := Option.some.inj h
  refine ⟨Nat.le_of_ble_eq_true rfl, ?_, rfl, rfl, rfl, ?_⟩
  · first | exact .inl rfl | exact .inr (.inl rfl) | exact .inr (.inr rfl)
  · and_intros <;> first | exact trivial | exact BitVec.isLt _ | exact fmtCode_lt _ | exact flag_lt _ | exact ordCode_lt _ | exact scopeCode_lt _ | exact aopCode_lt _ | exact Nat.le_of_ble_eq_true rfl

theorem bfi : ∀ x0 x1 x2 x3, Statement (.bfi x0 x1 x2 x3) := by
  intro x0 x1 x2 x3 l h
  obtain rfl := Option.some.inj h
  refine ⟨Nat.le_of_ble_eq_true rfl, ?_, rfl, rfl, rfl, ?_⟩
  · first | exact .inl rfl | exact .inr (.inl rfl) | exact .inr (.inr rfl)
  · and_intros <;> first | exact trivial | exact BitVec.isLt _ | exact fmtCode_lt _ | exact flag_lt _ | exact ordCode_lt _ | exact scopeCode_lt _ | exact aopCode_lt _ | exact Nat.le_of_ble_eq_true rfl

theorem tern : ∀ x0 x1 x2 x3 x4, Statement (.tern x0 x1 x2 x3 x4) := by
  intro x0 x1 x2 x3 x4 l h
  obtain rfl := Option.some.inj h
  refine ⟨Nat.le_of_ble_eq_true rfl, ?_, rfl, rfl, rfl, ?_⟩
  · first | exact .inl rfl | exact .inr (.inl rfl) | exact .inr (.inr rfl)
  · and_intros <;> first | exact trivial | exact BitVec.isLt _ | exact fmtCode_lt _ | exact flag_lt _ | exact ordCode_lt _ | exact scopeCode_lt _ | exact aopCode_lt _ | exact Nat.le_of_ble_eq_true rfl

theorem shf : ∀ x0 x1 x2 x3 x4, Statement (.shf x0 x1 x2 x3 x4) := by
  intro x0 x1 x2 x3 x4 l h
  obtain rfl := Option.some.inj h
  refine ⟨Nat.le_of_ble_eq_true rfl, ?_, rfl, rfl, rfl, ?_⟩
  · first | exact .inl rfl | exact .inr (.inl rfl) | exact .inr (.inr rfl)
  · and_intros <;> first | exact trivial | exact BitVec.isLt _ | exact fmtCode_lt _ | exact flag_lt _ | exact ordCode_lt _ | exact scopeCode_lt _ | exact aopCode_lt _ | exact Nat.le_of_ble_eq_true rfl

theorem perm : ∀ x0 x1 x2 x3, Statement (.perm x0 x1 x2 x3) := by
  intro x0 x1 x2 x3 l h
  obtain rfl := Option.some.inj h
  refine ⟨Nat.le_of_ble_eq_true rfl, ?_, rfl, rfl, rfl, ?_⟩
  · first | exact .inl rfl | exact .inr (.inl rfl) | exact .inr (.inr rfl)
  · and_intros <;> first | exact trivial | exact BitVec.isLt _ | exact fmtCode_lt _ | exact flag_lt _ | exact ordCode_lt _ | exact scopeCode_lt _ | exact aopCode_lt _ | exact Nat.le_of_ble_eq_true rfl

theorem mov : ∀ x0 x1 x2, Statement (.mov x0 x1 x2) := by
  intro x0 x1 x2 l h
  obtain rfl := Option.some.inj h
  refine ⟨Nat.le_of_ble_eq_true rfl, ?_, rfl, rfl, rfl, ?_⟩
  · first | exact .inl rfl | exact .inr (.inl rfl) | exact .inr (.inr rfl)
  · and_intros <;> first | exact trivial | exact BitVec.isLt _ | exact fmtCode_lt _ | exact flag_lt _ | exact ordCode_lt _ | exact scopeCode_lt _ | exact aopCode_lt _ | exact Nat.le_of_ble_eq_true rfl

theorem lea : ∀ x0 x1 x2 x3 x4, Statement (.lea x0 x1 x2 x3 x4) := by
  intro x0 x1 x2 x3 x4 l h
  obtain rfl := Option.some.inj h
  refine ⟨Nat.le_of_ble_eq_true rfl, ?_, rfl, rfl, rfl, ?_⟩
  · first | exact .inl rfl | exact .inr (.inl rfl) | exact .inr (.inr rfl)
  · and_intros <;> first | exact trivial | exact BitVec.isLt _ | exact fmtCode_lt _ | exact flag_lt _ | exact ordCode_lt _ | exact scopeCode_lt _ | exact aopCode_lt _ | exact Nat.le_of_ble_eq_true rfl

theorem iext : ∀ x0 x1 x2 x3, Statement (.iext x0 x1 x2 x3) := by
  intro x0 x1 x2 x3 l h
  obtain rfl := Option.some.inj h
  refine ⟨Nat.le_of_ble_eq_true rfl, ?_, rfl, rfl, rfl, ?_⟩
  · first | exact .inl rfl | exact .inr (.inl rfl) | exact .inr (.inr rfl)
  · and_intros <;> first | exact trivial | exact BitVec.isLt _ | exact fmtCode_lt _ | exact flag_lt _ | exact ordCode_lt _ | exact scopeCode_lt _ | exact aopCode_lt _ | exact Nat.le_of_ble_eq_true rfl

theorem fadd : ∀ x0 x1 x2 x3, Statement (.fadd x0 x1 x2 x3) := by
  intro x0 x1 x2 x3 l h
  obtain rfl := Option.some.inj h
  refine ⟨Nat.le_of_ble_eq_true rfl, ?_, rfl, rfl, rfl, ?_⟩
  · first | exact .inl rfl | exact .inr (.inl rfl) | exact .inr (.inr rfl)
  · and_intros <;> first | exact trivial | exact BitVec.isLt _ | exact fmtCode_lt _ | exact flag_lt _ | exact ordCode_lt _ | exact scopeCode_lt _ | exact aopCode_lt _ | exact Nat.le_of_ble_eq_true rfl

theorem fsub : ∀ x0 x1 x2 x3, Statement (.fsub x0 x1 x2 x3) := by
  intro x0 x1 x2 x3 l h
  obtain rfl := Option.some.inj h
  refine ⟨Nat.le_of_ble_eq_true rfl, ?_, rfl, rfl, rfl, ?_⟩
  · first | exact .inl rfl | exact .inr (.inl rfl) | exact .inr (.inr rfl)
  · and_intros <;> first | exact trivial | exact BitVec.isLt _ | exact fmtCode_lt _ | exact flag_lt _ | exact ordCode_lt _ | exact scopeCode_lt _ | exact aopCode_lt _ | exact Nat.le_of_ble_eq_true rfl

theorem fmul : ∀ x0 x1 x2 x3, Statement (.fmul x0 x1 x2 x3) := by
  intro x0 x1 x2 x3 l h
  obtain rfl := Option.some.inj h
  refine ⟨Nat.le_of_ble_eq_true rfl, ?_, rfl, rfl, rfl, ?_⟩
  · first | exact .inl rfl | exact .inr (.inl rfl) | exact .inr (.inr rfl)
  · and_intros <;> first | exact trivial | exact BitVec.isLt _ | exact fmtCode_lt _ | exact flag_lt _ | exact ordCode_lt _ | exact scopeCode_lt _ | exact aopCode_lt _ | exact Nat.le_of_ble_eq_true rfl

theorem ffma : ∀ x0 x1 x2 x3 x4, Statement (.ffma x0 x1 x2 x3 x4) := by
  intro x0 x1 x2 x3 x4 l h
  obtain rfl := Option.some.inj h
  refine ⟨Nat.le_of_ble_eq_true rfl, ?_, rfl, rfl, rfl, ?_⟩
  · first | exact .inl rfl | exact .inr (.inl rfl) | exact .inr (.inr rfl)
  · and_intros <;> first | exact trivial | exact BitVec.isLt _ | exact fmtCode_lt _ | exact flag_lt _ | exact ordCode_lt _ | exact scopeCode_lt _ | exact aopCode_lt _ | exact Nat.le_of_ble_eq_true rfl

theorem fmin : ∀ x0 x1 x2 x3, Statement (.fmin x0 x1 x2 x3) := by
  intro x0 x1 x2 x3 l h
  obtain rfl := Option.some.inj h
  refine ⟨Nat.le_of_ble_eq_true rfl, ?_, rfl, rfl, rfl, ?_⟩
  · first | exact .inl rfl | exact .inr (.inl rfl) | exact .inr (.inr rfl)
  · and_intros <;> first | exact trivial | exact BitVec.isLt _ | exact fmtCode_lt _ | exact flag_lt _ | exact ordCode_lt _ | exact scopeCode_lt _ | exact aopCode_lt _ | exact Nat.le_of_ble_eq_true rfl

theorem fmax : ∀ x0 x1 x2 x3, Statement (.fmax x0 x1 x2 x3) := by
  intro x0 x1 x2 x3 l h
  obtain rfl := Option.some.inj h
  refine ⟨Nat.le_of_ble_eq_true rfl, ?_, rfl, rfl, rfl, ?_⟩
  · first | exact .inl rfl | exact .inr (.inl rfl) | exact .inr (.inr rfl)
  · and_intros <;> first | exact trivial | exact BitVec.isLt _ | exact fmtCode_lt _ | exact flag_lt _ | exact ordCode_lt _ | exact scopeCode_lt _ | exact aopCode_lt _ | exact Nat.le_of_ble_eq_true rfl

theorem fsgn : ∀ x0 x1 x2 x3 x4, Statement (.fsgn x0 x1 x2 x3 x4) := by
  intro x0 x1 x2 x3 x4 l h
  obtain rfl := Option.some.inj h
  refine ⟨Nat.le_of_ble_eq_true rfl, ?_, rfl, rfl, rfl, ?_⟩
  · first | exact .inl rfl | exact .inr (.inl rfl) | exact .inr (.inr rfl)
  · and_intros <;> first | exact trivial | exact BitVec.isLt _ | exact fmtCode_lt _ | exact flag_lt _ | exact ordCode_lt _ | exact scopeCode_lt _ | exact aopCode_lt _ | exact Nat.le_of_ble_eq_true rfl

theorem hadd2 : ∀ x0 x1 x2 x3, Statement (.hadd2 x0 x1 x2 x3) := by
  intro x0 x1 x2 x3 l h
  obtain rfl := Option.some.inj h
  refine ⟨Nat.le_of_ble_eq_true rfl, ?_, rfl, rfl, rfl, ?_⟩
  · first | exact .inl rfl | exact .inr (.inl rfl) | exact .inr (.inr rfl)
  · and_intros <;> first | exact trivial | exact BitVec.isLt _ | exact fmtCode_lt _ | exact flag_lt _ | exact ordCode_lt _ | exact scopeCode_lt _ | exact aopCode_lt _ | exact Nat.le_of_ble_eq_true rfl

theorem hmul2 : ∀ x0 x1 x2 x3, Statement (.hmul2 x0 x1 x2 x3) := by
  intro x0 x1 x2 x3 l h
  obtain rfl := Option.some.inj h
  refine ⟨Nat.le_of_ble_eq_true rfl, ?_, rfl, rfl, rfl, ?_⟩
  · first | exact .inl rfl | exact .inr (.inl rfl) | exact .inr (.inr rfl)
  · and_intros <;> first | exact trivial | exact BitVec.isLt _ | exact fmtCode_lt _ | exact flag_lt _ | exact ordCode_lt _ | exact scopeCode_lt _ | exact aopCode_lt _ | exact Nat.le_of_ble_eq_true rfl

theorem hfma2 : ∀ x0 x1 x2 x3 x4, Statement (.hfma2 x0 x1 x2 x3 x4) := by
  intro x0 x1 x2 x3 x4 l h
  obtain rfl := Option.some.inj h
  refine ⟨Nat.le_of_ble_eq_true rfl, ?_, rfl, rfl, rfl, ?_⟩
  · first | exact .inl rfl | exact .inr (.inl rfl) | exact .inr (.inr rfl)
  · and_intros <;> first | exact trivial | exact BitVec.isLt _ | exact fmtCode_lt _ | exact flag_lt _ | exact ordCode_lt _ | exact scopeCode_lt _ | exact aopCode_lt _ | exact Nat.le_of_ble_eq_true rfl

theorem hmin2 : ∀ x0 x1 x2 x3, Statement (.hmin2 x0 x1 x2 x3) := by
  intro x0 x1 x2 x3 l h
  obtain rfl := Option.some.inj h
  refine ⟨Nat.le_of_ble_eq_true rfl, ?_, rfl, rfl, rfl, ?_⟩
  · first | exact .inl rfl | exact .inr (.inl rfl) | exact .inr (.inr rfl)
  · and_intros <;> first | exact trivial | exact BitVec.isLt _ | exact fmtCode_lt _ | exact flag_lt _ | exact ordCode_lt _ | exact scopeCode_lt _ | exact aopCode_lt _ | exact Nat.le_of_ble_eq_true rfl

theorem hmax2 : ∀ x0 x1 x2 x3, Statement (.hmax2 x0 x1 x2 x3) := by
  intro x0 x1 x2 x3 l h
  obtain rfl := Option.some.inj h
  refine ⟨Nat.le_of_ble_eq_true rfl, ?_, rfl, rfl, rfl, ?_⟩
  · first | exact .inl rfl | exact .inr (.inl rfl) | exact .inr (.inr rfl)
  · and_intros <;> first | exact trivial | exact BitVec.isLt _ | exact fmtCode_lt _ | exact flag_lt _ | exact ordCode_lt _ | exact scopeCode_lt _ | exact aopCode_lt _ | exact Nat.le_of_ble_eq_true rfl

theorem frcp : ∀ x0 x1 x2, Statement (.frcp x0 x1 x2) := by
  intro x0 x1 x2 l h
  obtain rfl := Option.some.inj h
  refine ⟨Nat.le_of_ble_eq_true rfl, ?_, rfl, rfl, rfl, ?_⟩
  · first | exact .inl rfl | exact .inr (.inl rfl) | exact .inr (.inr rfl)
  · and_intros <;> first | exact trivial | exact BitVec.isLt _ | exact fmtCode_lt _ | exact flag_lt _ | exact ordCode_lt _ | exact scopeCode_lt _ | exact aopCode_lt _ | exact Nat.le_of_ble_eq_true rfl

theorem frsq : ∀ x0 x1 x2, Statement (.frsq x0 x1 x2) := by
  intro x0 x1 x2 l h
  obtain rfl := Option.some.inj h
  refine ⟨Nat.le_of_ble_eq_true rfl, ?_, rfl, rfl, rfl, ?_⟩
  · first | exact .inl rfl | exact .inr (.inl rfl) | exact .inr (.inr rfl)
  · and_intros <;> first | exact trivial | exact BitVec.isLt _ | exact fmtCode_lt _ | exact flag_lt _ | exact ordCode_lt _ | exact scopeCode_lt _ | exact aopCode_lt _ | exact Nat.le_of_ble_eq_true rfl

theorem fexp2 : ∀ x0 x1 x2, Statement (.fexp2 x0 x1 x2) := by
  intro x0 x1 x2 l h
  obtain rfl := Option.some.inj h
  refine ⟨Nat.le_of_ble_eq_true rfl, ?_, rfl, rfl, rfl, ?_⟩
  · first | exact .inl rfl | exact .inr (.inl rfl) | exact .inr (.inr rfl)
  · and_intros <;> first | exact trivial | exact BitVec.isLt _ | exact fmtCode_lt _ | exact flag_lt _ | exact ordCode_lt _ | exact scopeCode_lt _ | exact aopCode_lt _ | exact Nat.le_of_ble_eq_true rfl

theorem flog2 : ∀ x0 x1 x2, Statement (.flog2 x0 x1 x2) := by
  intro x0 x1 x2 l h
  obtain rfl := Option.some.inj h
  refine ⟨Nat.le_of_ble_eq_true rfl, ?_, rfl, rfl, rfl, ?_⟩
  · first | exact .inl rfl | exact .inr (.inl rfl) | exact .inr (.inr rfl)
  · and_intros <;> first | exact trivial | exact BitVec.isLt _ | exact fmtCode_lt _ | exact flag_lt _ | exact ordCode_lt _ | exact scopeCode_lt _ | exact aopCode_lt _ | exact Nat.le_of_ble_eq_true rfl

theorem fsqrt : ∀ x0 x1 x2, Statement (.fsqrt x0 x1 x2) := by
  intro x0 x1 x2 l h
  obtain rfl := Option.some.inj h
  refine ⟨Nat.le_of_ble_eq_true rfl, ?_, rfl, rfl, rfl, ?_⟩
  · first | exact .inl rfl | exact .inr (.inl rfl) | exact .inr (.inr rfl)
  · and_intros <;> first | exact trivial | exact BitVec.isLt _ | exact fmtCode_lt _ | exact flag_lt _ | exact ordCode_lt _ | exact scopeCode_lt _ | exact aopCode_lt _ | exact Nat.le_of_ble_eq_true rfl

theorem fclass : ∀ x0 x1 x2, Statement (.fclass x0 x1 x2) := by
  intro x0 x1 x2 l h
  obtain rfl := Option.some.inj h
  refine ⟨Nat.le_of_ble_eq_true rfl, ?_, rfl, rfl, rfl, ?_⟩
  · first | exact .inl rfl | exact .inr (.inl rfl) | exact .inr (.inr rfl)
  · and_intros <;> first | exact trivial | exact BitVec.isLt _ | exact fmtCode_lt _ | exact flag_lt _ | exact ordCode_lt _ | exact scopeCode_lt _ | exact aopCode_lt _ | exact Nat.le_of_ble_eq_true rfl

theorem fcvt : ∀ x0 x1 x2 x3, Statement (.fcvt x0 x1 x2 x3) := by
  intro x0 x1 x2 x3 l h
  obtain rfl := Option.some.inj h
  refine ⟨Nat.le_of_ble_eq_true rfl, ?_, rfl, rfl, rfl, ?_⟩
  · first | exact .inl rfl | exact .inr (.inl rfl) | exact .inr (.inr rfl)
  · and_intros <;> first | exact trivial | exact BitVec.isLt _ | exact fmtCode_lt _ | exact flag_lt _ | exact ordCode_lt _ | exact scopeCode_lt _ | exact aopCode_lt _ | exact Nat.le_of_ble_eq_true rfl

theorem icvtf : ∀ x0 x1 x2 x3, Statement (.icvtf x0 x1 x2 x3) := by
  intro x0 x1 x2 x3 l h
  obtain rfl := Option.some.inj h
  refine ⟨Nat.le_of_ble_eq_true rfl, ?_, rfl, rfl, rfl, ?_⟩
  · first | exact .inl rfl | exact .inr (.inl rfl) | exact .inr (.inr rfl)
  · and_intros <;> first | exact trivial | exact BitVec.isLt _ | exact fmtCode_lt _ | exact flag_lt _ | exact ordCode_lt _ | exact scopeCode_lt _ | exact aopCode_lt _ | exact Nat.le_of_ble_eq_true rfl

theorem fcvti : ∀ x0 x1 x2 x3, Statement (.fcvti x0 x1 x2 x3) := by
  intro x0 x1 x2 x3 l h
  obtain rfl := Option.some.inj h
  refine ⟨Nat.le_of_ble_eq_true rfl, ?_, rfl, rfl, rfl, ?_⟩
  · first | exact .inl rfl | exact .inr (.inl rfl) | exact .inr (.inr rfl)
  · and_intros <;> first | exact trivial | exact BitVec.isLt _ | exact fmtCode_lt _ | exact flag_lt _ | exact ordCode_lt _ | exact scopeCode_lt _ | exact aopCode_lt _ | exact Nat.le_of_ble_eq_true rfl

theorem qnt : ∀ x0 x1 x2 x3 x4 x5, Statement (.qnt x0 x1 x2 x3 x4 x5) := by
  intro x0 x1 x2 x3 x4 x5 l h
  obtain rfl := Option.some.inj h
  refine ⟨Nat.le_of_ble_eq_true rfl, ?_, rfl, rfl, rfl, ?_⟩
  · first | exact .inl rfl | exact .inr (.inl rfl) | exact .inr (.inr rfl)
  · and_intros <;> first | exact trivial | exact BitVec.isLt _ | exact fmtCode_lt _ | exact flag_lt _ | exact ordCode_lt _ | exact scopeCode_lt _ | exact aopCode_lt _ | exact Nat.le_of_ble_eq_true rfl

theorem dqnt : ∀ x0 x1 x2 x3, Statement (.dqnt x0 x1 x2 x3) := by
  intro x0 x1 x2 x3 l h
  obtain rfl := Option.some.inj h
  refine ⟨Nat.le_of_ble_eq_true rfl, ?_, rfl, rfl, rfl, ?_⟩
  · first | exact .inl rfl | exact .inr (.inl rfl) | exact .inr (.inr rfl)
  · and_intros <;> first | exact trivial | exact BitVec.isLt _ | exact fmtCode_lt _ | exact flag_lt _ | exact ordCode_lt _ | exact scopeCode_lt _ | exact aopCode_lt _ | exact Nat.le_of_ble_eq_true rfl

theorem shfl : ∀ x0 x1 x2 x3 x4, Statement (.shfl x0 x1 x2 x3 x4) := by
  intro x0 x1 x2 x3 x4 l h
  obtain rfl := Option.some.inj h
  refine ⟨Nat.le_of_ble_eq_true rfl, ?_, rfl, rfl, rfl, ?_⟩
  · first | exact .inl rfl | exact .inr (.inl rfl) | exact .inr (.inr rfl)
  · and_intros <;> first | exact trivial | exact BitVec.isLt _ | exact fmtCode_lt _ | exact flag_lt _ | exact ordCode_lt _ | exact scopeCode_lt _ | exact aopCode_lt _ | exact Nat.le_of_ble_eq_true rfl

theorem shflup : ∀ x0 x1 x2 x3 x4, Statement (.shflup x0 x1 x2 x3 x4) := by
  intro x0 x1 x2 x3 x4 l h
  obtain rfl := Option.some.inj h
  refine ⟨Nat.le_of_ble_eq_true rfl, ?_, rfl, rfl, rfl, ?_⟩
  · first | exact .inl rfl | exact .inr (.inl rfl) | exact .inr (.inr rfl)
  · and_intros <;> first | exact trivial | exact BitVec.isLt _ | exact fmtCode_lt _ | exact flag_lt _ | exact ordCode_lt _ | exact scopeCode_lt _ | exact aopCode_lt _ | exact Nat.le_of_ble_eq_true rfl

theorem shfldn : ∀ x0 x1 x2 x3 x4, Statement (.shfldn x0 x1 x2 x3 x4) := by
  intro x0 x1 x2 x3 x4 l h
  obtain rfl := Option.some.inj h
  refine ⟨Nat.le_of_ble_eq_true rfl, ?_, rfl, rfl, rfl, ?_⟩
  · first | exact .inl rfl | exact .inr (.inl rfl) | exact .inr (.inr rfl)
  · and_intros <;> first | exact trivial | exact BitVec.isLt _ | exact fmtCode_lt _ | exact flag_lt _ | exact ordCode_lt _ | exact scopeCode_lt _ | exact aopCode_lt _ | exact Nat.le_of_ble_eq_true rfl

theorem shflx : ∀ x0 x1 x2 x3 x4, Statement (.shflx x0 x1 x2 x3 x4) := by
  intro x0 x1 x2 x3 x4 l h
  obtain rfl := Option.some.inj h
  refine ⟨Nat.le_of_ble_eq_true rfl, ?_, rfl, rfl, rfl, ?_⟩
  · first | exact .inl rfl | exact .inr (.inl rfl) | exact .inr (.inr rfl)
  · and_intros <;> first | exact trivial | exact BitVec.isLt _ | exact fmtCode_lt _ | exact flag_lt _ | exact ordCode_lt _ | exact scopeCode_lt _ | exact aopCode_lt _ | exact Nat.le_of_ble_eq_true rfl

theorem bcast : ∀ x0 x1 x2 x3, Statement (.bcast x0 x1 x2 x3) := by
  intro x0 x1 x2 x3 l h
  obtain rfl := Option.some.inj h
  refine ⟨Nat.le_of_ble_eq_true rfl, ?_, rfl, rfl, rfl, ?_⟩
  · first | exact .inl rfl | exact .inr (.inl rfl) | exact .inr (.inr rfl)
  · and_intros <;> first | exact trivial | exact BitVec.isLt _ | exact fmtCode_lt _ | exact flag_lt _ | exact ordCode_lt _ | exact scopeCode_lt _ | exact aopCode_lt _ | exact Nat.le_of_ble_eq_true rfl

theorem vote : ∀ x0 x1 x2 x3, Statement (.vote x0 x1 x2 x3) := by
  intro x0 x1 x2 x3 l h
  obtain rfl := Option.some.inj h
  refine ⟨Nat.le_of_ble_eq_true rfl, ?_, rfl, rfl, rfl, ?_⟩
  · first | exact .inl rfl | exact .inr (.inl rfl) | exact .inr (.inr rfl)
  · and_intros <;> first | exact trivial | exact BitVec.isLt _ | exact fmtCode_lt _ | exact flag_lt _ | exact ordCode_lt _ | exact scopeCode_lt _ | exact aopCode_lt _ | exact Nat.le_of_ble_eq_true rfl

theorem redi : ∀ x0 x1 x2 x3 x4, Statement (.redi x0 x1 x2 x3 x4) := by
  intro x0 x1 x2 x3 x4 l h
  obtain rfl := Option.some.inj h
  refine ⟨Nat.le_of_ble_eq_true rfl, ?_, rfl, rfl, rfl, ?_⟩
  · first | exact .inl rfl | exact .inr (.inl rfl) | exact .inr (.inr rfl)
  · and_intros <;> first | exact trivial | exact BitVec.isLt _ | exact fmtCode_lt _ | exact flag_lt _ | exact ordCode_lt _ | exact scopeCode_lt _ | exact aopCode_lt _ | exact Nat.le_of_ble_eq_true rfl

theorem scani : ∀ x0 x1 x2 x3 x4 x5, Statement (.scani x0 x1 x2 x3 x4 x5) := by
  intro x0 x1 x2 x3 x4 x5 l h
  obtain rfl := Option.some.inj h
  refine ⟨Nat.le_of_ble_eq_true rfl, ?_, rfl, rfl, rfl, ?_⟩
  · first | exact .inl rfl | exact .inr (.inl rfl) | exact .inr (.inr rfl)
  · and_intros <;> first | exact trivial | exact BitVec.isLt _ | exact fmtCode_lt _ | exact flag_lt _ | exact ordCode_lt _ | exact scopeCode_lt _ | exact aopCode_lt _ | exact Nat.le_of_ble_eq_true rfl

theorem redf : ∀ x0 x1 x2 x3 x4, Statement (.redf x0 x1 x2 x3 x4) := by
  intro x0 x1 x2 x3 x4 l h
  obtain rfl := Option.some.inj h
  refine ⟨Nat.le_of_ble_eq_true rfl, ?_, rfl, rfl, rfl, ?_⟩
  · first | exact .inl rfl | exact .inr (.inl rfl) | exact .inr (.inr rfl)
  · and_intros <;> first | exact trivial | exact BitVec.isLt _ | exact fmtCode_lt _ | exact flag_lt _ | exact ordCode_lt _ | exact scopeCode_lt _ | exact aopCode_lt _ | exact Nat.le_of_ble_eq_true rfl

theorem scanf : ∀ x0 x1 x2 x3 x4 x5, Statement (.scanf x0 x1 x2 x3 x4 x5) := by
  intro x0 x1 x2 x3 x4 x5 l h
  obtain rfl := Option.some.inj h
  refine ⟨Nat.le_of_ble_eq_true rfl, ?_, rfl, rfl, rfl, ?_⟩
  · first | exact .inl rfl | exact .inr (.inl rfl) | exact .inr (.inr rfl)
  · and_intros <;> first | exact trivial | exact BitVec.isLt _ | exact fmtCode_lt _ | exact flag_lt _ | exact ordCode_lt _ | exact scopeCode_lt _ | exact aopCode_lt _ | exact Nat.le_of_ble_eq_true rfl

theorem lds : ∀ x0 x1 x2 x3 x4 x5, Statement (.lds x0 x1 x2 x3 x4 x5) := by
  intro x0 x1 x2 x3 x4 x5 l h
  obtain rfl := Option.some.inj h
  refine ⟨Nat.le_of_ble_eq_true rfl, ?_, rfl, rfl, rfl, ?_⟩
  · first | exact .inl rfl | exact .inr (.inl rfl) | exact .inr (.inr rfl)
  · and_intros <;> first | exact trivial | exact BitVec.isLt _ | exact fmtCode_lt _ | exact flag_lt _ | exact ordCode_lt _ | exact scopeCode_lt _ | exact aopCode_lt _ | exact Nat.le_of_ble_eq_true rfl

theorem sts : ∀ x0 x1 x2 x3 x4 x5, Statement (.sts x0 x1 x2 x3 x4 x5) := by
  intro x0 x1 x2 x3 x4 x5 l h
  obtain rfl := Option.some.inj h
  refine ⟨Nat.le_of_ble_eq_true rfl, ?_, rfl, rfl, rfl, ?_⟩
  · first | exact .inl rfl | exact .inr (.inl rfl) | exact .inr (.inr rfl)
  · and_intros <;> first | exact trivial | exact BitVec.isLt _ | exact fmtCode_lt _ | exact flag_lt _ | exact ordCode_lt _ | exact scopeCode_lt _ | exact aopCode_lt _ | exact Nat.le_of_ble_eq_true rfl

theorem ldx : ∀ x0 x1 x2 x3 x4 x5, Statement (.ldx x0 x1 x2 x3 x4 x5) := by
  intro x0 x1 x2 x3 x4 x5 l h
  obtain rfl := Option.some.inj h
  refine ⟨Nat.le_of_ble_eq_true rfl, ?_, rfl, rfl, rfl, ?_⟩
  · first | exact .inl rfl | exact .inr (.inl rfl) | exact .inr (.inr rfl)
  · and_intros <;> first | exact trivial | exact BitVec.isLt _ | exact fmtCode_lt _ | exact flag_lt _ | exact ordCode_lt _ | exact scopeCode_lt _ | exact aopCode_lt _ | exact Nat.le_of_ble_eq_true rfl

theorem stx : ∀ x0 x1 x2 x3 x4 x5, Statement (.stx x0 x1 x2 x3 x4 x5) := by
  intro x0 x1 x2 x3 x4 x5 l h
  obtain rfl := Option.some.inj h
  refine ⟨Nat.le_of_ble_eq_true rfl, ?_, rfl, rfl, rfl, ?_⟩
  · first | exact .inl rfl | exact .inr (.inl rfl) | exact .inr (.inr rfl)
  · and_intros <;> first | exact trivial | exact BitVec.isLt _ | exact fmtCode_lt _ | exact flag_lt _ | exact ordCode_lt _ | exact scopeCode_lt _ | exact aopCode_lt _ | exact Nat.le_of_ble_eq_true rfl

theorem atom : ∀ x0 x1 x2 x3 x4 x5 x6 x7, Statement (.atom x0 x1 x2 x3 x4 x5 x6 x7) := by
  intro x0 x1 x2 x3 x4 x5 x6 x7 l h
  obtain rfl := Option.some.inj h
  refine ⟨Nat.le_of_ble_eq_true rfl, ?_, rfl, rfl, rfl, ?_⟩
  · first | exact .inl rfl | exact .inr (.inl rfl) | exact .inr (.inr rfl)
  · and_intros <;> first | exact trivial | exact BitVec.isLt _ | exact fmtCode_lt _ | exact flag_lt _ | exact ordCode_lt _ | exact scopeCode_lt _ | exact aopCode_lt _ | exact Nat.le_of_ble_eq_true rfl

theorem atoms : ∀ x0 x1 x2 x3 x4 x5 x6 x7, Statement (.atoms x0 x1 x2 x3 x4 x5 x6 x7) := by
  intro x0 x1 x2 x3 x4 x5 x6 x7 l h
  obtain rfl := Option.some.inj h
  refine ⟨Nat.le_of_ble_eq_true rfl, ?_, rfl, rfl, rfl, ?_⟩
  · first | exact .inl rfl | exact .inr (.inl rfl) | exact .inr (.inr rfl)
  · and_intros <;> first | exact trivial | exact BitVec.isLt _ | exact fmtCode_lt _ | exact flag_lt _ | exact ordCode_lt _ | exact scopeCode_lt _ | exact aopCode_lt _ | exact Nat.le_of_ble_eq_true rfl

theorem sub : ∀ x0 x1 x2, Statement (.sub x0 x1 x2) := by
  intro x0 x1 x2 l h
  obtain rfl := Option.some.inj h
  refine ⟨Nat.le_of_ble_eq_true rfl, ?_, rfl, rfl, rfl, ?_⟩
  · first | exact .inl rfl | exact .inr (.inl rfl) | exact .inr (.inr rfl)
  · and_intros <;> first | exact trivial | exact BitVec.isLt _ | exact fmtCode_lt _ | exact flag_lt _ | exact ordCode_lt _ | exact scopeCode_lt _ | exact aopCode_lt _ | exact Nat.le_of_ble_eq_true rfl

theorem unsub : ∀ x0 x1, Statement (.unsub x0 x1) := by
  intro x0 x1 l h
  obtain rfl := Option.some.inj h
  refine ⟨Nat.le_of_ble_eq_true rfl, ?_, rfl, rfl, rfl, ?_⟩
  · first | exact .inl rfl | exact .inr (.inl rfl) | exact .inr (.inr rfl)
  · and_intros <;> first | exact trivial | exact BitVec.isLt _ | exact fmtCode_lt _ | exact flag_lt _ | exact ordCode_lt _ | exact scopeCode_lt _ | exact aopCode_lt _ | exact Nat.le_of_ble_eq_true rfl

theorem slrd : ∀ x0 x1, Statement (.slrd x0 x1) := by
  intro x0 x1 l h
  obtain rfl := Option.some.inj h
  refine ⟨Nat.le_of_ble_eq_true rfl, ?_, rfl, rfl, rfl, ?_⟩
  · first | exact .inl rfl | exact .inr (.inl rfl) | exact .inr (.inr rfl)
  · and_intros <;> first | exact trivial | exact BitVec.isLt _ | exact fmtCode_lt _ | exact flag_lt _ | exact ordCode_lt _ | exact scopeCode_lt _ | exact aopCode_lt _ | exact Nat.le_of_ble_eq_true rfl

theorem slwait : ∀ x0 x1 x2 x3, Statement (.slwait x0 x1 x2 x3) := by
  intro x0 x1 x2 x3 l h
  obtain rfl := Option.some.inj h
  refine ⟨Nat.le_of_ble_eq_true rfl, ?_, rfl, rfl, rfl, ?_⟩
  · first | exact .inl rfl | exact .inr (.inl rfl) | exact .inr (.inr rfl)
  · and_intros <;> first | exact trivial | exact BitVec.isLt _ | exact fmtCode_lt _ | exact flag_lt _ | exact ordCode_lt _ | exact scopeCode_lt _ | exact aopCode_lt _ | exact Nat.le_of_ble_eq_true rfl

theorem swinit : ∀ x0 x1 x2, Statement (.swinit x0 x1 x2) := by
  intro x0 x1 x2 l h
  obtain rfl := Option.some.inj h
  refine ⟨Nat.le_of_ble_eq_true rfl, ?_, rfl, rfl, rfl, ?_⟩
  · first | exact .inl rfl | exact .inr (.inl rfl) | exact .inr (.inr rfl)
  · and_intros <;> first | exact trivial | exact BitVec.isLt _ | exact fmtCode_lt _ | exact flag_lt _ | exact ordCode_lt _ | exact scopeCode_lt _ | exact aopCode_lt _ | exact Nat.le_of_ble_eq_true rfl

theorem swadd : ∀ x0 x1 x2 x3, Statement (.swadd x0 x1 x2 x3) := by
  intro x0 x1 x2 x3 l h
  obtain rfl := Option.some.inj h
  refine ⟨Nat.le_of_ble_eq_true rfl, ?_, rfl, rfl, rfl, ?_⟩
  · first | exact .inl rfl | exact .inr (.inl rfl) | exact .inr (.inr rfl)
  · and_intros <;> first | exact trivial | exact BitVec.isLt _ | exact fmtCode_lt _ | exact flag_lt _ | exact ordCode_lt _ | exact scopeCode_lt _ | exact aopCode_lt _ | exact Nat.le_of_ble_eq_true rfl

theorem swwait : ∀ x0 x1 x2 x3 x4, Statement (.swwait x0 x1 x2 x3 x4) := by
  intro x0 x1 x2 x3 x4 l h
  obtain rfl := Option.some.inj h
  refine ⟨Nat.le_of_ble_eq_true rfl, ?_, rfl, rfl, rfl, ?_⟩
  · first | exact .inl rfl | exact .inr (.inl rfl) | exact .inr (.inr rfl)
  · and_intros <;> first | exact trivial | exact BitVec.isLt _ | exact fmtCode_lt _ | exact flag_lt _ | exact ordCode_lt _ | exact scopeCode_lt _ | exact aopCode_lt _ | exact Nat.le_of_ble_eq_true rfl

theorem mwait : ∀ x0 x1 x2 x3 x4 x5, Statement (.mwait x0 x1 x2 x3 x4 x5) := by
  intro x0 x1 x2 x3 x4 x5 l h
  obtain rfl := Option.some.inj h
  refine ⟨Nat.le_of_ble_eq_true rfl, ?_, rfl, rfl, rfl, ?_⟩
  · first | exact .inl rfl | exact .inr (.inl rfl) | exact .inr (.inr rfl)
  · and_intros <;> first | exact trivial | exact BitVec.isLt _ | exact fmtCode_lt _ | exact flag_lt _ | exact ordCode_lt _ | exact scopeCode_lt _ | exact aopCode_lt _ | exact Nat.le_of_ble_eq_true rfl

theorem fence : ∀ x0 x1, Statement (.fence x0 x1) := by
  intro x0 x1 l h
  obtain rfl := Option.some.inj h
  refine ⟨Nat.le_of_ble_eq_true rfl, ?_, rfl, rfl, rfl, ?_⟩
  · first | exact .inl rfl | exact .inr (.inl rfl) | exact .inr (.inr rfl)
  · and_intros <;> first | exact trivial | exact BitVec.isLt _ | exact fmtCode_lt _ | exact flag_lt _ | exact ordCode_lt _ | exact scopeCode_lt _ | exact aopCode_lt _ | exact Nat.le_of_ble_eq_true rfl

theorem xfence : ∀ x0 x1 x2, Statement (.xfence x0 x1 x2) := by
  intro x0 x1 x2 l h
  obtain rfl := Option.some.inj h
  refine ⟨Nat.le_of_ble_eq_true rfl, ?_, rfl, rfl, rfl, ?_⟩
  · first | exact .inl rfl | exact .inr (.inl rfl) | exact .inr (.inr rfl)
  · and_intros <;> first | exact trivial | exact BitVec.isLt _ | exact fmtCode_lt _ | exact flag_lt _ | exact ordCode_lt _ | exact scopeCode_lt _ | exact aopCode_lt _ | exact Nat.le_of_ble_eq_true rfl

theorem afence : ∀ x0, Statement (.afence x0) := by
  intro x0 l h
  obtain rfl := Option.some.inj h
  refine ⟨Nat.le_of_ble_eq_true rfl, ?_, rfl, rfl, rfl, ?_⟩
  · first | exact .inl rfl | exact .inr (.inl rfl) | exact .inr (.inr rfl)
  · and_intros <;> first | exact trivial | exact BitVec.isLt _ | exact fmtCode_lt _ | exact flag_lt _ | exact ordCode_lt _ | exact scopeCode_lt _ | exact aopCode_lt _ | exact Nat.le_of_ble_eq_true rfl

theorem mmaLn6 : ∀ x0 x1 x2 x3, Statement (.mmaLn6 x0 x1 x2 x3) := by
  intro x0 x1 x2 x3 l h
  obtain rfl := Option.some.inj h
  refine ⟨Nat.le_of_ble_eq_true rfl, ?_, rfl, rfl, rfl, ?_⟩
  · first | exact .inl rfl | exact .inr (.inl rfl) | exact .inr (.inr rfl)
  · and_intros <;> first | exact trivial | exact BitVec.isLt _ | exact fmtCode_lt _ | exact flag_lt _ | exact ordCode_lt _ | exact scopeCode_lt _ | exact aopCode_lt _ | exact Nat.le_of_ble_eq_true rfl

theorem mmaLn8 : ∀ x0 x1 x2 x3, Statement (.mmaLn8 x0 x1 x2 x3) := by
  intro x0 x1 x2 x3 l h
  obtain rfl := Option.some.inj h
  refine ⟨Nat.le_of_ble_eq_true rfl, ?_, rfl, rfl, rfl, ?_⟩
  · first | exact .inl rfl | exact .inr (.inl rfl) | exact .inr (.inr rfl)
  · and_intros <;> first | exact trivial | exact BitVec.isLt _ | exact fmtCode_lt _ | exact flag_lt _ | exact ordCode_lt _ | exact scopeCode_lt _ | exact aopCode_lt _ | exact Nat.le_of_ble_eq_true rfl

theorem mmaI8 : ∀ x0 x1 x2 x3, Statement (.mmaI8 x0 x1 x2 x3) := by
  intro x0 x1 x2 x3 l h
  obtain rfl := Option.some.inj h
  refine ⟨Nat.le_of_ble_eq_true rfl, ?_, rfl, rfl, rfl, ?_⟩
  · first | exact .inl rfl | exact .inr (.inl rfl) | exact .inr (.inr rfl)
  · and_intros <;> first | exact trivial | exact BitVec.isLt _ | exact fmtCode_lt _ | exact flag_lt _ | exact ordCode_lt _ | exact scopeCode_lt _ | exact aopCode_lt _ | exact Nat.le_of_ble_eq_true rfl

theorem mmaBf16 : ∀ x0 x1 x2 x3, Statement (.mmaBf16 x0 x1 x2 x3) := by
  intro x0 x1 x2 x3 l h
  obtain rfl := Option.some.inj h
  refine ⟨Nat.le_of_ble_eq_true rfl, ?_, rfl, rfl, rfl, ?_⟩
  · first | exact .inl rfl | exact .inr (.inl rfl) | exact .inr (.inr rfl)
  · and_intros <;> first | exact trivial | exact BitVec.isLt _ | exact fmtCode_lt _ | exact flag_lt _ | exact ordCode_lt _ | exact scopeCode_lt _ | exact aopCode_lt _ | exact Nat.le_of_ble_eq_true rfl

theorem mmaF16 : ∀ x0 x1 x2 x3, Statement (.mmaF16 x0 x1 x2 x3) := by
  intro x0 x1 x2 x3 l h
  obtain rfl := Option.some.inj h
  refine ⟨Nat.le_of_ble_eq_true rfl, ?_, rfl, rfl, rfl, ?_⟩
  · first | exact .inl rfl | exact .inr (.inl rfl) | exact .inr (.inr rfl)
  · and_intros <;> first | exact trivial | exact BitVec.isLt _ | exact fmtCode_lt _ | exact flag_lt _ | exact ordCode_lt _ | exact scopeCode_lt _ | exact aopCode_lt _ | exact Nat.le_of_ble_eq_true rfl

theorem had : ∀ x0 x1 x2, Statement (.had x0 x1 x2) := by
  intro x0 x1 x2 l h
  obtain rfl := Option.some.inj h
  refine ⟨Nat.le_of_ble_eq_true rfl, ?_, rfl, rfl, rfl, ?_⟩
  · first | exact .inl rfl | exact .inr (.inl rfl) | exact .inr (.inr rfl)
  · and_intros <;> first | exact trivial | exact BitVec.isLt _ | exact fmtCode_lt _ | exact flag_lt _ | exact ordCode_lt _ | exact scopeCode_lt _ | exact aopCode_lt _ | exact Nat.le_of_ble_eq_true rfl

theorem scacc : ∀ x0 x1 x2 x3 x4, Statement (.scacc x0 x1 x2 x3 x4) := by
  intro x0 x1 x2 x3 x4 l h
  obtain rfl := Option.some.inj h
  refine ⟨Nat.le_of_ble_eq_true rfl, ?_, rfl, rfl, rfl, ?_⟩
  · first | exact .inl rfl | exact .inr (.inl rfl) | exact .inr (.inr rfl)
  · and_intros <;> first | exact trivial | exact BitVec.isLt _ | exact fmtCode_lt _ | exact flag_lt _ | exact ordCode_lt _ | exact scopeCode_lt _ | exact aopCode_lt _ | exact Nat.le_of_ble_eq_true rfl

theorem accld : ∀ x0 x1 x2 x3, Statement (.accld x0 x1 x2 x3) := by
  intro x0 x1 x2 x3 l h
  obtain rfl := Option.some.inj h
  refine ⟨Nat.le_of_ble_eq_true rfl, ?_, rfl, rfl, rfl, ?_⟩
  · first | exact .inl rfl | exact .inr (.inl rfl) | exact .inr (.inr rfl)
  · and_intros <;> first | exact trivial | exact BitVec.isLt _ | exact fmtCode_lt _ | exact flag_lt _ | exact ordCode_lt _ | exact scopeCode_lt _ | exact aopCode_lt _ | exact Nat.le_of_ble_eq_true rfl

theorem accst : ∀ x0 x1 x2 x3 x4, Statement (.accst x0 x1 x2 x3 x4) := by
  intro x0 x1 x2 x3 x4 l h
  obtain rfl := Option.some.inj h
  refine ⟨Nat.le_of_ble_eq_true rfl, ?_, rfl, rfl, rfl, ?_⟩
  · first | exact .inl rfl | exact .inr (.inl rfl) | exact .inr (.inr rfl)
  · and_intros <;> first | exact trivial | exact BitVec.isLt _ | exact fmtCode_lt _ | exact flag_lt _ | exact ordCode_lt _ | exact scopeCode_lt _ | exact aopCode_lt _ | exact Nat.le_of_ble_eq_true rfl

theorem accz : ∀ x0 x1 x2, Statement (.accz x0 x1 x2) := by
  intro x0 x1 x2 l h
  obtain rfl := Option.some.inj h
  refine ⟨Nat.le_of_ble_eq_true rfl, ?_, rfl, rfl, rfl, ?_⟩
  · first | exact .inl rfl | exact .inr (.inl rfl) | exact .inr (.inr rfl)
  · and_intros <;> first | exact trivial | exact BitVec.isLt _ | exact fmtCode_lt _ | exact flag_lt _ | exact ordCode_lt _ | exact scopeCode_lt _ | exact aopCode_lt _ | exact Nat.le_of_ble_eq_true rfl

theorem qput : ∀ x0 x1 x2, Statement (.qput x0 x1 x2) := by
  intro x0 x1 x2 l h
  obtain rfl := Option.some.inj h
  refine ⟨Nat.le_of_ble_eq_true rfl, ?_, rfl, rfl, rfl, ?_⟩
  · first | exact .inl rfl | exact .inr (.inl rfl) | exact .inr (.inr rfl)
  · and_intros <;> first | exact trivial | exact BitVec.isLt _ | exact fmtCode_lt _ | exact flag_lt _ | exact ordCode_lt _ | exact scopeCode_lt _ | exact aopCode_lt _ | exact Nat.le_of_ble_eq_true rfl

theorem fork : ∀ x0 x1 x2 x3, Statement (.fork x0 x1 x2 x3) := by
  intro x0 x1 x2 x3 l h
  obtain rfl := Option.some.inj h
  refine ⟨Nat.le_of_ble_eq_true rfl, ?_, rfl, rfl, rfl, ?_⟩
  · first | exact .inl rfl | exact .inr (.inl rfl) | exact .inr (.inr rfl)
  · and_intros <;> first | exact trivial | exact BitVec.isLt _ | exact fmtCode_lt _ | exact flag_lt _ | exact ordCode_lt _ | exact scopeCode_lt _ | exact aopCode_lt _ | exact Nat.le_of_ble_eq_true rfl

theorem join : ∀ x0 x1, Statement (.join x0 x1) := by
  intro x0 x1 l h
  obtain rfl := Option.some.inj h
  refine ⟨Nat.le_of_ble_eq_true rfl, ?_, rfl, rfl, rfl, ?_⟩
  · first | exact .inl rfl | exact .inr (.inl rfl) | exact .inr (.inr rfl)
  · and_intros <;> first | exact trivial | exact BitVec.isLt _ | exact fmtCode_lt _ | exact flag_lt _ | exact ordCode_lt _ | exact scopeCode_lt _ | exact aopCode_lt _ | exact Nat.le_of_ble_eq_true rfl

theorem gcraise : ∀ x0 x1, Statement (.gcraise x0 x1) := by
  intro x0 x1 l h
  obtain rfl := Option.some.inj h
  refine ⟨Nat.le_of_ble_eq_true rfl, ?_, rfl, rfl, rfl, ?_⟩
  · first | exact .inl rfl | exact .inr (.inl rfl) | exact .inr (.inr rfl)
  · and_intros <;> first | exact trivial | exact BitVec.isLt _ | exact fmtCode_lt _ | exact flag_lt _ | exact ordCode_lt _ | exact scopeCode_lt _ | exact aopCode_lt _ | exact Nat.le_of_ble_eq_true rfl

theorem regrow : ∀ x0 x1 x2, Statement (.regrow x0 x1 x2) := by
  intro x0 x1 x2 l h
  obtain rfl := Option.some.inj h
  refine ⟨Nat.le_of_ble_eq_true rfl, ?_, rfl, rfl, rfl, ?_⟩
  · first | exact .inl rfl | exact .inr (.inl rfl) | exact .inr (.inr rfl)
  · and_intros <;> first | exact trivial | exact BitVec.isLt _ | exact fmtCode_lt _ | exact flag_lt _ | exact ordCode_lt _ | exact scopeCode_lt _ | exact aopCode_lt _ | exact Nat.le_of_ble_eq_true rfl

theorem sysrd : ∀ x0 x1, Statement (.sysrd x0 x1) := by
  intro x0 x1 l h
  obtain rfl := Option.some.inj h
  refine ⟨Nat.le_of_ble_eq_true rfl, ?_, rfl, rfl, rfl, ?_⟩
  · first | exact .inl rfl | exact .inr (.inl rfl) | exact .inr (.inr rfl)
  · and_intros <;> first | exact trivial | exact BitVec.isLt _ | exact fmtCode_lt _ | exact flag_lt _ | exact ordCode_lt _ | exact scopeCode_lt _ | exact aopCode_lt _ | exact Nat.le_of_ble_eq_true rfl

theorem syswr : ∀ x0 x1 x2, Statement (.syswr x0 x1 x2) := by
  intro x0 x1 x2 l h
  obtain rfl := Option.some.inj h
  refine ⟨Nat.le_of_ble_eq_true rfl, ?_, rfl, rfl, rfl, ?_⟩
  · first | exact .inl rfl | exact .inr (.inl rfl) | exact .inr (.inr rfl)
  · and_intros <;> first | exact trivial | exact BitVec.isLt _ | exact fmtCode_lt _ | exact flag_lt _ | exact ordCode_lt _ | exact scopeCode_lt _ | exact aopCode_lt _ | exact Nat.le_of_ble_eq_true rfl

theorem drain : ∀ x0, Statement (.drain x0) := by
  intro x0 l h
  obtain rfl := Option.some.inj h
  refine ⟨Nat.le_of_ble_eq_true rfl, ?_, rfl, rfl, rfl, ?_⟩
  · first | exact .inl rfl | exact .inr (.inl rfl) | exact .inr (.inr rfl)
  · and_intros <;> first | exact trivial | exact BitVec.isLt _ | exact fmtCode_lt _ | exact flag_lt _ | exact ordCode_lt _ | exact scopeCode_lt _ | exact aopCode_lt _ | exact Nat.le_of_ble_eq_true rfl

theorem perstAssert : Statement (.perstAssert) := by
  intro l h
  cases h

theorem unassignedEncoding : ∀ x0, Statement (.unassignedEncoding x0) := by
  intro x0 l h
  cases h

theorem reservedKindFlit : ∀ x0 x1, Statement (.reservedKindFlit x0 x1) := by
  intro x0 x1 l h
  cases h

theorem singleBitSoftError : Statement (.singleBitSoftError) := by
  intro l h
  cases h

theorem pageCopy : ∀ x0 x1 x2, Statement (.pageCopy x0 x1 x2) := by
  intro x0 x1 x2 l h
  cases h

end F

end Sys2Proof.Laws
end

