-- ==== Sys2Proof/Machine/Aof.lean ====
section
/-! DEFINITION. The Avotte Object Format and what avld builds from objects (12 R286 to R290): the file's header, section headers,
symbols and relocations, the relocated sections, and the tree image that dispatch reads (12 R270, R271). -/

namespace Sys2Proof.Machine

/-- A section of an object (R287): its name, its identifier 1 to 10, the log2 of its alignment, its address and its bytes. -/
structure Sect where
  name : List Byte
  sid : Nat
  align : Nat
  va : Nat
  body : List Byte
  deriving DecidableEq, Repr

/-- A symbol record (R288): SECT is a section header's index plus one, or 0 for an undefined symbol. -/
structure Symbol where
  name : List Byte
  sect : Nat
  stype : Nat
  bind : Nat
  value : Nat
  deriving DecidableEq, Repr

/-- A relocation record (R289). -/
structure Reloc where
  rsect : Nat
  roff : Nat
  rsym : Nat
  rtype : Nat
  deriving DecidableEq, Repr

/-- A record of .dbg (R287): a path position, its source line, and the file's name. -/
structure Debug where
  func : Nat
  node : Nat
  leafOff : Nat
  line : Nat
  file : List Byte
  deriving DecidableEq, Repr

/-- An AOF file: FKIND 0 is a relocatable object, 1 a linked image (R286); `strs` is the part of its string table that .dbg's
offsets refer to (R287). -/
structure Aof where
  fkind : Nat
  strs : List Byte
  sects : List Sect
  syms : List Symbol
  rels : List Reloc
  deriving DecidableEq, Repr

/-- The name at an offset of the string table, up to its NUL. -/
def nameAt (strs : List Byte) (off : Nat) : List Byte := (strs.drop off).takeWhile (· != 0)

/-- n bytes of a file at an offset, where the file has them. -/
def slice? (f : List Byte) (off n : Nat) : Option (List Byte) :=
  if off + n ≤ f.length then some ((f.drop off).take n) else none

/-- A little-endian number in a file. -/
def num? (f : List Byte) (off n : Nat) : Option Nat := (slice? f off n).map ofBytes

/-- Records of one size, each read by its own reader. -/
def records {α : Type} (read : Nat → Option α) (off size n : Nat) : Option (List α) :=
  (upFrom n 0).mapM fun i => read (off + size * i)

/-- A section header (R287). -/
def readSect (f strs : List Byte) (off : Nat) : Option Sect := do
  let h ← num? f off 32
  let sid := bits h 32 8
  if sid = 0 ∨ sid > 10 ∨ bits h 48 16 ≠ 0 ∨ bits h 192 64 ≠ 0 then none
  else
    let body ← slice? f (bits h 96 32) (bits h 64 32)
    some { name := nameAt strs (bits h 0 32), sid := sid, align := bits h 40 8, va := bits h 128 64, body := body }

/-- A symbol record (R288). -/
def readSym (f strs : List Byte) (off : Nat) : Option Symbol := do
  let h ← num? f off 16
  if bits h 40 8 > 2 ∨ bits h 48 8 > 1 ∨ bits h 56 8 ≠ 0 then none
  else
    some { name := nameAt strs (bits h 0 32), sect := bits h 32 8, stype := bits h 40 8, bind := bits h 48 8,
           value := bits h 64 64 }

/-- A relocation record (R289); its RTYPE is judged when it is applied. -/
def readRel (f : List Byte) (off : Nat) : Option Reloc := do
  let h ← num? f off 16
  if bits h 104 24 ≠ 0 then none
  else some { rsect := bits h 0 32, roff := bits h 32 32, rsym := bits h 64 32, rtype := bits h 96 8 }

/-- An AOF file (R286): none where MAGIC, VERSION, FKIND or a zero byte is wrong, or a table lies beyond the file. -/
def readAof (f : List Byte) : Option Aof := do
  let h ← num? f 0 64
  let nrel := bits h 128 32
  if bits h 0 32 ≠ 0x00464F41 ∨ bits h 32 16 ≠ 1 ∨ bits h 48 16 > 1 ∨ bits h 320 192 ≠ 0 ∨ (bits h 48 16 = 1 ∧ nrel ≠ 0) then none
  else
    let strs ← slice? f (bits h 256 32) (bits h 288 32)
    let sects ← records (readSect f strs) (bits h 160 32) 32 (bits h 64 32)
    let syms ← records (readSym f strs) (bits h 192 32) 16 (bits h 96 32)
    let rels ← records (readRel f) (bits h 224 32) 16 nrel
    some { fkind := bits h 48 16, strs := strs, sects := sects, syms := syms, rels := rels }

/-- The offsets of byte runs laid end to end from an offset. -/
def offsets : Nat → List Nat → List Nat
  | _, [] => []
  | o, n :: r => o :: offsets (o + n) r

/-- An AOF file's bytes: header, section headers, symbols, relocations, strings, contents; the names of sections and symbols
follow the strings of .dbg. R286 fixes the tables by their offsets and no order among them; this order is the model's
(log 46). -/
def writeAof (a : Aof) : List Byte :=
  let names := (a.sects.map (·.name) ++ a.syms.map (·.name)).map (· ++ [0])
  let nameOff := offsets a.strs.length (names.map List.length)
  let strs := a.strs ++ names.flatten
  let symOff := 64 + 32 * a.sects.length
  let relOff := symOff + 16 * a.syms.length
  let strOff := relOff + 16 * a.rels.length
  let bodyOff := offsets (strOff + strs.length) (a.sects.map (·.body.length))
  let head := pack [(32, 0x00464F41), (16, 1), (16, a.fkind), (32, a.sects.length), (32, a.syms.length), (32, a.rels.length),
    (32, 64), (32, symOff), (32, relOff), (32, strOff), (32, strs.length)]
  let sects := ((a.sects.zip nameOff).zip bodyOff).map fun x => toBytes 32 (pack [(32, x.1.2), (8, x.1.1.sid), (8, x.1.1.align),
    (16, 0), (32, x.1.1.body.length), (32, x.2), (64, x.1.1.va)])
  let syms := (a.syms.zip (nameOff.drop a.sects.length)).map fun x => toBytes 16 (pack [(32, x.2), (8, x.1.sect), (8, x.1.stype),
    (8, x.1.bind), (8, 0), (64, x.1.value)])
  let rels := a.rels.map fun r => toBytes 16 (pack [(32, r.rsect), (32, r.roff), (32, r.rsym), (8, r.rtype)])
  toBytes 64 head ++ sects.flatten ++ syms.flatten ++ rels.flatten ++ strs ++ (a.sects.map (·.body)).flatten

/-- The bytes of a section with an identifier; nothing where the file has none. -/
def sectBody (a : Aof) (sid : Nat) : List Byte := ((a.sects.filter (·.sid == sid)).map (·.body)).flatten

/-- A .dbg record's bytes (R287), with the string offset of its file's name. -/
def debugBytes (d : Debug) (nameOff : Nat) : List Byte :=
  toBytes 16 (pack [(16, d.func), (16, d.node), (16, d.leafOff), (16, 0), (32, d.line), (32, nameOff)])

/-- The records of a file's .dbg (R287): none where a zero byte is set or bytes are left over. -/
def debugRecords (a : Aof) : Option (List Debug) :=
  let f := sectBody a 10
  if f.length % 16 ≠ 0 then none
  else records (fun off => (num? f off 16).bind fun h =>
    if bits h 48 16 ≠ 0 then none
    else some { func := bits h 0 16, node := bits h 16 16, leafOff := bits h 32 16, line := bits h 64 32,
                file := nameAt a.strs (bits h 96 32) }) 0 16 (f.length / 16)

/-- .dbg records whose string offsets count from further on. -/
def moveStrings : Nat → Nat → List Byte → List Byte
  | 0, _, _ => []
  | n + 1, by_, f => f.take 12 ++ toBytes 4 (ofBytes ((f.drop 12).take 4) + by_) ++ moveStrings n by_ (f.drop 16)

/-- The .dbg of objects one after another, with their string tables end to end (R287, R290). -/
def joinDebug : Nat → List Aof → List Byte
  | _, [] => []
  | k, a :: r => moveStrings ((sectBody a 10).length / 16) k (sectBody a 10) ++ joinDebug (k + a.strs.length) r

/-- What avld reports (R289), and what no rule gives a meaning: a table that points outside its sections, or a section's
address that is not on a 64 KiB boundary. -/
inductive LinkError where
  | undefined
  | unknownType
  | doesNotFit
  | malformed
  | misplaced
  deriving DecidableEq, Repr

/-- The virtual addresses given to avld (R290). -/
structure Placing where
  tree : Nat
  text : Nat
  calltab : Nat
  rodata : Nat
  data : Nat
  deriving DecidableEq, Repr

/-- Where an object's parts come to lie in the image: the index of its first function and node, and the offsets of its parts
within the image's sections (R290). -/
structure Base where
  func : Nat
  node : Nat
  text : Nat
  calltab : Nat
  rodata : Nat
  data : Nat
  deriving DecidableEq, Repr

/-- The alignment of an object's section, in bytes. -/
def sectAlign (a : Aof) (sid : Nat) : Nat := 2 ^ ((a.sects.filter (·.sid == sid)).map (·.align)).foldl Nat.max 0

/-- The next multiple. -/
def roundUp (n k : Nat) : Nat := ceilDiv n k * k

/-- Where an object starts, after the objects before it. -/
def startOf (b : Base) (a : Aof) : Base :=
  { b with text := roundUp b.text (sectAlign a 1), calltab := roundUp b.calltab (sectAlign a 3),
           data := roundUp b.data (sectAlign a 4), rodata := roundUp b.rodata (sectAlign a 5) }

/-- The end of an object, which starts at b. -/
def endOf (b : Base) (a : Aof) : Base :=
  { func := b.func + (sectBody a 7).length / 16, node := b.node + (sectBody a 2).length / 16,
    text := b.text + (sectBody a 1).length, calltab := b.calltab + (sectBody a 3).length,
    data := b.data + (sectBody a 4).length, rodata := b.rodata + (sectBody a 5).length }

/-- Each object with its place (R290, step 1). -/
def placeObjects : Base → List Aof → List (Base × Aof)
  | _, [] => []
  | b, a :: r => (startOf b a, a) :: placeObjects (endOf (startOf b a) a) r

/-- The virtual address of an object's part of a section: .text, .calltab, .data and .rodata have one. -/
def partVa (p : Placing) (b : Base) : Nat → Option Nat
  | 1 => some (p.text + b.text)
  | 3 => some (p.calltab + b.calltab)
  | 4 => some (p.data + b.data)
  | 5 => some (p.rodata + b.rodata)
  | _ => none

/-- The section identifier behind a section header's index. -/
def sidOf (a : Aof) (i : Nat) : Option Nat := (a.sects[i]?).map (·.sid)

/-- The definition of a symbol: its own, or the global one of that name in the objects (R288). -/
def defOf (all : List (Base × Aof)) (b : Base) (a : Aof) (y : Symbol) : Option (Base × Aof × Symbol) :=
  if y.sect ≠ 0 then some (b, a, y)
  else (all.flatMap fun x => (x.2.syms.filter fun z => z.sect != 0 && z.bind == 1 && z.name == y.name).map fun z =>
    (x.1, x.2, z)).head?

/-- What a relocation refers to: a symbol's definition, or the patched section's own base. -/
inductive Target where
  | own
  | sym (b : Base) (a : Aof) (y : Symbol)
  deriving DecidableEq, Repr

/-- The target of a relocation. -/
def relocTarget (all : List (Base × Aof)) (b : Base) (a : Aof) (r : Reloc) : Except LinkError Target :=
  if r.rsym = 0xFFFFFFFF then .ok .own
  else match a.syms[r.rsym]? with
    | none => .error .malformed
    | some y => match defOf all b a y with
      | none => .error .undefined
      | some (b', a', z) => .ok (.sym b' a' z)

/-- An expected value, or a malformed object. -/
def wanted (x : Option Nat) : Except LinkError Nat :=
  match x with
  | some n => .ok n
  | none => .error .malformed

/-- The width in bytes of a relocation's field and what is added to its addend (R289). -/
def relocValue (p : Placing) (b : Base) (a : Aof) (r : Reloc) (t : Target) : Except LinkError (Nat × Nat) :=
  match r.rtype with
  | 1 => (wanted (match t with
      | .own => (sidOf a r.rsect).bind (partVa p b)
      | .sym b' a' y => ((sidOf a' (y.sect - 1)).bind (partVa p b')).map (· + y.value))).map (8, ·)
  | 2 => .ok (2, b.node)
  | 3 => (wanted (match t with
      | .own => none
      | .sym b' _ y => if y.stype = 1 then some (b'.func + y.value) else none)).map (2, ·)
  | 4 => .ok (4, b.text)
  | 5 => (wanted (match t with
      | .own => some b.calltab
      | .sym b' _ y => if y.stype = 2 then some (b'.calltab + y.value) else none)).map (4, ·)
  | _ => .error .unknownType

/-- A field of some bytes replaced. -/
def patchBytes (f : List Byte) (off n v : Nat) : List Byte := f.take off ++ toBytes n v ++ f.drop (off + n)

/-- One relocation applied to its object: the field holds the addend before linking (R289). -/
def applyReloc (p : Placing) (all : List (Base × Aof)) (b : Base) (a : Aof) (r : Reloc) : Except LinkError Aof := do
  let t ← relocTarget all b a r
  let w ← relocValue p b a r t
  match a.sects[r.rsect]? with
  | none => .error .malformed
  | some x =>
    let addend ← wanted (num? x.body r.roff w.1)
    if addend + w.2 ≥ 2 ^ (8 * w.1) then .error .doesNotFit
    else .ok { a with sects := a.sects.set r.rsect { x with body := patchBytes x.body r.roff w.1 (addend + w.2) } }

/-- The relocations of an object, in order (R290, step 2). -/
def relocate (p : Placing) (all : List (Base × Aof)) (b : Base) : Aof → List Reloc → Except LinkError Aof
  | a, [] => .ok a
  | a, r :: rest => do relocate p all b (← applyReloc p all b a r) rest

/-- The objects' parts of a section end to end, each at its place. -/
def joined (sid : Nat) (off : Base → Nat) (l : List (Base × Aof)) : List Byte :=
  l.foldl (fun acc x => acc ++ List.replicate (off x.1 - acc.length) 0 ++ sectBody x.2 sid) []

/-- The function table from .launch's records (R271, R287, R290): ext, sub and sp are the offsets of the next records. -/
def functionTable : Nat → List Byte → Nat → Nat → Nat → List Byte
  | 0, _, _, _, _ => []
  | n + 1, l, ext, sub, sp =>
    let h := ofBytes (l.take 16)
    toBytes 32 (pack [(16, bits h 64 16), (8, bits h 56 8), (8, 0), (32, ext), (16, bits h 80 8), (16, bits h 88 8), (32, sub),
        (32, sp), (32, bits h 96 32), (32, bits h 0 32), (8, bits h 32 8), (8, bits h 40 8), (8, bits h 48 8), (8, 0)]) ++
      functionTable n (l.drop 16) (ext + 16 * bits h 80 8) (sub + 16 * bits h 88 8) (sp + bits h 96 32)

/-- The address given to a section, 0 for one of size 0 (R290, step 4). -/
def vaOf (va : Nat) (body : List Byte) : Nat := if body.isEmpty then 0 else va

/-- The tree image (R270, R271, R290): header, function table, node records, every extent record, every standing-load record,
every scratchpad record, and zeros to a multiple of 64. -/
def treeImage (p : Placing) (launch nodes exts subs spads text calltab rodata : List Byte) : List Byte :=
  let nfunc := launch.length / 16
  let ext := 64 + 32 * nfunc + nodes.length
  let body := functionTable nfunc launch ext (ext + exts.length) (ext + exts.length + subs.length) ++ nodes ++ exts ++ subs ++ spads
  let len := roundUp (64 + body.length) 64
  let head := pack [(32, 0x45525446), (16, 1), (16, nfunc), (32, nodes.length / 16), (32, len), (64, vaOf p.text text),
    (32, text.length), (32, calltab.length), (64, vaOf p.calltab calltab), (64, vaOf p.rodata rodata), (32, rodata.length)]
  toBytes 64 head ++ body ++ List.replicate (len - 64 - body.length) 0

/-- avld (R290): the image of objects in the order given, at the addresses given. -/
def link (objs : List Aof) (p : Placing) : Except LinkError Aof := do
  let placed := placeObjects { func := 0, node := 0, text := 0, calltab := 0, rodata := 0, data := 0 } objs
  if [p.text, p.calltab, p.rodata, p.data].any (· % 65536 != 0) then .error .misplaced
  else
    let done ← placed.mapM fun x => (relocate p placed x.1 x.2 x.2.rels).map fun a => (x.1, a)
    let whole := fun (sid : Nat) (off : Base → Nat) => joined sid off done
    let zero := fun (_ : Base) => 0
    let text := whole 1 (·.text)
    let calltab := whole 3 (·.calltab)
    let data := whole 4 (·.data)
    let rodata := whole 5 (·.rodata)
    let launch := whole 7 zero
    let tree := treeImage p launch (whole 2 zero) (whole 8 zero) (whole 9 zero) (whole 6 zero) text calltab rodata
    let s := fun (sid va : Nat) (body : List Byte) => ({ name := [], sid := sid, align := 16, va := vaOf va body, body := body } : Sect)
    let objs := done.map (·.2)
    .ok { fkind := 1, strs := (objs.map (·.strs)).flatten, syms := [], rels := [],
          sects := [s 1 p.text text, s 2 p.tree tree, s 3 p.calltab calltab, s 4 p.data data, s 5 p.rodata rodata,
            s 7 0 launch, s 10 0 (joinDebug 0 objs)] }

end Sys2Proof.Machine
end

