-- ==== Sys2Proof/Machine/Assemble.lean ====
section
/-! DEFINITION. The directives of avas as an object's bytes (12 R291 to R294, with the number formats of 11 R251, R254, R255 and the
packing of 04 R94). A source is a list of lines, each a label, a directive or an instruction; the text of a line (R9, R291, R308 to
R311) is not modelled (log 46). -/

namespace Sys2Proof.Machine

/-- A symbol's name. -/
abbrev Name := List Byte

/-- An operand of .f32, .bf16, .ln6 and .ln8 (R293): a decimal num / den, a raw code, an infinity or nan. -/
inductive Datum where
  | dec (num : Int) (den : Nat)
  | raw (code : Nat)
  | inf (neg : Bool)
  | nan
  deriving DecidableEq, Repr

/-- A field of a node record (R272). -/
inductive NodeField where
  | ckpt | first | nch | mode | neg | pred | ireg | body | post | fn | tab | off | len
  deriving DecidableEq, Repr

/-- Where a field lies in the record of a kind: its low bit and width (R272). -/
def fieldPlace (kind : Nat) : NodeField → Option (Nat × Nat)
  | .ckpt => if kind = 1 ∨ kind = 3 then some (4, 1) else none
  | .first => if kind = 1 ∨ kind = 2 then some (8, 16) else none
  | .nch => if kind = 1 ∨ kind = 2 then some (24, 16) else none
  | .mode => if kind = 2 then some (40, 1) else none
  | .neg => if kind = 2 ∨ kind = 3 then some (41, 1) else none
  | .pred => if kind = 2 ∨ kind = 3 then some (44, 4) else none
  | .ireg => if kind = 2 ∨ kind = 5 then some (48, 8) else none
  | .body => if kind = 3 then some (8, 16) else none
  | .post => if kind = 3 then some (40, 1) else none
  | .fn => if kind = 4 then some (8, 16) else none
  | .tab => if kind = 5 then some (8, 32) else none
  | .off => if kind = 6 then some (8, 32) else none
  | .len => if kind = 6 then some (40, 13) else none

/-- A source line (R291 to R293); `bare` is a node directive without operands, by KIND, and `fielded` a node directive with
fields in the form FIELD=value (R292). -/
inductive Line where
  | bare (kind : Nat)
  | fielded (l : Line) (fs : List (NodeField × Nat))
  | label (name : Name)
  | func (name : Name)
  | width (w : Nat)
  | pit (vn accn spg psd ck : Nat)
  | stages (n : Nat)
  | gang (m : Nat)
  | extent (arg : Nat) (off : Int) (r w a : Bool) (len : Nat)
  | extentBy (arg : Nat) (off : Int) (r w a : Bool) (k factor : Nat)
  | sync (off target : Nat)
  | slot (name : Name) (off : Nat)
  | slotAt (name : Name) (off arg : Nat) (x : Int)
  | seq (ckpt : Bool)
  | choice (k : Nat) (neg : Bool)
  | choiceBy (v : Nat)
  | loop (post neg ckpt : Bool) (k : Nat)
  | call (name : Name)
  | calli (tab : Name) (v : Nat)
  | leaf
  | instr (i : Instr)
  | close
  | ctab (name : Name) (fs : List Name)
  | section_ (sid : Nat)
  | align (n : Nat)
  | ints (size : Nat) (vals : List Int)
  | dwordOf (name : Name) (addend : Nat)
  | fill (n size : Nat) (v : Int)
  | logs (ln6 : Bool) (vals : List Datum)
  | floats (f32 : Bool) (vals : List Datum)
  deriving DecidableEq, Repr

/-- A relocation whose symbol is still a name; none stands for the section's own base. -/
structure Fixup where
  sid : Nat
  off : Nat
  sym : Option Name
  rtype : Nat
  deriving DecidableEq, Repr

/-- A node being built: its record without FIRST, NCH and BODY, the fields that the source names, its children by their place
in source order, and the relocation of its own field (R272, R292). -/
structure Draft where
  rec_ : Nat
  given : List NodeField
  kids : List Nat
  fix : Option (Option Name × Nat)
  count : Nat
  /-- a leaf's first byte in .text -/
  start : Nat
  deriving DecidableEq, Repr

/-- A function being built (R292): its .launch fields, its nodes in source order, and the open ones, innermost first. -/
structure FuncDraft where
  pitw : Nat
  width : Nat
  stagen : Nat
  gangn : Nat
  extn : Nat
  subn : Nat
  slots : Nat
  splen : Nat
  dmax : Nat
  nodes : List Draft
  opened : List Nat
  deriving DecidableEq, Repr

/-- What avas has built so far: the bodies of sections 1 to 9 and the log2 of their alignments by SID, symbols, relocations,
the functions' count, the selected section and the function being built. -/
structure Asm where
  bodies : List (List Byte)
  aligns : List Nat
  syms : List Symbol
  fixups : List Fixup
  funcs : Nat
  sel : Option Nat
  cur : Option FuncDraft
  deriving DecidableEq, Repr

/-- Nothing built. -/
def Asm.empty : Asm :=
  { bodies := List.replicate 9 [], aligns := [2, 4, 2, 0, 0, 3, 4, 4, 4], syms := [], fixups := [], funcs := 0, sel := none,
    cur := none }

/-- The body of a section. -/
def Asm.body (m : Asm) (sid : Nat) : List Byte := (m.bodies[sid - 1]?).getD []

/-- Bytes at a section's end. -/
def Asm.emit (m : Asm) (sid : Nat) (b : List Byte) : Asm := { m with bodies := m.bodies.set (sid - 1) (m.body sid ++ b) }

/-- A new symbol; a name stands for one thing. -/
def Asm.define (m : Asm) (name : Name) (sid stype bind value : Nat) : Option Asm :=
  if m.syms.any (·.name == name) then none
  else some { m with syms := m.syms ++ [{ name := name, sect := sid, stype := stype, bind := bind, value := value }] }

/-- A relocation. -/
def Asm.fix (m : Asm) (sid off : Nat) (sym : Option Name) (rtype : Nat) : Asm :=
  { m with fixups := m.fixups ++ [{ sid := sid, off := off, sym := sym, rtype := rtype }] }

/-- Nothing where a limit is broken: an assembly error (R293). -/
def need (ok : Bool) {α : Type} (x : α) : Option α := if ok then some x else none

/-- A value that fits n bits, signed or not, as its bits. -/
def fits (n : Nat) (v : Int) : Option Nat :=
  need (decide (-((2 ^ (n - 1) : Nat) : Int) ≤ v) && decide (v < ((2 ^ n : Nat) : Int))) (wrap n v)

/-- A signed 32-bit offset. -/
def fitsOff (v : Int) : Option Nat := need (decide (-((2 ^ 31 : Nat) : Int) ≤ v) && decide (v < ((2 ^ 31 : Nat) : Int))) (wrap 32 v)

/-- Change the function being built. -/
def Asm.inFunc (m : Asm) (f : FuncDraft → Option FuncDraft) : Option Asm := do
  let d ← m.cur
  let e ← f d
  some { m with cur := some e }

/-- A declaration stands before the root node (R292). -/
def declare (f : FuncDraft → Option FuncDraft) (d : FuncDraft) : Option FuncDraft := if d.nodes.isEmpty then f d else none

/-- The kind of the innermost open node, 0 for none. -/
def FuncDraft.topKind (d : FuncDraft) : Nat :=
  match d.opened with
  | [] => 0
  | i :: _ => ((d.nodes[i]?).map fun n => bits n.rec_ 0 4).getD 0

/-- Open a node under the innermost open one, or as the root (R292); leaves and calls have no children. DMAX counts the
frames of the open nodes and this one's own (R271, R294). -/
def FuncDraft.openNode (d : FuncDraft) (start r : Nat) (fix : Option (Option Name × Nat)) : Option FuncDraft :=
  let i := d.nodes.length
  let depth := d.opened.length + (if bits r 0 4 = 6 then 0 else 1)
  let node : Draft := { rec_ := r, given := [], kids := [], fix := fix, count := 0, start := start }
  match d.opened with
  | [] => need d.nodes.isEmpty { d with nodes := [node], opened := [0], dmax := depth }
  | p :: _ =>
    match d.nodes[p]? with
    | none => none
    | some q => need (decide (d.topKind ≤ 3))
        { d with nodes := d.nodes.set p { q with kids := q.kids ++ [i] } ++ [node], opened := i :: d.opened,
                 dmax := Nat.max d.dmax depth }

/-- How many children a node may have (R272, R293). -/
def kidsOk (r n : Nat) : Bool :=
  match bits r 0 4 with
  | 1 => decide (1 ≤ n) && decide (n ≤ 65535)
  | 2 => decide (1 ≤ n) && decide (n ≤ if bit r 40 then 65535 else 2)
  | 3 => n == 1
  | _ => n == 0

/-- The limits of a record's other fields (R272). -/
def recordOk (r : Nat) : Bool :=
  let n := bits r 24 16
  match bits r 0 4 with
  | 1 => decide (1 ≤ n)
  | 2 => decide (1 ≤ n) && if bit r 40 then !bit r 41 && bits r 44 4 == 0 else decide (n ≤ 2) && bits r 48 8 == 0
  | 6 => decide (4 ≤ bits r 40 13) && decide (bits r 40 13 ≤ 4096) && bits r 40 13 % 4 == 0
  | _ => true

/-- Node numbers breadth-first (R294): queue holds the numbered nodes whose children are not yet numbered. -/
def breadthFirst (nodes : List Draft) : Nat → List Nat → List Nat
  | 0, _ => []
  | _ + 1, [] => []
  | fuel + 1, i :: q => i :: breadthFirst nodes fuel (q ++ ((nodes[i]?).map (·.kids)).getD [])

/-- A field that the source does not name. -/
def Draft.unless (n : Draft) (f : NodeField) (v : Nat) : Nat := if n.given.contains f then 0 else v

/-- A finished node's record (R272): FIRST and NCH of a SEQ or CHOICE, BODY of a LOOP, by the number of the first child, where
the source names no value (R292). -/
def finishRecord (order : List Nat) (base : Nat) (n : Draft) : Nat :=
  let first := base + (n.kids.head?.map (order.idxOf ·)).getD 0
  match bits n.rec_ 0 4 with
  | 1 | 2 => n.rec_ + 2 ^ 8 * n.unless .first first + 2 ^ 24 * n.unless .nch n.kids.length
  | 3 => n.rec_ + 2 ^ 8 * n.unless .body first
  | _ => n.rec_

/-- A node's record and its relocation: NODE16 on every FIRST and BODY (R294), its own on a CALL, CALLI or LEAF (R293), unless the
source names a number for that field (log 46). -/
def emitNode (order : List Nat) (base : Nat) (n : Draft) (m : Asm) : Asm :=
  let off := (m.body 2).length
  let m := m.emit 2 (toBytes 16 (finishRecord order base n))
  match n.fix with
  | some (y, t) => m.fix 2 (off + 1) y t
  | none => if bits n.rec_ 0 4 ≤ 3 then m.fix 2 (off + 1) none 2 else m

/-- A function's end: its records in index order and its .launch record (R287, R293, R294). -/
def Asm.finish (m : Asm) (d : FuncDraft) : Option Asm :=
  if d.nodes.isEmpty || decide (d.dmax > 255) || decide (d.extn > 64) || decide (d.subn > 32) then none
  else
    let base := (m.body 2).length / 16
    let order := breadthFirst d.nodes d.nodes.length [0]
    let m := (order.filterMap fun i => d.nodes[i]?).foldl (fun m n => emitNode order base n m) m
    let off := (m.body 7).length
    let m := m.emit 7 (toBytes 16 (pack [(32, d.pitw), (8, d.width), (8, d.stagen), (8, d.gangn), (8, d.dmax), (16, base),
      (8, d.extn), (8, d.subn), (32, d.splen)]))
    some { m.fix 7 (off + 8) none 2 with cur := none, funcs := m.funcs + 1 }

/-- .close (R292, R293): of the innermost node, with LEN at a leaf's close, or of the function. -/
def Asm.close (m : Asm) : Option Asm := do
  let d ← m.cur
  match d.opened with
  | [] => m.finish d
  | i :: rest =>
    let n ← d.nodes[i]?
    if bits n.rec_ 0 4 = 6 then
      let len := (m.body 1).length - n.start
      let r := n.rec_ + 2 ^ 40 * n.unless .len len
      need (decide (1 ≤ n.count) && decide (n.count ≤ 1024) && decide (4 ≤ len) && decide (len ≤ 4096) && recordOk r)
        { m with cur := some { d with nodes := d.nodes.set i { n with rec_ := r }, opened := rest } }
    else
      need (kidsOk n.rec_ n.kids.length && recordOk (n.rec_ + 2 ^ 24 * n.unless .nch n.kids.length))
        { m with cur := some { d with opened := rest } }

/-- The magnitude index nearest to num / den, and whether it passes the largest (R254, R255, R293): ties go to the even
index, and index 0 is zero. -/
def nearestLog (t : Fmt) (num den : Nat) : Option Nat :=
  let top := if t = .ln6 then 31 else 127
  let scaled := fun (l : Nat) => if l = 0 then 0 else ((lnW t l).x.natAbs * 2 ^ ((lnW t l).e + 24).toNat)
  let a := num * 2 ^ 24
  let dist := fun (l : Nat) => a - scaled l * den + (scaled l * den - a)
  if a > scaled top * den then none
  else some ((upFrom (top + 1) 0).foldl
    (fun b l => if dist l < dist b || (dist l == dist b && l % 2 == 0 && b % 2 != 0) then l else b) 0)

/-- An operand of .ln6 or .ln8 as a code (R293). -/
def logCode (t : Fmt) : Datum → Option Nat
  | .raw c => need (decide (c < if t = .ln6 then 64 else 256)) c
  | .nan => some (lnNaN t)
  | .inf _ => none
  | .dec num den => do
    let l ← if den = 0 then none else nearestLog t num.natAbs den
    some (l + if num < 0 && l != 0 then lnNaN t else 0)

/-- A decimal rounded once to a format (R251): the quotient to more bits than the format has, and an odd last bit that says
whether anything is left. -/
def decimal (t : Fmt) (num : Int) (den : Nat) : Nat :=
  let s := den.log2 + 64
  let n := num.natAbs * 2 ^ s
  let v : Int := (n / den : Nat)
  let x : Exact := if n % den = 0 then { x := v, e := -(s : Int) } else inexact v (-(s : Int))
  fpRound t (if num < 0 then exNeg x else x) false

/-- An operand of .f32 or .bf16 (R293). -/
def floatCode (t : Fmt) : Datum → Option Nat
  | .dec num den => if den = 0 then none else some (decimal t num den)
  | .inf neg => some (fpInfS t neg)
  | .nan => some (if t = .f32 then 0x7FC00000 else 0x7FC0)
  | .raw _ => none

/-- A call table (R282, R293). -/
def tableBytes (n : Nat) : List Byte := toBytes 4 n ++ List.replicate (roundUp (2 * n) 4) 0

/-- The extent record of R283. -/
def extentRec (arg : Nat) (off : Int) (r w a : Bool) (k : Option Nat) (len : Nat) : Option (List Byte) := do
  let o ← fitsOff off
  need ((arg == 0 || arg == 2 || arg == 4) && (r || w || a) && decide (k.getD 0 ≤ 5) && decide (len < 2 ^ 64))
    (toBytes 16 (pack [(1, flag r), (1, flag w), (1, flag a), (1, flag k.isSome), (4, 0), (8, arg), (8, k.getD 0), (8, 0), (32, o),
      (64, len)]))

/-- Add an extent record. -/
def Asm.addExtent (m : Asm) (r : Option (List Byte)) : Option Asm := do
  let b ← r
  let m ← m.inFunc (declare fun d => need (decide (d.extn < 64)) { d with extn := d.extn + 1 })
  some (m.emit 8 b)

/-- A label of a slot: a symbol in .spad whose value is the scratchpad offset (R293). -/
def Asm.addSlot (m : Asm) (name : Name) (off : Nat) : Option Asm := do
  let m ← m.inFunc (declare fun d => need (decide (d.slots < 32)) { d with slots := d.slots + 1 })
  let m ← m.define name 6 0 0 off
  need (off % 16 == 0 && decide (off < 2 ^ 32)) m

/-- The section that data directives write: .data, .rodata or .calltab, outside a function (R291). -/
def Asm.dataSect (m : Asm) : Option Nat := if m.cur.isSome then none else m.sel

/-- Data bytes (R291). -/
def Asm.data (m : Asm) (b : Option (List Byte)) : Option Asm := do
  let sid ← m.dataSect
  let x ← b
  some (m.emit sid x)

/-- A node directive (R293). -/
def Asm.node (m : Asm) (r : Nat) (fix : Option (Option Name × Nat)) : Option Asm :=
  m.inFunc (·.openNode (m.body 1).length r fix)

/-- A node's record with a field that the source names (R272, R292). -/
def Draft.setField (n : Draft) (x : NodeField × Nat) : Option Draft := do
  let p ← fieldPlace (bits n.rec_ 0 4) x.1
  need (decide (x.2 < 2 ^ p.2) && ((x.1 != .tab && x.1 != .off) || x.2 % 4 == 0))
    { n with rec_ := n.rec_ - bits n.rec_ p.1 p.2 * 2 ^ p.1 + x.2 * 2 ^ p.1, given := n.given ++ [x.1],
             fix := if x.1 = .fn || x.1 = .tab || x.1 = .off then none else n.fix }

/-- The fields of the node directive before (R292). -/
def Asm.setFields (before m : Asm) (fs : List (NodeField × Nat)) : Option Asm :=
  m.inFunc fun d => do
    let i ← d.opened.head?
    let n ← d.nodes[i]?
    let n' ← fs.foldlM (fun n x => n.setField x) n
    need (decide (((before.cur.map (·.nodes.length)).getD 0) < d.nodes.length)) { d with nodes := d.nodes.set i n' }

/-- The effect of one source line; none is an assembly error (R293). -/
def Asm.line (m : Asm) : Line → Option Asm
  | .bare kind => if 1 ≤ kind ∧ kind ≤ 6 then m.node kind none else none
  | .fielded l fs => (m.line l).bind (m.setFields · fs)
  | .label name =>
    match m.cur with
    | some d => if d.topKind = 6 then m.define name 1 0 0 (m.body 1).length else none
    | none => m.sel.bind fun sid => m.define name sid 0 0 (m.body sid).length
  | .func name => do
    let m ← m.define name 1 1 1 m.funcs
    need m.cur.isNone { m with cur := some { pitw := 0, width := 3, stagen := 0, gangn := 0, extn := 0, subn := 0, slots := 0,
                                               splen := 0, dmax := 0, nodes := [], opened := [] } }
  | .width w => m.inFunc (declare fun d =>
      match w with
      | 8 => some { d with width := 0 }
      | 16 => some { d with width := 1 }
      | 32 => some { d with width := 2 }
      | 64 => some { d with width := 3 }
      | _ => none)
  | .pit vn accn spg psd ck => m.inFunc (declare fun d =>
      need (decide (vn < 32) && decide (accn ≤ 16) && decide (spg ≤ 128) && decide (psd < 8) && decide (ck < 2))
        { d with pitw := pack [(5, vn), (3, 0), (5, accn), (8, spg), (3, psd), (1, ck)] })
  | .stages n => m.inFunc (declare fun d => need (decide (1 ≤ n) && decide (n ≤ 16)) { d with stagen := n - 1 })
  | .gang n => m.inFunc (declare fun d => need (decide (1 ≤ n) && decide (n ≤ 16)) { d with gangn := n - 1 })
  | .extent arg off r w a len => m.addExtent (extentRec arg off r w a none len)
  | .extentBy arg off r w a k factor => m.addExtent (extentRec arg off r w a (some k) factor)
  | .sync off target => do
    let m ← m.inFunc (declare fun d => some { d with splen := d.splen + 24 })
    need (off % 16 == 0 && decide (off < 2 ^ 32) && decide (target < 2 ^ 32))
      (m.emit 6 (toBytes 24 (pack [(32, off), (32, 16), (32, target)])))
  | .slot name off => m.addSlot name off
  | .slotAt name off arg x => do
    let m ← m.addSlot name off
    let o ← fitsOff x
    let m ← m.inFunc fun d => some { d with subn := d.subn + 1 }
    need ((arg == 0 || arg == 2 || arg == 4) && x % 8 == 0) (m.emit 9 (toBytes 16 (pack [(32, off), (8, arg), (24, 0), (32, o)])))
  | .seq ckpt => m.node (1 + 16 * flag ckpt) none
  | .choice k neg => if k < 16 then m.node (pack [(4, 2), (37, 0), (1, flag neg), (2, 0), (4, k)]) none else none
  | .choiceBy v => if v < 256 then m.node (pack [(4, 2), (36, 0), (8, 1), (8, v)]) none else none
  | .loop post neg ckpt k =>
    if k < 16 then m.node (pack [(4, 3), (1, flag ckpt), (35, 0), (1, flag post), (1, flag neg), (2, 0), (4, k)]) none else none
  | .call name => m.node 4 (some (some name, 3))
  | .calli tab v => if v < 256 then m.node (pack [(4, 5), (44, 0), (8, v)]) (some (some tab, 5)) else none
  | .leaf => m.node (pack [(8, 6), (32, (m.body 1).length)]) (some (none, 4))
  | .instr i => do
    let m ← m.inFunc fun d => do
      let top ← d.opened.head?
      let n ← d.nodes[top]?
      need (d.topKind == 6) { d with nodes := d.nodes.set top { n with count := n.count + 1 } }
    need ((encode i).length != 0 && (layout i).isSome) (m.emit 1 ((encode i).flatMap (toBytes 4)))
  | .close => m.close
  | .ctab name fs => do
    let off := (m.body 3).length
    let m ← m.define name 3 2 0 off
    need (m.cur.isNone && m.sel == some 3 && off % 4 == 0 && decide (1 ≤ fs.length) && decide (fs.length ≤ 65535))
      ((fs.zip (upFrom fs.length 0)).foldl (fun m x => m.fix 3 (off + 4 + 2 * x.2) (some x.1) 3) (m.emit 3 (tableBytes fs.length)))
  | .section_ sid => need (sid == 3 || sid == 4 || sid == 5) { m with sel := some sid }
  | .align n => do
    let sid ← m.dataSect
    let len := (m.body sid).length
    need (decide (n ≤ 65536) && 2 ^ n.log2 == n)
      { m.emit sid (List.replicate (roundUp len n - len) 0) with
        aligns := m.aligns.set (sid - 1) (Nat.max ((m.aligns[sid - 1]?).getD 0) n.log2) }
  | .ints size vals =>
    if size = 1 ∨ size = 2 ∨ size = 4 ∨ size = 8 then
      m.data ((vals.mapM (fits (8 * size))).map fun l => l.flatMap (toBytes size))
    else none
  | .dwordOf name addend => do
    let sid ← m.dataSect
    let off := (m.body sid).length
    need (decide (addend < 2 ^ 64)) ((m.emit sid (toBytes 8 addend)).fix sid off (some name) 1)
  | .fill n size v =>
    if size = 1 ∨ size = 2 ∨ size = 4 ∨ size = 8 then
      m.data ((fits (8 * size) v).map fun x => (List.replicate n (toBytes size x)).flatten)
    else none
  | .logs true vals => m.data ((vals.mapM (logCode .ln6)).bind fun l => need (l.length % 4 == 0) (packLn6 l))
  | .logs false vals => m.data ((vals.mapM (logCode .ln8)).map fun l => l.map (BitVec.ofNat 8))
  | .floats true vals => m.data ((vals.mapM (floatCode .f32)).map fun l => l.flatMap (toBytes 4))
  | .floats false vals => m.data ((vals.mapM (floatCode .bf16)).map fun l => l.flatMap (toBytes 2))

/-- Lines in order. -/
def Asm.lines : Asm → List Line → Option Asm
  | m, [] => some m
  | m, l :: r => (m.line l).bind (·.lines r)

/-- A symbol's index; a name that nothing here defines becomes an undefined symbol (R288). -/
def symIndex (syms : List Symbol) (name : Name) : List Symbol × Nat :=
  match syms.findIdx? (·.name == name) with
  | some i => (syms, i)
  | none => (syms ++ [{ name := name, sect := 0, stype := 0, bind := 1, value := 0 }], syms.length)

/-- The relocation records of the fixups (R289). -/
def fixRels : List Symbol → List Fixup → List Symbol × List Reloc
  | syms, [] => (syms, [])
  | syms, f :: r =>
    let x := match f.sym with
      | none => (syms, 0xFFFFFFFF)
      | some name => symIndex syms name
    let y := fixRels x.1 r
    (y.1, { rsect := f.sid - 1, roff := f.off, rsym := x.2, rtype := f.rtype } :: y.2)

/-- A name that a CALL, a CALLI or a call table refers to, where the source defines it, is a function or a call table (R293). -/
def fixupOk (syms : List Symbol) (f : Fixup) : Bool :=
  match f.sym.bind fun n => syms.find? (·.name == n) with
  | none => true
  | some y => (f.rtype != 3 || y.stype == 1) && (f.rtype != 5 || y.stype == 2)

/-- avas (R291 to R294): the object of a source, with the sections of SID 1 to 9 in order; none is an assembly error. -/
def assemble (src : List Line) : Option Aof := do
  let m ← Asm.empty.lines src
  let x := fixRels m.syms m.fixups
  need (m.cur.isNone && m.fixups.all (fixupOk m.syms))
    { fkind := 0, strs := [], syms := x.1, rels := x.2,
      sects := (m.bodies.zip (m.aligns.zip (upFrom 9 1))).map fun y =>
        { name := [], sid := y.2.2, align := y.2.1, va := 0, body := y.1 } }

end Sys2Proof.Machine
end

