-- ==== Sys2Proof/Tests/Words.lean ====
section
/-! SUPPORT. Tests of the decoder: words written out from the spec's encoding tables, and the encoder's answer for each. -/

namespace Sys2Proof.Tests

open Sys2Proof.Machine

/-- VER 0b01, SC zero. -/
def k9 : Ctl := { k9 := true, sc := 0 }

/-- A head with no guard that writes register d. -/
def hd (d : BitVec 8) : Head := { ctl := k9, guard := none, ds := false, nw := false, dreg := d }

/-- A head with no guard and NW = 1. -/
def hdNw : Head := { ctl := k9, guard := none, ds := false, nw := true, dreg := 0 }

/-- Each list of words decodes to its instruction, which encodes to the same words. -/
def reads (l : List (List Nat × Instr)) : Bool :=
  l.all fun p => (decode (ofWords p.1)).toOption == some p.2 && encode p.2 == p.1

/-- Words written out from the encodings of the control instructions (13 R298, R312 and the word 1 tables of 14 to 17). -/
theorem test_control_words_1 :
    reads [([0x00000014], .nop k9),
      ([0x00010024], .exit k9 1),
      ([0x00020034], .next k9 2),
      ([0x00000044], .ret k9),
      ([0x01230054], .trap k9 0x123),
      ([0x01000065, 0x00080177], .tret hdNw 2 0 (some (.imm 23))),
      ([0x00000074], .yield k9),
      ([0x00070084], .halt k9 7),
      ([0x00030095, 0x028ADA01], .icmp (hd 3) 1 2 .i16 (.v 1) (.imm 13)),
      ([0x000400A5, 0x019A0401], .fcmp (hd 4) 0 6 .f32 (.v 1) (.s 2)),
      ([0x000500B5, 0x24A00000], .plog (hd 5) 9 2 8),
      ([0x000600C5, 0x00440009], .pmov (hd 6) false 17 (.v 9))] = true := by decide

/-- Words written out from the encodings of the control instructions (13 R298, R312 and the word 1 tables of 14 to 17). -/
theorem test_control_words_2 :
    reads [([0x000700D5, 0x00000000], .prd (hd 7)),
      ([0x000800E5, 0x04D40401], .sel (hd 8) true 3 .n32 (.v 1) (.v 2)),
      ([0x00080345, 0x00000000], .pmask (hd 8))] = true := by decide

/-- Words written out from the encodings of the integer instructions (13 R298, R312 and the word 1 tables of 14 to 17). -/
theorem test_integer_words_1 :
    reads [([0x000A0105, 0x0072040A], .iadd (hd 10) true .i64 (.v 10) (.s 2)),
      ([0x00030115, 0x00040401], .isub (hd 3) false .n8 (.v 1) (.v 2)),
      ([0x00030126, 0x000BFE01, 0x00001234], .imul (hd 3) false .i16 (.v 1) (.lit 0x1234)),
      ([0x00040135, 0x00340C02], .imulh (hd 4) false .n64 (.v 2) (.v 6)),
      ([0x00050146, 0x00500401, 0x00000003], .imad (hd 5) true .i32 (.v 1) (.v 2) (.v 3)),
      ([0x00060155, 0x00100602], .idiv (hd 6) false .i32 (.v 2) (.v 3)),
      ([0x00060165, 0x000EFE02], .irem (hd 6) false .n16 (.v 2) (.imm 31)),
      ([0x00070175, 0x0002C002], .imin (hd 7) false .i8 (.v 2) (.imm 0)),
      ([0x00070185, 0x00167E02], .imax (hd 7) false .n32 (.v 2) (.s 63)),
      ([0x00080195, 0x00500009], .iabs (hd 8) true .i32 (.v 9)),
      ([0x000801A5, 0x0030000A], .ineg (hd 8) false .i64 (.v 10)),
      ([0x000901B6, 0x00040401, 0x00000003], .isad (hd 9) false .n8 (.v 1) (.v 2) (.v 3))] = true := by decide

/-- Words written out from the encodings of the integer instructions (13 R298, R312 and the word 1 tables of 14 to 17). -/
theorem test_integer_words_2 :
    reads [([0x000901C6, 0x00400401, 0x00000170], .idot4 (hd 9) true .i8 (.v 1) (.v 2) (.imm 16)),
      ([0x000901D6, 0x0012E201, 0x00000179], .iclamp (hd 9) false .i32 (.v 1) (.imm 17) (.imm 25)),
      ([0x000C01E5, 0x00140401], .imulw (hd 12) false .n32 (.v 1) (.v 2))] = true := by decide

/-- Words written out from the encodings of the logic instructions (13 R298, R312 and the word 1 tables of 14 to 17). -/
theorem test_logic_words_1 :
    reads [([0x00030205, 0x00140401], .and (hd 3) .n32 (.v 1) (.v 2)),
      ([0x00040215, 0x00140601], .or (hd 4) .n32 (.v 1) (.v 3)),
      ([0x00050225, 0x00140801], .xor (hd 5) .n32 (.v 1) (.v 4)),
      ([0x00060235, 0x00300004], .not (hd 6) .i64 (.v 4)),
      ([0x00040245, 0x0032FA04], .shl (hd 4) .i64 (.v 4) (.imm 29)),
      ([0x00040255, 0x0032F804], .shr (hd 4) .i64 (.v 4) (.imm 28)),
      ([0x00040265, 0x0032F604], .sar (hd 4) .i64 (.v 4) (.imm 27)),
      ([0x00040275, 0x0032F404], .rot (hd 4) .i64 (.v 4) (.imm 26)),
      ([0x00050286, 0x0012E801, 0x00000178], .bfx (hd 5) .i32 (.v 1) (.imm 20) (.imm 24)),
      ([0x00050296, 0x00000401, 0x00000003], .bfi (hd 5) (.v 1) (.v 2) (.v 3)),
      ([0x000902A5, 0x0034000C], .popc (hd 9) .n64 (.v 12)),
      ([0x000902B5, 0x0014000C], .clz (hd 9) .n32 (.v 12))] = true := by decide

/-- Words written out from the encodings of the logic instructions (13 R298, R312 and the word 1 tables of 14 to 17). -/
theorem test_logic_words_2 :
    reads [([0x000902C5, 0x0010000C], .ctz (hd 9) .i32 (.v 12)),
      ([0x000902D5, 0x0014000C], .brev (hd 9) .n32 (.v 12)),
      ([0x000A02E6, 0x02580401, 0x00000003], .tern (hd 10) 0x96 (.v 1) (.v 2) (.v 3)),
      ([0x000A02F6, 0x00040401, 0x00000003], .shf (hd 10) true (.v 1) (.v 2) (.v 3)),
      ([0x000B0305, 0x00180172], .mov (hd 11) .f32 (.imm 18)),
      ([0x00040315, 0x0312E204], .lea (hd 4) 12 .i32 (.v 4) (.imm 17)),
      ([0x00060325, 0x00400001], .iext (hd 6) true .i8 (.v 1)),
      ([0x00070336, 0x00000401, 0x00000003], .perm (hd 7) (.v 1) (.v 2) (.v 3))] = true := by decide

/-- Words written out from the encodings of the float instructions (13 R298, R312 and the word 1 tables of 14 to 17). -/
theorem test_float_words_1 :
    reads [([0x00080405, 0x00180401], .fadd (hd 8) .f32 (.v 1) (.v 2)),
      ([0x00080415, 0x001C0401], .fsub (hd 8) .f16 (.v 1) (.v 2)),
      ([0x00080425, 0x00220941], .fmul (hd 8) .bf16 (.b 1) (.s 4)),
      ([0x00080436, 0x00180401, 0x00000003], .ffma (hd 8) .f32 (.v 1) (.v 2) (.v 3)),
      ([0x00080445, 0x00180401], .fmin (hd 8) .f32 (.v 1) (.v 2)),
      ([0x00080455, 0x001C0401], .fmax (hd 8) .f16 (.v 1) (.v 2)),
      ([0x00080465, 0x00980401], .fsgn (hd 8) 2 .f32 (.v 1) (.v 2)),
      ([0x00080475, 0x019C0001], .fcvt (hd 8) .f32 .f16 (.v 1)),
      ([0x00080485, 0x01180001], .icvtf (hd 8) .i32 .f32 (.v 1)),
      ([0x00080495, 0x01B00001], .fcvti (hd 8) .f32 .i64 (.v 1)),
      ([0x000804A6, 0x00640401, 0x00000003], .qnt (hd 8) 1 .ln6 (.v 1) (.v 2) (.v 3)),
      ([0x000804B5, 0x00280401], .dqnt (hd 8) .ln8 (.v 1) (.v 2))] = true := by decide

/-- Words written out from the encodings of the float instructions (13 R298, R312 and the word 1 tables of 14 to 17). -/
theorem test_float_words_2 :
    reads [([0x000904C5, 0x00180005], .frcp (hd 9) .f32 (.v 5)),
      ([0x000904D5, 0x00180005], .frsq (hd 9) .f32 (.v 5)),
      ([0x000904E5, 0x00180005], .fexp2 (hd 9) .f32 (.v 5)),
      ([0x000904F5, 0x00180005], .flog2 (hd 9) .f32 (.v 5)),
      ([0x00090505, 0x00180005], .fsqrt (hd 9) .f32 (.v 5)),
      ([0x00090515, 0x00200005], .fclass (hd 9) .bf16 (.v 5)),
      ([0x00090526, 0x001FFE05, 0x3C003C00], .hadd2 (hd 9) .f16 (.v 5) (.lit 0x3C003C00)),
      ([0x00090535, 0x00200C05], .hmul2 (hd 9) .bf16 (.v 5) (.v 6)),
      ([0x00090546, 0x001C0C05, 0x00000007], .hfma2 (hd 9) .f16 (.v 5) (.v 6) (.v 7)),
      ([0x00090555, 0x001C0C05], .hmin2 (hd 9) .f16 (.v 5) (.v 6)),
      ([0x00090565, 0x00200C05], .hmax2 (hd 9) .bf16 (.v 5) (.v 6))] = true := by decide

/-- Words written out from the encodings of the exchange instructions (13 R298, R312 and the word 1 tables of 14 to 17). -/
theorem test_exchange_words :
    reads [([0x00030605, 0x01500401], .shfl (hd 3) 5 .i32 (.v 1) (.v 2)),
      ([0x00030615, 0x0196E201], .shflup (hd 3) 6 .n32 (.v 1) (.imm 17)),
      ([0x00030625, 0x00DAE401], .shfldn (hd 3) 3 .f32 (.v 1) (.imm 18)),
      ([0x00040635, 0x0072E202], .shflx (hd 4) 1 .i64 (.v 2) (.imm 17)),
      ([0x00030645, 0x00940001], .bcast (hd 3) 2 .n32 (.v 1)),
      ([0x00040655, 0x04C00001], .vote (hd 4) 2 3 (.v 1)),
      ([0x00030665, 0x0AD00001], .redi (hd 3) 5 3 .i32 (.v 1)),
      ([0x00030685, 0x12D40001], .scani (hd 3) true 1 3 .n32 (.v 1)),
      ([0x00030675, 0x04980001], .redf (hd 3) 2 2 .f32 (.v 1)),
      ([0x00030695, 0x00980001], .scanf (hd 3) false 0 2 .f32 (.v 1))] = true := by decide

/-- Words written out from the encodings of the memory instructions (13 R298, R312 and the word 1 tables of 14 to 17). -/
theorem test_memory_words_1 :
    reads [([0x00090706, 0x200401FF, 0x11000040], .lds (hd 9) 1 .ln .weak true (.lit 0x11000040)),
      ([0x00000715, 0x80001002], .sts (hd 0) 4 .ln .weak (.v 2) (.v 8)),
      ([0x00050725, 0x4C800002], .ldx (hd 5) 2 .dev .acq false (.v 2)),
      ([0x00000735, 0x4CC2E202], .stx (hd 0) 2 .dev .rel (.v 2) (.imm 17)),
      ([0x00060746, 0x0D340802, 0x00000208], .atom (hd 6) .cas .dev .ar .n64 (.v 2) (.v 4) (some (.v 8))),
      ([0x00070756, 0x06500802, 0x00000400], .atoms (hd 7) .add .core .rlx .i32 (.v 2) (.v 4) none),
      ([0x00040806, 0x000005FF, 0x00000100], .sub (hd 4) (.lit 0x100) (.v 2)),
      ([0x00040816, 0x000001FF, 0x00000100], .unsub (hd 4) (.lit 0x100)),
      ([0x000C0826, 0x000001FF, 0x00000100], .slrd (hd 12) (.lit 0x100)),
      ([0x000E0836, 0x20001FFF, 0x00000100], .slwait (hd 14) true (.lit 0x100) (.v 15)),
      ([0x00000845, 0x00000401], .swinit (hd 0) (.v 1) (.v 2)),
      ([0x00000855, 0x0802E30C], .swadd (hd 0) .pod (.s 12) (.imm 17))] = true := by decide

/-- Words written out from the encodings of the memory instructions (13 R298, R312 and the word 1 tables of 14 to 17). -/
theorem test_memory_words_2 :
    reads [([0x00060865, 0x26000401], .swwait (hd 6) true .core (.v 1) (.v 2)),
      ([0x00080876, 0x20000802, 0x00000006], .mwait (hd 8) true false (.v 2) (.v 4) (.v 6)),
      ([0x00060884], .fence k9 .dev),
      ([0x00540894], .xfence k9 5 .pod),
      ([0x000008A4], .afence k9)] = true := by decide

/-- Words written out from the encodings of the matrix instructions (13 R298, R312 and the word 1 tables of 14 to 17). -/
theorem test_matrix_words :
    reads [([0x00040A05, 0x00021308], .mmaLn6 (hd 4) false (.s 8) (.s 9)),
      ([0x00040A15, 0x00061308], .mmaLn8 (hd 4) true (.s 8) (.s 9)),
      ([0x00050A25, 0x00021308], .mmaI8 (hd 5) false (.s 8) (.s 9)),
      ([0x00000A35, 0x00060702], .mmaBf16 (hd 0) true (.s 2) (.s 3)),
      ([0x00010A45, 0x00020702], .mmaF16 (hd 1) false (.s 2) (.s 3)),
      ([0x00020A55, 0x02040000], .had (hd 2) 2 1),
      ([0x00030A65, 0x01020B04], .scacc (hd 3) true 0 (.s 4) (.s 5)),
      ([0x00010A75, 0x01020E02], .accld (hd 1) true (.v 2) (.s 7)),
      ([0x00000A86, 0x0003FF06, 0x00000080], .accst (hd 0) false 0 (.s 6) (.lit 0x80)),
      ([0x00440A94], .accz k9 1 4)] = true := by decide

/-- Words written out from the encodings of the system instructions (13 R298, R312 and the word 1 tables of 14 to 17). -/
theorem test_system_words :
    reads [([0x00080B06, 0x00000401, 0x00000000], .qput (hd 8) (.v 1) (.v 2)),
      ([0x00030B16, 0x00000802, 0x00000006], .fork (hd 3) (.v 2) (.v 4) (.v 6)),
      ([0x00000B25, 0x00000002], .join (hd 0) (.v 2)),
      ([0x00000B35, 0x00000174], .gcraise (hd 0) (.imm 20)),
      ([0x00050B45, 0x00040176], .regrow (hd 5) true (.imm 22)),
      ([0x00060C05, 0x00340000], .sysrd (hd 6) 0x00D),
      ([0x00000C15, 0x00800102], .syswr (hd 0) 0x020 (.s 2)),
      ([0x00000C24], .drain k9)] = true := by decide

end Sys2Proof.Tests
end

