-- ==== Sys2Proof/Tests/Fixture.lean ====
section
/-! SUPPORT. Small states for the tests and the witnesses: one group of eight lanes at a leaf, in a machine with power. -/

namespace Sys2Proof.Tests

open Sys2Proof.Machine

/-- The fixture's group: eight lanes at the first instruction of the leaf, with 256 registers, 4 tiles and 32 KiB of
scratchpad, and a few registers of lane 0 written. -/
def grp : Group :=
  let g := startGroup 0 (.launch 0) 8 0x411F (.resident 0 0 0 0) (List.replicate 8 (startLane true (.leaf 0 0)))
  { g with vregs := [(1, 6), (2, 3), (3, 0xFFFFFFFF), (5, 0x3F800000), (7, 0x40000000), (8, 64), (10, 0x30000), (12, 128),
                     (14, 0x3000), (20, 0x7FFFFFFF)],
           preds := [(0, 2)], sregs := [(2, 5)] }

/-- The fixture's program: a leaf, and a loop over it; a data extent that grants everything. -/
def prog : Program :=
  let e : Extent := { vg := 3, pg := slotFrame / 65536 + 2, n := 1, key := 0, x := false, a := true, w := true, r := true }
  { slotProgram 64 with nnode := 2, data := [e] }

/-- The machine with power, the group's tree in memory and its records cached, and a context, launch and issue for it. -/
def fix : State :=
  let s := placeBytes State.reset (slotFrame + 96) 32 (pack [(8, 6), (32, 0), (13, 64), (75, 0), (8, 3), (16, 0), (104, 0)])
  let pkg := { Pkg.reset with power := true, rdy := true, profile := some .p8c }
  let core := { Core.reset with nodes := [slotFrame + 96, slotFrame + 112] }
  { s with pkg := pkg, groups := [(1, grp)], launches := [(0, { slotLaunch 64 with prog := some prog })],
           contexts := [(0, slotContext)], keys := [(0, { MemKey.reset with valid := true })], cores := [(0, core)],
           issue := { Issue.reset with parts := [(1, [0])], len := 4 } }

/-- An access table entry that permits everything to one initiator (R59). -/
def openEntry (init : Nat) : BitVec 128 := BitVec.ofNat 128 (31 + 2 ^ 32 * init + 2 ^ 92 * (2 ^ 36 - 1))

/-- A state in whose access tables each of some targets permits everything to one initiator. -/
def permit (s : State) (l : List (Nat × Nat)) : State := { s with tables := l.map fun p => (64 * p.1, openEntry p.2) }

/-- The fixture with another group in place of its own. -/
def withGroup (g : Group) : State := { fix with groups := [(1, g)] }

/-- Lanes live at a leaf with room for one more instruction. -/
def standOk (s : State) (g : Group) (q : Program) (lanes : List Nat) : Bool :=
  lanes.all fun i => decide (i < g.lanes.length) && liveLane (laneAt g i) &&
    match (laneAt g i).pos with
    | .leaf n o => decide (o + s.issue.len < leafLen s q n)
    | _ => false

theorem lone_of {s : State} {gh : Nat} {lanes : List Nat} {g : Group} (q : Program) (c : Nat)
    (hp : s.issue.parts = [(gh, lanes)]) (hn : lanes.Nodup) (hg : mfind s.groups gh = some g) (hq : progOf s g = some q)
    (hc : coreOf g = some c) (hk : g.ck = none) (hs : standOk s g q lanes = true) : Lone s gh lanes g := by
  refine ⟨⟨by rw [hp]; simp, ?_, ?_⟩, hp, hg⟩
  · intro p h; rw [hp] at h; simp at h; rw [h]; exact hn
  · intro p h
    rw [hp] at h; simp at h; subst h
    refine ⟨g, q, c, hg, hq, hc, hk, fun i hi => ?_⟩
    have h := List.all_eq_true.1 hs i hi
    simp only [Bool.and_eq_true, decide_eq_true_eq] at h
    refine ⟨h.1.1, h.1.2, ?_⟩
    revert h
    cases (laneAt g i).pos with
    | leaf n o => exact fun h => ⟨n, o, rfl, by simpa using h.2⟩
    | enter _ _ => simp
    | advance _ => simp

/-- The lanes of a lone issue are live. -/
theorem alive_of {s : State} {gh : Nat} {lanes : List Nat} {g : Group} (h : Lone s gh lanes g) : Alive s := by
  refine ⟨h.mid.handles, h.mid.lanes, fun p hp => ?_⟩
  obtain ⟨g1, _, _, h1, _, _, h4, h5⟩ := h.mid.stand p hp
  exact ⟨g1, h1, h4, fun i hi => ⟨(h5 i hi).1, (h5 i hi).2.1⟩⟩

theorem fix_lone : Lone fix 1 [0] grp := lone_of prog 0 rfl (by decide) rfl rfl rfl rfl (by decide)

theorem canon_of_check {g : Group} (h : (swf 0 g.vregs && swf 0 g.sregs && swf 0 g.preds && swf none g.latches &&
    swf 0 g.tiles && swf 0 g.spad && g.ck.isNone) = true) : g.Canon := by
  simp only [Bool.and_eq_true, Option.isNone_iff_eq_none] at h
  obtain ⟨⟨⟨⟨⟨⟨h1, h2⟩, h3⟩, h4⟩, h5⟩, h6⟩, h7⟩ := h
  exact ⟨h1, h2, h3, h4, h5, h6, fun c hc => by rw [h7] at hc; exact absurd hc (by simp)⟩

theorem filesCanon_of {s : State} {gh : Nat} {g : Group} (hs : s.groups = [(gh, g)]) (h : g.Canon) : s.FilesCanon := by
  intro p hp
  rw [hs] at hp
  simp at hp
  rw [hp]; exact h

/-! ### Canonical states -/

/-- The tables' canonical form as one check. -/
def tablesOk (s : State) : Bool :=
  swf Layer.reset s.layers && swf Port.reset s.ports && swf Tdi.reset s.tdis && swf MemKey.reset s.keys &&
  swf CopyKey.reset s.copyKeys && swf 0 s.tables && swf Service.reset s.services && swf Queue.reset s.queues &&
  swf Core.reset s.cores && swf Ring.reset s.rings && swf [] s.deques && mwf s.packets && mwf s.contexts && mwf s.launches &&
  mwf s.tasks && mwf s.rangeParts && mwf s.groups

theorem tables_of {s : State} (h : tablesOk s = true) : s.TablesCanon := by
  simp only [tablesOk, Bool.and_eq_true] at h
  obtain ⟨⟨⟨⟨⟨⟨⟨⟨⟨⟨⟨⟨⟨⟨⟨⟨h1, h2⟩, h3⟩, h4⟩, h5⟩, h6⟩, h7⟩, h8⟩, h9⟩, h10⟩, h11⟩, h12⟩, h13⟩, h14⟩, h15⟩, h16⟩, h17⟩ := h
  exact ⟨h1, h2, h3, h4, h5, h6, h7, h8, h9, h10, h11, h12, h13, h14, h15, h16, h17⟩

/-- The memories' canonical form as one check. -/
def memOk (s : State) : Bool :=
  Memory.wf s.mem && Memory.wf s.hostMem && Memory.wf s.peerMem && swf LineKey.fresh s.lines && swf false s.poison &&
  swf false s.cxlBad && swf 0 s.frameKeys

theorem mem_of {s : State} (h : memOk s = true) : s.MemCanon := by
  simp only [memOk, Bool.and_eq_true] at h
  obtain ⟨⟨⟨⟨⟨⟨h1, h2⟩, h3⟩, h4⟩, h5⟩, h6⟩, h7⟩ := h
  exact ⟨h1, h2, h3, h4, h5, h6, h7⟩

/-- A canonical state in which nothing waits. -/
def Base (s : State) : Prop := s.TablesCanon ∧ s.MemCanon ∧ s.FilesCanon ∧ s.NoWaits

/-- A group's canonical form as one check. -/
def canonOk (g : Group) : Bool :=
  swf 0 g.vregs && swf 0 g.sregs && swf 0 g.preds && swf none g.latches && swf 0 g.tiles && swf 0 g.spad && g.ck.isNone

theorem base_of {s : State} (h : (tablesOk s && memOk s && s.groups.all (fun p => canonOk p.2 && p.2.waits.isEmpty) &&
    s.subs.all fun x => !x.armed) = true) : Base s := by
  simp only [Bool.and_eq_true, List.all_eq_true, List.isEmpty_iff, Bool.not_eq_true'] at h
  exact ⟨tables_of h.1.1.1, mem_of h.1.1.2, fun p hp => canon_of_check (h.1.2 p hp).1, fun p hp => (h.1.2 p hp).2, h.2⟩

theorem grp_canon : grp.Canon := canon_of_check (by decide)
theorem fix_files : fix.FilesCanon := filesCanon_of rfl grp_canon

/-- The fixture with another group, whose lane 0 issues alone. -/
theorem withGroup_lone {g : Group} (hq : progOf (withGroup g) g = some prog) (hc : coreOf g = some 0) (hk : g.ck = none)
    (hs : standOk (withGroup g) g prog [0] = true) : Lone (withGroup g) 1 [0] g :=
  lone_of prog 0 rfl (by decide) rfl hq hc hk hs

/-- An instruction of lane 0 of a group is laid out and legal, and the lane takes part. -/
def Ready (g : Group) (i : Instr) (l : Layout) : Prop :=
  layout i = some l ∧ legal i = true ∧ takers g l.head [0] = [0] ∧ partOk g l = true

/-- The same, checked. -/
def readyOk (g : Group) (i : Instr) : Bool :=
  match layout i with
  | none => false
  | some l => legal i && (takers g l.head [0] == [0]) && partOk g l

theorem ready_all {g : Group} {is : List Instr} (h : is.all (readyOk g) = true) : ∀ i ∈ is, ∃ l, Ready g i l := by
  intro i hi
  have k := List.all_eq_true.1 h i hi
  unfold readyOk at k
  split at k
  · exact absurd k (by simp)
  · rename_i l hl
    simp only [Bool.and_eq_true, beq_iff_eq] at k
    exact ⟨l, hl, k.1.1, k.1.2, k.2⟩

theorem one_ready {g : Group} {i : Instr} (h : readyOk g i = true) : ∃ l, Ready g i l :=
  ready_all (is := [i]) (by simp [h]) i (by simp)

/-- The hypotheses of an instruction with a result are met, with a lane that receives it. -/
def Met (i : Instr) (val : Here → Except Trap Nat) : Prop :=
  ∃ (s : State) (l : Layout) (v : Nat → Nat → Nat), MidLeaf s ∧ s.FilesCanon ∧ layout i = some l ∧ legal i = true ∧
    Computes s l val v ∧ ∃ p ∈ s.issue.parts, ∃ g, mfind s.groups p.1 = some g ∧ takers g l.head p.2 ≠ []

theorem met_of {i : Instr} {val : Here → Except Trap Nat} {l : Layout} {x : Nat} (hl : layout i = some l)
    (hi : legal i = true) (hp : partOk grp l = true) (ht : takers grp l.head [0] = [0])
    (hv : val (hereAt fix 1 grp 0) = .ok x) : Met i val := by
  refine ⟨fix, l, fun _ _ => x, fix_lone.mid, fix_files, hl, hi, ?_, (1, [0]), by decide, grp, rfl, by rw [ht]; simp⟩
  intro p hm g hg j hj
  have hm' : p = (1, [0]) := by simpa [fix, Issue.reset] using hm
  subst hm'
  have hg' : grp = g := Option.some.inj hg
  subst hg'
  rw [ht] at hj
  simp at hj
  subst hj
  exact ⟨hp, hv⟩

end Sys2Proof.Tests
end

