-- ==== Sys2Proof/Tests/Object.lean ====
section
/-! SUPPORT. Tests of avas and avld: the worked directives of spec 12 (after R294) and the tree images that the worked programs list.
Every expected byte is copied from those tables. -/

namespace Sys2Proof.Tests

set_option Elab.async false

open Sys2Proof.Machine

/-- Symbol names. -/
def nmScale : Name := [1]
def nmFlag : Name := [2]
def nmTbl : Name := [3]

/-- The source of spec 12's worked directives. -/
def workedSource : List Line :=
  [.func nmScale, .width 16, .pit 1 0 1 0 0, .extent 0 0 true false false 0x30000, .extentBy 2 (-64) true true false 4 4,
   .sync 0x200 4096, .slotAt nmFlag 0x100 0 0x40, .seq false, .leaf,
   .instr (.exit { sc := 0, k9 := true } 0), .close, .close, .close,
   .section_ 5, .label nmTbl, .logs true [.dec 1 1, .dec (-2) 1, .dec 3 10, .dec 0 1], .floats true [.dec 15 10],
   .floats false [.dec (-75) 100]]

/-- A section of the worked object. -/
def workedSect (sid : Nat) : List Byte := ((assemble workedSource).map (sectBody · sid)).getD []

/-- Spec 12, worked directives: both .extent records. -/
theorem test_worked_extent : workedSect 8 = toBytes 16 0x00000000000300000000000000000001 ++
    [0x0B, 2, 4, 0, 0xC0, 0xFF, 0xFF, 0xFF, 4, 0, 0, 0, 0, 0, 0, 0] := by decide +kernel

/-- Spec 12, worked directives: .sync and .slot. -/
theorem test_worked_sync_slot : workedSect 6 = [0, 2, 0, 0, 16, 0, 0, 0, 0, 16, 0, 0] ++ List.replicate 12 0 ∧
    workedSect 9 = [0, 1, 0, 0, 0, 0, 0, 0, 0x40, 0, 0, 0, 0, 0, 0, 0] := by decide +kernel

/-- Spec 12, worked directives: the node records. -/
theorem test_worked_nodes : workedSect 2 = [1, 1, 0, 1, 0, 0, 0, 0] ++ List.replicate 8 0 ++
    [6, 0, 0, 0, 0, 4, 0, 0] ++ List.replicate 8 0 := by decide +kernel

/-- Spec 12, worked directives: .ln6, .f32, .bf16 and the .launch record. -/
theorem test_worked_data : workedSect 5 = [0x10, 0x9D, 0, 0, 0, 0xC0, 0x3F, 0x40, 0xBF] ∧
    workedSect 7 = [1, 0x20, 0, 0, 1, 0, 0, 1, 0, 0, 2, 1, 24, 0, 0, 0] := by decide +kernel

/-- Spec 12, worked directives: NODE16 at byte 1 of node 0 and byte 8 of .launch, TEXT32 at byte 1 of node 1. -/
theorem test_worked_relocs : ((assemble workedSource).map (·.rels)).getD [] =
    [{ rsect := 1, roff := 1, rsym := 0xFFFFFFFF, rtype := 2 }, { rsect := 1, roff := 17, rsym := 0xFFFFFFFF, rtype := 4 },
     { rsect := 6, roff := 8, rsym := 0xFFFFFFFF, rtype := 2 }] := by decide +kernel

/-- R286 to R289: the reader reads what the writer wrote. -/
theorem test_object_file : ((assemble workedSource).bind fun a => readAof (writeAof a)).map (fun a => (a.sects, a.syms, a.rels)) =
    (assemble workedSource).map fun a => (a.sects, a.syms, a.rels) := by decide +kernel

/-- A leaf of listed words. -/
def leafOf (ws : List (List Nat)) : List Line :=
  [.leaf] ++ ws.filterMap (fun w => ((decode (ofWords w)).toOption).map Line.instr) ++ [.close]

/-- Names of the division program. -/
def nmMain : Name := [4]
def nmQuo : Name := [5]
def nmRem : Name := [6]
def nmZero : Name := [7]
def nmTab : Name := [8]

/-- The words of leaf A (spec 18, .text). -/
def divA : List (List Nat) := [[0x00000C16, 0x008001FF, 0x80000003], [0x00020315, 0x00F00100], [0x00040725, 0x60000002],
  [0x00000C24], [0x00060205, 0x0012E200]]

/-- The words of leaf S. -/
def divS : List (List Nat) := [[0x000A0315, 0x00F00100], [0x000A0315, 0x00F2E80A], [0x00000735, 0x6000100A]]

/-- The words of the handler's leaf. -/
def divZero : List (List Nat) := [[0x000E0C05, 0x00C00000], [0x000C0315, 0x00F2F100], [0x00000735, 0x60001C0C],
  [0x01000066, 0x000801FF, 0x7FFFFFFF]]

/-- The listing of spec 18. -/
def divSource : List Line :=
  [.func nmMain, .width 8, .pit 1 0 0 0 0, .extent 0 0 true true false 0x48, .seq false] ++ leafOf divA ++
  [.calli nmTab 6, .close] ++ leafOf divS ++ [.close, .close, .func nmQuo, .seq false] ++
  leafOf [[0x00080155, 0x00100A04]] ++ leafOf [[0x00090305, 0x00100171]] ++ [.close, .close, .func nmRem, .seq false] ++
  leafOf [[0x00080165, 0x00100A04]] ++ leafOf [[0x00090305, 0x00100172]] ++ [.close, .close, .func nmZero] ++
  leafOf divZero ++ [.close, .section_ 3, .ctab nmTab [nmQuo, nmRem]]

/-- The linked image of the division program, at the addresses of spec 18. -/
def divImage : Option Aof := (assemble divSource).bind fun a =>
  (link [a] { tree := 0x7F0000100000, text := 0x7F0000110000, calltab := 0x7F0000120000, rodata := 0, data := 0 }).toOption

/-- Its section of an identifier. -/
def divSect (sid : Nat) : List Byte := (divImage.map (sectBody · sid)).getD []

/-- Spec 18, .text: the leaves' words at their listed offsets, and the call table. -/
theorem test_div_text : (divSect 1).length = 0x84 ∧ (divSect 1).take 0x28 = divA.flatten.flatMap (toBytes 4) ∧
    (divSect 1).drop 0x60 = divZero.flatten.flatMap (toBytes 4) ∧ divSect 3 = [2, 0, 0, 0, 1, 0, 2, 0] := by decide +kernel

/-- Spec 18, tree image: the header. -/
theorem test_div_header : (divSect 2).take 64 = toBytes 64 (pack [(32, 0x45525446), (16, 1), (16, 4), (32, 11), (32, 0x180),
    (64, 0x7F0000110000), (32, 0x84), (32, 8), (64, 0x7F0000120000)]) ∧ (divSect 2).length = 0x180 := by decide +kernel

/-- A row of spec 18's function table. -/
def divEntry (root dmax extoff extn pitw width : Nat) : List Byte :=
  toBytes 32 (pack [(16, root), (16, dmax), (32, extoff), (16, extn), (16, 0), (32, 0x180), (32, 0x180), (32, 0), (32, pitw),
    (8, width)])

/-- Spec 18, tree image: the function table. -/
theorem test_div_functions : ((divSect 2).drop 64).take 128 = divEntry 0 2 0x170 1 1 0 ++ divEntry 4 1 0x180 0 0 3 ++
    divEntry 7 1 0x180 0 0 3 ++ divEntry 10 0 0x180 0 0 3 := by decide +kernel

/-- A node record's sixteen bytes, zeros after those given. -/
def node16 (l : List Byte) : List Byte := l ++ List.replicate (16 - l.length) 0

/-- Spec 18, tree image: the nodes, numbered breadth-first in each function, and the extent record. -/
theorem test_div_nodes : (divSect 2).drop 192 =
    node16 [1, 1, 0, 3] ++ node16 [6, 0, 0, 0, 0, 0x28] ++ node16 [5, 0, 0, 0, 0, 0, 6] ++
    node16 [6, 0x28, 0, 0, 0, 0x18] ++ node16 [1, 5, 0, 2] ++ node16 [6, 0x40, 0, 0, 0, 8] ++
    node16 [6, 0x48, 0, 0, 0, 8] ++ node16 [1, 8, 0, 2] ++ node16 [6, 0x50, 0, 0, 0, 8] ++
    node16 [6, 0x58, 0, 0, 0, 8] ++ node16 [6, 0x60, 0, 0, 0, 0x24] ++
    [3, 0, 0, 0, 0, 0, 0, 0, 0x48, 0, 0, 0, 0, 0, 0, 0] := by decide +kernel

end Sys2Proof.Tests
end

