-- ==== Sys2Proof/Tests/WitnessRegs.lean ====
section
/-! SUPPORT. Witnesses of the statements about instructions with register and predicate results: for each instruction, a state
and operands that meet its hypotheses, with a lane that receives the result. -/

namespace Sys2Proof.Tests

open Sys2Proof.Machine

theorem witness_IntegerArithmetic :
    Met (.iadd (hd 4) true .i64 (.v 2) (.v 6)) (val2 (rdInt · .i64 (.v 2)) (rdInt · .i64 (.v 6)) fun x y => intResult .i64 true (x + y)) ∧
    Met (.isub (hd 3) false .n8 (.v 1) (.v 3)) (val2 (rdInt · .n8 (.v 1)) (rdInt · .n8 (.v 3)) fun x y => intResult .n8 false (x - y)) ∧
    Met (.imul (hd 3) true .i32 (.v 3) (.v 3)) (val2 (rdInt · .i32 (.v 3)) (rdInt · .i32 (.v 3)) fun x y => intResult .i32 true (x * y)) ∧
    Met (.imulh (hd 3) false .n32 (.v 3) (.v 3)) (val2 (rdInt · .n32 (.v 3)) (rdInt · .n32 (.v 3)) fun x y =>
      intResult .n32 false (x * y / ((2 ^ fmtBits .n32 : Nat) : Int))) ∧
    Met (.imin (hd 3) false .i8 (.v 1) (.imm 0)) (val2 (rdInt · .i8 (.v 1)) (rdInt · .i8 (.imm 0)) fun x y => intResult .i8 false (min x y)) ∧
    Met (.imax (hd 255) false .n32 (.v 255) (.s 63)) (val2 (rdInt · .n32 (.v 255)) (rdInt · .n32 (.s 63)) fun x y => intResult .n32 false (max x y)) ∧
    Met (.iabs (hd 3) true .i32 (.v 3)) (val1 (rdInt · .i32 (.v 3)) fun x => intResult .i32 true (x.natAbs : Int)) ∧
    Met (.ineg (hd 254) false .i64 (.v 2)) (val1 (rdInt · .i64 (.v 2)) fun x => intResult .i64 false (-x)) ∧
    Met (.imad (hd 3) true .i32 (.v 1) (.v 2) (.v 3)) (val3 (rdInt · .i32 (.v 1)) (rdInt · .i32 (.v 2)) (rdInt · .i32 (.v 3)) fun x y z =>
      intResult .i32 true (x * y + z)) ∧
    Met (.isad (hd 3) false .n8 (.v 1) (.v 2) (.v 3)) (val3 (rdInt · .n8 (.v 1)) (rdInt · .n8 (.v 2)) (rdInt · (acc32 .n8) (.v 3)) fun x y z =>
      wrap 32 (((x - y).natAbs : Int) + z)) ∧
    Met (.idot4 (hd 3) true .i8 (.v 1) (.v 2) (.v 3)) (val3 (rdN · (.v 1)) (rdN · (.v 2)) (rdInt · (acc32 .i8) (.v 3)) fun x y z =>
      intResult (acc32 .i8) true (z + ((List.range 4).map fun k =>
        intOf .i8 (x / 2 ^ (8 * k) % 256) * intOf .i8 (y / 2 ^ (8 * k) % 256)).foldl (· + ·) 0)) ∧
    Met (.iclamp (hd 3) false .i16 (.v 1) (.v 2) (.v 3)) (val3 (rdInt · .i16 (.v 1)) (rdInt · .i16 (.v 2)) (rdInt · .i16 (.v 3)) fun x y z =>
      intResult .i16 false (min (max x y) z)) ∧
    Met (.imulw (hd 4) false .n32 (.v 3) (.v 3)) (val2 (rdInt · .n32 (.v 3)) (rdInt · .n32 (.v 3)) fun x y => wrap 64 (x * y)) ∧
    Met (.iext (hd 4) true .i8 (.v 3)) (val1 (rdInt · .i8 (.v 3)) fun x => wrap (if true then 64 else 32) x) ∧
    (∃ l, layout (.iadd (hd 4) true .i64 (.v 2) (.v 6)) = some l ∧ WellFormed (.iadd (hd 4) true .i64 (.v 2) (.v 6))) := by
  and_intros
  all_goals first
    | exact met_of rfl (by decide) (by decide) (by decide) rfl
    | exact ⟨_, rfl, show legal _ = true by decide⟩

theorem witness_IntegerArithmetic_division :
    Met (.idiv (hd 3) true .i32 (.v 3) (.v 2)) (divVal (rdInt · .i32 (.v 3)) (rdInt · .i32 (.v 2)) fun x y => intResult .i32 true (x.tdiv y)) ∧
    Met (.irem (hd 4) false .i64 (.v 2) (.v 6)) (fun x => divVal (rdInt · .i64 (.v 2)) (fun _ => .ok (-1)) (fun x y => intResult .i64 false (x.tmod y)) x) :=
  ⟨met_of rfl (by decide) (by decide) (by decide) rfl, met_of rfl (by decide) (by decide) (by decide) rfl⟩

theorem witness_LogicAndShifts :
    Met (.and (hd 3) .i32 (.v 1) (.v 3)) (val2 (rd · .i32 (.v 1)) (rd · .i32 (.v 3)) fun x y => x &&& y) ∧
    Met (.or (hd 4) .n64 (.v 2) (.v 6)) (val2 (rd · .n64 (.v 2)) (rd · .n64 (.v 6)) fun x y => x ||| y) ∧
    Met (.xor (hd 3) .n32 (.v 1) (.v 3)) (val2 (rd · .n32 (.v 1)) (rd · .n32 (.v 3)) fun x y => x ^^^ y) ∧
    Met (.not (hd 3) .i32 (.v 3)) (val1 (rd · .i32 (.v 3)) fun x => 2 ^ wordBits .i32 - 1 - x) ∧
    Met (.shl (hd 4) .i64 (.v 2) (.v 8)) (val2 (rd · .i64 (.v 2)) (rdN · (.v 8)) fun x n => x * 2 ^ n % 2 ^ wordBits .i64) ∧
    Met (.shr (hd 3) .n32 (.v 3) (.v 8)) (val2 (rd · .n32 (.v 3)) (rdN · (.v 8)) fun x n => if n < wordBits .n32 then x / 2 ^ n else 0) ∧
    Met (.sar (hd 3) .i32 (.v 3) (.v 8)) (val2 (rd · .i32 (.v 3)) (rdN · (.v 8)) fun x n =>
      wrap (wordBits .i32) (signed (wordBits .i32) x / ((2 ^ min n (wordBits .i32) : Nat) : Int))) ∧
    Met (.rot (hd 3) .i32 (.v 1) (.v 8)) (val2 (rd · .i32 (.v 1)) (rdN · (.v 8)) fun x n => rotBits (wordBits .i32) x n) ∧
    Met (.popc (hd 3) .i32 (.v 3)) (val1 (rd · .i32 (.v 3)) fun x => ((List.range (wordBits .i32)).filter x.testBit).length) ∧
    Met (.clz (hd 3) .i32 (.v 0)) (val1 (rd · .i32 (.v 0)) fun x => clzBits (wordBits .i32) x) ∧
    Met (.ctz (hd 3) .i32 (.v 0)) (val1 (rd · .i32 (.v 0)) fun x => ctzBits (wordBits .i32) x) ∧
    Met (.brev (hd 3) .i32 (.v 1)) (val1 (rd · .i32 (.v 1)) fun x => revBits (wordBits .i32) x) := by
  and_intros <;> exact met_of rfl (by decide) (by decide) (by decide) rfl

theorem witness_LogicAndShifts_fields :
    Met (.bfx (hd 3) .n32 (.v 3) (.imm 31) (.imm 1)) (val3 (rdN · (.v 3)) (rdN · (.imm 31)) (rdN · (.imm 1)) fun x y z => bfxBits .n32 x (y % 256) (z % 256)) ∧
    Met (.bfi (hd 3) (.v 1) (.v 3) (.v 8)) (val3 (rdN · (.v 1)) (rdN · (.v 3)) (rdN · (.v 8)) fun x y z => bfiBits x y (z % 256) (z / 256 % 256)) ∧
    Met (.tern (hd 3) 255 (.v 1) (.v 2) (.v 3)) (val3 (rdN · (.v 1)) (rdN · (.v 2)) (rdN · (.v 3)) fun x y z => ternBits 32 (255 : BitVec 8).toNat x y z) ∧
    Met (.shf (hd 3) true (.v 1) (.v 2) (.v 8)) (val3 (rdN · (.v 1)) (rdN · (.v 2)) (rdN · (.v 8)) fun x y z =>
      if true then (x + 2 ^ 32 * y) * 2 ^ min z 32 / 2 ^ 32 % 2 ^ 32 else (x + 2 ^ 32 * y) / 2 ^ min z 32 % 2 ^ 32) ∧
    Met (.perm (hd 3) (.v 1) (.v 2) (.v 3)) (val3 (rdN · (.v 1)) (rdN · (.v 2)) (rdN · (.v 3)) fun x y z => permBits x y z) := by
  refine ⟨?_, ?_, ?_, ?_, ?_⟩
  all_goals exact met_of rfl (by decide) (by decide) (by decide) rfl

/-- The predicate form's hypotheses are those of a result. -/
theorem witness_Predicates :
    Met (.mov (hd 254) .i64 (.v 2)) (val1 (rd · .i64 (.v 2)) fun x => x) ∧
    Met (.lea (hd 4) 31 .i64 (.v 2) (.v 3)) (val2 (rd · .i64 (.v 2)) (rdN · (.v 3)) fun x y =>
      wrap (wordBits .i64) ((x : Int) + (if Fmt.i64 = .i64 then signed 32 y else (y : Int)) * ((2 ^ (31 : BitVec 5).toNat : Nat) : Int))) ∧
    Met (.sel (hd 3) true 1 .n32 (.v 1) (.v 2)) (val3 (rd · .n32 (.v 1)) (rd · .n32 (.v 2)) (fun x => .ok (predAt x.g x.lane (1 : BitVec 4).toNat))
      fun x y p => if p = true then y else x) ∧
    Met (.prd (hd 3)) (fun x => .ok (sget 0 x.g.preds x.lane).toNat) ∧
    Met (.pmask (hd 4)) (fun x => .ok (((participants x (hd 4)).map fun i => 2 ^ slotLane x.g i).foldl (· + ·) 0)) ∧
    Met (.icmp (hd 15) 2 5 .i64 (.v 2) (.v 6)) (val3 (rdInt · .i64 (.v 2)) (rdInt · .i64 (.v 6)) (fun x => .ok (predAt x.g x.lane (hd 15).dreg.toNat))
      fun x y p => flag (combine (2 : BitVec 2).toNat p (intCmp (5 : BitVec 3).toNat x y))) ∧
    Met (.fcmp (hd 0) 0 1 .f32 (.v 5) (.v 7)) (val3 (rdBits · .f32 (.v 5)) (rdBits · .f32 (.v 7))
      (fun x => .ok (predAt x.g x.lane (hd 0).dreg.toNat)) fun x y p => flag (combine (0 : BitVec 2).toNat p (fCmp .f32 (1 : BitVec 3).toNat x y))) ∧
    Met (.plog (hd 5) 15 1 9) (fun x => .ok (flag ((9 : BitVec 4).toNat.testBit
      (2 * flag (predAt x.g x.lane (1 : BitVec 4).toNat) + flag (predAt x.g x.lane (15 : BitVec 4).toNat))))) ∧
    Met (.pmov (hd 5) false 31 (.v 3)) (val1 (rdN · (.v 3)) fun x => flag (x.testBit (31 : BitVec 5).toNat)) ∧
    Met (.pmov (hd 0) true 0 (.v 3)) (rdN · (.v 3)) := by
  and_intros <;> exact met_of rfl (by decide) (by decide) (by decide) rfl

/-- A function on both 16-bit halves. -/
def two (f : Nat → Nat → Nat) (x y : Nat) : Nat :=
  f (x % 65536) (y % 65536) + 65536 * f (x / 65536 % 65536) (y / 65536 % 65536)

theorem witness_FloatArithmetic :
    Met (.fadd (hd 3) .f32 (.v 5) (.v 7)) (val2 (rdBits · .f32 (.v 5)) (rdBits · .f32 (.v 7)) (fAdd .f32)) ∧
    Met (.fsub (hd 3) .bf16 (.v 5) (.v 7)) (val2 (rdBits · .bf16 (.v 5)) (rdBits · .bf16 (.v 7)) (fSub .bf16)) ∧
    Met (.fmul (hd 3) .f16 (.v 5) (.v 7)) (val2 (rdBits · .f16 (.v 5)) (rdBits · .f16 (.v 7)) (fMul .f16)) ∧
    Met (.ffma (hd 3) .f32 (.v 5) (.v 7) (.v 5)) (val3 (rdBits · .f32 (.v 5)) (rdBits · .f32 (.v 7)) (rdBits · .f32 (.v 5)) (fFma .f32)) ∧
    Met (.fmin (hd 3) .f32 (.v 5) (.v 3)) (val2 (rdBits · .f32 (.v 5)) (rdBits · .f32 (.v 3)) (fMinMax .f32 false)) ∧
    Met (.fmax (hd 3) .f32 (.v 5) (.v 3)) (val2 (rdBits · .f32 (.v 5)) (rdBits · .f32 (.v 3)) (fMinMax .f32 true)) ∧
    Met (.fsgn (hd 3) 2 .f32 (.v 5) (.v 3)) (val2 (rdBits · .f32 (.v 5)) (rdBits · .f32 (.v 3)) (fSgn .f32 (2 : BitVec 2).toNat)) ∧
    Met (.frcp (hd 3) .f32 (.v 0)) (val1 (rdBits · .f32 (.v 0)) fRcp) ∧
    Met (.frsq (hd 3) .f32 (.v 7)) (val1 (rdBits · .f32 (.v 7)) fRsq) ∧
    Met (.fexp2 (hd 3) .f32 (.v 5)) (val1 (rdBits · .f32 (.v 5)) fExp2) ∧
    Met (.flog2 (hd 3) .f32 (.v 0)) (val1 (rdBits · .f32 (.v 0)) fLog2) ∧
    Met (.fsqrt (hd 3) .f32 (.v 7)) (val1 (rdBits · .f32 (.v 7)) fSqrt) ∧
    Met (.fclass (hd 3) .f32 (.v 3)) (val1 (rdBits · .f32 (.v 3)) (fClass .f32)) ∧
    (Met (.hadd2 (hd 3) .f16 (.v 5) (.v 7)) (val2 (rdN · (.v 5)) (rdN · (.v 7)) (two (fAdd .f16))) ∧
      Met (.hmul2 (hd 3) .bf16 (.v 5) (.v 7)) (val2 (rdN · (.v 5)) (rdN · (.v 7)) (two (fMul .bf16))) ∧
      Met (.hmin2 (hd 3) .f16 (.v 5) (.v 7)) (val2 (rdN · (.v 5)) (rdN · (.v 7)) (two (fMinMax .f16 false))) ∧
      Met (.hmax2 (hd 3) .f16 (.v 5) (.v 7)) (val2 (rdN · (.v 5)) (rdN · (.v 7)) (two (fMinMax .f16 true))) ∧
      Met (.hfma2 (hd 3) .f16 (.v 5) (.v 7) (.v 5)) (val3 (rdN · (.v 5)) (rdN · (.v 7)) (rdN · (.v 5)) fun x y z =>
        fFma .f16 (x % 65536) (y % 65536) (z % 65536)
          + 65536 * fFma .f16 (x / 65536 % 65536) (y / 65536 % 65536) (z / 65536 % 65536))) := by
  and_intros <;> exact met_of rfl (by decide) (by decide) (by decide) rfl

theorem witness_FloatArithmetic_conversions :
    Met (.fcvt (hd 3) .f32 .bf16 (.v 5)) (val1 (rdBits · .f32 (.v 5)) (fCvt .bf16 .f32)) ∧
    Met (.icvtf (hd 3) .i64 .f32 (.v 2)) (val1 (rdInt · .i64 (.v 2)) (iCvtF .f32)) ∧
    Met (.fcvti (hd 4) .f32 .n64 (.v 3)) (val1 (rdBits · .f32 (.v 3)) fun x => intBits .n64 (fCvtI .n64 .f32 x)) ∧
    Met (.dqnt (hd 3) .ln6 (.v 3) (.v 3)) (val2 (rdN · (.v 3)) (rdN · (.v 3)) fun x y => dqnt .ln6 (x % 2 ^ fmtBits .ln6) (y % 256)) := by
  refine ⟨?_, ?_, ?_, ?_⟩
  all_goals exact met_of rfl (by decide) (by decide) (by decide) rfl

end Sys2Proof.Tests
end

