-- ==== Sys2Proof/Tests/WitnessIssue.lean ====
section
/-! SUPPORT. Witnesses of the statements about exchange, control, memory at issue, waits, the matrix array and the system
instructions. -/

namespace Sys2Proof.Tests

set_option Elab.async false

open Sys2Proof.Machine

/-- The hypotheses of an exchange are met, with a lane that receives. -/
def MetX (i : Instr) (seg : BitVec 3) (rdA rdB : Here → Except Trap Nat) : Prop :=
  ∃ (s : State) (l : Layout) (va vb : Nat → Nat → Nat), MidLeaf s ∧ s.FilesCanon ∧ layout i = some l ∧ legal i = true ∧
    (∀ p ∈ s.issue.parts, ∀ g, mfind s.groups p.1 = some g → 2 ^ seg.toNat ≤ g.width ∧ ∀ j ∈ takers g l.head p.2,
      partOk g l = true ∧ rdA (hereAt s p.1 g j) = .ok (va p.1 j) ∧ rdB (hereAt s p.1 g j) = .ok (vb p.1 j)) ∧
    ∃ p ∈ s.issue.parts, ∃ g, mfind s.groups p.1 = some g ∧ takers g l.head p.2 ≠ []

theorem metX_of {i : Instr} {seg : BitVec 3} {rdA rdB : Here → Except Trap Nat} {l : Layout} {x y : Nat}
    (hl : layout i = some l) (hi : legal i = true) (hw : 2 ^ seg.toNat ≤ 8) (hp : partOk grp l = true)
    (ht : takers grp l.head [0] = [0]) (ha : rdA (hereAt fix 1 grp 0) = .ok x) (hb : rdB (hereAt fix 1 grp 0) = .ok y) :
    MetX i seg rdA rdB := by
  refine ⟨fix, l, fun _ _ => x, fun _ _ => y, fix_lone.mid, fix_files, hl, hi, ?_, (1, [0]), by decide, grp, rfl,
    by rw [ht]; simp⟩
  intro p hm g hg
  have hm' : p = (1, [0]) := by simpa [fix, Issue.reset] using hm
  subst hm'
  have hg' : grp = g := Option.some.inj hg
  subst hg'
  refine ⟨hw, fun j hj => ?_⟩
  rw [ht] at hj
  simp at hj
  subst hj
  exact ⟨hp, ha, hb⟩

theorem witness_Exchange :
    MetX (.shfl (hd 3) 3 .n32 (.v 1) (.v 2)) 3 (rd · .n32 (.v 1)) (rdN · (.v 2)) ∧
    MetX (.shflup (hd 4) 0 .i64 (.v 2) (.v 1)) 0 (rd · .i64 (.v 2)) (rdN · (.v 1)) ∧
    MetX (.shfldn (hd 3) 3 .f32 (.v 5) (.v 2)) 3 (rd · .f32 (.v 5)) (rdN · (.v 2)) ∧
    MetX (.shflx (hd 3) 3 .i32 (.v 1) (.v 2)) 3 (rd · .i32 (.v 1)) (rdN · (.v 2)) ∧
    MetX (.bcast (hd 3) 3 .n32 (.v 1)) 3 (rd · .n32 (.v 1)) (fun _ => .ok 0) ∧
    MetX (.vote (hd 4) 3 3 (.v 1)) 3 (rdN · (.v 1)) (fun _ => .ok 0) ∧
    MetX (.vote (hd 4) 0 0 (.v 1)) 0 (rdN · (.v 1)) (fun _ => .ok 0) := by
  refine ⟨?_, ?_, ?_, ?_, ?_, ?_, ?_⟩
  all_goals exact metX_of rfl (by decide) (by decide) (by decide) (by decide) rfl rfl

theorem witness_IntReductions :
    MetX (.redi (hd 4) 1 3 .i64 (.v 2)) 3 (rd · .i64 (.v 2)) (fun _ => .ok 0) ∧
    MetX (.scani (hd 3) true 5 3 .n32 (.v 1)) 3 (rd · .n32 (.v 1)) (fun _ => .ok 0) ∧
    MetX (.scani (hd 3) false 0 0 .n32 (.v 1)) 0 (rd · .n32 (.v 1)) (fun _ => .ok 0) := by
  refine ⟨?_, ?_, ?_⟩
  all_goals exact metX_of rfl (by decide) (by decide) (by decide) (by decide) rfl rfl

/-- The order of the lanes: two orders of one list of values. -/
theorem witness_IntReductions_order : [0, 5, 2 ^ 32 - 1].Perm [2 ^ 32 - 1, 0, 5] ∧
    ∀ v ∈ [0, 5, 2 ^ 32 - 1], v < 2 ^ fmtBits .n32 := by decide

theorem witness_IntReductions_float :
    MetX (.redf (hd 3) 0 3 .f32 (.v 5)) 3 (rdBits · .f32 (.v 5)) (fun _ => .ok 0) ∧
    MetX (.scanf (hd 3) true 0 3 .f32 (.v 5)) 3 (rdBits · .f32 (.v 5)) (fun _ => .ok 0) ∧
    MetX (.scanf (hd 3) false 2 0 .f32 (.v 5)) 0 (rdBits · .f32 (.v 5)) (fun _ => .ok 0) := by
  refine ⟨?_, ?_, ?_⟩
  all_goals exact metX_of rfl (by decide) (by decide) (by decide) (by decide) rfl rfl

theorem witness_NopYieldHalt : MidLeaf fix ∧ fix.FilesCanon ∧ Lone fix 1 [0] grp ∧ legal (.nop k9) = true ∧
    legal (.yield k9) = true ∧ legal (.halt k9 0xFFFF) = true :=
  ⟨fix_lone.mid, fix_files, fix_lone, by decide, by decide, by decide⟩

/-! ### Control -/

/-- The lane and the log that a walk ends with. -/
def standing : Walked → Lane
  | .stands l _ => l
  | .trapped l _ _ => l
def walkLog : Walked → WalkLog
  | .stands _ g => g
  | .trapped _ g _ => g

/-- A lane in the body of the loop. -/
def looped : Group :=
  { grp with lanes := setNth grp.lanes 0 { startLane true (.leaf 0 0) with frames := [{ node := 1, child := 0, fn := 0 }] } }

/-- Where lane 0 goes with m frames fewer. -/
def gone (m : Nat) : Walked :=
  walkLoop (withGroup looped) looped prog (coreAt (withGroup looped) 0) (funcOf (withGroup looped) looped)
    (cycOf (withGroup looped) 0) 0 walkBound
    { laneAt looped 0 with frames := (laneAt looped 0).frames.drop m, pos := .advance false } WalkLog.none

theorem witness_ExitNextRet :
    Lone (withGroup looped) 1 [0] looped ∧ (withGroup looped).FilesCanon ∧ progOf (withGroup looped) looped = some prog ∧
    coreOf looped = some 0 ∧ bit looped.pitw.toNat 24 = false ∧ (laneAt looped 0).frames.length ≤ 24 ∧
    legal (.exit k9 1) = true ∧ 1 ≤ frameFc (withGroup looped) prog (laneAt looped 0).frames ∧
    legal (.next k9 0) = true ∧
      aboveLoop (withGroup looped) prog (laneAt looped 0).frames (frameFc (withGroup looped) prog (laneAt looped 0).frames) 0 = some 0 ∧
    legal (.ret k9) = true ∧ (laneAt looped 0).frames.drop (frameFc (withGroup looped) prog (laneAt looped 0).frames) = [] ∧
    (∀ i ∈ [Instr.exit k9 1, .next k9 0, .ret k9], recordBar (withGroup looped) 0 looped 0 i = none) ∧
    ∀ m ∈ [0, 1], gone m = .stands (standing (gone m)) (walkLog (gone m)) ∧ (walkLog (gone m)).frames = [] ∧
      (walkLog (gone m)).tret = false :=
  ⟨withGroup_lone rfl rfl rfl (by decide), filesCanon_of rfl (canon_of_check (by decide)), rfl, rfl, by decide, by decide,
    by decide, by decide, by decide, by decide, by decide, by decide, by decide, by decide⟩

/-- The group with its handler. -/
def handling : Group := { grp with traptree := 0x80000000 }

/-- Every lane of an issue may raise a trap, with the illegal instruction's among them. -/
theorem witness_WholeIssueTraps :
    (withGroup handling).FilesCanon ∧ Alive (withGroup handling) ∧ legal (.trap k9 0xFFFF) = true ∧
    ∃ l, layout (.iadd (hd 3) true .f32 (.v 1) (.v 2)) = some l ∧ legal (.iadd (hd 3) true .f32 (.v 1) (.v 2)) = false :=
  ⟨filesCanon_of rfl (canon_of_check (by decide)), alive_of (withGroup_lone rfl rfl rfl (by decide)), by decide, _, rfl, by decide⟩

/-- More than the call has: no frame, and no loop. -/
theorem witness_ExitNextRet_illop :
    Lone (withGroup handling) 1 [0] handling ∧ (withGroup handling).FilesCanon ∧ coreOf handling = some 0 ∧
    progOf (withGroup handling) handling = some prog ∧ bit handling.pitw.toNat 24 = false ∧ legal (.exit k9 1) = true ∧
    ¬ 1 ≤ frameFc (withGroup handling) prog (laneAt handling 0).frames ∧ legal (.next k9 0) = true ∧
    aboveLoop (withGroup handling) prog (laneAt handling 0).frames (frameFc (withGroup handling) prog (laneAt handling 0).frames) 0 = none ∧
    (∀ i ∈ [Instr.exit k9 1, .next k9 0], recordBar (withGroup handling) 0 handling 0 i = none) ∧ Alive (withGroup handling) :=
  ⟨withGroup_lone rfl rfl rfl (by decide), filesCanon_of rfl (canon_of_check (by decide)), rfl, rfl, rfl, by decide, by decide,
    by decide, by decide, by decide, alive_of (withGroup_lone rfl rfl rfl (by decide))⟩

/-- The machine with the lane in the loop, whose record is not in the core's cache and whose key is erased. -/
def unrecorded : State :=
  { withGroup looped with keys := [], cores := [] }

theorem witness_ExitNextRet_record :
    Lone unrecorded 1 [0] looped ∧ unrecorded.FilesCanon ∧ Alive unrecorded ∧ progOf unrecorded looped = some prog ∧
    ∀ i ∈ [Instr.exit k9 1, .next k9 0, .ret k9], legal i = true ∧ ∃ t, recordBar unrecorded 0 looped 0 i = some (.trap t) :=
  have h : Lone unrecorded 1 [0] looped := lone_of prog 0 rfl (by decide) rfl rfl rfl rfl (by decide)
  ⟨h, filesCanon_of rfl (canon_of_check (by decide)), alive_of h, rfl, by
    intro i hi
    simp at hi
    rcases hi with rfl | rfl | rfl <;> exact ⟨by decide, _, rfl⟩⟩

/-- The group with lane 0 in its handler, whose trap saved a destination. -/
def returning (dst : SavedDst) : Group :=
  { grp with lanes := setNth grp.lanes 0 { startLane true (.leaf 0 8) with frames := [{ node := 0xFFFF, child := 0, fn := 0xFFFF }], saved := some { frames := [], pos := .leaf 0 0, after := 4, dst := dst } } }

/-- The forms of a destination: single registers and pairs at either end of the file and past it, predicates, none. -/
theorem witness_TrapReturn :
    (∀ dst ∈ [SavedDst.vec 255 1, .vec 0 2, .vec 255 2, .pred 15, .nothing],
      Lone (withGroup (returning dst)) 1 [0] (returning dst) ∧ (withGroup (returning dst)).FilesCanon ∧
      progOf (withGroup (returning dst)) (returning dst) = some prog ∧ (laneAt (returning dst) 0).frames.length ≤ 24 ∧
      (∃ l, Ready (returning dst) (.tret hdNw 0 0 none) l) ∧ (∃ l, Ready (returning dst) (.tret hdNw 1 0 none) l) ∧
      (∃ l, Ready (returning dst) (.tret hdNw 2 0 (some (.v 1))) l) ∧
      (∃ sv, (laneAt (returning dst) 0).saved = some sv ∧ sv.pos = .leaf 0 0 ∧ sv.after < leafLen (withGroup (returning dst)) prog 0 ∧
        sv.dst = dst) ∧
      rdN (hereAt (withGroup (returning dst)) 1 (returning dst) 0) (.v 1) = .ok 6 ∧ srcOk 2 (.v 2) = true ∧
      srcIn (returning dst) 2 (some (.v 2)) = true ∧
      rdD (hereAt (withGroup (returning dst)) 1 (returning dst) 0) (.v 2) = .ok 0xFFFFFFFF00000003) ∧
    ∃ l, layout (.iadd hdNw false .i32 (.v 1) (.v 2)) = some l ∧ l.head.nw = true := by
  refine ⟨fun dst hd => ?_, _, rfl, rfl⟩
  simp at hd
  rcases hd with rfl | rfl | rfl | rfl | rfl
  all_goals exact ⟨withGroup_lone rfl rfl rfl (by decide), filesCanon_of rfl (canon_of_check (by decide)), rfl, by decide,
    one_ready (by decide), one_ready (by decide), one_ready (by decide), ⟨_, rfl, rfl, by decide, rfl⟩, rfl, by decide,
    by decide, rfl⟩

/-- A pending TRAP of a lane at the leaf's first instruction. -/
def heldTrap : HeldTrap :=
  { trap := { code := 0x0A, addr1 := 0x20000, addr2 := none, info := 7 }, place := { frames := [], pos := .leaf 0 0, after := 4, dst := .nothing },
    priv := false }

/-- The group with a trap pending in lane i, which is in its handler or not. -/
def struck (g : Group) (i : Nat) (inside : Bool) : Group :=
  { g with lanes := setNth g.lanes i { laneAt g i with pendTrap := [heldTrap], saved := if inside then some heldTrap.place else none } }

theorem witness_WholeIssueTraps_kills :
    ∀ i ∈ [0, 7], ∀ t ∈ [(0, true), (0, false), (0x80000001, false), (0x8000FFFF, false)],
      let g := struck { grp with traptree := BitVec.ofNat 32 t.1 } i t.2
      mfind (withGroup g).groups 1 = some g ∧ progOf (withGroup g) g = some prog ∧ g.Quiet ∧ g.ck = none ∧ i < g.lanes.length ∧
      (∀ j, j < i → (laneAt g j).pendTrap = []) ∧ (laneAt g i).pendTrap.head? = some heldTrap ∧ liveLane (laneAt g i) = true ∧
      if t.2 then (laneAt g i).saved ≠ none
      else (laneAt g i).saved = none ∧ (g.traptree.toNat.testBit 31 = false ∨ prog.nfunc ≤ g.traptree.toNat % 2 ^ 16) := by
  intro i hi t ht
  simp at hi ht
  rcases hi with rfl | rfl <;> rcases ht with rfl | rfl | rfl | rfl
  all_goals exact ⟨rfl, rfl, ⟨rfl, rfl, rfl, rfl, rfl⟩, rfl, by decide, by decide, rfl, by decide, by decide⟩

/-! ### Memory -/

/-- A physical address of the data extent's page. -/
def dataPa : Nat := slotFrame + 0x20000

/-- Bytes of the data extent. -/
def dataPas (n : Nat) : List (Nat × Nat) := (upFrom n dataPa).map fun a => (a, 0)

theorem witness_DeviceAccesses :
    MidLeaf fix ∧ fix.FilesCanon ∧ rdD (hereAt fix 1 grp 0) (.v 10) = .ok 0x30000 ∧
    ((∃ l, Ready grp (.ldx (hd 4) 3 .ln .weak false (.v 10)) l) ∧
      transBytes (hereAt fix 1 grp 0) kRead (2 ^ (3 : BitVec 3).toNat) 0x30000 = .ok (dataPas 8)) ∧
    ((∃ l, Ready grp (.stx (hd 0) 2 .dev .rel (.v 10) (.v 1)) l) ∧
      transBytes (hereAt fix 1 grp 0) kWrite (2 ^ (2 : BitVec 3).toNat) 0x30000 = .ok (dataPas 4) ∧
      storeData (hereAt fix 1 grp 0) 2 (.v 1) = .ok [6, 0, 0, 0]) ∧
    (∃ l, Ready grp (.atom (hd 4) .cas .dev .ar .n64 (.v 10) (.v 2) (some (.v 6))) l) ∧ 0x30000 % (fmtBits .n64 / 8) = 0 ∧
      transWord (hereAt fix 1 grp 0) kAtomic (fmtBits .n64 / 8) 0x30000 = .ok (dataPas 8) ∧
      rd (hereAt fix 1 grp 0) .n64 (.v 2) = .ok 0xFFFFFFFF00000003 ∧
      rdCmp (hereAt fix 1 grp 0) .n64 (some (.v 6)) = .ok 0x4000000000000000 :=
  ⟨fix_lone.mid, fix_files, rfl, ⟨one_ready (by decide), rfl⟩,
    ⟨one_ready (by decide), rfl, rfl⟩, one_ready (by decide), by decide, rfl, rfl, rfl⟩

/-- An outstanding access of lane 0. -/
def access (op : AccOp) (n : Nat) (data : List Byte) : Access :=
  { ticket := 0, lane := 0, op := op, ord := .weak, scope := .ln, va := 0x30000, pas := dataPas n, data := data,
    held := (dataPas n).map fun _ => none,
    dst := { ds := false, nw := false, reg := 255, regs := 1, size := n, sx := false, priv := false, lr := false },
    place := { frames := [], pos := .leaf 0 0, after := 4, dst := .vec 255 1 } }

/-- The group with one access outstanding. -/
def pending (op : AccOp) (n : Nat) (data : List Byte) : Group := { grp with pend := [access op n data] }

/-- The fixture's group has eight lanes. -/
theorem grp_past {i : Nat} (h : ¬ i < 8) : laneAt grp i = absentLane := by
  have hn : ∀ (l : List Lane) k, l.length ≤ k → nthD absentLane l k = absentLane := by
    intro l
    induction l with
    | nil => intro k _; rfl
    | cons x r ih =>
      intro k hk
      cases k with
      | zero => simp at hk
      | succ k => exact ih k (by simpa using hk)
  exact hn grp.lanes i (by have : grp.lanes.length = 8 := rfl; omega)

/-- No lane of the fixture's group has a trap pending. -/
theorem no_pending : ∀ i, (laneAt grp i).pendTrap = [] := by
  intro i
  by_cases h : i < 8
  · exact (by decide : ∀ k, k < 8 → (laneAt grp k).pendTrap = []) i h
  · rw [grp_past h]; rfl

/-- The lanes of a group stand at leaves where the fixture's live ones are all that live. -/
theorem at_leaves_of {g : Group} (h : ∀ i, laneAt g i = laneAt grp i ∨ liveLane (laneAt g i) = false) :
    ∀ i, liveLane (laneAt g i) = true → ∃ n o, (laneAt g i).pos = .leaf n o := by
  intro i hi
  rcases h i with e | e
  · rw [e] at hi ⊢
    by_cases hl : i < 8
    · exact ⟨0, 0, (by decide : ∀ k, k < 8 → (laneAt grp k).pos = .leaf 0 0) i hl⟩
    · rw [grp_past hl] at hi
      exact absurd hi (by decide)
  · rw [e] at hi; exact absurd hi (by simp)

theorem at_leaves {g : Group} (h : g.lanes = grp.lanes) : ∀ i, liveLane (laneAt g i) = true → ∃ n o, (laneAt g i).pos = .leaf n o :=
  at_leaves_of fun i => .inl (by unfold laneAt; rw [h])

theorem noWaits_of {s : State} {gh : Nat} {g : Group} (hg : s.groups = [(gh, g)]) (hw : g.waits = []) (hs : s.subs = []) :
    s.NoWaits := by
  refine ⟨fun p hp => ?_, fun x hx => ?_⟩
  · rw [hg] at hp; simp at hp; rw [hp]; exact hw
  · rw [hs] at hx; simp at hx

theorem witness_LoadsPerformed :
    ∀ op ∈ [AccOp.load, .atom .add .n32 1 0], ∃ g, g = pending op 4 [] ∧ mfind (withGroup g).groups 1 = some g ∧ g.Canon ∧
      g.pend[0]? = some (access op 4 []) ∧ op ≠ .store ∧ mayPerform (withGroup g) 1 g (access op 4 []) = true ∧
      stalled (withGroup g) g = false ∧ homesStall (withGroup g) (access op 4 []).pas = false ∧
      (∀ p ∈ (access op 4 []).pas, keyLive (withGroup g) p.2 = true) ∧ accPoisoned (withGroup g) (access op 4 []) = false ∧
      g.ck = none ∧ (withGroup g).NoWaits ∧ (withGroup g).subs = [] ∧
      (∀ i, liveLane (laneAt g i) = true → ∃ n o, (laneAt g i).pos = .leaf n o) ∧
      (access op 4 []).dst.reg + (access op 4 []).dst.regs ≤ 256 ∧ ofBytes (accBytes (withGroup g) (access op 4 [])) = 0 ∧
      (∀ p ∈ (access op 4 []).pas, isMemory (region (withGroup g) p.1) = true) ∧ ((access op 4 []).pas.map (·.1)).Nodup ∧
      Memory.wf (withGroup g).mem = true ∧ swf LineKey.fresh (withGroup g).lines = true ∧
      (access op 4 []).held = ((access op 4 []).pas.map fun _ => none) ∧ atomNew .add .n32 0 1 0 = some 1 := by
  intro op hop
  refine ⟨_, rfl, rfl, canon_of_check (by rfl), rfl, ?_, ?_, ?_, ?_, ?_, ?_, rfl, noWaits_of rfl rfl rfl, rfl, at_leaves rfl, ?_⟩
  all_goals (simp at hop; rcases hop with rfl | rfl <;> decide)

theorem witness_StoresPerformed :
    (∃ g, g = pending .store 4 [1, 2, 3, 4] ∧ mfind (withGroup g).groups 1 = some g ∧ Memory.wf (withGroup g).mem = true ∧
      swf LineKey.fresh (withGroup g).lines = true ∧ (withGroup g).subs = [] ∧ (withGroup g).NoWaits ∧
      (∀ x, dataPa ≤ x → x < dataPa + 4 → isMemory (region (withGroup g) x) = true) ∧
      g.pend[0]? = some (access .store 4 [1, 2, 3, 4]) ∧ mayPerform (withGroup g) 1 g (access .store 4 [1, 2, 3, 4]) = true ∧
      homesStall (withGroup g) (access .store 4 [1, 2, 3, 4]).pas = false ∧
      keyLive (withGroup g) 0 = true ∧ (access .store 4 [1, 2, 3, 4]).pas = (List.range 4).map (fun j => (dataPa + j, 0)) ∧
      ∀ i, liveLane (laneAt g i) = true → ∃ n o, (laneAt g i).pos = .leaf n o) ∧
    ∃ v, frameView (permit fix [(0, initService 0)]) dataPa = some v ∧ (permit fix [(0, initService 0)]).NoWaits ∧
      dataPa / 8 = (dataPa + 4 - 1) / 8 ∧ entryPair (permit fix [(0, initService 0)]) dataPa = none ∧
      homeStalls (permit fix [(0, initService 0)]) dataPa = false ∧
      servicePermitted (permit fix [(0, initService 0)]) 0 dataPa 4 2 = true := by
  refine ⟨⟨_, rfl, rfl, by decide, rfl, rfl, noWaits_of rfl rfl rfl, ?_, rfl, by decide, by decide, by decide, by decide, at_leaves rfl⟩,
    _, rfl, noWaits_of (g := grp) rfl rfl rfl, by decide +kernel⟩
  intro x h1 h2
  have : ∀ k, k < 4 → isMemory (region (withGroup (pending .store 4 [1, 2, 3, 4])) (dataPa + k)) = true := by decide
  have h := this (x - dataPa) (by omega)
  rwa [show dataPa + (x - dataPa) = x by omega] at h

end Sys2Proof.Tests
end

