-- ==== Sys2Proof/Tests/WitnessCore.lean ====
section
/-! SUPPORT. Witnesses of the statements about the scratchpad, subscriptions, waits, the matrix array, and the system and task
instructions. -/

namespace Sys2Proof.Tests

set_option Elab.async false

open Sys2Proof.Machine

theorem witness_ScratchpadRequests :
    Lone fix 1 [0] grp ∧ fix.FilesCanon ∧
    (∀ i ∈ [Instr.lds (hd 4) 3 .ln .weak false (.v 12), .sts (hd 0) 0 .ln .weak (.v 12) (.v 1),
        .atoms (hd 4) .add .grp .rlx .n64 (.v 12) (.v 2) none, .slrd (hd 252) (.v 12), .swinit (hd 0) (.v 12) (.v 1),
        .swadd (hd 0) .grp (.v 12) (.v 1), .qnt (hd 0) 0 .ln6 (.v 12) (.v 8) (.v 1)], ∃ l, Ready grp i l) ∧
    rdN (hereAt fix 1 grp 0) (.v 12) = .ok 128 ∧ rdN (hereAt fix 1 grp 0) (.v 1) = .ok 6 ∧
    storeData (hereAt fix 1 grp 0) 0 (.v 1) = .ok [6] ∧ rd (hereAt fix 1 grp 0) .n64 (.v 2) = .ok 0xFFFFFFFF00000003 ∧
    rdCmp (hereAt fix 1 grp 0) .n64 none = .ok 0 ∧ rdN (hereAt fix 1 grp 0) (.v 8) = .ok 64 ∧
    (∀ n ∈ [1, 8, 16], resolveSpad fix 1 grp 128 n = some (1, 128)) ∧ 128 % (fmtBits .n64 / 8) = 0 ∧
    (128 % 16 = 0 ∧ (128).testBit 28 = false) ∧ 128 + 128 ≤ spadLimit grp ∧ 64 % 4 = 0 ∧ 64 + 24 ≤ spadLimit grp :=
  ⟨fix_lone, fix_files, ready_all (by decide), rfl, rfl, rfl, rfl, rfl, rfl, by decide⟩

/-- A request of lane 0 for the bytes from offset 112. -/
def bankReq (op : SpadOp) (n : Nat) : BankReq :=
  { ticket := 0, gh := 1, lane := 0, target := 1, off := 112, size := n, skip := 0, op := op, ord := .weak,
    dst := { ds := false, nw := false, reg := 252, regs := 4, size := n, sx := false, priv := false, lr := false }, latch := 2 }

/-- The group with one request queued, and its machine. -/
def asking : Group := { grp with counter := 1 }
def bankState (op : SpadOp) (n : Nat) : State :=
  { withGroup asking with cores := [(0, { Core.reset with banks := [(3, [[bankReq op n]])] })] }

theorem witness_BankRequests : ∀ p ∈ [(SpadOp.load, 8), (.store [1, 2], 2), (.swadd 5, 16), (.swinit 7, 16), (.slrd, 16),
      (.atom .add .n32 1 0, 4)], let s := bankState p.1 p.2
    (layerAt s (layerOfCore 0)).clock.relock = none ∧
    bankQueue (coreAt s 0) 3 = [[bankReq p.1 p.2]] ∧ (coreAt s 0).port = [] ∧ swf [] (coreAt s 0).banks = true ∧
    swf Core.reset s.cores = true ∧ s.NoWaits ∧ asking.ck = none ∧ asking.Canon ∧ (bankReq p.1 p.2).target = (bankReq p.1 p.2).gh ∧
    mfind s.groups (bankReq p.1 p.2).gh = some asking ∧ (bankReq p.1 p.2).dst.priv = false ∧ asking.counter = 1 ∧
    (bankReq p.1 p.2).size = (bankReq p.1 p.2).dst.size ∧ asking.halted = false ∧
    (∀ i, liveLane (laneAt asking i) = true → ∃ n o, (laneAt asking i).pos = .leaf n o) ∧
    (bankReq p.1 p.2).dst.reg + (bankReq p.1 p.2).dst.regs ≤ 256 := by
  intro p hp
  refine ⟨rfl, ?_, rfl, ?_, ?_, noWaits_of (g := asking) rfl rfl rfl, rfl, canon_of_check (by rfl), rfl, rfl, rfl, rfl, rfl, rfl,
    at_leaves rfl, by simp [bankReq]⟩
  all_goals (simp at hp; rcases hp with rfl | rfl | rfl | rfl | rfl | rfl <;> decide)

/-- A sync word with a target of 5 and a count of 3, and one without a target. -/
theorem witness_BankRequests_sync : ∀ old ∈ [5 + 2 ^ 32 * 3, 0], old < 2 ^ 128 := by decide

/-! ### Subscriptions -/

/-- The group with slot 128 in its list, and a state whose home table has the subscription. -/
def subscribed : Group := { grp with subs := [{ slot := 128, pa := dataPa }] }
def subState : State :=
  { withGroup subscribed with subs := [{ pa := dataPa, gh := 1, slot := 128, armed := false, pseq := 0xFFFFFFFF, push := none }] }

theorem witness_Subscriptions_sub :
    Lone fix 1 [0] grp ∧ fix.FilesCanon ∧ fix.NoWaits ∧ stalled fix grp = false ∧ commitWaits fix grp = false ∧ (∃ l, Ready grp (.sub (hd 4) (.v 12) (.v 10)) l) ∧
    rdN (hereAt fix 1 grp 0) (.v 12) = .ok 128 ∧ rdD (hereAt fix 1 grp 0) (.v 10) = .ok 0x30000 ∧
    transWord (hereAt fix 1 grp 0) kRead 8 0x30000 = .ok (dataPas 8) ∧ grp.halted = false ∧ keyLive fix 0 = true ∧
    resolveSpad fix 1 grp 128 16 = some (1, 128) ∧ (128 % 16 = 0 ∧ (128).testBit 28 = false ∧ 0x30000 % 8 = 0) ∧
    (∀ x ∈ grp.subs, x.slot ≠ 128) ∧ grp.subs.length < 256 ∧ tableUse fix dataPa < 32768 :=
  ⟨fix_lone, fix_files, noWaits_of (g := grp) rfl rfl rfl, rfl, rfl, one_ready (by decide), rfl, rfl, rfl, rfl,
    by decide⟩

theorem witness_Subscriptions_busy_and_unsub :
    Lone subState 1 [0] subscribed ∧ subState.FilesCanon ∧ subState.NoWaits ∧ stalled subState subscribed = false ∧
    commitWaits subState subscribed = false ∧
    (∀ i ∈ [Instr.sub (hd 4) (.v 12) (.v 10), .unsub (hd 4) (.v 12)], ∃ l, Ready subscribed i l) ∧
    rdN (hereAt subState 1 subscribed 0) (.v 12) = .ok 128 ∧ transWord (hereAt subState 1 subscribed 0) kRead 8 0x30000 = .ok (dataPas 8) ∧
    subscribed.halted = false ∧ resolveSpad subState 1 subscribed 128 16 = some (1, 128) ∧
    (∃ x ∈ subscribed.subs, x.slot = 128) ∧ subState.flying = [] ∧ subState.notices = [] ∧
    ∀ x ∈ subState.subs, x.armed = false → x.gh = 1 → x.slot = 128 → x.push = none :=
  ⟨lone_of prog 0 rfl (by decide) rfl rfl rfl rfl (by decide), filesCanon_of rfl (canon_of_check (by decide)),
    ⟨by decide, by decide⟩, rfl, rfl, ready_all (by decide), rfl, rfl, rfl, by decide⟩

/-- Two lanes that name one slot. -/
def twins : Group := { grp with vregs := [(10, 0x30000), (12, 128), (266, 0x30008), (268, 128)] }
def twinState : State := { withGroup twins with issue := { Issue.reset with parts := [(1, [0, 1])], len := 4 } }

theorem witness_Subscriptions_twins :
    Lone twinState 1 [0, 1] twins ∧ twinState.FilesCanon ∧ twinState.NoWaits ∧ stalled twinState twins = false ∧
    commitWaits twinState twins = false ∧
    (∃ l, layout (.sub (hd 4) (.v 12) (.v 10)) = some l ∧ partOk twins l = true) ∧
    legal (.sub (hd 4) (.v 12) (.v 10)) = true ∧ takers twins (hd 4) [0, 1] = [0, 1] ∧
    rdN (hereAt twinState 1 twins 0) (.v 12) = .ok 128 ∧ rdN (hereAt twinState 1 twins 1) (.v 12) = .ok 128 ∧
    rdD (hereAt twinState 1 twins 0) (.v 10) = .ok 0x30000 ∧ rdD (hereAt twinState 1 twins 1) (.v 10) = .ok 0x30008 ∧
    transWord (hereAt twinState 1 twins 0) kRead 8 0x30000 = .ok (dataPas 8) ∧
    transWord (hereAt twinState 1 twins 1) kRead 8 0x30008 = .ok ((upFrom 8 (dataPa + 8)).map fun a => (a, 0)) ∧
    twins.halted = false ∧ resolveSpad twinState 1 twins 128 16 = some (1, 128) ∧ 0x30008 % 8 = 0 ∧
    keyLive twinState 0 = true ∧ twins.subs = [] ∧ tableUse twinState dataPa < 32768 :=
  ⟨lone_of prog 0 rfl (by decide) rfl rfl rfl rfl (by decide), filesCanon_of rfl (canon_of_check (by decide)),
    noWaits_of (g := twins) rfl rfl rfl, rfl, rfl, ⟨_, rfl, by decide⟩, by decide, by decide, rfl, rfl, rfl, rfl, rfl, rfl, rfl, by decide⟩

/-- A wait of lane 0 of the fixture's group. -/
def wait (what : WaitFor) (h : Head) : Wait :=
  { ticket := 0, lanes := [0], who := [0], what := what, spill := false, woken := false, head := h, len := 4, dst := .nothing }

/-- The group with a wait, and the fixture for it. -/
def waitingFor (what : WaitFor) (h : Head) : Group :=
  { grp with waits := [wait what h], lanes := setNth grp.lanes 0 { startLane true (.leaf 0 0) with waiting := true } }

/-- A first push on its way to slot 128. -/
def pushed (first : Bool) : Flying := { gh := 1, slot := 128, push := { val := 7, count := if first then 0 else 3, first := first, release := false } }

theorem witness_Subscriptions_landing :
    let g := waitingFor (.subs [128] [(0, 0)] []) (hd 255)
    let s := { withGroup g with flying := [pushed true] }
    s.groups = [(1, g)] ∧ g.Canon ∧ g.halted = false ∧ coreOf g = some 0 ∧ progOf s g = some prog ∧ g.ck = none ∧
    (stalled s g = false ∧ commitWaits s g = false) ∧ (∀ k b, bankQueue (coreAt s k) b = []) ∧ s.flying = [pushed true] ∧ g.waits = [wait (.subs [128] [(0, 0)] []) (hd 255)] ∧
    0 < g.lanes.length ∧ liveLane (laneAt g 0) = true ∧ (laneAt g 0).pos = .leaf 0 0 ∧ 0 + 4 < leafLen s prog 0 := by
  refine ⟨rfl, canon_of_check (by decide), rfl, rfl, rfl, rfl, by decide, ?_, rfl, rfl, by decide, by decide, by decide, by decide⟩
  intro k b
  by_cases hk : k = 0
  · subst hk; rfl
  · have : coreAt (withGroup grp) k = Core.reset := by
      show sget Core.reset [(0, _)] k = _
      simp only [sget]
      rw [if_neg (by omega)]
      split <;> rfl
    have h2 : coreAt { withGroup (waitingFor (.subs [128] [(0, 0)] []) (hd 255)) with flying := [pushed true] } k = Core.reset := this
    rw [h2]
    rfl

theorem no_banks {s : State} (h : s.cores = fix.cores) : ∀ k b, bankQueue (coreAt s k) b = [] := by
  intro k b
  have : coreAt s k = coreAt fix k := by unfold coreAt; rw [h]
  rw [this]
  by_cases hk : k = 0
  · subst hk; rfl
  · have : coreAt fix k = Core.reset := by
      show sget Core.reset [(0, _)] k = _
      simp only [sget]
      rw [if_neg (by omega)]
      split <;> rfl
    rw [this]; rfl

/-- The machine with slot 128 subscribed to the data extent's first word, and a table that permits core 0's stores there. -/
def pushState : State := { permit subState [(0, initService 0)] with flying := [] }

theorem witness_Pushes :
    (∃ x p, x = { pa := dataPa, gh := 1, slot := 128, armed := false, pseq := 0xFFFFFFFF, push := some p : Sub } ∧
      mfind fix.groups x.gh = some grp ∧ coreOf grp ≠ none ∧ grp.drained = false) ∧
    (∀ b, mfind fix.groups (pushed b).gh = some grp ∧ grp.Canon ∧ grp.ck = none ∧ stalled { fix with flying := [pushed b] } grp = false ∧
      State.NoWaits { fix with flying := [pushed b] } ∧ ∀ c k, bankQueue (coreAt { fix with flying := [pushed b] } c) k = []) ∧
    (pushState.MemCanon ∧ pushState.NoWaits ∧ mfind pushState.groups 1 = some subscribed ∧ coreOf subscribed ≠ none ∧
      (pushState.subs = [{ pa := dataPa, gh := 1, slot := 128, armed := false, pseq := 0xFFFFFFFF, push := none }] ∧
      (∀ j, j < 8 → isMemory (region pushState (dataPa + j)) = true) ∧ (frameView pushState dataPa).isSome = true ∧
      entryPair pushState dataPa = none ∧ homeStalls pushState dataPa = false ∧ servicePermitted pushState 0 dataPa 8 2 = true)) ∧
    (State.NoWaits { withGroup subscribed with notices := [(1, 128)] } ∧ mfind (withGroup subscribed).groups 1 = some subscribed ∧
      ∀ f ∈ (withGroup subscribed).flying, ¬ (f.gh = 1 ∧ f.slot = 128)) :=
  ⟨⟨_, { val := 7, count := 1, first := false, release := false }, rfl, rfl, by decide, rfl⟩,
    fun _ => ⟨rfl, grp_canon, rfl, rfl, noWaits_of (g := grp) rfl rfl rfl, no_banks rfl⟩,
    ⟨⟨by decide, by decide, by decide, by decide, by decide, by decide, by decide⟩, ⟨by decide, by decide⟩, rfl, by decide, by decide +kernel⟩,
    noWaits_of (g := subscribed) rfl rfl rfl, rfl, by decide⟩

/-! ### Waits and fences -/

theorem witness_WaitsMet :
    Lone fix 1 [0] grp ∧ fix.FilesCanon ∧ fix.NoWaits ∧ (grp.halted = false ∧ stalled fix grp = false ∧ commitWaits fix grp = false ∧ grp.held = [] ∧
      keyLive fix 0 = true ∧ (128).testBit 28 = false) ∧
    ((∃ l, Ready grp (.slwait (hd 4) false (.v 12) (.v 1)) l) ∧ rdN (hereAt fix 1 grp 0) (.v 12) = .ok 128 ∧
      rdN (hereAt fix 1 grp 0) (.v 1) = .ok 6 ∧ 128 % 16 = 0 ∧ resolveSpad fix 1 grp 128 16 = some (1, 128) ∧
      spadNum grp (128 + 8) 4 ≠ 6 ∧ ∀ x ∈ grp.subs, x.slot ≠ 128) ∧
    ((∃ l, Ready grp (.swwait (hd 4) false .grp (.v 12) (.imm 16)) l) ∧ rdN (hereAt fix 1 grp 0) (.imm 16) = .ok 0 ∧
      (spadNum grp (128 + 8) 4 + 2 ^ 32 - 0) % 2 ^ 32 < 2 ^ 31) ∧
    ((∃ l, Ready grp (.mwait (hd 4) false true (.v 12) (.v 2) (.v 8)) l) ∧ rdD (hereAt fix 1 grp 0) (.v 2) = .ok 0xFFFFFFFF00000003 ∧
      rdN (hereAt fix 1 grp 0) (.v 8) = .ok 64 ∧ (128 + 64) % 2 ^ 32 % 8 = 0 ∧ resolveSpad fix 1 grp 192 8 = some (1, 192) ∧
      spadNum grp 192 8 ≠ 0xFFFFFFFF00000003) ∧
    ((∃ l, Ready grp (.mwait (hd 4) false false (.v 10) (.v 2) (.v 8)) l) ∧ rdD (hereAt fix 1 grp 0) (.v 10) = .ok 0x30000 ∧
      wrap 64 ((0x30000 : Int) + signed 32 64) % 8 = 0 ∧
      transWord (hereAt fix 1 grp 0) kRead 8 (wrap 64 ((0x30000 : Int) + signed 32 64)) =
        .ok ((upFrom 8 (dataPa + 64)).map fun a => (a, 0)) ∧ (∀ k, k < 8 → poisoned fix (dataPa + 64 + k) = false) ∧
      homeNum fix (keyView fix 0) (dataPa + 64) 8 ≠ 0xFFFFFFFF00000003) :=
  ⟨fix_lone, fix_files, noWaits_of (g := grp) rfl rfl rfl, by decide, ⟨one_ready (by decide), rfl, rfl, by decide⟩,
    ⟨one_ready (by decide), rfl, by decide⟩, ⟨one_ready (by decide), rfl, rfl, by decide⟩,
    ⟨one_ready (by decide), rfl, by decide, rfl, by decide⟩⟩

theorem witness_WaitsMet_fences :
    Lone fix 1 [0] grp ∧ fix.FilesCanon ∧ fix.NoWaits ∧ (grp.halted = false ∧ stalled fix grp = false ∧ commitWaits fix grp = false ∧ keyLive fix 0 = true) ∧
    ((5 : BitVec 4).toNat.testBit 0 = true ∧ (5 : BitVec 4).toNat.testBit 2 = true ∧ bankReqs fix = []) ∧
    (legal (.fence k9 .dev) = true ∧ legal (.xfence k9 5 .dev) = true ∧ legal (.afence k9) = true ∧ legal (.drain k9) = true) ∧
    0x30000 % 8 = 0 ∧ (∀ x ∈ grp.pend, x.lane ∉ [0]) ∧ (∀ k ∈ fix.cores, ∀ e ∈ k.2.mq, e.gh ≠ 1) ∧ (∀ f ∈ fix.flying, f.gh ≠ 1) ∧
    (∃ l, Ready grp (.join (hd 0) (.v 10)) l) ∧ rdD (hereAt fix 1 grp 0) (.v 10) = .ok 0x30000 ∧
    transWord (hereAt fix 1 grp 0) kRead 8 0x30000 = .ok (dataPas 8) ∧ homeNum fix (keyView fix 0) dataPa 8 = 0 :=
  ⟨fix_lone, fix_files, noWaits_of (g := grp) rfl rfl rfl, by decide, by decide, by decide, by decide, by decide, by decide, by decide,
    one_ready (by decide), rfl, rfl, by decide⟩

/-- The fixture whose counter word is 1. -/
def counting : State := writeSpan fix (keyView fix 0) dataPa [1]

/-- Lane 0's wait for a word other than 5. -/
def watching (armed : Bool) : WaitFor :=
  .word [{ lane := 0, va := 0x30000, pa := dataPa, key := 0, want := 5, armed := armed, got := none }]

/-- The machine whose group waits, its word's home entry armed or not. -/
def watchState (armed : Bool) : State :=
  let s := { permit (withGroup (waitingFor (watching armed) (hd 254))) [(0, initService 0)] with frameKeys := [(dataPa / 65536, 1)] }
  if armed then { s with subs := [{ pa := dataPa, gh := 1, slot := 0, armed := true, pseq := 0, push := none }] } else s

theorem witness_FencesOutstanding :
    (∃ g s, g = pending .load 4 [] ∧ s = { withGroup g with ticket := 1 } ∧ Lone s 1 [0] g ∧ s.FilesCanon ∧ s.NoWaits ∧
      legal (.fence k9 .ln) = true ∧ ∃ x ∈ g.pend, x.lane ∈ [0] ∧ x.ticket < s.ticket) ∧
    (Lone counting 1 [0] grp ∧ counting.FilesCanon ∧ counting.NoWaits ∧ (∃ l, Ready grp (.join (hd 0) (.v 10)) l) ∧
      rdD (hereAt counting 1 grp 0) (.v 10) = .ok 0x30000 ∧
      transWord (hereAt counting 1 grp 0) kRead 8 0x30000 = .ok (dataPas 8) ∧ keyLive counting 0 = true ∧
      homeNum counting (keyView counting 0) dataPa 8 ≠ 0 ∧ tableUse counting dataPa < 32768) ∧
    (∀ armed, let g := waitingFor (watching armed) (hd 254)
      let s := watchState armed
      s.groups = [(1, g)] ∧ g.Canon ∧ coreOf g = some 0 ∧ progOf s g = some prog ∧ g.waits = [wait (watching armed) (hd 254)] ∧
      (g.halted = false ∧ stalled s g = false ∧ commitWaits s g = false ∧ g.ck.isNone ∧ g.held = [] ∧ 0 < g.lanes.length ∧ liveLane (laneAt g 0) = true ∧
      (laneAt g 0).pos = .leaf 0 0 ∧ 0 + 4 < leafLen s prog 0 ∧ keyLive s 0 = true ∧ (∀ k, k < 8 → poisoned s (dataPa + k) = false) ∧
      homeNum s (keyView s 0) dataPa 8 ≠ 5 ∧ (hd 254).dreg.toNat + 2 ≤ 256 ∧ lrBit (hd 254).ctl = false)) ∧
    ((watchState true).MemCanon ∧ (∀ x, x < 8 → isMemory (region (watchState true) (dataPa + x)) = true) ∧
      frameView (watchState true) dataPa = some (keyView (watchState true) 0) ∧ entryPair (watchState true) dataPa = none ∧
      homeStalls (watchState false) dataPa = false ∧ homeStalls (watchState true) dataPa = false ∧ servicePermitted (watchState true) 0 dataPa 8 2 = true ∧
      leafLen (writeSpan (watchState true) (keyView (watchState true) 0) dataPa (toBytes 8 6)) prog 0 = leafLen (watchState true) prog 0) :=
  ⟨⟨_, _, rfl, rfl, lone_of prog 0 rfl (by decide) rfl rfl rfl rfl (by decide), filesCanon_of rfl (canon_of_check (by decide)),
      noWaits_of rfl rfl rfl, by decide, by decide⟩,
    ⟨lone_of prog 0 rfl (by decide) rfl rfl rfl rfl (by decide), filesCanon_of rfl grp_canon, noWaits_of (g := grp) rfl rfl rfl,
      one_ready (by decide), rfl, rfl, by decide +kernel, by decide +kernel, by decide⟩,
    fun armed => by cases armed <;> exact ⟨rfl, canon_of_check (by decide), rfl, rfl, rfl, by decide +kernel⟩,
    ⟨by decide, by decide, by decide, by decide, by decide, by decide, by decide⟩, by decide +kernel⟩

/-! ### The matrix array -/

theorem witness_MatrixEntries :
    Lone fix 1 [0] grp ∧ fix.FilesCanon ∧ (1 ≤ queueRoom fix fix.issue.core fix.issue.slot ∧ 1 ≤ queueRoom fix 0 1) ∧
    (∀ i ∈ [Instr.mmaLn6 (hd 3) false (.imm 16) (.v 14), .mmaLn8 (hd 3) true (.imm 16) (.v 14), .mmaI8 (hd 3) false (.imm 16) (.v 14),
        .mmaBf16 (hd 3) false (.imm 16) (.v 14), .mmaF16 (hd 3) false (.imm 16) (.v 14), .had (hd 0) 3 3, .scacc (hd 1) true 3 (.v 1) (.v 2),
        .scacc (hd 1) false 3 (.v 12) (.v 14), .accld (hd 3) true (.v 10) (.v 12), .accld (hd 3) false (.v 12) (.v 12),
        .accst (hd 0) true 3 (.v 10) (.v 12), .accst (hd 0) false 3 (.v 12) (.v 12)], ∃ l, Ready grp i l) ∧
    rdN (hereAt fix 1 grp 0) (.imm 16) = .ok 0 ∧ rdN (hereAt fix 1 grp 0) (.v 14) = .ok 0x3000 ∧
    rdD (hereAt fix 1 grp 0) (.v 10) = .ok 0x30000 ∧
    (∀ a ∈ [0, 0x3000], a % 32 = 0 ∧ resolveSpad fix 1 grp a 12288 = some (1, a)) ∧
    (∀ a ∈ [128, 0x3000], resolveSpad fix 1 grp a 32 = some (1, a)) ∧ (3 : BitVec 6).toNat < tilesOf grp ∧
    ((devRows (hereAt fix 1 grp 0) kRead 0x30000 128).isOk = true ∧ (devRows (hereAt fix 1 grp 0) kWrite 0x30000 128).isOk = true ∧
      (spadRows (hereAt fix 1 grp 0) 128 128).isOk = true) ∧
    (∃ l, layout (.accz k9 3 0) = some l ∧ takers grp l.head [0] = [0] ∧ partOk grp l = true) ∧ legal (.accz k9 3 0) = true ∧
      (0 : BitVec 6).toNat + (3 : BitVec 6).toNat < tilesOf grp :=
  ⟨fix_lone, fix_files, by decide, ready_all (by decide), rfl, rfl, rfl, by decide, by decide, by decide, by decide +kernel,
    ⟨_, rfl, by decide⟩, by decide⟩

/-- A matrix entry of the fixture's group, and its state. -/
def matEntry (op : MatOp) (f : Option (List Byte × List Byte)) : MatEntry :=
  { ticket := 0, gh := 1, tile := some 3, op := op, fetched := f, lanes := [] }
def matState (e : MatEntry) : State := { fix with cores := [(0, { Core.reset with mq := [e] })] }

theorem mat_banks (e : MatEntry) : ∀ c b, bankQueue (coreAt (matState e) c) b = [] := by
  intro c b
  by_cases hk : c = 0
  · subst hk; rfl
  · have : coreAt (matState e) c = Core.reset := by
      show sget Core.reset [(0, _)] c = _
      simp only [sget]
      rw [if_neg (by omega)]
      split <;> rfl
    rw [this]; rfl

theorem witness_MatrixComplete :
    (∀ e ∈ [matEntry (.mma .i8 true 1 0 1 0) (some ([], [])), matEntry (.had 64 0) none, matEntry (.scaccUni 0 127 129) none,
        matEntry (.scaccVec 0 1 128 1 0x3000) none, matEntry (.accldSpad (List.replicate 32 (1, 128))) none, matEntry (.accz 1) none],
      (coreAt (matState e) 0).mq = [e] ∧ swf Core.reset (matState e).cores = true ∧ mfind (matState e).groups e.gh = some grp ∧
      e.tile = some 3 ∧ (layerAt (matState e) (layerOfCore 0)).clock.relock = none) ∧
    (∀ e, (matState e).NoWaits ∧ ∀ c b, bankQueue (coreAt (matState e) c) b = []) ∧ grp.behind = [] ∧ grp.Canon ∧ grp.ck = none ∧ (List.replicate 32 (1, 128)).length = 32 ∧
    ∀ r ∈ List.replicate 32 (1, 128), r.1 = 1 :=
  ⟨by decide, fun e => ⟨noWaits_of (g := grp) rfl rfl rfl, mat_banks e⟩, rfl, grp_canon, rfl, by decide, by decide⟩

/-! ### System and task instructions -/

theorem witness_SystemRegisters :
    Met (.sysrd (hd 3) 3) (fun x => .ok (csrValue x (3 : BitVec 12).toNat)) ∧
    Met (.sysrd (hd 4) 0x3F) (fun x => .ok (csrValue x (0x3F : BitVec 12).toNat)) ∧
    Met (.sysrd (hd 4) 0x42) (fun x => .ok (csrValue x 0x42)) ∧ ((∀ i, (laneAt grp i).pendTrap = []) ∧ grp.halting = false ∧
      grp.yielding = false ∧ grp.attribs = []) ∧
    Lone fix 1 [0] grp ∧ fix.FilesCanon ∧ (∃ l, Ready grp (.syswr (hd 0) 0x18 (.v 3)) l) ∧
    (∃ l, Ready grp (.syswr (hd 0) 0x20 (.v 3)) l) ∧ rdN (hereAt fix 1 grp 0) (.v 3) = .ok 0xFFFFFFFF :=
  ⟨met_of rfl (by decide) (by decide) (by decide) rfl, met_of rfl (by decide) (by decide) (by decide) rfl,
    met_of rfl (by decide) (by decide) (by decide) rfl, ⟨no_pending, rfl, rfl, rfl⟩, fix_lone, fix_files,
    one_ready (by decide), one_ready (by decide), rfl⟩

/-- A queue of the fixture's context, with room for 64 slots at its end. -/
def openQueue : Queue := { Queue.reset with enable := true }

/-- The fixture with queue 0 enabled, and a FORK descriptor in the scratchpad: image 1, pitw 0x211F, width 8. -/
def forking : Group :=
  { grp with spad := ssets 0 [] 128 (toBytes 32 (pack [(64, 0x10000), (64, 0), (64, 0), (32, 0), (32, 0x2100)])) }

theorem witness_TaskInstructions :
    Lone fix 1 [0] grp ∧ fix.FilesCanon ∧ fix.NoWaits ∧
    (∃ l, Ready grp (.qput (hd 4) (.imm 16) (.v 8)) l) ∧ rdN (hereAt fix 1 grp 0) (.imm 16) = .ok 0 ∧
      rdN (hereAt fix 1 grp 0) (.v 8) = .ok 64 ∧ (let y := openQueue; y.ctx = grp.ctx ∧ 1 ≤ 64 ∧ y.enable = true ∧ y.size ≤ 10 ∧
        y.wridx.toNat + 64 ≤ y.rdidx.toNat + 2 ^ (6 + y.size)) ∧
    (∃ l, Ready forking (.fork (hd 1) (.v 12) (.v 30) (.v 2)) l) ∧ Lone (withGroup forking) 1 [0] forking ∧
      rdN (hereAt (withGroup forking) 1 forking 0) (.v 12) = .ok 128 ∧ resolveSpad (withGroup forking) 1 forking 128 32 = some (1, 128) ∧
      rdD (hereAt (withGroup forking) 1 forking 0) (.v 30) = .ok 0 ∧
      rdD (hereAt (withGroup forking) 1 forking 0) (.v 2) = .ok 0xFFFFFFFF00000003 ∧
      (forkDesc (spadNum forking 128 32)).join = 0 ∧ forkOk (forkDesc (spadNum forking 128 32)) 0 0xFFFFFFFF00000003 = true ∧
      (dequeAt (withGroup forking) 0).length < 64 ∧
      64 ≤ (dequeAt { withGroup forking with deques := [(0, List.replicate 64 1)] } 0).length ∧
    (∃ l, Ready grp (.gcraise (hd 0) (.imm 17)) l) ∧ rdN (hereAt fix 1 grp 0) (.imm 17) = .ok 1 ∧ grp.owner = .launch 0 ∧
      ∃ lc, mfind fix.launches 0 = some lc ∧ lc.members ≠ 0 ∧ 1 % lc.members = 0 ∧ lc.stages = 1 ∧ lc.total + 1 < 2 ^ 32 :=
  ⟨fix_lone, fix_files, noWaits_of (g := grp) rfl rfl rfl, one_ready (by decide), rfl, rfl, by decide,
    one_ready (by decide), withGroup_lone rfl rfl rfl (by decide), rfl, by decide, rfl, rfl, by decide, by decide, by decide, by decide,
    one_ready (by decide), rfl, rfl, _, rfl, by decide, by decide, by decide, by decide⟩

theorem witness_Regrow :
    (Lone fix 1 [0] grp ∧ fix.FilesCanon ∧ fix.NoWaits ∧ (stalled fix grp = false ∧ commitWaits fix grp = false ∧ bankReqs fix = []) ∧ grp.halted = false ∧
      (∀ k ∈ fix.cores, ∀ e ∈ k.2.mq, e.gh ≠ 1) ∧ (∃ l, Ready grp (.regrow (hd 1) false (.v 1)) l) ∧
      rdN (hereAt fix 1 grp 0) (.v 1) = .ok 6 ∧ granules (pitwWith grp.pitw.toNat false 6) grp.width ≤ 128 ∧
      granules (pitwWith grp.pitw.toNat false 6) grp.width ≤ granules grp.pitw.toNat grp.width ∧ grp.pend = [] ∧ grp.vbusy = []) ∧
    ((∃ l, Ready grp (.regrow (hd 1) true (.v 1)) l) ∧ granules grp.pitw.toNat grp.width < granules (pitwWith grp.pitw.toNat true 6) grp.width ∧
      granules (pitwWith grp.pitw.toNat true 6) grp.width ≤ 128) ∧
    128 < granules (pitwWith (0x211F + 0x8000 * 31) true 16) 64 ∧
    (∃ g, g = waitingFor (.grow true 6 5) (hd 15) ∧ (withGroup g).groups = [(1, g)] ∧ g.Canon ∧ coreOf g = some 0 ∧
      progOf (withGroup g) g = some prog ∧ g.ck = none ∧ 0 < g.lanes.length ∧ liveLane (laneAt g 0) = true ∧
      (laneAt g 0).pos = .leaf 0 0 ∧ 0 + 4 < leafLen (withGroup g) prog 0 ∧ g.waits = [wait (.grow true 6 5) (hd 15)] ∧
      5 ≤ 128 - granulesUsed (withGroup g) 0 ∧ (layerAt (withGroup g) (layerOfCore 0)).clock.relock = none) :=
  ⟨⟨fix_lone, fix_files, noWaits_of (g := grp) rfl rfl rfl, by decide, rfl, by decide, one_ready (by decide), rfl, by decide, by decide, rfl, rfl⟩,
    ⟨one_ready (by decide), by decide, by decide⟩, by decide,
    ⟨_, rfl, rfl, canon_of_check (by decide), rfl, rfl, rfl, by decide, by decide, by decide, by decide, rfl, by decide⟩⟩

end Sys2Proof.Tests
end

