-- ==== Sys2Proof/Tests/WitnessPackage.lean ====
section
/-! SUPPORT. Witnesses of the statements about the package, its clocks and its links. -/

namespace Sys2Proof.Tests

set_option Elab.async false

open Sys2Proof.Machine

/-- A machine with power and nothing in it. -/
def idle : State :=
  let pkg := { Pkg.reset with power := true, rdy := true, profile := some .p8c }
  { State.reset with pkg := pkg }

theorem idle_base : Base idle := base_of (by decide)

theorem witness_PowerAndReset : idle.pkg.power = true ∧ State.reset.pkg.power = false ∧ State.reset.pkg.rdy = false ∧
    State.reset.TablesCanon ∧ coolingOk false .p8cx = false := ⟨rfl, rfl, rfl, tables_of (by decide), by decide⟩

/-- The machine with one layer changed. -/
def layer (n : Nat) (l : Layer) : State := { idle with layers := [(n, l)] }

/-- A context's tables: one large page that grants everything, mapped at address 0. -/
def rootPa : Nat := slotFrame + 0x200000
def pagePa : Nat := slotFrame + 0x400000

/-- A machine with a context whose tables map one large page. -/
def mapsTo (s : State) (frame : Nat) : State :=
  let s1 := placeBytes s rootPa 8 (rootPa + 0x2001)
  let s2 := placeBytes s1 (rootPa + 0x2000) 8 (rootPa + 0x4001)
  let s3 := placeBytes s2 (rootPa + 0x4000) 8 (rootPa + 0x6001)
  let s4 := placeBytes s3 (rootPa + 0x6000) 8 (0x7F + frame)
  { s4 with contexts := [(0, { slotContext with root := rootPa })], keys := [(0, { MemKey.reset with valid := true })] }

/-- A layer in one step of its change of role, to fenced. -/
def changingTo (n : Nat) (st : LayerState) : State := layer n { Layer.reset with role := .memory, state := st, newRole := some .fenced }

theorem witness_LayerRoles :
    Base idle ∧ idle.pkg.rdy = true ∧ coolingOk idle.pkg.enhanced .p6c2m = true ∧ coolingOk idle.pkg.enhanced .p8c = true ∧
    rolesOk .p8c [.compute, .compute, .compute, .compute, .compute, .compute, .compute, .fenced] = true ∧
    (∀ n, n < 8 → changing (layerAt idle n) = false ∧ ∀ k ∈ [(layerAt idle n).clock, sget Clock.reset idle.pkg.hull n],
      k.code ≤ (profileOf .p8c).2.2 ∧ k.target ≤ (profileOf .p8c).2.2 ∧ k.waiting = none) ∧
    ((profileOf .p8c).2.2 < 28 ∧ (layerAt (layer 7 { Layer.reset with clock := { Clock.reset with target := 28 } }) 7).clock.target = 28) ∧
    (∀ n ∈ [0, 7],
      (let pkg := { idle.pkg with plan := [(n, Role.fenced)] }
       let s := { idle with pkg := pkg }
       Base s ∧ (n, Role.fenced) ∈ s.pkg.plan ∧ ∀ k, k < 8 → changing (layerAt s k) = false) ∧
      (Base (changingTo n .drain) ∧ onLayer (changingTo n .drain) n = [] ∧ (changingTo n .drain).subs = []) ∧
      (Base (changingTo n .flush) ∧ (changingTo n .flush).notices = [] ∧ pagesIn (changingTo n .flush) n = false) ∧
      (Base (changingTo n .reenum) ∧ (layerAt (changingTo n .reenum) n).newRole = some .fenced)) ∧
    ∀ n ∈ [0, 7], pagesIn (mapsTo (changingTo n .flush) (windowOf n)) n = true := by
  refine ⟨idle_base, rfl, by decide, by decide, by decide, by decide, by decide, fun n hn => ?_, fun n hn => ?_⟩
  all_goals
    simp at hn
    rcases hn with rfl | rfl
  · exact ⟨⟨base_of (by decide), by decide⟩, ⟨base_of (by decide), by decide⟩, ⟨base_of (by decide), by decide +kernel⟩, base_of (by decide), rfl⟩
  · exact ⟨⟨base_of (by decide), by decide⟩, ⟨base_of (by decide), by decide⟩, ⟨base_of (by decide), by decide +kernel⟩, base_of (by decide), rfl⟩
  · decide +kernel
  · decide +kernel

/-- The fixture's group under a checkpoint of its own lanes. -/
def checked : Group :=
  { grp with ck := some { ticket := 0, node := 0, depth := 0, lanes := grp.lanes, preds := [], sregs := [], vregs := [(1, 5)], tiles := [], spad := [], pitw := grp.pitw } }

/-- A machine with one group on core 0. -/
def hosting (g : Group) : State := { idle with groups := [(1, g)] }

theorem witness_Failures : ∀ c ∈ [0, 255],
    (Base idle ∧ (coreAt idle c).fenced = false ∧ (coreAt idle c).failing = false ∧ ∀ p ∈ idle.groups, coreOf p.2 ≠ some c) ∧
    (∀ g ∈ [grp, checked], (hosting g).TablesCanon ∧ (hosting g).NoWaits ∧ coreOf g = some 0 ∧ g.lanes.any liveLane = true ∧
      (coreAt (hosting g) 0).fenced = false ∧ (coreAt (hosting g) 0).failing = false ∧ (hosting g).cores = []) ∧
    (let s := { idle with cores := [(c, { Core.reset with failing := true })] }
     Base s ∧ (coreAt s c).failing = true ∧ swf false (layerAt s (c / 32)).spareUsed = true) ∧
    isMemory (region idle 0x017FFFFFFFFF) = true ∧ swf false idle.poison = true := by
  have hg : ∀ g ∈ [grp, checked], (hosting g).TablesCanon ∧ (hosting g).NoWaits ∧ coreOf g = some 0 ∧ g.lanes.any liveLane = true ∧
      (coreAt (hosting g) 0).fenced = false ∧ (coreAt (hosting g) 0).failing = false ∧ (hosting g).cores = [] := by
    intro g hg
    simp at hg
    rcases hg with rfl | rfl
    · exact ⟨tables_of (by decide), noWaits_of (g := grp) rfl rfl rfl, by decide⟩
    · exact ⟨tables_of (by decide), noWaits_of (g := checked) rfl rfl rfl, by decide⟩
  intro c hc
  simp at hc
  rcases hc with rfl | rfl
  all_goals exact ⟨⟨idle_base, by decide⟩, hg, ⟨base_of (by decide), by decide⟩, by decide⟩

/-- The machine at a device time, with its layer n's clock. -/
def clocked (t : DWord) (n : Nat) (k : Clock) : State :=
  let time := { TimeUnit.reset with now := t }
  { layer n { Layer.reset with role := .compute, clock := k } with time := time }

/-- The machine with its time's source chosen. -/
def sourced (time : TimeUnit) : State := { idle with time := time }

theorem witness_Clocks :
    (∀ n ∈ [0, 7], let s := clocked 0 n Clock.reset
      Base s ∧ s.pkg.power = true ∧ s.pkg.profile = some .p8c ∧ 20 ≤ (profileOf .p8c).2.2 ∧ (layerAt s n).role = .compute ∧
      (layerAt s n).clock.relock = none ∧ 20 ≠ (layerAt s n).clock.code) ∧
    (idle.pkg.profile = some .p8c ∧ (profileOf .p8c).2.2 < 28 ∧ (layerAt idle 7).role = .unassigned) ∧
    (let s := clocked 131072000 3 { Clock.reset with relock := some 131072000 }
     Base s ∧ (layerAt s 3).clock.relock = some 131072000 ∧ 131072000 < 2 ^ 64 ∧
      (s.time.now - BitVec.ofNat 64 131072000).toNat < 2 ^ 63 ∧ (layerAt s 3).clock.waiting = none) ∧
    (let pkg := { idle.pkg with overCap := true }
     let s := { clocked 6553600000 3 { Clock.reset with code := 20 } with pkg := pkg }
     Base s ∧ s.pkg.power = true ∧ s.pkg.overCap = true ∧
      100000 * 65536 ≤ (s.time.now - BitVec.ofNat 64 s.pkg.lastStep).toNat) ∧
    (let s := clocked 65536000000 3 { Clock.reset with target := 20 }
     Base s ∧ s.pkg.power = true ∧ s.pkg.overCap = false ∧ s.pkg.profile = some .p8c ∧
      1000000 * 65536 ≤ (s.time.now - BitVec.ofNat 64 s.pkg.underSince).toNat ∧
      100000 * 65536 ≤ (s.time.now - BitVec.ofNat 64 s.pkg.lastStep).toNat) ∧
    ((sourced { TimeUnit.reset with tsrc := 1 }).time.tsrc = 1 ∧ idle.pkg.power = true) ∧
    (∀ tsync, let s := sourced { TimeUnit.reset with tsrc := 2, tport := 15, tsync := tsync }
      (s.time.tsync = true ∨ (s.time.tsrc ≠ 0 ∧ s.time.tlost = false)) ∧ s.time.tsrc = 2 ∧ (portAt s s.time.tport).state ≠ .up) ∧
    (let s := sourced { TimeUnit.reset with tsrc := 1, quiet := 2000000000 * 65536 }
     s.time.tsrc ≠ 0 ∧ s.time.tlost = false ∧ 2000000000 * 65536 ≤ s.time.quiet) := by
  refine ⟨?_, by decide, ⟨base_of (by decide), by decide⟩, ⟨base_of (by decide), by decide⟩, ⟨base_of (by decide), by decide⟩, by decide,
    by decide, by decide⟩
  intro n hn
  simp at hn
  rcases hn with rfl | rfl
  all_goals exact ⟨base_of (by decide), by decide⟩

/-! ### Links -/

/-- A loaded key slot. -/
def loaded : KeySlot := { KeySlot.reset with loaded := true }

/-- A port that is up under slot 0 of each direction, with slot 1 loaded too. -/
def upPort : Port := { Port.reset with state := .up, tx := [loaded, loaded], rx := [loaded, loaded] }

/-- The machine with one port, at a device time. -/
def ported (n : Nat) (p : Port) (t : DWord) : State :=
  let time := { TimeUnit.reset with now := t, tsrc := 2, tport := n }
  { idle with ports := [(n, p)], time := time }

/-- A started copy from port n's peer, of a queue's packet. -/
def peering (n : Nat) : Packet :=
  { queue := 15, slot := 0, body := BitVec.ofNat 512 (3 + 2 ^ 128 * (2 ^ 62 + 2 ^ 57 * n)), phase := .running, cmd := { Cmd.reset with resolved := true, todo := [(0, 64)] } }

theorem witness_PortStates : ∀ n ∈ [0, 15],
    (Base idle ∧ (portAt idle n).state = .down) ∧
    (let s := ported n { Port.reset with state := .train } 0
     Base s ∧ (portAt s n).state = .train ∧ (slotAt (portAt s n).tx false).loaded = false) ∧
    (let s := ported n { Port.reset with state := .keywait, peerReady := true, rx := [loaded, KeySlot.reset] } 0
     Base s ∧ (portAt s n).state = .keywait ∧ (portAt s n).tx.length = 2 ∧ (portAt s n).rx.length = 2 ∧
      (slotAt (portAt s n).rx false).loaded = true ∧ (portAt s n).peerReady = true) ∧
    (let s := { ported n { upPort with stopped := some 0, requests := 1 } (BitVec.ofNat 64 (10000000 * 65536)) with packets := [(1, peering n)] }
     Base s ∧ (portAt s n).state = .up ∧ portsRun s = true ∧ 10000 * 65536 < 10000 * 65536 + 1 ∧ (portAt s n).stopped = some 0 ∧
      10000000 * 65536 ≤ (s.time.now - BitVec.ofNat 64 0).toNat ∧ mfind s.packets 1 = some (peering n) ∧ usesPort n (peering n) = true) := by
  intro n hn
  simp at hn
  rcases hn with rfl | rfl
  all_goals exact ⟨⟨idle_base, by decide⟩, ⟨base_of (by decide), by decide⟩, ⟨base_of (by decide), by decide⟩, base_of (by decide +kernel), by decide +kernel⟩

theorem witness_FlitsSent : ∀ n ∈ [0, 15],
    (let s := ported n upPort 0
     Base s ∧ portUp s n = true ∧ (portAt s n).tx.length = 2 ∧ (portAt s n).stopped = none ∧ (portAt s n).replay.length < 512 ∧
      ([7] : List Byte).length ≤ 256 ∧ (slotAt (portAt s n).tx (portAt s n).txSlot).ic + 1 < 2 ^ 43 ∧
      (portAt s n).swBusy = false ∧ (slotAt (portAt s n).tx (!(portAt s n).txSlot)).loaded = true ∧ s.time.tsrc = 2 ∧ s.time.tport = n) ∧
    (let k : Kept := { seq := 0xFFFF, flit := { header := 0, body := [], tag := 0 }, resent := 6, marker := false }
     let s := ported n { upPort with replay := [k] } (BitVec.ofNat 64 (4000 * 65536))
     Base s ∧ portUp s n = true ∧ (portAt s n).replay ≠ [] ∧
      4000 * 65536 ≤ (s.time.now - BitVec.ofNat 64 (portAt s n).lastAck).toNat ∧ ∀ x ∈ (portAt s n).replay, x.resent < 7) ∧
    (let k : Kept := { seq := 0, flit := { header := 0, body := [], tag := 0 }, resent := 0, marker := false }
     let s := ported n { upPort with replay := List.replicate 512 k } 0
     Base s ∧ portUp s n = true ∧ 512 ≤ (portAt s n).replay.length ∧ (portAt s n).swBusy = false ∧ (portAt s n).tx.length = 2 ∧
      (slotAt (portAt s n).tx (!(portAt s n).txSlot)).loaded = true) := by
  intro n hn
  simp at hn
  rcases hn with rfl | rfl
  all_goals exact ⟨⟨base_of (by decide), by decide⟩, ⟨base_of (by decide), by decide⟩, base_of (by decide +kernel), by decide +kernel⟩

/-- A port with one flit to be acknowledged. -/
def owing : Port :=
  { upPort with replay := [{ seq := 9, flit := { header := 0, body := [], tag := 0 }, resent := 6, marker := false }] }

theorem opens (kind seq ack ic : Nat) (slot : Bool) (payload : List Byte) (hk : kind ≤ 5) (hs : seq < 65536)
    (ha : ack < 65536) (hi : ic < 2 ^ 64) (hp : payload.length ≤ 256) :
    ∃ f, headFields f.header =
      { kind := kind, kslot := slot, cls := 0, seq := seq, ackSeq := ack, len := payload.length, ic := ic } ∧
    openFlit loaded f = some payload :=
  ⟨_, Laws.openFlit_makeFlit 0 loaded _ payload rfl rfl hk (show (0 : Nat) < 4 by decide) hs ha hi rfl hp⟩

theorem witness_FlitsReceived_data : ∀ n ∈ [0, 15],
    let s := ported n upPort 0
    Base s ∧ portUp s n = true ∧ (portAt s n).rx.length = 2 ∧ (portAt s n).replay = [] ∧
    ∃ f, (headFields f.header).kind = 0 ∧ acceptNumbered (portAt s n) f = some [7] := by
  intro n hn
  obtain ⟨f, h⟩ := opens 0 0 0 0 false [7] (by decide) (by decide) (by decide) (by decide) (by decide)
  simp at hn
  rcases hn with rfl | rfl
  all_goals
    refine ⟨base_of (by decide), by decide, by decide, by decide, f, by rw [h.1], ?_⟩
    simp only [acceptNumbered, h.1]
    first
    | rw [show slotAt (portAt (ported 0 upPort 0) 0).rx false = loaded from rfl, h.2]; rfl
    | rw [show slotAt (portAt (ported 15 upPort 0) 15).rx false = loaded from rfl, h.2]; rfl

/-- A DATA flit whose slot is not loaded is not accepted. -/
theorem witness_FlitsReceived_discard :
    let p := { upPort with rx := [KeySlot.reset, loaded] }
    let s := ported 15 p 0
    Base s ∧ portUp s 15 = true ∧ (portAt s 15).rx.length = 2 ∧
    (headFields (0 : BitVec 128)).kind = 0 ∧ acceptNumbered (portAt s 15) { header := 0, body := [], tag := 0 } = none :=
  ⟨base_of (by decide), by decide⟩

theorem witness_FlitsReceived_marker :
    let s := ported 15 upPort 0
    (portAt s 15).replay = [] ∧ ∃ f, (headFields f.header).kind = 1 ∧ (headFields f.header).kslot ≠ (portAt s 15).rxSlot ∧
      acceptNumbered (portAt s 15) f = some [] := by
  obtain ⟨f, h⟩ := opens 1 0 0 0 true [] (by decide) (by decide) (by decide) (by decide) (by decide)
  refine ⟨by decide, f, by rw [h.1], by rw [h.1]; decide, ?_⟩
  simp only [acceptNumbered, h.1]
  rw [show slotAt (portAt (ported 15 upPort 0) 15).rx true = loaded from rfl, h.2]
  rfl

/-- Control flits of each kind that are acted on, with a flit of SEQ 9 outstanding or none. -/
theorem witness_FlitsReceived_control : ∀ k ∈ [2, 3, 4, 5], ∀ p ∈ [upPort, owing],
    let s := ported 15 p 0
    Base s ∧ portUp s 15 = true ∧ (portAt s 15).rx.length = 2 ∧ s.time.tsrc = 2 ∧ s.time.tport = 15 ∧
    ∃ f, (headFields f.header).kind = k ∧ (headFields f.header).ackSeq = 9 ∧ acceptControl (portAt s 15) f = true := by
  intro k hk p hp
  simp only [List.mem_cons, List.not_mem_nil, or_false] at hk hp
  obtain ⟨f, h⟩ := opens k 0 9 0 false [] (by omega) (by decide) (by decide) (by decide) (by decide)
  have hf : (headFields f.header).kind = k := by rw [h.1]
  rcases hp with rfl | rfl
  all_goals
    refine ⟨base_of (by decide), by decide, by decide, rfl, rfl, f, hf, by rw [h.1], ?_⟩
    simp only [acceptControl, h.1]
    first
    | rw [show slotAt (portAt (ported 15 upPort 0) 15).rx false = loaded from rfl, h.2]; rfl
    | rw [show slotAt (portAt (ported 15 owing 0) 15).rx false = loaded from rfl, h.2]; rfl

theorem witness_FlitsReceived_acks :
    (∀ due, let p := { owing with markerDue := due }
      (portAt (ported 15 p 0) 15).markerDue = due ∧
      (portAt (ported 15 p 0) 15).replay = { seq := 9, flit := { header := 0, body := [], tag := 0 }, resent := 6, marker := false : Kept } :: []) ∧
    (∀ y ∈ ([] : List Kept), y.resent < 7) ∧ ([] : List Kept).length < 512 ∧ 6 ≤ (headFields (6 : BitVec 128)).kind ∧
    (10000 * 65536 : Int) ≤ 10000 * 65536 :=
  by decide

end Sys2Proof.Tests
end

