-- ==== Sys2Proof/Tests/WitnessHost.lean ====
section
/-! SUPPORT. Witnesses of the statements about the host port, security, KSPAWN and the queues' indices. -/

namespace Sys2Proof.Tests

set_option Elab.async false

open Sys2Proof.Machine

/-- The machine whose context maps one large page of HBM, and access tables that permit everything to some initiators at some
targets. -/
def mapped (l : List (Nat × Nat)) : State := permit (mapsTo idle pagePa) l

/-- Bytes of the mapped page. -/
def pagePas (off n : Nat) : List (Nat × Nat) := (upFrom n (pagePa + off)).map fun a => (a, 0)

/-- The leaf of the mapped page. -/
def pageLeaf : Nat := rootPa + 0x6000

/-- A host aperture over the first bytes of HBM, of 16 GiB. -/
def apertured : State :=
  let s := permit idle [(0, initHost 0), (20, initHost 0), (21, initHost 0), (22, initHost 0)]
  let pkg := { s.pkg with apbase := BitVec.ofNat 64 slotFrame }
  { s with pkg := pkg }

theorem witness_HostPort :
    (Base idle ∧ tableGrants idle 20 (initHost 0) 0x2000 0x2007 1 = false ∧
      tableGrants idle 22 (initHost 0) (2 ^ 34 - 1) (2 ^ 34 - 1) 1 = false ∧
      servicePermitted idle (4095 % 16) (0xF10000000 + 0x1000 * 4095 + 0x18) 8 2 = false) ∧
    (Base apertured ∧ (∀ off ∈ [0x2000, 0x27F8, 0x10000, 0x117F8], keyWindow off = true ∧
        tableGrants apertured 20 (initHost 0) off (off + 7) 1 = true) ∧
      (∀ x ∈ [(0x1FFC, 4), (0xFFFC, 4), (0x27FC, 3)], keyWindow (x.1 + x.2) = true ∧
        tableGrants apertured 20 (initHost 0) x.1 (x.1 + 7) 1 = true) ∧
      (∀ off ∈ [0, 0x2000, 0x27FF, 0x10000, 0x117FF, 0x12000, 0x120FF, 0x1088], hostPermitted apertured (.mgmt off) 2 = true) ∧
      hostPermitted apertured (.queue 4095 0) 2 = true ∧ queueOfPage apertured 0 4095 = some 4095 ∧
      tableGrants apertured 21 (initHost 0) (0x1000 * 4095 + 0xFF8) (0x1000 * 4095 + 0xFF8 + 7) 1 = true) ∧
    (let pkg := { idle.pkg with assigned := [(63, List.replicate 64 9)] }
     let s := { idle with pkg := pkg }
     Base s ∧ queueOfPage s 64 63 = some 9) ∧
    (∀ k ∈ [0, 15], let s := permit idle [(k, initService k)]
      Base s ∧ servicePermitted s k (0xF10000000 + 0x1000 * k + 0x18) 8 2 = true) ∧
    servicePermitted idle 0 0xF00001088 8 2 = true ∧
    (apertured.pkg.apbase.toNat + 0 + 4 ≤ 2 ^ 52 ∧ 0 + 4 ≤ 2 ^ (34 + apertured.pkg.bar4) ∧
      (∀ b ∈ [1, 2], tableGrants apertured 22 (initHost 0) 0 3 b = true ∧
        tablePermits apertured (initHost 0) (apertured.pkg.apbase.toNat + 0) 4 b = true) ∧
      spanStalls apertured (apertured.pkg.apbase.toNat + 0) 4 = false ∧
      (∀ k, k < 4 → isMemory (region apertured (apertured.pkg.apbase.toNat + 0 + k)) = true) ∧
      lockedFrame apertured (apertured.pkg.apbase.toNat + 0) = false ∧ badAt apertured (apertured.pkg.apbase.toNat + 0) = false ∧
      frameView apertured (apertured.pkg.apbase.toNat + 0) = some .plain) ∧
    (let s := { apertured with frameKeys := [(slotFrame / 65536, 6)], tdis := [(5, { state := .locked, stream := 15 })] }
     Base s ∧ lockedFrame s slotFrame = true) :=
  ⟨⟨idle_base, by decide +kernel⟩, ⟨base_of (by decide +kernel), by decide +kernel⟩, ⟨base_of (by decide +kernel), by decide +kernel⟩,
    fun k hk => by
      simp at hk
      rcases hk with rfl | rfl
      all_goals exact ⟨base_of (by decide +kernel), by decide +kernel⟩,
    by decide +kernel, by decide +kernel, base_of (by decide +kernel), by decide +kernel⟩

theorem witness_Interfaces : ∀ k ∈ [0, 63],
    (Base idle ∧ (tdiAt idle k).state = .unlocked ∧ sharedKey idle k = false ∧ copiesOut idle k = false ∧
      ∀ p ∈ idle.tables, forbidden idle k (p.1 / 64) p.2.toNat = false) ∧
    (let s := { idle with tdis := [(k, { state := .locked, stream := 15 })] }
     Base s ∧ (tdiAt s k).state = .locked) ∧
    (let x : Packet := { queue := 4095, slot := 0, body := 3, phase := .running, cmd := Cmd.reset }
     let s := { idle with tdis := [(k, { state := .run, stream := 15 })], contexts := [(k, slotContext)], packets := [(1, x)],
                          queues := [(4095, { Queue.reset with ctx := k, enable := true })] }
     Base s ∧ (tdiAt s k).state = .run ∧ (tdiAt s k).stream = 15 ∧ frozen s k = true ∧ copiesOut s k = true ∧
      mfind s.contexts k = some slotContext ∧ (queueAt s 4095).ctx = k) := by
  intro k hk
  simp at hk
  rcases hk with rfl | rfl
  all_goals exact ⟨⟨idle_base, by decide +kernel⟩, ⟨base_of (by decide +kernel), by decide +kernel⟩, base_of (by decide +kernel), by decide +kernel⟩

/-- The machine with a second tier of 4 KiB on its first port. -/
def tiered : State :=
  let pkg := { idle.pkg with seccap := 4096, cxlCap := [(0, 4096)], cxlUp := [(0, true), (3, true)] }
  { idle with pkg := pkg }

theorem witness_KeysAndTables : ∀ k ∈ [0, 63],
    (Base idle ∧ frozen idle k = false) ∧
    (let s := { idle with tdis := [(k, { state := .run, stream := 0 })] }
     Base s ∧ frozen s k = true) ∧
    (frozenEntry idle (openEntry (initHost 64)).toNat = false ∧ frozenEntry idle (sget 0 idle.tables (64 * 54 + k)).toNat = false ∧
      ∀ j, j < 64 → frozen idle j = false) ∧
    (Base tiered ∧ region tiered 0x040000000FFF = .tier2 0xFFF ∧ cxlPortOf tiered 0xFFF = 0 ∧
      swf false tiered.cxlBad = true ∧ swf false tiered.pkg.cxlError = true ∧ swf false tiered.pkg.cxlUp = true ∧
      sget false tiered.pkg.cxlUp 0 = true ∧ sget false tiered.pkg.cxlUp 3 = true) := by
  intro k hk
  simp at hk
  rcases hk with rfl | rfl
  all_goals exact ⟨⟨idle_base, by decide +kernel⟩, ⟨base_of (by decide +kernel), by decide +kernel⟩, by decide +kernel, base_of (by decide +kernel), by decide +kernel⟩

/-- A service core with KSPAWN's operands in x8 and x9, and its counter in x17. -/
def caller (mode desc b counter : Nat) : Service :=
  { Service.reset with mode := mode, x := [(8, BitVec.ofNat 64 desc), (9, BitVec.ofNat 64 b), (17, BitVec.ofNat 64 counter)] }

/-- The machine whose service core executes KSPAWN, with a launch descriptor of one group in the mapped page. -/
def spawning (core : Service) (st : CtxState) : State :=
  let s := mapped [(0, initService 0)]
  let s1 := placeBytes s (pagePa + 64) 64 (pack [(320, 1), (16, 1), (16, 1), (16, 1), (16, 0), (32, 0x2100), (96, 0)])
  { s1 with contexts := [(0, { slotContext with root := rootPa, state := st })], services := [(0, core)] }

theorem witness_Spawns :
    (let s := spawning { caller 0 64 1 8 with mode := 0 } .run
     Base s ∧ (serviceAt s s.issue.service).mode = 0) ∧
    (let s := spawning { caller 3 64 2 8 with mode := 1 } .run
     let a := spawnOf (serviceAt s s.issue.service) 8 9
     Base s ∧ (serviceAt s s.issue.service).mode ≠ 0 ∧ ctxOfAsid s a.asid = none) ∧
    (∀ x ∈ [(64, 1 + 2 ^ 20, 0), (64, 1 + 7 * 2 ^ 16, 0), (65, 1, 0), (64, 1, 4)],
      let s := spawning (caller 3 x.1 x.2.1 x.2.2) .run
      let a := spawnOf (serviceAt s s.issue.service) 8 9
      Base s ∧ ctxOfAsid s a.asid = some 0 ∧ spawnStalls s s.issue.service a = false ∧
        (a.rest ≠ 0 ∨ 6 < a.n ∨ a.desc % 64 ≠ 0 ∨ a.counter % 8 ≠ 0)) ∧
    (let s := spawning (caller 3 64 1 8) .drain
     let a := spawnOf (serviceAt s s.issue.service) 8 9
     Base s ∧ ctxOfAsid s a.asid = some 0 ∧ spawnStalls s s.issue.service a = false ∧ a.rest = 0 ∧ a.n ≤ 6 ∧ a.desc % 64 = 0 ∧
      a.counter % 8 = 0 ∧ ctxState s 0 ≠ some .run) ∧
    (let s := spawning (caller 3 64 (1 + 2 ^ 19 + 6 * 2 ^ 16) 0) .run
     let a := spawnOf (serviceAt s s.issue.service) 8 9
     Base s ∧ ctxOfAsid s a.asid = some 0 ∧ spawnStalls s s.issue.service a = false ∧ a.rest = 0 ∧ a.n ≤ 6 ∧ a.desc % 64 = 0 ∧
      a.counter = 0 ∧ ctxState s 0 = some .run ∧ s.issue.busy = false ∧
      reach s 0 (initService s.issue.service) a.desc 64 kRead 1 = .ok (pagePas 64 64) [pageLeaf] ∧
      launchOk (ofBytes (readPas s (pagePas 64 64))) = true ∧
      launchFits (spawnLaunch s 0 0 a (ofBytes (readPas s (pagePas 64 64)))) = true) ∧
    (∀ c ∈ [8, 0x1F0FF8, 0x200000], ∀ busy, let s0 := spawning (caller 3 64 1 c) .run
     let s := { s0 with issue := { s0.issue with busy := busy } }
     let a := spawnOf (serviceAt s s.issue.service) 8 9
     Base s ∧ ctxOfAsid s a.asid = some 0 ∧ spawnStalls s s.issue.service a = false ∧ a.rest = 0 ∧ a.n ≤ 6 ∧ a.desc % 64 = 0 ∧
      a.counter % 8 = 0 ∧ a.counter ≠ 0 ∧ ctxState s 0 = some .run ∧ s.issue.busy = busy ∧
      reach s 0 (initService s.issue.service) a.desc 64 kRead 1 = .ok (pagePas 64 64) [pageLeaf] ∧
      counterAt s (.virt 0 a.counter s.issue.service) = (if c = 0x200000 then none else some (pagePa + c, 0)) ∧
      ∀ j, j < 8 → isMemory (region s (pagePa + 8 + j)) = true) ∧
    (let s := spawning (caller 3 0x200000 1 0) .run
     let a := spawnOf (serviceAt s s.issue.service) 8 9
     Base s ∧ ctxOfAsid s a.asid = some 0 ∧ spawnStalls s s.issue.service a = false ∧ a.rest = 0 ∧ a.n ≤ 6 ∧ a.desc % 64 = 0 ∧
      a.counter = 0 ∧ ctxState s 0 = some .run ∧
      ((∃ v, reach s 0 (initService s.issue.service) a.desc 64 kRead 1 = .stop 2 v))) := by
  refine ⟨⟨base_of (by decide +kernel), by decide +kernel⟩, ⟨base_of (by decide +kernel), by decide +kernel⟩, fun x hx => ?_,
    ⟨base_of (by decide +kernel), by decide +kernel⟩, ⟨base_of (by decide +kernel), by decide +kernel⟩, fun c hc busy => ?_,
    base_of (by decide +kernel), by decide +kernel, by decide +kernel, by decide +kernel, by decide +kernel, by decide +kernel,
    by decide +kernel, by decide +kernel, _, rfl⟩
  rotate_left
  · simp at hc
    rcases hc with rfl | rfl | rfl <;> cases busy
    all_goals exact ⟨base_of (by decide +kernel), by decide +kernel⟩
  simp at hx
  rcases hx with rfl | rfl | rfl | rfl
  all_goals exact ⟨base_of (by decide +kernel), by decide +kernel⟩

/-- The machine whose queue 4095, the last page of the last VF, has a packet in its first slot, and whose port 15 is up. -/
def queued : State :=
  let s := placeBytes (mapped [(0, initShucker 15), (21, initHost 0)]) pagePa 64 6
  let pkg := { s.pkg with assigned := [(63, List.replicate 63 9 ++ [4095])] }
  { s with ports := [(15, upPort)], pkg := pkg,
           queues := [(4095, { Queue.reset with hostp := true, peerp := true, enable := true, size := 10, wridx := 1 })] }

theorem witness_QueueIndices :
    (Base queued ∧ (∀ x ∈ [(0, 4095), (64, 63)], queueOfPage queued x.1 x.2 = some 4095) ∧
      (queueAt queued 4095).hostp = true ∧ accepts queued (queueAt queued 4095).ctx = true ∧
      tableGrants queued 21 (initHost 0) (0x1000 * 4095) (0x1000 * 4095 + 7) 3 = true ∧
      queueOfPage queued 0 0 = some 0 ∧ (queueAt queued 0).hostp = false ∧ (sget [] queued.pkg.assigned (1 - 1)).length ≤ 0) ∧
    (let s := { queued with tables := [(64 * 15, openEntry (initPeer 15 4095))] }
     Base s ∧ portUp s 15 = true ∧ (queueAt s 4095).peerp = true ∧ accepts s (queueAt s 4095).ctx = true ∧
      tableGrants s (4095 % 16) (initPeer 15 4095) (0xF10000000 + 0x1000 * 4095) (0xF10000000 + 0x1000 * 4095 + 7) 3 = true) ∧
    (let x := queueAt queued 4095
     x.enable = true ∧ x.size ≤ 10 ∧ x.ringfault = false ∧ ctxState queued x.ctx ≠ some .lost ∧
      reach queued x.ctx (pktInit 4095) (slotVa x x.rdidx.toNat) 64 kRead 1 = .ok (pagePas 0 64) [pageLeaf] ∧
      reach queued x.ctx (pktInit 4095) (slotVa x x.rdidx.toNat) 1 kWrite 2 = .ok [(pagePa, 0)] [pageLeaf] ∧
      ofBytes (readPas queued (pagePas 0 64)) % 256 ≠ 0 ∧ isMemory (region queued pagePa) = true) :=
  ⟨⟨base_of (by decide +kernel), by decide +kernel⟩, ⟨base_of (by decide +kernel), by decide +kernel⟩, by decide +kernel⟩

end Sys2Proof.Tests
end

