-- ==== Sys2Proof/Tests/WitnessQueues.lean ====
section
/-! SUPPORT. Witnesses of the statements about packets, copies, streams and reductions. -/

namespace Sys2Proof.Tests

set_option Elab.async false

open Sys2Proof.Machine

/-- A packet of queue 15. -/
def packet (body : Nat) (phase : Phase) : Packet :=
  { queue := 15, slot := 0, body := BitVec.ofNat 512 body, phase := phase, cmd := Cmd.reset }

/-- The machine with a mapped page, the fixture's group, one compute layer, and one packet. -/
def desk (x : Packet) : State :=
  { mapped [(0, initShucker 15)] with
    packets := [(1, x)], fresh := 2, groups := [(1, grp)], launches := fix.launches, cores := fix.cores,
    layers := [(0, { Layer.reset with role := .compute })] }

/-- A stamp of status st and value v in the mapped page, at offset 64. -/
def stamped (s : State) (n : Nat) : State := placeBytes s (pagePa + 64) 8 n

/-- The common words: TYPE, SEQ 5, STAMP. -/
def head (ty stamp : Nat) : Nat := pack [(8, ty), (8, 0), (48, 5), (64, stamp)]

def launchBody : Nat := head 1 0 + 2 ^ 128 * pack [(64, 0x10000), (64, 0), (64, 0), (16, 1), (16, 1), (16, 1), (16, 0), (32, 0x2100), (32, 0)]
def rangeBody : Nat := head 2 0 + 2 ^ 128 * pack [(64, 0x10000), (64, 0), (64, 0), (64, 9), (64, 0), (32, 0), (32, 0x2100)]
def bwaitBody : Nat := head 7 0 + 2 ^ 128 * pack [(64, 64), (56, 7)]
def raiseBody : Nat := head 8 0 + 2 ^ 128 * pack [(48, 5), (16, 0), (32, 1)]

/-- The launch that a RAISE names. -/
def raised : Launch := { slotLaunch 64 with queue := 15, seq := 5, pkt := some 0 }

theorem witness_PacketWork_begin :
    (let x := packet (head 6 0) .waiting
     Base (desk x) ∧ mfind (desk x).packets 1 = some x ∧ x.cmd.pins = [] ∧ pktRuns (desk x) x = true ∧ mayStart (desk x) 1 x = true ∧
      packetOk x.body.toNat = true) ∧
    (let x := packet (head 9 0) .waiting
     Base (desk x) ∧ pktRuns (desk x) x = true ∧ mayStart (desk x) 1 x = true ∧ packetOk x.body.toNat = false) ∧
    (let x := packet launchBody .started
     Base (desk x) ∧ ptype x.body.toNat = 1 ∧ launchFits (launchOf (desk x) x.body.toNat (pktCtx (desk x) x) x.queue (some 1)) = true) ∧
    (let x := packet rangeBody .started
     let b := x.body.toNat
     Base (desk x) ∧ ptype b = 2 ∧ pitwOk (pfield b 60 32) (8 * 2 ^ bits b (8 * 58) 2) = true ∧ pfield b 48 64 = 0 ∧
      0 ∈ computeCores (desk x) ∧ (dequeAt (desk x) 0).length < 64) ∧
    (let x := packet (head 6 0) .started
     Base (desk x) ∧ ptype x.body.toNat = 6) ∧
    (let x := packet bwaitBody .started
     Base (desk x) ∧ ptype x.body.toNat = 7) ∧
    (let x := packet raiseBody .started
     let s := { desk x with launches := [(0, raised)] }
     Base s ∧ ptype x.body.toNat = 8 ∧ launchBySeq s x.queue (pfield x.body.toNat 16 48) = some (0, raised) ∧
      raiseOk raised (pfield x.body.toNat 24 32) = true) := by
  refine ⟨?_, ?_, ?_, ?_, ?_, ?_, ?_⟩
  all_goals exact ⟨base_of (by decide +kernel), by decide +kernel⟩

theorem witness_PacketWork_end :
    (∀ n ∈ [0, 1 + 256 * 7, 2], let x := packet bwaitBody .running
      let s := stamped (desk x) n
      Base s ∧ endpointOf (pfield x.body.toNat 16 64) = .dev 64 ∧ pfield x.body.toNat 24 56 = 7 ∧
      reach s (pktCtx s x) (pktInit x.queue) 64 8 kRead 1 = .ok (pagePas 64 8) [pageLeaf] ∧ ofBytes (readPas s (pagePas 64 8)) = n) ∧
    (let x := packet (head 6 64) (.finished 1 9)
     let s := desk x
     Base s ∧ x.cmd.coll = false ∧ stampOk x.body.toNat = true ∧ pstamp x.body.toNat ≠ 0 ∧ endpointOf (pstamp x.body.toNat) = .dev 64 ∧
      reach s (pktCtx s x) (pktInit x.queue) 64 8 kWrite 2 = .ok (pagePas 64 8) [pageLeaf] ∧ ((pagePas 64 8).map (·.1)).Nodup ∧
      ∀ a ∈ pagePas 64 8, a.2 = 0 ∧ isMemory (region s a.1) = true) ∧
    pstamp (packet (head 6 0) (.finished 1 9)).body.toNat = 0 := by
  refine ⟨fun n hn => ?_, ⟨base_of (by decide +kernel), by decide +kernel⟩, by decide +kernel⟩
  simp at hn
  rcases hn with rfl | rfl | rfl
  all_goals exact ⟨base_of (by decide +kernel), by decide +kernel⟩

/-! ### Copies -/

/-- Endpoints (R84): device, the scratchpad of group 1, host. -/
def eDev (va : Nat) : Nat := va
def eSpad (off : Nat) : Nat := 2 ^ 61 + 2 ^ 32 + off
def eHost (a : Nat) : Nat := 2 ^ 63 + a

/-- Two registers from v254 on of lane 7 of group 1. -/
def eRegs : Nat := 3 * 2 ^ 61 + 2 ^ 32 + 254 * 2 ^ 24 + 7 * 2 ^ 18

/-- A COPY's body with its flags. -/
def copyBody (src dst len flags word : Nat) : Nat :=
  head 3 0 + 2 ^ 128 * pack [(64, src), (64, dst), (32, len), (2, flags), (30, 0), (64, 0), (64, word)]

/-- A running copy of queue 15 in some state of its command. -/
def copying (body : Nat) (cmd : Cmd) : Packet := { packet body .running with cmd := cmd }

/-- The desk with context 0's copy-in key loaded. -/
def keyed (x : Packet) : State := { desk x with copyKeys := [(0, { CopyKey.reset with loaded := true })] }

theorem witness_Copies :
    (∀ n ∈ [0, 64], let x := packet (copyBody (eHost 0) (eDev 64) n 0 0) .started
      Base (desk x) ∧ mfind (desk x).packets 1 = some x ∧ x.cmd.pins = [] ∧ ptype x.body.toNat = 3 ∧
        atPeer (psrc x) = false ∧ atPeer (pdst x) = false ∧ copyLen x.body.toNat = n) ∧
    (let x := copying (copyBody (eHost 0) (eDev 64) 64 0 0) { Cmd.reset with paused := some 64 }
     let s := desk x
     Base s ∧ pktRuns s x = true ∧ mfind s.contexts (pktCtx s x) = some { slotContext with root := rootPa } ∧
      walk s rootPa 64 = .leaf pageLeaf (0x7F + pagePa) pagePa) ∧
    (let x := copying (copyBody (eHost 0) (eSpad 64) 64 0 0) Cmd.reset
     let s := desk x
     Base s ∧ commandAt s 1 = some x ∧ x.cmd.resolved = false ∧ copyEnc x.body.toNat = false ∧ pdst x = .spad 1 64 ∧
      resolveAll s x.cmd (touches x) = .ok ∧ bits (pfield x.body.toNat 24 64) 61 3 ≠ 3) ∧
    (let x := copying (copyBody (eHost 0) eRegs 8 0 0) Cmd.reset
     let s := desk x
     Base s ∧ commandAt s 1 = some x ∧ pdst x = .regs 1 254 7 1 ∧ resolveAll s x.cmd (touches x) = .ok ∧
      mfind s.groups 1 = some grp ∧ swf 0 grp.vbusy = true) ∧
    (∀ y ∈ [(2 ^ 32, 7), (spadLimit grp, 6)], let x := copying (copyBody (eHost 0) (eSpad y.1) 64 0 0) Cmd.reset
     let s := desk x
     Base s ∧ commandAt s 1 = some x ∧ resolveAll s x.cmd (touches x) = .stop y.2) ∧
    (let x := copying (copyBody (eHost 0) (eDev 64) 8 0 0) { Cmd.reset with todo := [(0, 8)], resolved := true }
     let s := desk x
     Base s ∧ commandAt s 1 = some x ∧ copyEnc x.body.toNat = false ∧ pswr x.body.toNat = false ∧ psrc x = .host 0 ∧ pdst x = .dev 64 ∧
      reach s (pktCtx s x) (pktInit x.queue) 64 8 kWrite 2 = .ok (pagePas 64 8) [pageLeaf] ∧ (pagePas 64 8).length = 8 ∧
      ((pagePas 64 8).map (·.1)).Nodup ∧ ∀ q ∈ pagePas 64 8, q.2 = 0 ∧ isMemory (region s q.1) = true) ∧
    (let x := copying (copyBody (eDev 64) (eHost 0) 8 0 0) { Cmd.reset with todo := [(0, 8)], resolved := true }
     let s := desk x
     Base s ∧ commandAt s 1 = some x ∧ psrc x = .dev 64 ∧ pdst x = .host 0 ∧
      reach s (pktCtx s x) (pktInit x.queue) 64 8 kRead 1 = .ok (pagePas 64 8) [pageLeaf]) := by
  refine ⟨fun n hn => ?_, ?_, ?_, ?_, fun y hy => ?_, ?_, ?_⟩
  · simp at hn
    rcases hn with rfl | rfl
    all_goals exact ⟨base_of (by decide +kernel), by decide +kernel⟩
  iterate 3 exact ⟨base_of (by decide +kernel), by decide +kernel⟩
  · simp at hy
    rcases hy with rfl | rfl
    all_goals exact ⟨base_of (by decide +kernel), by decide +kernel⟩
  iterate 2 exact ⟨base_of (by decide +kernel), by decide +kernel⟩

theorem witness_Copies_done :
    (∀ f ∈ [0, 2], let x := copying (copyBody (eHost 0) (eSpad 64) 8 f 0) { Cmd.reset with resolved := true }
      Base (desk x) ∧ commandAt (desk x) 1 = some x ∧ x.cmd.todo = [] ∧ x.cmd.mmaw = false ∧ copyMmaf x.body.toNat = decide (f = 2)) ∧
    (let x := copying (copyBody (eHost 0) (eDev 64) 16 1 0) Cmd.reset
     let k := fun (o : Nat) => { keyed x with keys := [(0, { MemKey.reset with valid := true, owner := o })] }
     Base (desk x) ∧ commandAt (desk x) 1 = some x ∧ copyEnc x.body.toNat = true ∧ x.cmd.stage = none ∧ pdst x = .dev 64 ∧
      psrc x = .host 0 ∧ (sget CopyKey.reset (desk x).copyKeys (pktCtx (desk x) x)).loaded = false ∧ Base (k 1) ∧
      commandAt (k 1) 1 = some x ∧ (sget CopyKey.reset (k 1).copyKeys (pktCtx (k 1) x)).loaded = true ∧
      ownedRuns (k 1) (pktCtx (k 1) x) (pktInit x.queue) (copyLen x.body.toNat / 4096 + 2) 64 (copyLen x.body.toNat) = .stop 4 0) ∧
    (∀ n ∈ [0, 1], let x := copying (copyBody (eHost 0) (eSpad 64) 16 1 0 + 2 ^ 448 * n) Cmd.reset
     Base (desk x) ∧ commandAt (desk x) 1 = some x ∧ copyEnc x.body.toNat = true ∧ x.cmd.stage = none ∧ pdst x = .spad 1 64 ∧
      findFor (desk x) x.cmd 1 = .here grp ∧ psrc x = .host 0 ∧ 64 + copyLen x.body.toNat ≤ spadLimit grp ∧
      (sget CopyKey.reset (desk x).copyKeys (pktCtx (desk x) x)).loaded = false ∧
      Base (keyed x) ∧ (sget CopyKey.reset (keyed x).copyKeys (pktCtx (keyed x) x)).loaded = true ∧ grp.ctx = pktCtx (keyed x) x ∧
      (sget CopyKey.reset (keyed x).copyKeys (pktCtx (keyed x) x)).ictr.toNat < 2 ^ 64 - 1 ∧
      (pfield x.body.toNat 56 64 = (sget CopyKey.reset (keyed x).copyKeys (pktCtx (keyed x) x)).ictr.toNat ↔ n = 0)) := by
  refine ⟨fun n hn => ?_, ⟨base_of (by decide +kernel), by decide +kernel, by decide +kernel, rfl, by decide +kernel, by decide +kernel,
    by decide +kernel, base_of (by decide +kernel), by decide +kernel⟩, fun n hn => ?_⟩
  all_goals
    simp at hn
    rcases hn with rfl | rfl
  iterate 2 exact ⟨base_of (by decide +kernel), by decide +kernel⟩
  all_goals exact ⟨base_of (by decide +kernel), by decide +kernel, by decide +kernel, rfl, by decide +kernel, rfl, by decide +kernel,
    by decide +kernel, by decide +kernel, base_of (by decide +kernel), by decide +kernel⟩

/-- The descriptor word of an MMAW: BF16, tile 3, its operands at offset 0. -/
def mmaWord : Nat := ofWords (encode (.mmaBf16 (hd 3) false (.imm 16) (.s 0)))

theorem witness_Copies_mmaw :
    let x := copying (copyBody (eHost 0) (eSpad 64) 8 2 mmaWord) { Cmd.reset with resolved := true, mmaw := true }
    Base (desk x) ∧ findFor (desk x) x.cmd 1 = .here grp ∧ commandAt (desk x) 1 = some x ∧ pdst x = .spad 1 64 ∧ coreOf grp = some 0 ∧
    (mmawEntry (desk x) 1 grp (pfield x.body.toNat 48 64)).isSome = true ∧ queueRoom (desk x) 0 2 ≠ 0 ∧
    (coreAt (desk x) 0).mqNew = [] :=
  ⟨base_of (by decide +kernel), rfl, by decide +kernel⟩

/-! ### STREAM and REDUCE -/

/-- A layout record of four elements of format 0 at address 512, one tile. -/
def layoutWord : Nat := pack [(64, 512), (32, 4), (32, 1), (32, 1), (32, 1), (32, 1), (128, 0), (8, 0), (8, 1), (16, 4), (16, 1), (16, 1), (16, 1), (16, 1)]

def streamBody (layout slot : Nat) : Nat :=
  head 4 0 + 2 ^ 128 * pack [(64, layout), (64, eSpad 0), (64, eSpad 2048), (32, 0), (32, 1), (21, slot), (7, 0), (4, 1), (32, 0), (64, 0)]

def reduceBody : Nat := head 5 0 + 2 ^ 128 * pack [(64, eSpad 64), (64, eSpad 128), (24, 2), (40, 0), (64, eSpad 0)]

/-- The desk with a layout record at address 128. -/
def listed (x : Packet) : State := placeBytes (desk x) (pagePa + 128) 64 layoutWord

/-- The desk whose large page is not resident. -/
def emptied (x : Packet) : State := placeBytes (desk x) (rootPa + 0x6000) 1 0x7D

theorem witness_Tensors_stream :
    (∀ n ∈ [512, 0], let x := packet (streamBody 128 n) .started
      let s := listed x
      Base s ∧ mfind s.packets 1 = some x ∧ ptype x.body.toNat = 4 ∧
      reach s (pktCtx s x) (pktInit x.queue) (pfield x.body.toNat 16 64) 64 kRead 1 = .ok (pagePas 128 64) [pageLeaf] ∧
      layoutFits (layoutOf (ofBytes (readPas s (pagePas 128 64)))) = true ∧
      (tileBytes (layoutOf (ofBytes (readPas s (pagePas 128 64)))) ≤ slotBytes x.body.toNat ↔ n = 512)) ∧
    (let x := packet (streamBody 128 512) .started
     let s := listed x
     findGroup s false 1 = .here grp ∧ pdst x = .spad 1 0 ∧ endpointOf (pfield x.body.toNat 32 64) = .spad 1 2048 ∧
      0 + ((slotCount x.body.toNat - 1) * slotBytes x.body.toNat + tileBytes (layoutOf (ofBytes (readPas s (pagePas 128 64))))) ≤ spadLimit grp ∧
      2048 + 32 * slotCount x.body.toNat ≤ spadLimit grp) ∧
    (let x := packet (streamBody 128 512) .started
     Base (emptied x) ∧ mfind (emptied x).packets 1 = some x ∧
      reach (emptied x) (pktCtx (emptied x) x) (pktInit x.queue) (pfield x.body.toNat 16 64) 64 kRead 1 = .pause 128) ∧
    (let x : Packet := { packet (streamBody 128 512) .running with cmd := { Cmd.reset with read := true, resolved := true, layout := layoutWord } }
     let s := desk x
     let t5 := layoutOf x.cmd.layout
     Base s ∧ findFor s x.cmd 1 = .here grp ∧ grp.ck = none ∧ (∀ c b, bankQueue (coreAt s c) b = []) ∧
      commandAt s 1 = some x ∧ pdst x = .spad 1 0 ∧ endpointOf (pfield x.body.toNat 32 64) = .spad 1 2048 ∧ tileReady x grp 2048 = true ∧
      isDrain x.body.toNat = false ∧ t5.swz = 0 ∧
      layoutFits t5 = true ∧ tileBytes t5 ≤ slotBytes x.body.toNat ∧ 0 + slotCount x.body.toNat * slotBytes x.body.toNat ≤ 2048 ∧
      (fillRows s (pktCtx s x) (pktInit x.queue) t5 (tileRows t5 (pfield x.body.toNat 40 32 + x.cmd.next))).isOk = true) := by
  refine ⟨fun n hn => ?_, ⟨rfl, by decide +kernel⟩, ⟨base_of (by decide +kernel), by decide +kernel⟩, base_of (by decide +kernel), rfl, rfl,
    no_banks rfl, by decide +kernel⟩
  simp at hn
  rcases hn with rfl | rfl
  all_goals exact ⟨base_of (by decide +kernel), by decide +kernel⟩

theorem witness_Tensors_reduce :
    (let x := packet reduceBody .started
     Base (desk x) ∧ mfind (desk x).packets 1 = some x ∧ ptype x.body.toNat = 5) ∧
    ∀ n ∈ [0, 1], let x : Packet := { packet reduceBody .running with cmd := { Cmd.reset with resolved := true, next := n } }
      let s := desk x
      Base s ∧ findFor s x.cmd 1 = .here grp ∧ (∀ c b, bankQueue (coreAt s c) b = []) ∧ commandAt s 1 = some x ∧ ptype x.body.toNat = 5 ∧
      psrc x = .spad 1 64 ∧ pdst x = .spad 1 128 ∧ pfield x.body.toNat 35 2 = 0 ∧ (n + 1 = pfield x.body.toNat 32 24 ↔ n = 1) := by
  refine ⟨⟨base_of (by decide +kernel), by decide +kernel⟩, fun n hn => ?_⟩
  simp at hn
  rcases hn with rfl | rfl
  all_goals exact ⟨base_of (by decide +kernel), rfl, no_banks rfl, by decide +kernel⟩

end Sys2Proof.Tests
end

