-- ==== Sys2Proof/Tests/WitnessSched.lean ====
section
/-! SUPPORT. Witnesses of the statements about scheduling, pre-emption, contexts, migration and peers. -/

namespace Sys2Proof.Tests

set_option Elab.async false

open Sys2Proof.Machine

/-- The scheduler's time lies within four microseconds of the time unit's. -/
theorem sched_near {s : State} {n : Nat} (h : s.time.now = BitVec.ofNat 64 n) (h1 : 262144 ≤ n) (h2 : n < 2 ^ 62) :
    ∃ m, schedTime s = BitVec.ofNat 64 m ∧ n ≤ m + 262144 ∧ m ≤ n + 262144 := by
  have hc : ∀ x : Int, -262144 ≤ clampInt (-262144) 262144 x ∧ clampInt (-262144) 262144 x ≤ 262144 := by
    intro x; unfold clampInt; split <;> (try split) <;> omega
  have h3 := hc (Config.copySkew 24)
  generalize hd : clampInt (-262144) 262144 (Config.copySkew 24) = d at h3
  refine ⟨((n : Int) + d).toNat, ?_, by omega, by omega⟩
  unfold schedTime localTime
  rw [h, hd]
  apply BitVec.eq_of_toNat_eq
  simp only [BitVec.toNat_add, BitVec.toNat_ofNat, BitVec.toNat_ofInt]
  omega

/-- The machine at device time 2^40. -/
def later (s : State) : State :=
  let time := { s.time with now := BitVec.ofNat 64 (2 ^ 40) }
  { s with time := time }

theorem reached_later {s : State} {a : Nat} (ha : a < 2 ^ 39) :
    (schedTime (later s) - BitVec.ofNat 64 a).toNat ≤ 2 ^ 63 := by
  obtain ⟨m, h, h1, h2⟩ := sched_near (s := later s) (n := 2 ^ 40) rfl (by decide) (by decide)
  rw [h]
  simp only [BitVec.toNat_sub, BitVec.toNat_ofNat]
  omega

theorem unreached_later {s : State} {a : Nat} (ha : 2 ^ 41 ≤ a) (hb : a < 2 ^ 42) :
    2 ^ 63 < (schedTime (later s) - BitVec.ofNat 64 a).toNat := by
  obtain ⟨m, h, h1, h2⟩ := sched_near (s := later s) (n := 2 ^ 40) rfl (by decide) (by decide)
  rw [h]
  simp only [BitVec.toNat_sub, BitVec.toNat_ofNat]
  omega

/-- The machine at 2^40 with a held launch that starts at a time. -/
def startsAt (n : Nat) : State :=
  later { idle with launches := [(9, { slotLaunch 64 with held := true, start := BitVec.ofNat 64 n })] }

theorem witness_SchedulerClock_release :
    (∀ n, (startsAt n).TablesCanon ∧ mfind (startsAt n).launches 9 = some { slotLaunch 64 with held := true, start := BitVec.ofNat 64 n }) ∧
    (schedTime (startsAt 0) - BitVec.ofNat 64 0).toNat ≤ 2 ^ 63 ∧ 2 ^ 63 < (schedTime (startsAt (2 ^ 41)) - BitVec.ofNat 64 (2 ^ 41)).toNat :=
  ⟨fun _ => ⟨tables_of rfl, rfl⟩, reached_later (s := startsAt 0) (by decide), unreached_later (s := startsAt (2 ^ 41)) (by decide) (by decide)⟩

/-- The machine at 2^40 with a queue at its budget, in periods of so many nanoseconds. -/
def clockQueue (ns : Nat) : State :=
  later { idle with queues := [(4095, { Queue.reset with period := ns, budget := 1, used := 1 })] }

/-- How far its period is over. -/
def lateness (s : State) : Nat :=
  let x := queueAt s 4095
  (BitVec.ofNat 64 (s.time.now.toNat / 65536 * 65536) - (x.pstart + BitVec.ofNat 64 (65536 * x.period))).toNat

theorem witness_SchedulerClock :
    (∀ ns ∈ [1, 2 ^ 25], Base (clockQueue ns) ∧ let x := queueAt (clockQueue ns) 4095
      x.period ≠ 0 ∧ x.budget ≠ 0 ∧ x.demoted = false ∧ min x.budget x.period ≤ x.used) ∧
    lateness (clockQueue 1) ≤ 2 ^ 63 ∧ 2 ^ 63 < lateness (clockQueue (2 ^ 25)) := by
  refine ⟨fun n hn => ?_, by decide +kernel⟩
  simp only [List.mem_cons, List.not_mem_nil, or_false] at hn
  rcases hn with rfl | rfl
  all_goals exact ⟨base_of (by decide +kernel), by decide +kernel⟩

/-- A machine whose layer 0 computes. -/
def computing : State := { idle with layers := [(0, { Layer.reset with role := .compute })], contexts := [(0, slotContext)] }

/-- A launch with a table and nothing admitted. -/
def toAdmit : Launch := { slotLaunch 64 with prog := some prog, nextGang := 0 }

/-- A range task of 64 indices, and its one part. -/
def ranged : RangeTask :=
  { ctx := 0, queue := 0, pkt := none, image := slotImage, args := 0, func := 0, pitw := 0x2100, width := 8, join := none, joinVa := 0,
    prog := some prog, parts := 1, exited := 0, ended := (0, 0), killed := false, acc := [] }

def part (core : Nat) : Part := { task := 1, core := core, lo := 0, next := 0, hi := 60, groups := 0 }

def ranging (core : Nat) : State :=
  { computing with tasks := [(1, ranged)], rangeParts := [(2, part core)], deques := [(core, [2])], fresh := 3 }

/-- The machine with an image of one function at address 0x10000 of the mapped page, and a launch of it. -/
def imaged (image : Nat) : State :=
  let s := mapped ((upFrom 16 0).map fun k => (k, initCore 255))
  let s1 := placeBytes s (pagePa + 0x10000) 64 (pack [(32, 0x45525446), (16, 1), (16, 1), (32, 1), (32, 128), (384, 0)])
  { s1 with launches := [(5, { slotLaunch 64 with image := image, prog := none, pkt := some 1 })], packets := [(1, packet launchBody .running)],
            fresh := 6 }

/-- How dispatch answers the launch: 0 for a program, 1 for a fault at its image. -/
def answer (image : Nat) : Nat :=
  match askedOf (imaged image) 255 (.launch 5) with
  | none => 2
  | some a => match (dispatch (imaged image) a).result with
    | .ok _ => 0
    | .error f => if f = .fault image 1 then 1 else 2

theorem witness_Placement_dispatch :
    Base (imaged 0x10000) ∧ answer 0x10000 = 0 ∧ Base (imaged 0x400000) ∧ answer 0x400000 = 1 ∧
    mfind (imaged 0x400000).packets 1 = some (packet launchBody .running) :=
  ⟨base_of (by decide +kernel), by decide +kernel, base_of (by decide +kernel), by decide +kernel⟩

/-- A group whose lanes have all exited, and its machine. -/
def finished : Group := { grp with lanes := [{ absentLane with present := true, exited := true }] }
def ending (subs : List Sub) (total : Nat) : State :=
  { withGroup finished with subs := subs, launches := [(0, { slotLaunch 64 with prog := some prog, total := total })] }

theorem witness_Placement :
    (let s := { computing with launches := [(0, toAdmit)] }
     Base s ∧ mfind s.launches 0 = some toAdmit ∧ toAdmit.prog = some prog ∧ 0 < toAdmit.members ∧
      admissible s = some (.launch 0 0 [.resident 0 0 0 0]) ∧ handlesOk s [65535] 1 = true) ∧
    (Base (ranging 0) ∧ mfind (ranging 0).rangeParts 2 = some (part 0) ∧ mfind (ranging 0).tasks 1 = some ranged ∧ ranged.prog.isSome = true ∧
      admissible (ranging 0) = some (.part 2 0 (0, 0, 0)) ∧ handlesOk (ranging 0) [0] 1 = true) ∧
    (Base (ranging 1) ∧ admissible (ranging 1) = some (.steal 0 1 2) ∧
      mfind (ranging 1).rangeParts 2 = some (part 1) ∧ mfind (ranging 1).tasks 1 = some ranged ∧ ranged.join = none ∧
      2 ≤ unstarted (part 1) ranged ∧ 2 ≠ (ranging 1).fresh ∧ (part 1).task ≠ (ranging 1).fresh) ∧
    (∀ l ∈ [[], [{ pa := dataPa, gh := 1, slot := 128, armed := false, pseq := 0, push := some (pushed false).push }]], ∀ n ∈ [1, 2],
      let s := ending l n
      Base s ∧ mfind s.groups 1 = some finished ∧ finished.lanes.any liveLane = false ∧ inUse s 1 = false ∧ finished.pend = [] ∧
      finished.held = [] ∧ finished.ck.isNone ∧ finished.owner = .launch 0 ∧ coreOf finished ≠ none ∧ stalled s finished = false ∧
      (mfind s.launches 0).map (fun x => (x.join.isNone, x.killed, x.total, x.exited, x.nextGang * x.members)) = some (true, false, n, 0, 1)) ∧
    ∀ f ∈ (ending [] 1).flying, f.gh ≠ 1 := by
  refine ⟨⟨base_of (by decide +kernel), by decide +kernel⟩, ⟨base_of (by decide +kernel), by decide +kernel⟩,
    ⟨base_of (by decide +kernel), by decide +kernel⟩, fun l hl n hn => ?_, by decide⟩
  simp only [List.mem_cons, List.not_mem_nil, or_false] at hl hn
  rcases hl with rfl | rfl
  all_goals
    rcases hn with rfl | rfl
    all_goals exact ⟨base_of (by decide +kernel), by decide +kernel⟩

end Sys2Proof.Tests
end

