-- ==== Sys2Proof/Tests/WitnessContexts.lean ====
section
/-! SUPPORT. Witnesses of the statements about pre-emption, contexts, entries, migration and peers. -/

namespace Sys2Proof.Tests

set_option Elab.async false

open Sys2Proof.Machine

/-- A byte of HBM. -/
theorem region_hbm (s : State) {a : Nat} (h1 : 0x010000000000 ≤ a) (h2 : a < 0x018000000000) : region s a = .hbm := by
  unfold region
  rw [if_neg (by omega), if_neg (by omega), if_pos (by omega)]

/-- The machine with context 63 in a state. -/
def context (c : Context) : State := { idle with contexts := [(63, c)] }

/-- A saved context's header in HBM: its magic, and the least size. -/
def husked (magic ctr : Nat) : State :=
  let s := context { slotContext with state := .saved, savectr := 7, husk := some { area := 0, counter := 7, queues := [], deques := [] } }
  placeBytes s slotFrame 128 (pack [(32, magic), (16, 1), (16, 63), (64, 144), (64, 0), (64, ctr), (256, 0)])

theorem husked_good (m n : Nat) : ∀ a, slotFrame ≤ a → a < slotFrame + 144 → badAt (husked m n) a = false := by
  intro a h1 h2
  have h : region (husked m n) a = .hbm := region_hbm _ h1 (by unfold slotFrame at h2; omega)
  unfold badAt
  rw [h]
  rfl

/-- A group in a wait that marks it for spilling, on core 224. -/
def sleeping : Group :=
  { waitingFor (.slot [(0, 128, 0)]) (hd 255) with
    ctx := 63, place := .resident 224 0 0 0, waits := [{ wait (.slot [(0, 128, 0)]) (hd 255) with spill := true }],
    lanes := [{ startLane true (.leaf 0 0) with waiting := true }] }

/-- Layer 7 drains with that group on it, at 2 ms. -/
def draining (c : Context) : State :=
  let time := { TimeUnit.reset with now := BitVec.ofNat 64 (2000000 * 65536) }
  { context c with groups := [(1, sleeping)], layers := [(7, { Layer.reset with role := .compute, state := .drain })], time := time }

/-- A context in a state with an area and a spill area at the first bytes of HBM. -/
def areas (st : CtxState) (n m : Nat) : Context := { slotContext with state := st, area := slotFrame, areaLen := n, spill := slotFrame, spillLen := m }

/-- The machine of a context that saves into its area, of its key. -/
def saving : State :=
  { context (areas .save 4096 0) with frameKeys := [(slotFrame / 65536, 64)], keys := [(63, { MemKey.reset with valid := true })] }

theorem witness_Preemption_events :
    (Base (context slotContext) ∧ mfind (context slotContext).contexts 63 = some slotContext ∧ slotContext.state = .run ∧
      144 + spilledBytes (context slotContext) 63 ≤ 144) ∧
    (let s := { context slotContext with queues := [(15, { Queue.reset with ctx := 63 })], packets := [(1, packet (head 6 0) .started)] }
     Base s ∧ mfind s.packets 1 = some (packet (head 6 0) .started) ∧ pktCtx s (packet (head 6 0) .started) = 63) ∧
    (Base (context (areas .drain 0 0)) ∧ (areas .drain 0 0).deadline = 0 ∧ drained (context (areas .drain 0 0)) 63 = true) ∧
    (let s := { draining slotContext with groups := [(1, { sleeping with waits := [] })] }
     Base s ∧ (layerAt s 7).state = .drain ∧ 2000000 * 65536 ≤ (s.time.now - BitVec.ofNat 64 (layerAt s 7).since).toNat ∧
      onLayer s 7 ≠ [] ∧ (∀ p ∈ onLayer s 7, p.2.ctx = 63) ∧ 144 + spilledBytes s 63 ≤ 144) ∧
    (Base saving ∧ mfind saving.contexts 63 = some (areas .save 4096 0) ∧ 128 + (huskImage saving 63 (areas .save 4096 0)).2.1.length + 16 ≤ 4096 ∧
      areaOk saving 63 slotFrame (128 + (huskImage saving 63 (areas .save 4096 0)).2.1.length + 16) = true ∧ keyLive saving 63 = true) ∧
    (let s := draining (areas .run 0 (2 ^ 24))
     s.TablesCanon ∧ mfind s.groups 1 = some sleeping ∧ gangOf s sleeping = [(1, sleeping)] ∧ sleeping.ctx = 63 ∧ coreOf sleeping = some 224 ∧
      layerOfCore 224 = 7 ∧ (layerAt s 7).state = .drain ∧ spillReady s (1, sleeping) = true ∧ sleeping.pend = [] ∧
      sleeping.held = [] ∧ sleeping.ck.isNone ∧ (∀ p ∈ s.groups, p.1 ≠ 1 → p.2.waits = []) ∧
      spilledBytes s 63 + 8 + imageBytes sleeping ≤ 2 ^ 24 ∧ frameView s slotFrame = some .plain ∧
      slotFrame / 65536 = (slotFrame + 7) / 65536 ∧ ∀ k, k < 8 → isMemory (region s (slotFrame + k)) = true) :=
  ⟨⟨base_of (by decide +kernel), by decide⟩, ⟨base_of (by decide +kernel), by decide +kernel⟩, ⟨base_of (by decide +kernel), by decide⟩,
    ⟨base_of (by decide +kernel), by decide +kernel⟩, ⟨base_of (by decide +kernel), by decide +kernel⟩, tables_of (by decide +kernel), rfl, rfl,
    by decide +kernel⟩

theorem witness_Preemption_restore :
    (∀ p ∈ [(0, 7), (0x4B535548, 6), (0x4B535548, 7)], let s := husked p.1 p.2
      let h := ofBytes (huskBytes s slotFrame 128)
      Base s ∧ (bits h 0 32 = p.1) ∧ bits h 32 16 = 1 ∧ bits h 48 8 = 63 ∧ huskLeast h ≤ bits h 64 64 ∧
      max 128 (bits h 64 64) = 144 ∧ bits h 192 64 = p.2) ∧
    ∀ m n a, slotFrame ≤ a → a < slotFrame + 144 → badAt (husked m n) a = false := by
  refine ⟨fun p hp => ?_, husked_good⟩
  simp at hp
  rcases hp with rfl | rfl | rfl
  all_goals exact ⟨base_of (by decide +kernel), by decide +kernel⟩

/-! ### Entries, migration and peers -/

/-- A home that may write entries at the first bytes of HBM, which hold an entry and its companion. -/
def homed (entry companion : Nat) : State := placeBytes (permit idle [(0, initService 0)]) slotFrame 16 (pack [(64, entry), (64, companion)])

/-- A machine whose context 1 is bound, and whose tables let core 0 read every frame. -/
def clashing : State := { mapped [(0, initService 0)] with tdis := [(1, { state := .locked, stream := 0 })] }

theorem witness_ContextsAndEntries :
    (Base idle ∧ mfind idle.contexts 63 = none ∧ ctxOfAsid idle 65535 = none ∧
      tablePermits idle (initService (homeOf slotFrame)) slotFrame 16 2 = false) ∧
    (let s := { context slotContext with groups := [(1, { grp with ctx := 63, place := .spilled })] }
     Base s ∧ mfind s.contexts 63 = some slotContext ∧ ∀ p ∈ s.groups, p.2.ctx = 63 → coreOf p.2 = none) ∧
    (let s := homed 0 0
     Base s ∧ slotFrame % 16 = 0 ∧ (∀ k, k < 16 → isMemory (region s (slotFrame + k)) = true) ∧ homeOf slotFrame = 0 ∧
      tablePermits s (initService 0) slotFrame 16 2 = true ∧ frameView s slotFrame = some .plain ∧ pinsOf s slotFrame = 0 ∧
      leafClash s true (0x7F + slotFrame) = false ∧ (0x7F + slotFrame) % 8 = 7 ∧ swf 0 s.frameKeys = true) ∧
    (let s := homed (0x7F + slotFrame) (2 ^ 48)
     Base s ∧ pinsOf s slotFrame ≠ 0 ∧ restricts (readFrames s slotFrame 8) (0x7D + slotFrame) = true) ∧
    (Base clashing ∧ pinsOf clashing slotFrame = 0 ∧ leafClash clashing true (2 ^ 58 + 0x7F + pagePa) = true ∧
      tablePermits clashing (initService 0) slotFrame 16 2 = true) :=
  ⟨⟨idle_base, by decide +kernel⟩, ⟨base_of (by decide), by decide⟩, ⟨base_of (by decide +kernel), by decide +kernel⟩,
    ⟨base_of (by decide +kernel), by decide +kernel⟩, base_of (by decide +kernel), by decide +kernel⟩

/-- An entry on its way from page 16 of HBM. -/
def leaving : State := homed (0x7D + (slotFrame + 0x100000)) 0

/-- The mapped context reached from port 15. -/
def peered : State := { mapped [(0, initPeer 15 4095)] with ports := [(15, { upPort with rxAsid := 1 })] }

theorem witness_MigrationAndPeers :
    (Base leaving ∧ moving leaving slotFrame = true ∧ leafFrame leaving slotFrame = slotFrame + 0x100000 ∧
      spanStalls leaving (slotFrame + 0x100000) 65536 = false ∧ pushesOut leaving (slotFrame + 0x100000) 65536 = false ∧ flushing leaving (slotFrame + 0x100000) = false ∧
      moveFits leaving (slotFrame + 0x100000) (slotFrame + 0x200000) 65536 = true) ∧
    (moving leaving slotFrame = true ∧ moveStalls leaving slotFrame true (slotFrame + 0x200000) = false ∧
      (∀ k, k < pageBytes true → isMemory (region leaving (slotFrame + 0x200000 + k)) = true) ∧
      ∀ k, k < pageBytes true → isMemory (region leaving (slotFrame + 0x100000 + k)) = true) ∧
    (Base peered ∧ portUp peered 15 = true ∧ ctxOfAsid peered (portAt peered 15).rxAsid = some 0 ∧
      reach peered 0 (initPeer 15 4095) 64 8 kRead 1 = .ok (pagePas 64 8) [pageLeaf] ∧
      reach peered 0 (initPeer 15 4095) 64 8 kWrite 2 = .ok (pagePas 64 8) [pageLeaf] ∧
      reach peered 0 (initPeer 15 4095) 64 8 kAtomic 3 = .ok (pagePas 64 8) [pageLeaf] ∧ ((pagePas 64 8).map (·.1)).Nodup ∧
      ∀ q ∈ pagePas 64 8, q.2 = 0 ∧ isMemory (region peered q.1) = true) := by
  have hp : pageBytes true = 0x200000 := rfl
  refine ⟨⟨base_of (by decide +kernel), by decide +kernel⟩, ⟨by decide +kernel, by decide +kernel, ?_, ?_⟩, base_of (by decide +kernel), by decide +kernel⟩
  all_goals
    intro k hk
    rw [hp] at hk
    rw [region_hbm _ (by unfold slotFrame; omega) (by unfold slotFrame; omega)]
    rfl

end Sys2Proof.Tests
end

