-- ==== Sys2Proof/Tests/WitnessStep.lean ====
section
/-! SUPPORT. Witnesses of the statements about a core's own steps, debug and trace, and the step. -/

namespace Sys2Proof.Tests

set_option Elab.async false

open Sys2Proof.Machine

/-- The lanes of the placed group. -/
def first : Cand := { gh := 0, lane := 0, slane := 0, task := 0, frames := [], node := 0, off := 0, last := 0, starved := false, prio := 0 }

/-- A lane held since cycle 0. -/
def holding : Group := { grp with lanes := [{ startLane true (.leaf 0 0) with held := some { above := [], node := 0, since := 0 } }] }

/-- Layer 0 at cycle 1024. -/
def cycled (g : Group) : State := { withGroup g with layers := [(0, { Layer.reset with role := .compute, cyc := 1024 })] }

/-- A NOP at the first slot, whose lanes have issued nothing for 1024 cycles. -/
def starved : State := { withLeaf State.reset 0x14 with layers := [(0, { Layer.reset with role := .compute, cyc := 1024 })] }

theorem witness_CoreSteps :
    (choose 256 [first, { first with lane := 1, prio := 3 }, { first with lane := 2, last := 255 }]).isSome = true ∧
    (choose 255 [first, { first with lane := 1, prio := 3 }]).isSome = true ∧
    ((cycled holding).TablesCanon ∧ mfind (cycled holding).groups 1 = some holding ∧ 0 < holding.lanes.length ∧
      (laneAt holding 0).held = some { above := [], node := 0, since := 0 } ∧ coreOf holding = some 0 ∧ 0 + 1024 ≤ cycOf (cycled holding) 0) ∧
    (starved.TablesCanon ∧ ∃ c ∈ slotCands starved 0 0, c.last + 256 ≤ cycOf starved 0) ∧
    ((coreAt fix 0).icache.length ≤ 1024 ∧ (coreAt idle 255).nodes.length ≤ 128 ∧ ∀ p ∈ idle.groups, coreOf p.2 ≠ some 255) :=
  ⟨by decide, by decide, ⟨tables_of (by decide +kernel), rfl, by decide⟩, ⟨tables_of (by decide +kernel), by decide +kernel⟩, by decide⟩

/-- The fixture one second and more after its launch last issued. -/
def silent : State :=
  let time := { TimeUnit.reset with now := BitVec.ofNat 64 (2 ^ 46) }
  { fix with time := time }

/-- The fixture's core with sample periods of 256 cycles in slot 0, at a cycle, and a trace ring of its layer. -/
def sampling (cyc : Nat) : State :=
  { fix with cores := [(0, { Core.reset with period := [256, 0] })], rings := [(0, { Ring.reset with base := slotFrame, size := 65536 })],
             layers := [(0, { Layer.reset with role := .compute, cyc := cyc })] }

theorem witness_DebugAndTrace :
    (Base fix ∧ mfind fix.groups 1 = some grp ∧ coreOf grp ≠ none ∧ (∀ i, (laneAt grp i).pendTrap = []) ∧
      (∀ i, liveLane (laneAt grp i) = true → ∃ n o, (laneAt grp i).pos = .leaf n o) ∧ mfind fix.groups 65535 = none) ∧
    (let g := { grp with halting := true }
     Base (withGroup g) ∧ (withGroup g).groups = [(1, g)] ∧ g.halting = true ∧ g.yielding = false ∧ g.attribs = [] ∧ g.csrNext = []) ∧
    (∀ n ∈ [0, 2621439], let g := { grp with halting := true }
     let s := { withGroup g with layers := [(0, { Layer.reset with role := .compute, phase := n })] }
     Base s ∧ s.groups = [(1, g)] ∧ coreOf g = some 0 ∧ endsCycle g = true ∧ s.pkg.power = true ∧
      (layerAt s (layerOfCore 0)).phase = n ∧ (layerAt s (layerOfCore 0)).clock.code ≤ 46 ∧ (unitsToEdge s 0).isSome = true) ∧
    (let g := { grp with place := .spilled }
     Base (withGroup g) ∧ mfind (withGroup g).groups 1 = some g ∧ coreOf g = none) ∧
    (let g := { grp with drainWait := true }
     Base (withGroup g) ∧ mfind (withGroup g).groups 1 = some g ∧ outst (withGroup g) 1 g = 0) ∧
    (let l := { slotLaunch 64 with prog := some prog }
     Base silent ∧ mfind silent.launches 0 = some l ∧
      (∀ p ∈ silent.groups, p.2.owner = .launch 0 → p.2.halted = false) ∧
      (l.hangs + 1) * l.hangt * 65536000 ≤ (silent.time.now - BitVec.ofNat 64 l.lastIssue).toNat) ∧
    (∀ n ∈ [255, 256], let s := sampling n
     Base s ∧ nthD 0 (coreAt s 0).period 0 ≠ 0 ∧ (coreAt s 0).sampled.length = 2 ∧ (coreAt s 0).sampledAt.length = 2 ∧
      (nthD 0 (coreAt s 0).sampledAt 0 + nthD 0 (coreAt s 0).period 0 ≤ cycOf s 0 ↔ n = 256) ∧
      slotGroups s 0 0 ≠ [] ∧ (sget Ring.reset s.rings (0 / 32)).size ≠ 0) ∧
    ((coreAt idle 255).period.length = 2 ∧ (coreAt idle 255).sampledAt.length = 2) := by
  refine ⟨⟨base_of (by decide +kernel), rfl, by decide, no_pending, at_leaves rfl, rfl⟩, ⟨base_of (by decide +kernel), rfl, rfl, rfl, rfl, rfl⟩,
    fun n hn => ?_, ⟨base_of (by decide +kernel), rfl, rfl⟩, ⟨base_of (by decide +kernel), rfl, by decide⟩,
    ⟨base_of (by decide +kernel), rfl, by decide, by decide +kernel⟩, fun n hn => ?_, by decide⟩
  all_goals
    simp only [List.mem_cons, List.not_mem_nil, or_false] at hn
    rcases hn with rfl | rfl
    all_goals exact ⟨base_of (by decide +kernel), by decide⟩

/-! ### Encodings and steps -/

theorem witness_RoundTrip : (∃ l, layout (.imul (hd 3) false .i16 (.v 1) (.lit 0xFFFF)) = some l) ∧
    WellFormed (.imul (hd 3) false .i16 (.v 1) (.lit 0xFFFF)) := ⟨⟨_, rfl⟩, rfl⟩

/-- A NOP at the first slot, by its agenda and without one. -/
def nopped (l : List Agendum) : State := { withLeaf State.reset 0x14 with agenda := l }

/-- The machine whose service core 0 has a KSPAWN at its pc. -/
def serviced : State := withService State.reset 0x0094000B

/-- What an agenda's event meets after no time. -/
def now (s : State) : State := elapse { s with agenda := [] } 0

theorem witness_StepRuns :
    (let s := { State.reset with agenda := [{ after := 65536, what := .event .perstAssert }] }
     s.agenda = [{ after := 65536, what := .event .perstAssert }] ∧ (elapse { s with agenda := [] } 65536).pkg.power = false) ∧
    (elapse { idle with agenda := [] } 65536).pkg.power = true ∧
    (serviced.agenda = [{ after := 0, what := .service 0 false }] ∧ (now serviced).pkg.power = true ∧
      irqNow (serviceAt (now serviced) 0) = none ∧
      let pc := (serviceAt (now serviced) 0).pc.toNat
      meets (now serviced) 0 pc 2 1 causeLoadMisaligned = .clear ∧ meets (now serviced) 0 (pc + 2) 2 1 causeLoadMisaligned = .clear ∧
      decodeService (serviceNum (now serviced) pc 2 + 65536 * serviceNum (now serviced) (pc + 2) 2) = .kspawn (.kspawn 0 8 9)) ∧
    (∀ u ∈ [now (nopped [{ after := 0, what := .issue 0 0 }]), elapse (nopped []) cycleUnits], readySlot u = some (0, 0) ∧ coreRuns u 0 = true ∧ chosenNow u 0 0 = false ∧
      let v := beforeChoice u 0 0
      choose (cycOf v 0) (slotCands v 0 0) = some first ∧ (mfind v.groups first.gh).bind (progOf v) = some (slotProgram 4) ∧
      fetchAt v (slotProgram 4) (coreAt v 0) (instrVa v (slotProgram 4) 0 0) = .word 0x14 4 0x14 ∧
      fetchHit (slotProgram 4) (coreAt v 0) (instrVa v (slotProgram 4) 0 0) 4 = true ∧ 0 + 4 ≤ leafLen v (slotProgram 4) 0) ∧
    (nopped []).agenda = [] ∧ decode 0x14 = .ok (.nop k9) ∧ WellFormed (.nop k9) :=
  ⟨⟨rfl, by decide +kernel⟩, by decide +kernel, by decide +kernel, by decide +kernel, rfl, rfl, rfl⟩

/-- Steps that answer a next state from a canonical state exist: an empty agenda's, of a machine with nothing ready. -/
theorem witness_StepKeepsMemory : State.reset.MemCanon ∧ ∃ t, step State.reset = .next t := ⟨Laws.memCanon_reset, _, rfl⟩

theorem witness_StepKeepsTables : State.reset.FilesCanon ∧ State.reset.TablesCanon ∧ ∃ t, step State.reset = .next t :=
  ⟨fun _ h => by simp [State.reset] at h, tables_of (by decide), _, rfl⟩

end Sys2Proof.Tests
end

