-- ==== Sys2Proof/Tests/Slice0.lean ====
section
/-! SUPPORT. The model's own tests: ill-formed instructions are refused, rejected words are rejected by name, and single steps
give values worked out from the spec. -/

namespace Sys2Proof.Tests

set_option Elab.async false

open Sys2Proof.Machine

/-- A head with DS = 1. -/
def hdDs (d : BitVec 8) : Head := { ctl := k9, guard := none, ds := true, nw := false, dreg := d }

/-- No instruction of a list is well formed, and what its fields encode to is rejected. -/
def refused (l : List Instr) : Bool := l.all fun i => !legal i && !(decode (ofWords (encode i))).isOk

/-- The smoke test of well-formedness (R300): destinations. -/
theorem test_ill_formed_destinations :
    refused [.iadd (hd 3) false .i64 (.v 2) (.v 4), .iadd (hdDs 63) false .i64 (.v 2) (.v 4), .iadd { hdNw with dreg := 1 } false .i32 (.v 1) (.v 2),
      .iadd { hdNw with ds := true } false .i32 (.v 1) (.v 2), .icmp (hd 16) 0 0 .i32 (.v 1) (.v 2), .icmp (hdDs 1) 0 0 .i32 (.v 1) (.v 2),
      .mmaI8 (hd 64) false (.s 8) (.s 9), .had (hdDs 2) 2 1, .sts (hd 1) 2 .ln .weak (.v 1) (.v 2), .swinit hdNw (.v 1) (.v 2)] = true := by decide

/-- R303, R304: sources and literals. -/
theorem test_ill_formed_sources :
    refused [.iadd (hd 2) false .i64 (.v 3) (.v 4), .iadd (hd 2) false .n64 (.v 2) (.s 5), .sts (hd 0) 4 .ln .weak (.v 2) (.v 6),
      .sts (hd 0) 4 .ln .weak (.v 2) (.imm 16), .mmaI8 (hd 4) false (.s 8) (.lit 1), .imul (hd 3) false .i16 (.v 1) (.lit 0x10000)] = true ∧
    legal (.imad (hd 3) false .i32 (.v 1) (.v 2) (.lit 5)) = false ∧ legal (.iadd (hd 3) false .i32 (.lit 1) (.lit 2)) = false := by decide

/-- The rules of the control and integer instructions for their own fields (14). -/
theorem test_ill_formed_integer :
    refused [.tret (hd 3) 3 1 none, .icmp (hd 3) 3 0 .i32 (.v 1) (.v 2), .icmp (hd 3) 0 6 .i32 (.v 1) (.v 2),
      .icmp (hd 3) 0 0 .f32 (.v 1) (.v 2), .fcmp (hd 3) 0 0 .i32 (.v 1) (.v 2), .fcmp (hd 3) 3 0 .f32 (.v 1) (.v 2), .pmov (hd 1) true 0 (.v 1),
      .sel (hd 3) false 0 .f16 (.v 1) (.v 2), .iadd (hd 3) false .f32 (.v 1) (.v 2), .imulh (hd 3) true .i32 (.v 1) (.v 2),
      .imad (hd 3) false .bf16 (.v 1) (.v 2) (.v 3), .ineg (hd 3) false .ln8 (.v 1), .isad (hd 3) false .i64 (.v 1) (.v 2) (.v 3),
      .iclamp (hd 3) true .i32 (.v 1) (.v 2) (.v 3), .idot4 (hd 3) false .i16 (.v 1) (.v 2) (.v 3), .imulw (hd 4) false .i16 (.v 1) (.v 2)] = true := by
  decide

/-- The rules of the logic and float instructions for their own fields (14). -/
theorem test_ill_formed_logic_float :
    refused [.and (hd 3) .i16 (.v 1) (.v 2), .popc (hd 3) .n8 (.v 1), .brev (hd 4) .i64 (.v 2), .bfx (hd 3) .n16 (.v 1) (.v 2) (.v 3),
      .mov (hd 3) .bf16 (.v 1), .lea (hd 3) 0 .f32 (.v 1) (.v 2), .iext (hd 3) false .f32 (.v 1), .fadd (hd 3) .i32 (.v 1) (.v 2),
      .ffma (hd 3) .ln6 (.v 1) (.v 2) (.v 3), .fsgn (hd 3) 3 .f32 (.v 1) (.v 2), .hadd2 (hd 3) .f32 (.v 1) (.v 2),
      .hadd2 (hd 3) .f16 (.v 1) (.imm 0), .hfma2 (hd 3) .bf16 (.v 1) (.v 2) (.imm 0), .frcp (hd 3) .f16 (.v 1), .fclass (hd 3) .n32 (.v 1),
      .fcvt (hd 3) .i32 .f32 (.v 1), .icvtf (hd 3) .f32 .f32 (.v 1), .fcvti (hd 3) .i32 .i32 (.v 1), .qnt (hd 3) 0 .f32 (.v 1) (.v 2) (.v 3),
      .dqnt (hd 3) .f32 (.v 1) (.v 2)] = true := by decide

/-- The rules of the exchange, memory, matrix and system instructions for their own fields (15 to 17). -/
theorem test_ill_formed_others :
    refused [.shfl (hd 3) 3 .f16 (.v 1) (.v 2), .bcast (hd 3) 3 .i8 (.v 1), .vote (hd 4) 4 3 (.v 1), .redi (hd 3) 6 3 .i32 (.v 1),
      .scani (hd 3) false 0 3 .f32 (.v 1), .redf (hd 3) 3 3 .f32 (.v 1), .scanf (hd 3) false 0 3 .f16 (.v 1), .lds (hd 8) 5 .ln .weak false (.v 1),
      .lds (hd 8) 2 .ln .weak true (.v 1), .ldx (hd 8) 2 .dev .weak false (.v 2), .ldx (hd 8) 2 .dev .rel false (.v 2),
      .sts (hd 0) 5 .ln .weak (.v 1) (.v 2), .stx (hd 0) 2 .dev .acq (.v 2) (.v 3), .atom (hd 4) .add .dev .weak .i32 (.v 2) (.v 4) none,
      .atom (hd 4) .add .dev .rlx .i32 (.v 2) (.v 4) (some (.v 5)),
      .atoms (hd 4) .fadd .dev .rlx .i32 (.v 2) (.v 4) none, .atoms (hd 4) .and .dev .rlx .f32 (.v 2) (.v 4) none, .xfence k9 1 .dev,
      .mmaF16 hdNw false (.s 2) (.s 3), .had (hd 2) 0 1, .sysrd (hd 4) 0x004, .syswr (hd 0) 0x003 (.v 1)] = true ∧
    legal (.atom (hd 4) .cas .dev .rlx .i32 (.v 2) (.v 4) none) = false ∧ legal (.tret hdNw 2 0 none) = false := by decide

/-- A word is rejected with a name. -/
def rejected (l : List (Nat × DecodeError)) : Bool :=
  l.all fun p => match decode p.1 with
    | .ok _ => false
    | .error e => e == p.2

/-- The rejects of R307, each by its name: LEN, VER, OP, a LEN below the base, literals, the guard, fields and the rules of the
instruction. -/
theorem test_rejected_words :
    rejected [(0x00000007, .length), (0x00000018, .version), (0x0000001C, .version), (0x00000004, .opcode), (0x00000FF4, .opcode),
      (0x000A0104, .short), (ofWords [0x00030126, 0x00040401, 0], .mismatch), (ofWords [0x00030105, 0x001BFE01], .mismatch),
      (ofWords [0x10030105, 0x00100401], .guard), (0x00010014, .field), (ofWords [0x00030105, 0x80100401], .field),
      (ofWords [0x00030105, 0x00300401], .illegal)] = true := by decide

/-! ### Single steps of the fixture -/

/-- Register r of lane 0 after an instruction. -/
def after (i : Instr) (r : Nat) : Option Word :=
  match exec i fix with
  | .next t => (mfind t.groups 1).map fun g => vregAt g 0 r
  | _ => none

/-- R317: 6 + 3; 3 - 6 wraps; the greatest signed value plus 6 saturates. -/
theorem test_integer_steps :
    after (.iadd (hd 4) false .n32 (.v 1) (.v 2)) 4 = some 9 ∧ after (.isub (hd 1) false .n32 (.v 2) (.v 1)) 1 = some 0xFFFFFFFD ∧
    after (.iadd (hd 4) true .i32 (.v 20) (.v 1)) 4 = some 0x7FFFFFFF ∧ after (.imul (hd 4) false .i32 (.v 1) (.v 2)) 4 = some 18 ∧
    after (.idiv (hd 4) false .i32 (.v 1) (.v 2)) 4 = some 2 ∧ after (.irem (hd 4) false .n32 (.v 20) (.v 1)) 4 = some 1 := by decide +kernel

/-- R334: 6 shifted by 3 and back; the bits of a word of ones. -/
theorem test_logic_steps :
    after (.shl (hd 4) .n32 (.v 1) (.v 2)) 4 = some 48 ∧ after (.sar (hd 4) .i32 (.v 3) (.v 2)) 4 = some 0xFFFFFFFF ∧
    after (.popc (hd 4) .n32 (.v 3)) 4 = some 32 ∧ after (.clz (hd 4) .n32 (.v 1)) 4 = some 29 ∧
    after (.xor (hd 4) .n32 (.v 1) (.v 2)) 4 = some 5 ∧ after (.brev (hd 4) .n32 (.v 2)) 4 = some 0xC0000000 := by decide +kernel

/-- R309, R339: 1 + 2 = 3, 2 × 2 = 4, 2 × 2 + 1 = 5, 1 / 2, and 6 as a float. -/
theorem test_float_steps :
    after (.fadd (hd 4) .f32 (.v 5) (.v 7)) 4 = some 0x40400000 ∧ after (.fmul (hd 4) .f32 (.v 7) (.v 7)) 4 = some 0x40800000 ∧
    after (.ffma (hd 4) .f32 (.v 7) (.v 7) (.v 5)) 4 = some 0x40A00000 ∧ after (.icvtf (hd 4) .i32 .f32 (.v 1)) 4 = some 0x40C00000 ∧
    after (.fcvti (hd 4) .f32 .i32 (.v 7)) 4 = some 2 := by decide +kernel

/-- R319: NOP and YIELD move the lane on by the instruction's length; R228: a word without an opcode is ILLOP, and a group without
a handler is killed (R234) at the end of the cycle (R236). -/
theorem test_control_steps :
    (match exec (.nop k9) fix with
      | .next t => (mfind t.groups 1).map fun g => (laneAt g 0).pos
      | _ => none) = some (.leaf 0 4) ∧
    (match exec (.unassignedEncoding 0x00000FF4) fix with
      | .next t => (mfind t.groups 1).map fun g => (g.lanes.any liveLane, (mfind (endCycle t 1).groups 1).map fun h => h.lanes.any liveLane)
      | _ => none) = some (true, some false) := by decide +kernel

/-- R295: the word placed for the next step runs as the first instruction after reset, and moves the placed group's lanes past their
one leaf, where they exit (R275). -/
theorem test_fetched_word :
    (match step (State.reset.withFetchWord 32 0x00000014) with
      | .next t => (mfind t.groups 0).map fun g => (t.agenda, g.lanes.any liveLane)
      | _ => none) = some ([], false) := by decide +kernel

/-- R67, R70 (the base words from the RISC-V architecture, log 3): ADDI, KSPAWN, and C.LI, which stands for an ADDI. -/
theorem test_service_words :
    deedOf { Service.reset with x := [(6, 40)] } 4 0x00730393 = .write 7 47 ∧ decodeService 0x00730393 = .base ∧
    decodeService 0x0094000B = .kspawn (.kspawn 0 8 9) ∧ expandC 0x4505 = some 0x00100513 ∧ expandC 0 = none := by decide +kernel

/-- R25, R29: PERST# moves nothing without power. -/
theorem test_reset_idles : step State.reset = .next State.reset := rfl

end Sys2Proof.Tests
end

