-- ==== Sys2Proof/Tests/WitnessRules.lean ====
section
/-! SUPPORT. Witnesses of the statements about traps of some lanes, checkpoints, readiness, values and the service cores. -/

namespace Sys2Proof.Tests

set_option Elab.async false

open Sys2Proof.Machine

/-! ### Traps of some lanes -/

/-- Where a lane's walk ends from a start. -/
def ends (s : State) (g : Group) (i : Nat) (start : Lane) : Walked :=
  walkLoop s g prog (coreAt s 0) (funcOf s g) (cycOf s 0) i walkBound start WalkLog.none

/-- A walk that comes to stand with no frame for the spill area. -/
def clean : Walked → Bool
  | .stands _ log => log.frames.isEmpty
  | .trapped .. => false

theorem clean_stands {r : Walked} (h : clean r = true) : ∃ log, r = .stands (standing r) log ∧ log.frames = [] := by
  cases r with
  | stands l log => exact ⟨log, rfl, by simpa [clean] using h⟩
  | trapped l log t => exact absurd h (by simp [clean])

/-- A trap's diversion as one check. -/
def divertsOk (s : State) (gh : Nat) (g : Group) (i : Nat) (x : HeldTrap) : Bool :=
  let h := bits g.traptree.toNat 0 16
  decide (i < g.lanes.length) && decide ((laneAt g i).pendTrap = [x]) && liveLane (laneAt g i) && (laneAt g i).saved.isNone &&
  g.waits.isEmpty && (bit g.traptree.toNat 31 && decide (h < prog.nfunc)) &&
  (match fetchSpan s prog (coreAt s 0) (funcVa prog h) 4 with | .ok _ => true | .error _ => false) &&
  (decide (x.place.frames.length < 24) && decide (x.place.frames.length + 1 + (funcEntry s prog h).2 ≤ depthMax g)) &&
  clean (ends s g i (handlerLane s gh g prog i x))

theorem diverts_of {s : State} {gh : Nat} {g : Group} {i : Nat} {x : HeldTrap} (h : divertsOk s gh g i x = true) :
    Diverts s gh g prog 0 i x (standing (ends s g i (handlerLane s gh g prog i x))) := by
  unfold divertsOk at h
  simp only [Bool.and_eq_true, decide_eq_true_eq, Option.isNone_iff_eq_none, List.isEmpty_iff] at h
  obtain ⟨⟨⟨⟨⟨⟨⟨⟨h1, h2⟩, h3⟩, h4⟩, h5⟩, h6⟩, h7⟩, h8⟩, h9⟩ := h
  refine ⟨h1, h2, h3, h4, fun w hw => by rw [h5] at hw; simp at hw, h6, ?_, h8, clean_stands h9⟩
  split at h7
  · exact ⟨_, ‹_›⟩
  · exact absurd h7 (by simp)

/-- The group with two lanes whose operands differ: a divisor of 0 and of 3, an address outside every extent and one inside, and
one aligned to 4 and one to 8. -/
def mixed : Group :=
  { grp with vregs := [(1, 6), (10, 4), (257, 6), (258, 3), (266, 0x30000)] }
def mixedState : State := { withGroup mixed with issue := { Issue.reset with parts := [(1, [0, 1])], len := 4 } }

/-- The hypotheses of an instruction that the lanes 0 and 1 issue. -/
def Parts (i : Instr) : Prop :=
  ∃ l, layout i = some l ∧ legal i = true ∧ partOk mixed l = true ∧ takers mixed l.head [0, 1] = [0, 1]

theorem parts_of {i : Instr} {l : Layout} (h : layout i = some l)
    (k : (legal i && partOk mixed l && (takers mixed l.head [0, 1] == [0, 1])) = true) : Parts i := by
  simp only [Bool.and_eq_true, beq_iff_eq] at k
  exact ⟨l, h, k.1.1, k.1.2, k.2⟩

/-- The value or trap of an Except, as data. -/
def outcome {α : Type} : Except Trap α → Sum Trap α
  | .error t => .inl t
  | .ok a => .inr a

theorem witness_LaneTraps :
    Lone mixedState 1 [0, 1] mixed ∧ mixedState.FilesCanon ∧
    (∀ x ∈ [Instr.idiv (hd 4) false .i32 (.v 1) (.v 2), .irem (hd 4) false .i32 (.v 1) (.v 2), .iadd (hd 4) false .i32 (.v 1) (.v 2),
      .fmul (hd 4) .f32 (.v 1) (.v 2)], Parts x) ∧
      outcome (rdInt (hereAt mixedState 1 mixed 0) .i32 (.v 2)) = .inr 0 ∧ outcome (rdInt (hereAt mixedState 1 mixed 1) .i32 (.v 2)) = .inr 3 ∧
    sget none mixed.latches (4 * 0 + (3 : BitVec 2).toNat) = none ∧
    (Parts (.ldx (hd 4) 3 .ln .weak false (.v 10)) ∧
      (outcome (transBytes (hereAt mixedState 1 mixed 0) kRead (2 ^ 3) 4)).isLeft = true ∧
      (outcome (transBytes (hereAt mixedState 1 mixed 1) kRead (2 ^ 3) 0x30000)).isRight = true) ∧
    Parts (.atom (hd 4) .swap .dev .rlx .n64 (.v 10) (.v 4) none) ∧
      (4 % (fmtBits .n64 / 8) ≠ 0 ∧ 0x30000 % (fmtBits .n64 / 8) = 0 ∧
        (outcome (transWord (hereAt mixedState 1 mixed 1) kAtomic 8 0x30000)).isRight = true) := by
  refine ⟨lone_of prog 0 rfl (by decide) rfl rfl rfl rfl (by decide), filesCanon_of rfl (canon_of_check (by decide)), fun x hx => ?_,
    by decide +kernel, by decide +kernel, rfl, ⟨parts_of rfl (by decide), by decide +kernel⟩, parts_of rfl (by decide), by decide +kernel⟩
  simp at hx
  rcases hx with rfl | rfl | rfl | rfl
  all_goals exact parts_of rfl (by decide)

/-- The group with an access outstanding, whose line is marked, in a lane that goes on or has ended. -/
def marked (ended : Bool) : Group :=
  { grp with pend := [access .load 4 []], lanes := setNth grp.lanes 0 { laneAt grp 0 with exited := ended, pos := if ended then .advance false else .leaf 0 0 } }
def markedState (ended : Bool) : State := { withGroup (marked ended) with poison := [(dataPa / 64, true)] }

theorem witness_LaneTraps_poison :
    ∀ b : Bool, let a := access .load 4 []
    (markedState b).TablesCanon ∧ mfind (markedState b).groups 1 = some (marked b) ∧ (marked b).pend[0]? = some a ∧ a.op ≠ .store ∧
    (markedState b).NoWaits ∧ (∀ i, liveLane (laneAt (marked b) i) = true → ∃ n o, (laneAt (marked b) i).pos = .leaf n o) ∧
    (if b then endedLane (laneAt (marked b) a.lane) = true else liveLane (laneAt (marked b) a.lane) = true) ∧
    mayPerform (markedState b) 1 (marked b) a = true ∧ stalled (markedState b) (marked b) = false ∧
      homesStall (markedState b) a.pas = false ∧ (∀ p ∈ a.pas, keyLive (markedState b) p.2 = true) ∧ accPoisoned (markedState b) a = true := by
  have stand : ∀ b, ∀ i, liveLane (laneAt (marked b) i) = true → ∃ n o, (laneAt (marked b) i).pos = .leaf n o := fun b =>
    at_leaves_of fun i => by
      by_cases h : i = 0
      · cases b <;> subst h
        · exact .inl rfl
        · exact .inr rfl
      · exact .inl (by simp [marked, laneAt, h, Laws.nthD_setNth])
  intro b
  refine ⟨?_, rfl, rfl, by decide, noWaits_of (g := marked _) rfl rfl rfl, stand b, ?_⟩ <;> cases b
  · exact tables_of (by decide +kernel)
  · exact tables_of (by decide +kernel)
  all_goals decide +kernel

/-- The trap that lane i of a group has pending, if its group has eight lanes of which only that one traps. -/
def only (i j : Nat) : Option HeldTrap := if j = i then some heldTrap else none

theorem witness_LaneTraps_diverts :
    ∀ i ∈ [0, 7], let g := struck handling i false
    (withGroup g).TablesCanon ∧ mfind (withGroup g).groups 1 = some g ∧ g.Canon ∧ g.Quiet ∧ progOf (withGroup g) g = some prog ∧
    coreOf g = some 0 ∧ ∃ went : Nat → Lane, ∀ j, match only i j with
      | some y => Diverts (withGroup g) 1 g prog 0 j y (went j)
      | none => (laneAt g j).pendTrap = [] := by
  intro i hi
  have pend : ∀ j, only i j = none → (laneAt (struck handling i false) j).pendTrap = [] := by
    intro j hj
    have hne : j ≠ i := fun h => by simp [only, h] at hj
    have e : laneAt (struck handling i false) j = laneAt grp j := by simp [struck, laneAt, hne, handling, Laws.nthD_setNth]
    rw [e]; exact no_pending j
  have rest : ∀ i ∈ [0, 7], tablesOk (withGroup (struck handling i false)) = true ∧
      divertsOk (withGroup (struck handling i false)) 1 (struck handling i false) i heldTrap = true := by decide +kernel
  have hc : handling.Canon := canon_of_check (by decide)
  obtain ⟨h1, h3⟩ := rest i hi
  refine ⟨tables_of h1, rfl, ⟨hc.1, hc.2, hc.3, hc.4, hc.5, hc.6, hc.7⟩, ⟨rfl, rfl, rfl, rfl, rfl⟩, rfl, rfl,
    fun _ => standing (ends (withGroup (struck handling i false)) (struck handling i false) i
      (handlerLane (withGroup (struck handling i false)) 1 (struck handling i false) prog i heldTrap)), fun j => ?_⟩
  by_cases hj : j = i
  · subst hj
    simpa [only] using diverts_of h3
  · have e : only i j = none := if_neg hj
    rw [e]; exact pend j e

/-! ### Checkpoints -/

/-- The loop's record with its checkpoint flag, and one group. -/
def ckState (g : Group) : State := placeBytes (withGroup g) (slotFrame + 112) 1 0x13

/-- The group with lane 0 in the loop at an offset of its leaf, its k0, a checkpoint or none, and a held byte or none. -/
def looping (off : Nat) (again : Bool) (ck : Option Checkpoint) (held : List (Nat × HeldByte)) : Group :=
  { grp with pitw := grp.pitw + 0x1000000, preds := [(0, if again then 3 else 2)], ck := ck, held := held,
             lanes := setNth grp.lanes 0 { startLane true (.leaf 0 off) with frames := [{ node := 1, child := 0, fn := 0 }] } }

/-- A checkpoint of the loop, and a byte held under it. -/
def loopCk : Checkpoint :=
  { ticket := 0, node := 1, depth := 1, lanes := grp.lanes, preds := [], sregs := [], vregs := [], tiles := [], spad := [], pitw := grp.pitw }
def heldByte : List (Nat × HeldByte) := [(dataPa, { val := 7, lane := 0, va := 0x30000, key := 0 })]

/-- The group's canonical form with a checkpoint. -/
theorem looping_canon (off : Nat) (again : Bool) (ck : Bool) (held : List (Nat × HeldByte)) :
    (ckState (looping off again (if ck then some loopCk else none) held)).FilesCanon := by
  refine filesCanon_of rfl ⟨rfl, rfl, by cases again <;> rfl, rfl, rfl, rfl, fun c hc => ?_⟩
  cases ck
  · exact absurd hc (by simp [looping])
  · obtain rfl : loopCk = c := Option.some.inj hc
    exact ⟨rfl, rfl, rfl, rfl, rfl⟩

/-- Where lane 0 goes from the end of its leaf. -/
def onward (again : Bool) (ck : Option Checkpoint) (held : List (Nat × HeldByte)) : Walked :=
  let g := looping 60 again ck held
  ends (ckState g) g 0 { laneAt g 0 with pos := .advance false }

/-- What all the statement's parts assume, checked. -/
def ckBase (g : Group) (off : Nat) : Bool :=
  let s := ckState g
  memOk s && s.subs.isEmpty && !g.halted && !stalled s g && g.waits.isEmpty && decide (0 < g.lanes.length) && liveLane (laneAt g 0) &&
  (laneAt g 0).pos == .leaf 0 off && mwf g.held && g.held.all (fun p => p.2.key == 0 && isMemory (region s p.1)) && keyLive s 0 &&
  g.pend.isEmpty && s.issue.parts == [(1, [0])] && !s.issue.priv

theorem witness_Checkpoints_moves :
    (∀ g ∈ [looping 60 true none [], looping 60 false (some loopCk) heldByte, looping 60 false none []],
      ckBase g 60 = true ∧ mfind (ckState g).groups 1 = some g ∧ 60 + (ckState g).issue.len = leafLen (ckState g) prog 0) ∧
    legal (.nop k9) = true ∧
    ((walkLog (onward true none [])).hits.getLast? = some (1, 1) ∧ (walkLog (onward true none [])).hits.Nodup ∧
      bit (looping 60 true none []).pitw.toNat 24 = true) ∧
    ((walkLog (onward false (some loopCk) heldByte)).hits = [] ∧ insideCk loopCk (laneAt (looping 60 false (some loopCk) heldByte) 0) = true ∧
      insideCk loopCk (standing (onward false (some loopCk) heldByte)) = false) ∧
    (walkLog (onward false none [])).hits = [] ∧
    ∀ w ∈ [onward true none [], onward false (some loopCk) heldByte, onward false none []],
      w = .stands (standing w) (walkLog w) ∧ (walkLog w).frames = [] ∧ (walkLog w).tret = false := by
  refine ⟨fun g hg => ?_, ?_⟩
  · simp only [List.mem_cons, List.not_mem_nil, or_false] at hg
    rcases hg with rfl | rfl | rfl
    all_goals exact ⟨by decide +kernel, rfl, by decide +kernel⟩
  · decide +kernel

theorem witness_Checkpoints_held :
    let g := looping 0 true (some loopCk) heldByte
    let s := ckState g
    ckBase g 0 = true ∧ s.FilesCanon ∧ mfind s.groups 1 = some g ∧ g.ck = some loopCk ∧ progOf s g = some prog ∧ coreOf g = some 0 ∧
    0 + s.issue.len < leafLen s prog 0 ∧
    (∀ i ∈ [Instr.stx (hd 0) 2 .ln .weak (.v 10) (.v 1), .ldx (hd 4) 2 .ln .weak false (.v 10)], ∃ l, layout i = some l ∧
      legal i = true ∧ guardOn g 0 l.head = true ∧ partOk g l = true) ∧
    rdD (hereAt s 1 g 0) (.v 10) = .ok 0x30000 ∧ storeData (hereAt s 1 g 0) 2 (.v 1) = .ok [6, 0, 0, 0] ∧
    (∀ k ∈ [kRead, kWrite], outcome (transBytes (hereAt s 1 g 0) k (2 ^ 2) 0x30000) = .inr (dataPas 4)) ∧
    ((dataPas 4).map (·.1)).Nodup ∧ (heldChunks g).length + 2 ^ 2 ≤ 128 ∧ legal (.fence k9 .dev) = true ∧
    ∀ x, extSpan (treeOf prog) kFetch 16 (nodeVa prog 0) = .ok x → ∀ y ∈ x, ∀ p ∈ g.held, y.1 / 64 ≠ p.1 / 64 := by
  refine ⟨by decide +kernel, looping_canon 0 true true heldByte, rfl, rfl, rfl, rfl, by decide +kernel, fun i hi => ?_, rfl, rfl, by decide +kernel,
    by decide, by decide, by decide, fun x hx => ?_⟩
  · simp only [List.mem_cons, List.not_mem_nil, or_false] at hi
    rcases hi with rfl | rfl
    all_goals exact ⟨_, rfl, by decide⟩
  · obtain rfl := Except.ok.inj hx
    decide

/-! ### Readiness and private issue -/

/-- The placed NOP in the buffer of lane 0, at the last cycle of its slot's broadcast, which used other lanes. -/
def buffering : State :=
  let s := nopped []
  let g := { slotGroup with lanes := setNth slotGroup.lanes 0 { laneAt slotGroup 0 with buffer := [{ node := 0, off := 0, bytes := 0x14 }] } }
  setCore { s with groups := [(0, g)] } 0 { coreAt s 0 with bcast := [(0, cycOf s 0, [1])] }

/-- Whether a private issue is ready, and of what. -/
def private0 : Option (Instr × Nat × Bool) :=
  match preparePriv buffering 0 0 0 with
  | .run i t => some (i, t.issue.bytes, t.issue.priv)
  | _ => none

theorem witness_IssueHolds :
    (let s := nopped []
     let p := slotProgram 4
     mfind s.groups 0 = some slotGroup ∧ progOf s slotGroup = some p ∧ (laneAt slotGroup 0).pos = .leaf 0 0 ∧
      fetchAt s p (coreAt s 0) (instrVa s p 0 0) = .word 0x14 4 0x14 ∧ instrOf s p 0 0 0x14 4 0x14 = .nop k9 ∧
      (layout (.nop k9)).isSome = true ∧ (candOf s 0 0 slotGroup 0).isSome = true) ∧
    private0 = some (.nop k9, 0x14, true) := by
  decide +kernel

/-! ### Values -/

theorem witness_FloatValues :
    (∀ t ∈ [Fmt.f32, .f16, .bf16], fmtFloat t = true ∧ 0 < fpMag t (fpSign t + 1) ∧ fpMag t (fpSign t + 1) < fpInf t ∧
      fpMag t (fpInf t) = fpInf t ∧ fpInf t < fpMag t (genNaN t 1 1) ∧ genNaN t 1 1 < 2 ^ fmtBits t ∧ fpNeg t (fpSign t + 1) = true ∧
      fpNeg t (fpInf t) = false ∧ fpMag t (fpSign t) = 0) ∧
    (∀ k ∈ [Fmt.i8, .n8, .i16, .n16, .i32, .n32, .i64, .n64], fmtInt k = true) ∧
    codeValue .f32 0x3FC00000 = 3 / 2 ∧ codeValue .f32 0xC1A80000 = ((-21 : Int) : Rat) ∧ codeValue .f32 1 = twoTo (-149) := by
  decide +kernel

theorem witness_MatrixValues :
    (∀ t ∈ [Fmt.ln6, .ln8, .i8, .bf16, .f16], (List.replicate 384 (1 : Byte)).length = 384 ∧ 0 < 3072 / fmtBits t) ∧
    (∀ t ∈ [Fmt.ln6, .ln8, .i8], let top := 2 ^ (fmtBits t - 1)
      ([1, top + 1] : List Nat).length = [top - 1, 0].length ∧ (∀ x ∈ [1, top + 1] ++ [top - 1, 0], x < 2 ^ fmtBits t ∧ x ≠ top) ∧ top < 2 ^ fmtBits t) ∧
    (∀ t ∈ [Fmt.bf16, .f16], (List.replicate 192 (1 : Nat)).length = 192 ∧ ∀ x ∈ [1, fpInf t, fpSign t, genNaN t 1 1], x < 2 ^ 16) ∧
    (∀ n ∈ [16, 32, 64], 1024 / n - 1 < 1024 / n ∧ (List.replicate 1024 (0x3F800000 : Nat)).length = 1024) ∧
    (∀ x ∈ [0x3F800000, 0x80000000, 0x7F800000, 0x7FC00011], x < 2 ^ 32) ∧
    (fpMag .f32 0x3F800000 < fpInf .f32 ∧ fpMag .f32 0x7F800000 = fpInf .f32 ∧ fpInf .f32 < fpMag .f32 0x7FC00011) ∧
    (List.replicate (2 ^ 3) (0 : Nat)).length = 2 ^ 3 := by
  decide +kernel

/-! ### The service cores -/

/-- The machine whose service core k has bytes at its pc, and its interrupt pending and enabled or not. -/
def cored (k w : Nat) (irq : Bool) : State :=
  let s := placeBytes (permit idle [(0, initService k)]) slotFrame 4 w
  let x := { Service.reset with pc := BitVec.ofNat 64 slotFrame, irq := irq, mstatus := 8 }
  { s with services := [(k, csrSet x 0x304 2048)], agenda := [{ after := 0, what := .service k false }] }

theorem witness_ServiceCore :
    (∀ k ∈ [0, 15],
      (let s := cored k 0x00730393 false
       let u := now s
       s.agenda = [{ after := 0, what := .service k false }] ∧ u.pkg.power = true ∧ irqNow (serviceAt u k) = none ∧
        (serviceAt u k).pc.toNat = slotFrame ∧ slotFrame % 2 = 0 ∧ meets u k slotFrame 2 1 causeLoadMisaligned = .clear ∧
        serviceNum u slotFrame 2 % 4 = 3 ∧ meets u k (slotFrame + 2) 2 1 causeLoadMisaligned = .clear ∧
        decodeService (serviceNum u slotFrame 2 + 65536 * serviceNum u (slotFrame + 2) 2) = .base) ∧
      (let u := now (cored k 0x4505 false)
       serviceNum u slotFrame 2 % 4 ≠ 3 ∧ (expandC (serviceNum u slotFrame 2)).isSome = true) ∧
      (let u := now (cored k 0 false)
       serviceNum u slotFrame 2 % 4 ≠ 3 ∧ (expandC (serviceNum u slotFrame 2)).isNone = true) ∧
      irqNow (serviceAt (now (cored k 0x4505 true)) k) = some 11 ∧
      servicePermitted { now (cored k 0x4505 false) with tables := [] } k slotFrame 2 1 = false) ∧
    (∀ k ∈ [0, 15], let s := cored k 0 false
      Base s ∧ (∀ size ∈ [1, 2, 4, 8], meets s k slotFrame size 1 causeLoadMisaligned = .clear ∧
        meets s k slotFrame size 2 causeStoreMisaligned = .clear ∧ slotFrame % size = 0) ∧ s.subs = [] ∧
      frameView s slotFrame = some .plain ∧ entryPair s slotFrame = none ∧
      (∀ j, j < 8 → isMemory (region s (slotFrame + j)) = true ∧ badAt s (slotFrame + j) = false) ∧
      (serviceAt s k).resv ≠ some (slotFrame / 8 * 8, 8) ∧ servicePermitted s k 0x018000000000 8 1 = true) ∧
    (let x := serviceAt (cored 0 0 true) 0
     x.mode = 3 ∧ x.mode < 4 ∧ x.irq = true ∧ (csrGet x 0x304).testBit 11 = true ∧ (csrGet x 0x303).testBit 11 = false ∧
      x.mstatus.getLsbD 3 = true ∧ (csrGet x 0x302).testBit 2 = false) := by
  refine ⟨fun k hk => ?_, fun k hk => ?_, by decide +kernel⟩
  all_goals
    simp only [List.mem_cons, List.not_mem_nil, or_false] at hk
    rcases hk with rfl | rfl
  · decide +kernel
  · decide +kernel
  · exact ⟨base_of (by decide +kernel), by decide +kernel⟩
  · exact ⟨base_of (by decide +kernel), by decide +kernel⟩

end Sys2Proof.Tests
end

/-! Package, layers, cores and power (01, 02 R42, R43; family O25 to O28, O53). -/

namespace Sys2Proof.Proofs

open Sys2Proof.Machine Sys2Proof.Laws

/-! ### Canonical tables and counted lists -/

/-- In a canonical array every listed key lies above the bound. -/
theorem swfFrom_lt {α : Type} [DecidableEq α] {d : α} {l : List (Nat × α)} {b k : Nat} {v : α}
    (h : swfFrom d (some b) l = true) (hm : (k, v) ∈ l) : b < k := by
  induction l generalizing b with
  | nil => simp at hm
  | cons p r ih =>
    obtain ⟨k', v'⟩ := p
    simp only [swfFrom, Bool.and_eq_true, decide_eq_true_eq] at h
    obtain ⟨⟨hk, -⟩, hr⟩ := h
    rcases List.mem_cons.1 hm with h1 | h1
    · cases h1; exact hk
    · exact Nat.lt_trans hk (ih hr h1)

/-- A canonical array reads at each listed key what is listed there. -/
theorem sget_of_mem_from {α : Type} [DecidableEq α] {d : α} {l : List (Nat × α)} {b : Option Nat} {k : Nat} {v : α}
    (h : swfFrom d b l = true) (hm : (k, v) ∈ l) : sget d l k = v := by
  induction l generalizing b with
  | nil => simp at hm
  | cons p r ih =>
    obtain ⟨k', v'⟩ := p
    simp only [swfFrom, Bool.and_eq_true] at h
    rcases List.mem_cons.1 hm with h1 | h1
    · cases h1; simp [sget]
    · have hlt := swfFrom_lt h.2 h1
      simp [sget, Nat.ne_of_lt hlt, Nat.lt_asymm hlt, ih h.2 h1]

/-- A canonical array reads at each listed key what is listed there. -/
theorem sget_of_mem {α : Type} [DecidableEq α] {d : α} {l : List (Nat × α)} {k : Nat} {v : α}
    (h : swf d l = true) (hm : (k, v) ∈ l) : sget d l k = v := sget_of_mem_from h hm

/-- What an array reads is listed there, or is the value of an unlisted key. -/
theorem sget_mem_or {α : Type} (d : α) (l : List (Nat × α)) (k : Nat) : (k, sget d l k) ∈ l ∨ sget d l k = d := by
  induction l with
  | nil => exact .inr rfl
  | cons p r ih =>
    obtain ⟨k', v⟩ := p
    simp only [sget]
    split
    · next h => subst h; simp
    · split
      · exact .inr rfl
      · exact ih.imp (List.mem_cons_of_mem _) id

@[simp] theorem mem_upFrom {x n a : Nat} : x ∈ upFrom n a ↔ a ≤ x ∧ x < a + n := by
  induction n generalizing a with
  | zero => simp [upFrom]
  | succ n ih => simp only [upFrom, List.mem_cons, ih]; omega

theorem nodup_upFrom (n a : Nat) : (upFrom n a).Nodup := by
  induction n generalizing a with
  | zero => simp [upFrom]
  | succ n ih => exact List.nodup_cons.2 ⟨fun h => absurd (mem_upFrom.1 h).1 (by omega), ih (a + 1)⟩

/-- A list of pairs numbered from a: number a + i stands with the i-th. -/
theorem mem_zip_upFrom {α : Type} {n : Nat} {x : α} {l : List α} {a : Nat} :
    (n, x) ∈ List.zip (upFrom l.length a) l ↔ a ≤ n ∧ l[n - a]? = some x := by
  induction l generalizing a with
  | nil => simp
  | cons y r ih =>
    simp only [List.length_cons, upFrom, List.zip_cons_cons, List.mem_cons, Prod.mk.injEq, ih]
    rcases Nat.lt_trichotomy n a with h | rfl | h
    · have : ¬ (a ≤ n) := by omega
      have : ¬ (a + 1 ≤ n) := by omega
      have : n ≠ a := by omega
      simp [*]
    · have hlater : ¬ n + 1 ≤ n := Nat.not_succ_le_self n
      simp [hlater, eq_comm]
    · obtain ⟨k, rfl⟩ : ∃ k, n = a + (k + 1) := ⟨n - a - 1, by omega⟩
      have h1 : a + (k + 1) - (a + 1) = k := by omega
      simp [h1]

/-! ### Layers and cores after a write -/

theorem layerAt_congr {s t : State} (h : t.layers = s.layers) (n : Nat) : layerAt t n = layerAt s n := by
  simp only [layerAt, h]

theorem layerAt_setLayer {s : State} (h : swf Layer.reset s.layers = true) (n : Nat) (x : Layer) (k : Nat) :
    layerAt (setLayer s n x) k = if k = n then x else layerAt s k := sget_sset _ _ _ _ _ h

theorem layerAt_setLayer_same {s : State} (h : swf Layer.reset s.layers = true) (n : Nat) (x : Layer) :
    layerAt (setLayer s n x) n = x := by simp [layerAt_setLayer h]

theorem layerAt_setLayer_other {s : State} (h : swf Layer.reset s.layers = true) {n k : Nat} (x : Layer) (hk : k ≠ n) :
    layerAt (setLayer s n x) k = layerAt s k := by simp [layerAt_setLayer h, hk]

theorem layers_canon_setLayer {s : State} (h : swf Layer.reset s.layers = true) (n : Nat) (x : Layer) :
    swf Layer.reset (setLayer s n x).layers = true := swf_sset _ _ _ _ h

theorem coreAt_congr {s t : State} (h : t.cores = s.cores) (c : Nat) : coreAt t c = coreAt s c := by
  simp only [coreAt, h]

theorem coreAt_setCore {s : State} (h : swf Core.reset s.cores = true) (c : Nat) (x : Core) (k : Nat) :
    coreAt (setCore s c x) k = if k = c then x else coreAt s k := sget_sset _ _ _ _ _ h

/-- A run of steps that each leave a part of the state alone leaves it alone. -/
theorem foldl_leaves {α β γ : Type} (get : β → γ) {f : β → α → β} (hf : ∀ s a, get (f s a) = get s) (l : List α) (s : β) :
    get (l.foldl f s) = get s :=
  List.foldlRecOn (motive := fun t => get t = get s) l f rfl fun t h a _ => (hf t a).trans h

/-- A run of steps, each on a layer of its own: each layer is as its own step leaves it, and the others stay. -/
theorem layerAt_foldl {α : Type} {f : State → α → State} {key : α → Nat} {P : State → Prop} {R : α → Layer → Layer → Prop}
    (hP : ∀ s a, P s → P (f s a)) (hR : ∀ s a, P s → R a (layerAt s (key a)) (layerAt (f s a) (key a)))
    (hk : ∀ s a n, P s → n ≠ key a → layerAt (f s a) n = layerAt s n)
    {l : List α} (hl : (l.map key).Nodup) {s : State} (hs : P s) :
    (∀ a ∈ l, R a (layerAt s (key a)) (layerAt (l.foldl f s) (key a))) ∧
      ∀ n, n ∉ l.map key → layerAt (l.foldl f s) n = layerAt s n := by
  induction l generalizing s with
  | nil => simp
  | cons a r ih =>
    obtain ⟨ha, hr⟩ := List.nodup_cons.1 hl
    obtain ⟨hin, hout⟩ := ih hr (hP s a hs)
    refine ⟨fun b hb => ?_, fun n hn => ?_⟩
    · rcases List.mem_cons.1 hb with rfl | hb
      · exact (hout _ ha).symm ▸ hR s b hs
      · have hne : key b ≠ key a := fun h => ha (h ▸ List.mem_map_of_mem hb)
        have := hin b hb
        rwa [hk s a _ hs hne] at this
    · simp only [List.map_cons, List.mem_cons, not_or] at hn
      exact (hout n hn.2).trans (hk s a n hs hn.1)

/-! ### Waits re-checked where there are none -/

/-- Where no group waits, re-checking the waits changes nothing. -/
theorem wake_of_noWaits {s : State} (h : ∀ p ∈ s.groups, p.2.waits = []) : wake s = s := by
  have hnone : s.groups.filter (fun p => p.2.waits ≠ []) = [] := by
    simpa [List.filter_eq_nil_iff] using fun a b hb => h (a, b) hb
  unfold wake
  rw [hnone, List.foldl_nil]

/-! ### O53: the state after reset -/

/-- Settles O53: every table is empty, so each register reads as its reset record gives it. -/
theorem resetState : Obligations.ResetState := by
  unfold Obligations.ResetState
  refine ⟨⟨rfl, rfl, rfl, rfl, rfl, rfl, rfl⟩, fun p hp => (List.not_mem_nil hp).elim,
    ⟨rfl, rfl, rfl, rfl, rfl, rfl, rfl, rfl, rfl, rfl, rfl, rfl, rfl, rfl, rfl, rfl, rfl⟩, fun n => ?_, rfl, rfl, rfl, rfl, rfl, rfl⟩
  have hl : layerAt State.reset n = Layer.reset := rfl
  have hp : portAt State.reset n = Port.reset := rfl
  have hk : sget MemKey.reset State.reset.keys n = MemKey.reset := rfl
  refine ⟨by simp only [lstat, hl]; decide, by simp only [vstat, hp]; decide, by simp only [kattr, hk]; decide,
    rfl, rfl, rfl, rfl, fun hw off hoff => ?_⟩
  have h20 : off ≠ 0x20 ∧ off ≠ 0x40 ∧ off ≠ 0x48 ∧ off ≠ 0x50 ∧ off ≠ 0x58 ∧ off ≠ 0x60 := by omega
  obtain ⟨h20, h40, h48, h50, h58, h60⟩ := h20
  have hq : queueAt State.reset n = Queue.reset := rfl
  simp only [queueReg, hq, if_neg h20, if_neg h40, if_neg h48, if_neg h50, if_neg h58, if_neg h60]
  (repeat' split) <;> rfl

/-! ### O28: clocks, the power cap and time exchanges -/

/-- A layer's clock replaced: the rest of the layer stays, and so do the other layers. -/
theorem layerAt_setClock {s : State} (h : swf Layer.reset s.layers = true) (n : Nat) (k : Clock) (j : Nat) :
    layerAt (setClock s (.layer n) k) j = if j = n then { layerAt s n with clock := k } else layerAt s j :=
  layerAt_setLayer h n _ j

theorem layerAt_setClock_same {s : State} (h : swf Layer.reset s.layers = true) (n : Nat) (k : Clock) :
    layerAt (setClock s (.layer n) k) n = { layerAt s n with clock := k } := layerAt_setLayer_same h n _

theorem layers_canon_setClock {s : State} (h : swf Layer.reset s.layers = true) (n : Nat) (k : Clock) :
    swf Layer.reset (setClock s (.layer n) k).layers = true := layers_canon_setLayer h n _

/-- An island of a layer that does not relock starts towards another code (R22). -/
theorem layerAt_askClock_starts {s : State} (h : swf Layer.reset s.layers = true) {n c : Nat}
    (hr : (layerAt s n).clock.relock = none) (hc : c ≠ (layerAt s n).clock.code) :
    layerAt (askClock s (.layer n) c) n = { layerAt s n with clock := startRelock s (layerAt s n).clock c } := by
  simp [askClock, clockOf, hr, hc, layerAt_setClock_same h]

/-- A layer's island that does not relock comes to run at the code it is asked for (R22). -/
theorem code_askClock {s : State} (h : swf Layer.reset s.layers = true) {n : Nat} (c : Nat)
    (hr : (layerAt s n).clock.relock = none) : (layerAt (askClock s (.layer n) c) n).clock.code = c := by
  by_cases hc : c = (layerAt s n).clock.code
  · simp [askClock, clockOf, hr, hc]
  · rw [layerAt_askClock_starts h hr hc]
    rfl

/-- What a request to a layer's island writes: that layer, or nothing. -/
theorem askClock_layer (s : State) (n c : Nat) :
    askClock s (.layer n) c = s ∨ ∃ x, askClock s (.layer n) c = setLayer s n x := by
  dsimp only [askClock, setClock]
  split
  · split
    · exact .inl rfl
    · exact .inr ⟨_, rfl⟩
  · split
    · exact .inl rfl
    · exact .inr ⟨_, rfl⟩

theorem layerAt_askClock_other {s : State} (h : swf Layer.reset s.layers = true) {n k : Nat} (c : Nat) (hk : k ≠ n) :
    layerAt (askClock s (.layer n) c) k = layerAt s k := by
  rcases askClock_layer s n c with hs | ⟨x, hs⟩ <;> rw [hs]
  exact layerAt_setLayer_other h x hk

theorem layers_canon_askClock {s : State} (h : swf Layer.reset s.layers = true) (n c : Nat) :
    swf Layer.reset (askClock s (.layer n) c).layers = true := by
  rcases askClock_layer s n c with hs | ⟨x, hs⟩ <;> rw [hs]
  · exact h
  · exact layers_canon_setLayer h n x

theorem time_askClock_layer (s : State) (n c : Nat) : (askClock s (.layer n) c).time = s.time := by
  rcases askClock_layer s n c with hs | ⟨x, hs⟩ <;> rw [hs]
  rfl

/-- The ceiling of a package with a profile is that profile's (R21). -/
theorem ceiling_of_profile {s : State} {p : Profile} (h : s.pkg.profile = some p) : ceiling s = (profileOf p).2.2 := by
  simp [ceiling, h]

theorem profile_top_le (p : Profile) : (profileOf p).2.2 ≤ 28 := by cases p <;> decide

/-- No profile's ceiling refuses a request within it to a layer that computes or serves memory (R22). -/
theorem badFreq_false {s : State} {n c : Nat} {p : Profile} (hp : s.pkg.profile = some p) (hc : c ≤ (profileOf p).2.2)
    (hr : (layerAt s n).role = .compute ∨ (layerAt s n).role = .memory) : badFreq s (.layer n) c = false := by
  have htop := profile_top_le p
  rcases hr with hr | hr <;> simp [badFreq, ceiling_of_profile hp, hr] <;> omega

/-- A request beyond every code, beyond the ceiling, or to a layer without a clock of its own is refused (R22). -/
theorem badFreq_true {s : State} {n c : Nat} (h : 28 < c ∨ (∃ p, s.pkg.profile = some p ∧ (profileOf p).2.2 < c) ∨
    (layerAt s n).role = .fenced ∨ (layerAt s n).role = .unassigned) : badFreq s (.layer n) c = true := by
  rcases h with h | ⟨p, hp, h⟩ | h | h
  · simp [badFreq, h]
  · simp [badFreq, ceiling_of_profile hp, h]
  · simp [badFreq, h]
  · simp [badFreq, h]

theorem exec_freqRequest_refused {s : State} {n c : Nat} (hn : n < 8) (hp : s.pkg.power = true)
    (hb : badFreq s (.layer n) c = true) : exec (.freqRequest (.layer n) c) s = .next (emit s (.status 3)) := by
  change execFreqRequest _ _ _ = _
  simp [execFreqRequest, islandOk, hn, hp, hb]

/-- A permitted request for another code, while no relock is under way, sets the target and starts the relock (R22, R23). -/
theorem exec_freqRequest_starts {s : State} {n c : Nat} (hn : n < 8) (hp : s.pkg.power = true)
    (hb : badFreq s (.layer n) c = false) (hc : c ≠ (layerAt s n).clock.code) :
    exec (.freqRequest (.layer n) c) s =
      .next (askClock (setClock s (.layer n) { (layerAt s n).clock with target := c }) (.layer n) c) := by
  change execFreqRequest _ _ _ = _
  simp [execFreqRequest, islandOk, hn, hp, hb, clockOf, hc]

/-- A port that sends a flit touches neither layers nor groups. -/
theorem layers_groups_sendFlit (s : State) (n : Nat) (slot : Bool) (kind cls : Nat) (payload : List Byte) :
    (sendFlit s n slot kind cls payload).layers = s.layers ∧ (sendFlit s n slot kind cls payload).groups = s.groups := by
  dsimp only [sendFlit]
  split <;> exact ⟨rfl, rfl⟩

/-- A port that sends its MARKER touches neither layers nor groups. -/
theorem layers_groups_sendMarker (s : State) (n : Nat) :
    (sendMarker s n).layers = s.layers ∧ (sendMarker s n).groups = s.groups := by
  dsimp only [sendMarker]
  split
  · exact layers_groups_sendFlit s n _ 1 3 []
  · exact ⟨rfl, rfl⟩

/-- The ports that run again after a relock touch neither layers nor groups. -/
theorem layers_groups_sendMarkers (l : List Nat) (s : State) :
    (l.foldl sendMarker s).layers = s.layers ∧ (l.foldl sendMarker s).groups = s.groups :=
  ⟨foldl_leaves State.layers (fun s n => (layers_groups_sendMarker s n).1) l s,
    foldl_leaves State.groups (fun s n => (layers_groups_sendMarker s n).2) l s⟩

/-- A relock whose end has come, with no request waiting, ends in its layer alone (R22). -/
theorem exec_relockEnd {s : State} {n e : Nat} (hw : s.NoWaits) (hr : (layerAt s n).clock.relock = some e)
    (he : (s.time.now - BitVec.ofNat 64 e).toNat < 2 ^ 63) (hq : (layerAt s n).clock.waiting = none) :
    ∃ t, exec (.relockEnd (.layer n)) s = .next t ∧
      t.layers = (setClock s (.layer n) { (layerAt s n).clock with relock := none, waiting := none }).layers := by
  have hreach : reached s.time.now (BitVec.ofNat 64 e) = true := by
    simp only [reached, decide_eq_true_eq]
    omega
  obtain ⟨hl, hg⟩ := layers_groups_sendMarkers (upFrom 16 0)
    (setClock s (.layer n) { (layerAt s n).clock with relock := none, waiting := none })
  refine ⟨wake ((upFrom 16 0).foldl sendMarker
    (setClock s (.layer n) { (layerAt s n).clock with relock := none, waiting := none })), ?_, ?_⟩
  · change execRelockEnd _ _ = _
    simp [execRelockEnd, clockOf, hr, hreach, hq]
  · rw [wake_of_noWaits fun p hp => hw.1 p (hg ▸ hp), hl]

/-- One layer's part of a step of the power cap (R24). -/
def stepLayer (f : Clock → Nat) (s : State) (n : Nat) : State :=
  if (layerAt s n).role = .compute then askClock s (.layer n) (f (layerAt s n).clock) else s

/-- A step of the power cap steps the eight layers in turn, and is counted from then. -/
theorem stepLayers_eq (s : State) (f : Clock → Nat) :
    (stepLayers s f).layers = ((upFrom 8 0).foldl (stepLayer f) s).layers ∧
      (stepLayers s f).pkg.lastStep = ((upFrom 8 0).foldl (stepLayer f) s).time.now.toNat := by
  have hf : stepLayer f = fun st n =>
    if (layerAt st n).role = .compute then askClock st (.layer n) (f (layerAt st n).clock) else st := rfl
  simp only [stepLayers, hf, and_self]

theorem layers_canon_stepLayer {s : State} (h : swf Layer.reset s.layers = true) (f : Clock → Nat) (n : Nat) :
    swf Layer.reset (stepLayer f s n).layers = true := by
  unfold stepLayer
  split
  · exact layers_canon_askClock h _ _
  · exact h

theorem layerAt_stepLayer_other {s : State} (h : swf Layer.reset s.layers = true) (f : Clock → Nat) {n k : Nat} (hk : k ≠ n) :
    layerAt (stepLayer f s n) k = layerAt s k := by
  unfold stepLayer
  split
  · exact layerAt_askClock_other h _ hk
  · rfl

theorem time_stepLayer (f : Clock → Nat) (s : State) (n : Nat) : (stepLayer f s n).time = s.time := by
  unfold stepLayer
  split
  · exact time_askClock_layer s n _
  · rfl

/-- A compute layer that does not relock comes to run at the code its step asks for; another keeps its code (R24). -/
theorem code_stepLayer {s : State} (h : swf Layer.reset s.layers = true) (f : Clock → Nat) {n : Nat}
    (hr : (layerAt s n).clock.relock = none) : (layerAt (stepLayer f s n) n).clock.code =
      if (layerAt s n).role = .compute then f (layerAt s n).clock else (layerAt s n).clock.code := by
  unfold stepLayer
  split
  · exact code_askClock h _ hr
  · rfl

/-- A step of the power cap changes each compute layer that does not relock as asked, and no other layer (R24). -/
theorem code_stepLayers {s : State} (h : swf Layer.reset s.layers = true) (f : Clock → Nat) {n : Nat} (hn : n < 8)
    (hr : (layerAt s n).clock.relock = none) : (layerAt (stepLayers s f) n).clock.code =
      if (layerAt s n).role = .compute then f (layerAt s n).clock else (layerAt s n).clock.code := by
  obtain ⟨hin, -⟩ := layerAt_foldl (f := stepLayer f) (key := fun k => k) (P := fun s => swf Layer.reset s.layers = true)
    (R := fun _ x y => x.clock.relock = none →
      y.clock.code = if x.role = .compute then f x.clock else x.clock.code)
    (fun st k hst => layers_canon_stepLayer hst f k) (fun st k hst => code_stepLayer hst f)
    (fun st k j hst hj => layerAt_stepLayer_other hst f hj) (l := upFrom 8 0) (by simpa using nodup_upFrom 8 0) h
  rw [layerAt_congr (stepLayers_eq s f).1]
  exact hin n (mem_upFrom.2 ⟨Nat.zero_le n, by omega⟩) hr

/-- A step of the power cap is counted from the time it is made (R24). -/
theorem lastStep_stepLayers (s : State) (f : Clock → Nat) : (stepLayers s f).pkg.lastStep = s.time.now.toNat := by
  have htime := foldl_leaves State.time (time_stepLayer f) (upFrom 8 0) s
  rw [(stepLayers_eq s f).2, htime]

theorem exec_powerSample {s : State} {p : Profile} (hp : s.pkg.profile = some p) (mw : Nat) :
    ∃ t, exec (.powerSample mw) s = .next t ∧ t.pkg.overCap = decide (capOf p < mw) ∧ t.layers = s.layers := by
  have h : exec (.powerSample mw) s = execPowerSample mw s := rfl
  simp only [execPowerSample, hp] at h
  exact ⟨_, h, rfl, rfl⟩

theorem exec_powerStepDown {s : State} (ho : s.pkg.overCap = true)
    (hd : 100000 * 65536 ≤ (s.time.now - BitVec.ofNat 64 s.pkg.lastStep).toNat) :
    exec .powerStepDown s = .next (stepLayers s fun k => nextCode k - 1) := by
  change execPowerStepDown s = _
  have hdue : stepDue s = true := decide_eq_true hd
  simp [execPowerStepDown, ho, hdue]

theorem exec_powerStepUp {s : State} {p : Profile} (ho : s.pkg.overCap = false) (hp : s.pkg.profile = some p)
    (hu : 1000000 * 65536 ≤ (s.time.now - BitVec.ofNat 64 s.pkg.underSince).toNat)
    (hd : 100000 * 65536 ≤ (s.time.now - BitVec.ofNat 64 s.pkg.lastStep).toNat) :
    exec .powerStepUp s = .next (stepLayers s fun k => if nextCode k < k.target then nextCode k + 1 else nextCode k) := by
  change execPowerStepUp s = _
  have hdue : stepDue s = true := decide_eq_true hd
  have hunder : decide (1000000 * 65536 ≤ elapsed s s.pkg.underSince) = true := decide_eq_true hu
  simp only [execPowerStepUp, ho, hp, hunder, hdue, Option.isSome_some, Bool.not_false, Bool.and_self, if_true]

/-- An exchange with the host slews its offset, or steps a forward one beyond 10 µs, in the time unit alone (R42, R43). -/
theorem exec_timeExchange_host {s : State} (d : Int) (hs : s.time.tsrc = 1) (hp : s.pkg.power = true) :
    exec (.timeExchange .host d) s = .next (discipline s d) := by
  change execTimeExchange .host d s = _
  simp [execTimeExchange, hs, hp]

theorem time_discipline (s : State) (d : Int) :
    (discipline s d).time.tsync = true ∧
      (discipline s d).time.now = (if 10000 * 65536 < d then s.time.now + BitVec.ofInt 64 d else s.time.now) ∧
      (discipline s d).time.slew = (if 10000 * 65536 < d then 0 else d) ∧ { discipline s d with time := s.time } = s := by
  have hlim : d > ((10000 * 65536 : Nat) : Int) ↔ 10000 * 65536 < d := by omega
  simp only [discipline, hlim]
  by_cases h : 10000 * 65536 < d
  · simp only [if_pos h, and_self]
  · simp only [if_neg h, and_self]

/-- A lost source ends synchronisation, with its trap (R42, R43). -/
theorem exec_tsyncLoss {s : State} (hon : s.time.tsync = true ∨ (s.time.tsrc ≠ 0 ∧ s.time.tlost = false))
    (hlost : 2000000000 * 65536 ≤ s.time.quiet ∨ (s.time.tsrc = 2 ∧ (portAt s s.time.tport).state ≠ .up)) :
    ∃ ppm, exec .tsyncLoss s = .next (emit { s with time := { s.time with tsync := false, tlost := true, slew := 0, ppm := ppm } }
      (.trap 0x43 s.time.tport)) := by
  have hsrc : sourceLost s = true := by simpa [sourceLost] using hlost
  have htime : (s.time.tsync || (s.time.tsrc != 0 && !s.time.tlost)) = true := by simpa using hon
  have h : exec .tsyncLoss s = execTsyncLoss s := rfl
  simp only [execTsyncLoss, hsrc, htime, Bool.and_self, if_true] at h
  exact ⟨_, h⟩

/-- Settles O28: each clause is what its step writes to one layer's clock, to the package, or to the time unit. -/
theorem clocks : Obligations.Clocks := by
  unfold Obligations.Clocks
  refine ⟨fun s hc hp => ⟨?_, ?_, ?_, ?_, ?_, ?_⟩, fun s d => ⟨?_, ?_⟩⟩
  · intro n c p hn hprof hle hrole hr hne
    have hcanon := layers_canon_setClock hc.layers n { (layerAt s n).clock with target := c }
    have hsame := layerAt_setClock_same hc.layers n { (layerAt s n).clock with target := c }
    refine ⟨_, exec_freqRequest_starts hn hp (badFreq_false hprof hle hrole) hne, ?_⟩
    rw [layerAt_askClock_starts hcanon (by rw [hsame]; exact hr) (by rw [hsame]; exact hne), hsame]
    refine ⟨rfl, rfl, rfl, fun k hk => ?_⟩
    rw [layerAt_askClock_other hcanon c hk, layerAt_setClock hc.layers, if_neg hk]
  · exact fun n c hn h => exec_freqRequest_refused hn hp (badFreq_true h)
  · intro n e _ hw hr _ he hq
    obtain ⟨t, ht, hl⟩ := exec_relockEnd hw hr he hq
    refine ⟨t, ht, ?_⟩
    simp only [layerAt_congr hl, layerAt_setClock hc.layers, if_true]
    exact ⟨trivial, trivial, fun k hk => if_neg hk⟩
  · exact fun p mw hprof => exec_powerSample hprof mw
  · refine fun ho hd => ⟨_, exec_powerStepDown ho hd, lastStep_stepLayers _ _, fun n hn hr hq => ?_⟩
    rw [code_stepLayers hc.layers _ hn hr]
    simp [nextCode, hq]
  · refine fun p ho hprof hu hd => ⟨_, exec_powerStepUp ho hprof hu hd, lastStep_stepLayers _ _, fun n hn hr hq => ?_⟩
    rw [code_stepLayers hc.layers _ hn hr]
    by_cases hrole : (layerAt s n).role = .compute
    · simp only [nextCode, hq, Option.getD_none, hrole, if_true, true_and]
    · simp only [hrole, if_false, false_and]
  · exact fun hs hp => ⟨_, exec_timeExchange_host d hs hp, time_discipline s d⟩
  · intro hon hlost
    obtain ⟨ppm, h⟩ := exec_tsyncLoss hon hlost
    exact ⟨_, h, rfl, rfl, rfl, rfl, rfl⟩

/-! ### O25: power-off, PERST# and bring-up -/

/-- Whether the images verify depends on the images alone (R64). -/
theorem bootChain_verdict (k : Nat) (above : Option BootImage) (l : List BootImage) (p q : Pkg) :
    (bootChain k above l p).2 = (bootChain k above l q).2 := by
  induction l generalizing k above p q with
  | nil => rfl
  | cons x r ih =>
    simp only [bootChain]
    split
    · exact ih _ _ _ _
    · rfl

/-- The chain of trust writes measurements and versions alone (R65). -/
theorem bootChain_pkg (k : Nat) (above : Option BootImage) (l : List BootImage) (p : Pkg) :
    (bootChain k above l p).1.power = p.power ∧ (bootChain k above l p).1.rdy = p.rdy ∧
      (bootChain k above l p).1.out = p.out := by
  induction l generalizing k above p with
  | nil => exact ⟨rfl, rfl, rfl⟩
  | cons x r ih =>
    simp only [bootChain]
    split
    · exact ih _ _ (extendMreg p x)
    · exact ⟨rfl, rfl, rfl⟩

/-- The package after the chain of trust, before its links train (R29, R64). -/
def booted (s : State) (b : BringUp) : State :=
  { s with pkg := (bootChain 0 none b.images { s.pkg with power := true, bar4 := Nat.min 5 b.bar4 }).1 }

/-- The end of PERST# without power: the chain of trust, and bring-up where all three images verify (R29, R64). -/
theorem exec_perstRelease {s : State} (b : BringUp) (hp : s.pkg.power = false) :
    exec (.perstRelease b) s = .next
      (if (bootChain 0 none b.images { s.pkg with power := true }).2 && b.images.length == 3 then bringUp (booted s b) b
        else booted s b) := by
  rw [bootChain_verdict 0 none b.images _ { s.pkg with power := true, bar4 := Nat.min 5 b.bar4 }]
  change execPerstRelease b s = _
  simp only [execPerstRelease, hp, Bool.false_eq_true, if_false, booted]
  split <;> rfl

/-- The test of the cores touches neither memory nor the package, and keeps the layers' table canonical (R435). -/
structure CoresTested (s t : State) : Prop where
  mem : t.mem = s.mem
  pkg : t.pkg = s.pkg
  layers : swf Layer.reset s.layers = true → swf Layer.reset t.layers = true

theorem CoresTested.refl (s : State) : CoresTested s s := ⟨rfl, rfl, id⟩

theorem CoresTested.trans {s t u : State} (h : CoresTested s t) (h' : CoresTested t u) : CoresTested s u :=
  ⟨h'.mem.trans h.mem, h'.pkg.trans h.pkg, h'.layers ∘ h.layers⟩

theorem coresTested_foldl {α : Type} {f : State → α → State} (hf : ∀ s a, CoresTested s (f s a)) (l : List α) (s : State) :
    CoresTested s (l.foldl f s) :=
  List.foldlRecOn (motive := CoresTested s) l f (.refl s) fun t h a _ => h.trans (hf t a)

theorem coresTested_fenceCore (s : State) (c : Nat) : CoresTested s (fenceCore s c) := ⟨rfl, rfl, id⟩

theorem coresTested_setLayer (s : State) (n : Nat) (x : Layer) : CoresTested s (setLayer s n x) :=
  ⟨rfl, rfl, fun h => layers_canon_setLayer h n x⟩

theorem coresTested_testPod (failed : List Nat) (s : State) (n pod : Nat) : CoresTested s (testPod failed s n pod) := by
  simp only [testPod]
  split
  · exact (coresTested_setLayer s n _).trans (coresTested_foldl (fun st k => coresTested_fenceCore st _) _ _)
  · split
    · exact .refl s
    · exact (coresTested_setLayer s n _).trans (coresTested_foldl (fun st k => coresTested_fenceCore st _) _ _)

theorem coresTested_testCores (s : State) (failed : List Nat) : CoresTested s (testCores s failed) :=
  coresTested_foldl (fun st n => coresTested_foldl (fun st' pod => coresTested_testPod failed st' n pod) _ st) _ s

/-- What the target frequencies of bring-up leave as it is: all but clocks and messages (R22, R29). -/
structure FreqsSet (s t : State) : Prop where
  mem : t.mem = s.mem
  power : t.pkg.power = s.pkg.power
  profile : t.pkg.profile = s.pkg.profile
  layers : swf Layer.reset s.layers = true → swf Layer.reset t.layers = true ∧
    ∀ n, (layerAt t n).role = (layerAt s n).role ∧ (layerAt t n).state = (layerAt s n).state

theorem FreqsSet.refl (s : State) : FreqsSet s s := ⟨rfl, rfl, rfl, fun h => ⟨h, fun _ => ⟨rfl, rfl⟩⟩⟩

theorem FreqsSet.trans {s t u : State} (h : FreqsSet s t) (h' : FreqsSet t u) : FreqsSet s u where
  mem := h'.mem.trans h.mem
  power := h'.power.trans h.power
  profile := h'.profile.trans h.profile
  layers hs := by
    obtain ⟨ht, hst⟩ := h.layers hs
    obtain ⟨hu, htu⟩ := h'.layers ht
    exact ⟨hu, fun n => ⟨(htu n).1.trans (hst n).1, (htu n).2.trans (hst n).2⟩⟩

theorem freqsSet_setClock (s : State) (i : Island) (k : Clock) : FreqsSet s (setClock s i k) := by
  cases i with
  | layer n =>
    refine ⟨rfl, rfl, rfl, fun h => ⟨layers_canon_setClock h n k, fun j => ?_⟩⟩
    rw [layerAt_setClock h]
    split
    · next hj =>
      subst hj
      exact ⟨rfl, rfl⟩
    · exact ⟨rfl, rfl⟩
  | hull j => exact ⟨rfl, rfl, rfl, fun h => ⟨h, fun _ => ⟨rfl, rfl⟩⟩⟩

theorem freqsSet_bringFreq (s : State) (p : Island × Nat) : FreqsSet s (bringFreq s p) := by
  unfold bringFreq
  split
  · exact .refl s
  · split
    · exact ⟨rfl, rfl, rfl, fun h => ⟨h, fun _ => ⟨rfl, rfl⟩⟩⟩
    · exact freqsSet_setClock s _ _

theorem freqsSet_bringFreqs (l : List (Island × Nat)) (s : State) : FreqsSet s (l.foldl bringFreq s) :=
  List.foldlRecOn (motive := FreqsSet s) l bringFreq (.refl s) fun t h a _ => h.trans (freqsSet_bringFreq t a)

/-- A layer's first role (R13, R29). -/
def firstRole (s : State) (q : Nat × Role) : State :=
  setLayer s q.1 { layerAt s q.1 with role := q.2, state := if q.2 = .fenced then .off else .active }

theorem giveRoles_eq (s : State) (roles : List Role) : giveRoles s roles = (List.zip (upFrom 8 0) roles).foldl firstRole s := by
  have hf : firstRole = fun st q =>
    setLayer st q.1 { layerAt st q.1 with role := q.2, state := if q.2 = .fenced then .off else .active } := rfl
  rw [giveRoles, hf]

/-- The first roles write the layers alone. -/
theorem giveRoles_leaves (s : State) (roles : List Role) :
    (giveRoles s roles).mem = s.mem ∧ (giveRoles s roles).pkg = s.pkg := by
  rw [giveRoles_eq]
  exact ⟨foldl_leaves State.mem (f := firstRole) (fun _ _ => rfl) _ s, foldl_leaves State.pkg (f := firstRole) (fun _ _ => rfl) _ s⟩

theorem layers_canon_giveRoles {s : State} (h : swf Layer.reset s.layers = true) (roles : List Role) :
    swf Layer.reset (giveRoles s roles).layers = true := by
  rw [giveRoles_eq]
  exact List.foldlRecOn (motive := fun t => swf Layer.reset t.layers = true) _ firstRole h fun t ht q _ => layers_canon_setLayer ht _ _

/-- Eight roles reach the eight layers, each in its place (R13). -/
theorem layerAt_giveRoles {s : State} (h : swf Layer.reset s.layers = true) {roles : List Role} (h8 : roles.length = 8)
    {n : Nat} (hn : n < 8) : (layerAt (giveRoles s roles) n).role = roles.getD n .unassigned ∧
      (layerAt (giveRoles s roles) n).state = if roles.getD n .unassigned = .fenced then .off else .active := by
  have hkeys : (List.zip (upFrom 8 0) roles).map Prod.fst = upFrom 8 0 := List.map_fst_zip (by simp [h8])
  obtain ⟨hin, -⟩ := layerAt_foldl (f := firstRole) (key := Prod.fst) (P := fun s => swf Layer.reset s.layers = true)
    (R := fun q _ y => y.role = q.2 ∧ y.state = if q.2 = .fenced then .off else .active)
    (fun st q hst => layers_canon_setLayer hst _ _)
    (fun st q hst => by rw [firstRole, layerAt_setLayer_same hst]; exact ⟨rfl, rfl⟩)
    (fun st q j hst hj => layerAt_setLayer_other hst _ hj) (hkeys ▸ nodup_upFrom 8 0) h
  have hmem : (n, roles.getD n .unassigned) ∈ List.zip (upFrom 8 0) roles := by
    have hget : roles[n]? = some (roles.getD n .unassigned) := by
      rw [List.getD_eq_getElem?_getD, List.getElem?_eq_getElem (by omega), Option.getD_some]
    rw [← h8]
    exact mem_zip_upFrom.2 ⟨Nat.zero_le n, hget⟩
  rw [giveRoles_eq]
  exact hin _ hmem

/-- Eight layers have roles where the roles fit a profile. -/
theorem length_of_rolesOk {p : Profile} {roles : List Role} (h : rolesOk p roles = true) : roles.length = 8 := by
  simp only [rolesOk, Bool.and_eq_true, beq_iff_eq] at h
  obtain ⟨⟨⟨h8, -⟩, -⟩, -⟩ := h
  exact h8

/-- The package with its cores tested and its second tier mapped (R29, R55, R435). -/
def tested (s : State) (b : BringUp) : State :=
  testCores { s with pkg := { mapTier2 s.pkg b.expanders with enhanced := b.enhanced } } b.failed

/-- Tests leave memory as it is and the package but for its second tier and cooling class. -/
theorem tested_leaves (s : State) (b : BringUp) :
    (tested s b).mem = s.mem ∧ (tested s b).pkg = { mapTier2 s.pkg b.expanders with enhanced := b.enhanced } ∧
      (swf Layer.reset s.layers = true → swf Layer.reset (tested s b).layers = true) := by
  obtain ⟨hm, hp, hl⟩ := coresTested_testCores { s with pkg := { mapTier2 s.pkg b.expanders with enhanced := b.enhanced } } b.failed
  exact ⟨hm, hp, hl⟩

/-- The package tested, its layers in their first roles and at their first frequencies (R13, R22, R29). -/
def placed (s : State) (b : BringUp) : State :=
  b.freqs.foldl bringFreq (giveRoles { tested s b with pkg := { (tested s b).pkg with profile := some b.profile } } b.roles)

/-- Each layer stands in its role, under the profile; memory and power are as they were. -/
theorem placed_spec {s : State} {b : BringUp} (hs : swf Layer.reset s.layers = true) (h8 : b.roles.length = 8) :
    (placed s b).mem = s.mem ∧ (placed s b).pkg.power = s.pkg.power ∧ (placed s b).pkg.profile = some b.profile ∧
      ∀ n, n < 8 → (layerAt (placed s b) n).role = b.roles.getD n .unassigned ∧
        (layerAt (placed s b) n).state = if b.roles.getD n .unassigned = .fenced then .off else .active := by
  obtain ⟨hm, hp, hl⟩ := tested_leaves s b
  have hpower : (tested s b).pkg.power = s.pkg.power := by rw [hp]; rfl
  let u := { tested s b with pkg := { (tested s b).pkg with profile := some b.profile } }
  have hu : swf Layer.reset u.layers = true := hl hs
  obtain ⟨hgm, hgp⟩ := giveRoles_leaves u b.roles
  have hf : FreqsSet (giveRoles u b.roles) (placed s b) := freqsSet_bringFreqs b.freqs (giveRoles u b.roles)
  obtain ⟨-, hkept⟩ := hf.layers (layers_canon_giveRoles hu b.roles)
  refine ⟨hf.mem.trans (hgm.trans hm), hf.power.trans ?_, hf.profile.trans ?_, fun n hn => ?_⟩
  · rw [hgp, ← hpower]
  · rw [hgp]
  · obtain ⟨hrole, hstate⟩ := layerAt_giveRoles hu h8 hn
    rw [(hkept n).1, (hkept n).2, hrole, hstate]
    exact ⟨rfl, rfl⟩

/-- What bring-up makes of a package whose images verify, branch by branch (R29, R14). -/
theorem bringUp_eq (s : State) (b : BringUp) : bringUp s b =
    if !b.hbmTrained || !b.cxlTrained then s
    else if !coolingOk b.enhanced b.profile then thermal { tested s b with layers := [] }
    else if !rolesOk b.profile b.roles then { tested s b with layers := [] }
    else emit { placed s b with pkg := { (placed s b).pkg with rdy := true } } .ready := rfl

/-- Everything in order, bring-up ends ready, each layer in its role (R29). -/
theorem bringUp_ready {s : State} {b : BringUp} (hs : swf Layer.reset s.layers = true) (hh : b.hbmTrained = true)
    (hx : b.cxlTrained = true) (hc : coolingOk b.enhanced b.profile = true) (hr : rolesOk b.profile b.roles = true) :
    (bringUp s b).pkg.rdy = true ∧ (bringUp s b).pkg.power = s.pkg.power ∧ (bringUp s b).mem = s.mem ∧
      (bringUp s b).pkg.profile = some b.profile ∧ ∀ n, n < 8 →
        (layerAt (bringUp s b) n).role = b.roles.getD n .unassigned ∧
        (layerAt (bringUp s b) n).state = if b.roles.getD n .unassigned = .fenced then .off else .active := by
  obtain ⟨hm, hp, hprof, hlayers⟩ := placed_spec hs (length_of_rolesOk hr)
  rw [bringUp_eq]
  simp only [hh, hx, hc, hr, Bool.not_true, Bool.or_self, Bool.false_eq_true, if_false]
  exact ⟨rfl, hp, hm, hprof, hlayers⟩

/-- The refusal of a profile sends its two messages, and nothing else (R14). -/
theorem thermal_spec (s : State) : (thermal s).pkg.rdy = s.pkg.rdy ∧ (thermal s).pkg.power = s.pkg.power ∧
    (thermal s).mem = s.mem ∧ (thermal s).pkg.out = s.pkg.out ++ [.trap 0x44 2, .status 2] :=
  ⟨rfl, rfl, rfl, by simp [thermal, emit]⟩

/-- Anything missing, bring-up leaves the package as it was: not ready, its memory and power kept (R29). -/
theorem bringUp_unready {s : State} {b : BringUp}
    (h : (b.hbmTrained && b.cxlTrained && coolingOk b.enhanced b.profile && rolesOk b.profile b.roles) = false) :
    (bringUp s b).pkg.rdy = s.pkg.rdy ∧ (bringUp s b).pkg.power = s.pkg.power ∧ (bringUp s b).mem = s.mem := by
  obtain ⟨hm, hp, -⟩ := tested_leaves s b
  have hrdy : (tested s b).pkg.rdy = s.pkg.rdy := by rw [hp]; rfl
  have hpower : (tested s b).pkg.power = s.pkg.power := by rw [hp]; rfl
  rw [bringUp_eq]
  by_cases hlinks : (!b.hbmTrained || !b.cxlTrained) = true
  · rw [if_pos hlinks]
    exact ⟨rfl, rfl, rfl⟩
  by_cases hcool : (!coolingOk b.enhanced b.profile) = true
  · obtain ⟨htr, htp, htm, -⟩ := thermal_spec { tested s b with layers := [] }
    rw [if_neg hlinks, if_pos hcool]
    exact ⟨htr.trans hrdy, htp.trans hpower, htm.trans hm⟩
  by_cases hroles : (!rolesOk b.profile b.roles) = true
  · rw [if_neg hlinks, if_neg hcool, if_pos hroles]
    exact ⟨hrdy, hpower, hm⟩
  · have hup : b.hbmTrained = true ∧ b.cxlTrained = true := by simpa using hlinks
    have hfit : coolingOk b.enhanced b.profile = true := by simpa using hcool
    have hgiven : rolesOk b.profile b.roles = true := by simpa using hroles
    simp [hup, hfit, hgiven] at h

/-- A cooling class that does not permit the profile is answered THERMAL (R14). -/
theorem out_bringUp_thermal {s : State} {b : BringUp} (hh : b.hbmTrained = true) (hx : b.cxlTrained = true)
    (hc : coolingOk b.enhanced b.profile = false) : (bringUp s b).pkg.out = s.pkg.out ++ [.trap 0x44 2, .status 2] := by
  obtain ⟨-, hp, -⟩ := tested_leaves s b
  have hout : (tested s b).pkg.out = s.pkg.out := by rw [hp]; rfl
  obtain ⟨-, -, -, hto⟩ := thermal_spec { tested s b with layers := [] }
  rw [bringUp_eq]
  simp only [hh, hx, hc, Bool.not_true, Bool.not_false, Bool.or_self, Bool.false_eq_true, if_false, if_true, hto, hout]

/-- Settles O25: a reset keeps what `afterReset` names, and bring-up is read branch by branch. -/
theorem powerAndReset : Obligations.PowerAndReset := by
  unfold Obligations.PowerAndReset
  refine ⟨fun s => ⟨_, rfl, rfl, rfl, rfl, rfl, rfl, rfl, rfl⟩, fun s hp => ?_, fun s b hp hr hc => ?_⟩
  · have h : exec .perstAssert s = execPerstAssert s := rfl
    rw [execPerstAssert, if_pos hp] at h
    exact ⟨_, h, rfl, rfl, rfl, rfl, rfl, rfl, rfl, rfl⟩
  · obtain ⟨hbp, hbr, hbo⟩ := bootChain_pkg 0 none b.images { s.pkg with power := true, bar4 := Nat.min 5 b.bar4 }
    refine ⟨_, exec_perstRelease b hp, ?_⟩
    cases hv : (bootChain 0 none b.images { s.pkg with power := true }).2 && b.images.length == 3 with
    | false =>
      simp only [Bool.false_and, Bool.false_eq_true, if_false]
      refine ⟨hbp, rfl, hbr.trans hr, fun h => absurd (hbr.symm.trans h) (by simp [hr]), fun h1 h2 => ?_⟩
      simp [h1, h2] at hv
    | true =>
      simp only [if_true, Bool.true_and]
      cases hall : b.hbmTrained && b.cxlTrained && coolingOk b.enhanced b.profile && rolesOk b.profile b.roles with
      | false =>
        obtain ⟨hrdy, hpower, hmem⟩ := bringUp_unready (s := booted s b) hall
        have hoff : (bringUp (booted s b) b).pkg.rdy = false := hrdy.trans (hbr.trans hr)
        refine ⟨hpower.trans hbp, hmem, hoff, fun h => absurd (hoff.symm.trans h) (by simp), fun _ _ hh hx hcool => ?_⟩
        rw [out_bringUp_thermal hh hx hcool]
        exact congrArg (· ++ _) hbo
      | true =>
        simp only [Bool.and_eq_true] at hall
        obtain ⟨⟨⟨hh, hx⟩, hcool⟩, hroles⟩ := hall
        obtain ⟨hrdy, hpower, hmem, hprof, hlayers⟩ := bringUp_ready (s := booted s b) hc.layers hh hx hcool hroles
        exact ⟨hpower.trans hbp, hmem, hrdy, fun _ => ⟨hprof, hlayers⟩, fun _ _ _ _ h => absurd (hcool.symm.trans h) (by simp)⟩

/-! ### O26: partitions and the roles of layers -/

/-- A clock above a ceiling: its code, its target or the code it waits for (R21, R22; log 37). -/
theorem above_iff (top : Nat) (k : Clock) :
    above top k = true ↔ top < k.code ∨ top < k.target ∨ ∃ c, k.waiting = some c ∧ top < c := by
  cases hw : k.waiting with
  | none => simp [above, nextCode, hw]
  | some c =>
    simp only [above, nextCode, hw, gt_iff_lt, Option.getD_some, Bool.or_eq_true, decide_eq_true_eq, Option.some.injEq,
      exists_eq_left', or_assoc, or_comm (a := top < c)]

/-- Some clock of the part runs, or will run, above a ceiling (R14, R21). -/
def tooFast (s : State) (top : Nat) : Bool :=
  (upFrom 8 0).any fun n => above top (layerAt s n).clock || above top (sget Clock.reset s.pkg.hull n)

/-- What APPLY_PARTITION answers where the package is ready and the cooling class permits the profile (R14, R16). -/
theorem exec_applyPartition {s : State} {p : Profile} (roles : List Role) (hr : s.pkg.rdy = true)
    (hc : coolingOk s.pkg.enhanced p = true) : exec (.applyPartition p roles) s =
      if !rolesOk p roles || tooFast s (profileOf p).2.2 then .next s
      else if (upFrom 8 0).any fun n => changing (layerAt s n) then .next (emit s (.status 1))
      else .next { s with pkg := { s.pkg with
        profile := some p, plan := (List.zip (upFrom 8 0) roles).filter fun q => (layerAt s q.1).role ≠ q.2 } } := by
  change execApplyPartition p roles s = _
  simp only [execApplyPartition, hr, hc, Bool.not_true, Bool.false_eq_true, if_false, tooFast]

/-- A partition's plan names the layers whose role it changes (R14, R16). -/
theorem mem_plan_iff {s : State} {roles : List Role} (h8 : roles.length = 8) {n : Nat} (hn : n < 8) :
    (∃ r, (n, r) ∈ (List.zip (upFrom 8 0) roles).filter fun q => (layerAt s q.1).role ≠ q.2) ↔
      (layerAt s n).role ≠ roles.getD n .unassigned := by
  have hget : roles[n]? = some (roles.getD n .unassigned) := by
    rw [List.getD_eq_getElem?_getD, List.getElem?_eq_getElem (by omega), Option.getD_some]
  have hmem : ∀ r, (n, r) ∈ List.zip (upFrom 8 0) roles ↔ roles.getD n .unassigned = r := fun r => by
    rw [← h8, mem_zip_upFrom, Nat.sub_zero, hget]
    simp
  simp [hmem]

/-- A request for a change that the plan asks for begins it, where no layer changes (R13, R16). -/
theorem exec_roleChangeRequest {s : State} {n : Nat} {r : Role} (hn : n < 8) (hplan : (n, r) ∈ s.pkg.plan)
    (hidle : ∀ k, k < 8 → changing (layerAt s k) = false) : exec (.roleChangeRequest n r) s =
      .next (setLayer s n { layerAt s n with state := .drain, newRole := some r, since := s.time.now.toNat }) := by
  have hasked : (s.pkg.plan.any fun q => q.1 == n && q.2 == r) = true :=
    List.any_eq_true.2 ⟨(n, r), hplan, by simp⟩
  have hnone : (upFrom 8 0).any (fun k => changing (layerAt s k)) = false := by
    rw [List.any_eq_false]
    exact fun k hk => by simp [hidle k (by simpa using hk)]
  change execRoleChangeRequest n r s = _
  simp [execRoleChangeRequest, hidle n hn, hasked, hnone]

/-- A teardown of a page that holds no subscriptions changes nothing (R198). -/
theorem tearDown_of_none {s : State} {old size : Nat} (h : ∀ x ∈ s.subs, inPage old size x.pa = false) :
    tearDown s old size = s := by
  have hout : s.subs.filter (fun x => inPage old size x.pa) = [] := by simpa [List.filter_eq_nil_iff] using h
  have hall : s.subs.filter (fun x => !inPage old size x.pa) = s.subs := by simpa [List.filter_eq_self] using h
  simp only [tearDown, hout, hall, List.foldl_nil]

/-- A layer with no groups and no subscriptions left, and no page to move, goes to FLUSH (R16). -/
theorem exec_layerDrainComplete {s : State} {n : Nat} (hst : (layerAt s n).state = .drain) (hg : onLayer s n = [])
    (hw : s.NoWaits) (hs : ∀ x ∈ s.subs, ¬ (windowOf n ≤ x.pa ∧ x.pa < windowOf n + 0x10000000)) :
    exec (.layerDrainComplete n []) s = .next (setLayer s n { layerAt s n with state := .flush }) := by
  have hout : ∀ x ∈ (setLayer s n { layerAt s n with state := .flush }).subs, inPage (windowOf n) 0x10000000 x.pa = false :=
    fun x hx => by simpa [inPage] using hs x hx
  change execLayerDrainComplete n [] s = _
  simp only [execLayerDrainComplete, hst, hg, flushMoves, tearDown_of_none hout, ne_eq, not_true_eq_false, decide_false,
    List.isEmpty_nil, Bool.not_true, List.any_nil, Bool.or_self, Bool.false_eq_true, if_false, if_true]
  exact congrArg Host.Outcome.next (wake_of_noWaits hw.1)

/-- FLUSH lasts while a context has pages in the layer's memory (R16). -/
theorem exec_layerFlushComplete_waits {s : State} {n : Nat} (hp : pagesIn s n = true) :
    exec (.layerFlushComplete n) s = .next s := by
  change execLayerFlushComplete n s = _
  simp [execLayerFlushComplete, hp]

theorem exec_layerFlushComplete {s : State} {n : Nat} (hst : (layerAt s n).state = .flush) (hn : s.notices = [])
    (hp : pagesIn s n = false) : exec (.layerFlushComplete n) s =
      .next (tellRole (setLayer s n { layerAt s n with state := .reenum }) n false) := by
  change execLayerFlushComplete n s = _
  simp [execLayerFlushComplete, hst, hn, hp]

/-- Messages to a list of contexts, in order, and nothing else. -/
theorem foldl_emit (f : Nat × Context → Message) (l : List (Nat × Context)) (s : State) :
    (l.foldl (fun st p => emit st (f p)) s).layers = s.layers ∧
      (l.foldl (fun st p => emit st (f p)) s).pkg.out = s.pkg.out ++ l.map f := by
  induction l generalizing s with
  | nil => simp
  | cons a r ih =>
    obtain ⟨hl, ho⟩ := ih (emit s (f a))
    refine ⟨hl, ho.trans ?_⟩
    simp [emit]

/-- Every context is told of a layer's change of role (R16, R17). -/
theorem tellRole_spec (s : State) (n : Nat) (failed : Bool) : (tellRole s n failed).layers = s.layers ∧
    (tellRole s n failed).pkg.out = s.pkg.out ++ s.contexts.map fun c => .roleChange c.1 n failed :=
  foldl_emit _ _ _

/-- A layer of the new map, as REENUM leaves it: in its new role, or off (R16). -/
def reenumerated (l : Layer) (r : Role) : Layer :=
  { l with role := r, newRole := none, state := if r = .fenced then .off else .active,
           clock := if r = .fenced then Clock.reset else l.clock }

theorem exec_layerReenumComplete {s : State} {n : Nat} {r : Role} (hst : (layerAt s n).state = .reenum)
    (hr : (layerAt s n).newRole = some r) : ∃ t, exec (.layerReenumComplete n) s = .next t ∧
      t.layers = (setLayer s n (reenumerated (layerAt s n) r)).layers ∧
      t.pkg.plan = s.pkg.plan.filter fun q => q.1 ≠ n := by
  have h : exec (.layerReenumComplete n) s = execLayerReenumComplete n s := rfl
  simp only [execLayerReenumComplete, hst, hr] at h
  refine ⟨_, h, ?_, rfl⟩
  simp [reenumerated]

/-- Settles O26: each step of a change of role writes its own layer, and the plan or the messages. -/
theorem layerRoles : Obligations.LayerRoles := by
  unfold Obligations.LayerRoles
  refine fun s hc => ⟨fun p roles hr hcool hroles hclocks => ?_, fun p roles n hr hn hcool hfast => ?_, fun n r hn =>
    ⟨fun hplan hidle => ?_, fun hst hg hw hs => ?_, fun _ hp => exec_layerFlushComplete_waits hp, fun hst hnot hp => ?_,
      fun hst hr => ?_⟩⟩
  · have hslow : tooFast s (profileOf p).2.2 = false := by
      simp only [tooFast, List.any_eq_false, Bool.or_eq_true, above_iff]
      intro n hn h
      obtain ⟨-, hk⟩ := hclocks n (by simpa using hn)
      obtain ⟨hl, hlt, hlw⟩ := hk _ (.inl rfl)
      obtain ⟨hh, hht, hhw⟩ := hk _ (.inr rfl)
      rcases h with (h | h | ⟨c, hcw, h⟩) | (h | h | ⟨c, hcw, h⟩)
      · omega
      · omega
      · exact absurd (hlw c hcw) (by omega)
      · omega
      · omega
      · exact absurd (hhw c hcw) (by omega)
    have hnone : (upFrom 8 0).any (fun n => changing (layerAt s n)) = false := by
      rw [List.any_eq_false]
      exact fun k hk => by simp [(hclocks k (by simpa using hk)).1]
    have h := exec_applyPartition roles hr hcool
    simp only [hroles, hslow, hnone, Bool.not_true, Bool.or_self, Bool.false_eq_true, if_false] at h
    exact ⟨_, h, rfl, fun n hn => mem_plan_iff (length_of_rolesOk hroles) hn, rfl⟩
  · obtain ⟨k, hk, habove⟩ := hfast
    have hquick : tooFast s (profileOf p).2.2 = true := by
      refine List.any_eq_true.2 ⟨n, by simpa using hn, ?_⟩
      have ha := (above_iff _ _).2 habove
      rcases hk with rfl | rfl <;> simp [ha]
    rw [exec_applyPartition roles hr hcool, hquick]
    simp
  · refine ⟨_, exec_roleChangeRequest hn hplan hidle, ?_⟩
    rw [layerAt_setLayer_same hc.layers]
    exact ⟨rfl, rfl, rfl, fun k hk => layerAt_setLayer_other hc.layers _ hk⟩
  · refine ⟨_, exec_layerDrainComplete hst hg hw hs, ?_, fun k hk => layerAt_setLayer_other hc.layers _ hk⟩
    rw [layerAt_setLayer_same hc.layers]
  · obtain ⟨hl, ho⟩ := tellRole_spec (setLayer s n { layerAt s n with state := .reenum }) n false
    refine ⟨_, exec_layerFlushComplete hst hnot hp, ?_, ho⟩
    rw [layerAt_congr hl, layerAt_setLayer_same hc.layers]
  · obtain ⟨t, ht, hl, hplan⟩ := exec_layerReenumComplete hst hr
    refine ⟨t, ht, ?_⟩
    rw [layerAt_congr hl, layerAt_setLayer_same hc.layers, hplan]
    exact ⟨rfl, rfl, rfl, fun q hq => by simpa using (List.mem_filter.1 hq).2⟩

/-! ### Stores where nothing waits -/

/-- What a store leaves alone where nothing waits: the groups, the cores, and that nothing waits (R189, R206, R207). -/
def Silent (s t : State) : Prop := s.NoWaits → t.NoWaits ∧ t.groups = s.groups ∧ t.cores = s.cores

theorem Silent.refl (s : State) : Silent s s := fun h => ⟨h, rfl, rfl⟩

theorem Silent.trans {s t u : State} (h : Silent s t) (h' : Silent t u) : Silent s u := fun hs => by
  obtain ⟨ht, hg, hc⟩ := h hs
  obtain ⟨hu, hg', hc'⟩ := h' ht
  exact ⟨hu, hg'.trans hg, hc'.trans hc⟩

theorem silent_of_eq {s t : State} (hg : t.groups = s.groups) (hs : t.subs = s.subs) (hc : t.cores = s.cores) :
    Silent s t := fun h => ⟨⟨hg ▸ h.1, hs ▸ h.2⟩, hg, hc⟩

theorem silent_foldl {α : Type} {f : State → α → State} (l : List α) (hf : ∀ s, ∀ a ∈ l, Silent s (f s a)) (s : State) :
    Silent s (l.foldl f s) := List.foldlRecOn l f (.refl s) fun t h a ha => h.trans (hf t a ha)

theorem silent_writeAs (s : State) (v : LineKey) (pa : Nat) (b : Byte) : Silent s (writeAs s v pa b) := by
  dsimp only [writeAs]
  (repeat' split) <;> exact silent_of_eq rfl rfl rfl

theorem silent_writeSpan (s : State) (v : LineKey) (pa : Nat) (l : List Byte) : Silent s (writeSpan s v pa l) := by
  induction l generalizing s pa with
  | nil => exact .refl s
  | cons b r ih => exact (silent_writeAs s v pa b).trans (ih _ _)

/-- A wake event finds no wait to mark. -/
theorem silent_markWoken (s : State) (gh : Nat) (f : Wait → Bool) : Silent s (markWoken s gh f) := fun h => by
  unfold markWoken
  split
  · exact ⟨h, rfl, rfl⟩
  · next g hg =>
    split
    · exact ⟨h, rfl, rfl⟩
    · have hnone : g.waits = [] := h.1 _ (mfind_mem hg)
      have hsame : (setGroup s gh { g with waits := g.waits.map fun w => if f w then { w with woken := true } else w }).groups
          = s.groups := mput_self _ _ _ (by rw [hg, hnone, List.map_nil, ← hnone])
      exact silent_of_eq hsame rfl rfl h

theorem silent_breakResv (s : State) (pa : Nat) : Silent s (breakResv s pa) := by
  unfold breakResv
  split
  · exact silent_of_eq rfl rfl rfl
  · exact .refl s

/-- A store's pushes: with no entry armed, subscriptions alone take them (R189, R190). -/
theorem silent_notifySubs (s : State) (v : LineKey) (pa : Nat) (release : Bool) : Silent s (notifySubs s v pa release) := by
  intro h
  dsimp only [notifySubs]
  split
  · exact ⟨h, rfl, rfl⟩
  · refine silent_foldl _ (fun st x hx => ?_) _ ⟨h.1, fun x hx => ?_⟩
    · have hx' := h.2 x (List.mem_filter.1 hx).1
      simp only [hx', Bool.false_eq_true, if_false]
      exact silent_markWoken st _ _
    · obtain ⟨y, hy, rfl⟩ := List.mem_map.1 hx
      split
      · exact h.2 y hy
      · exact h.2 y hy

theorem silent_storeHome (s : State) (v : LineKey) (pa : Nat) (l : List Byte) (release : Bool) :
    Silent s (storeHome s v pa l release) :=
  (silent_writeSpan s v pa l).trans
    (silent_foldl _ (fun st w _ => (silent_breakResv st w).trans (silent_notifySubs _ v w release)) _)

theorem silent_storeFrames (n : Nat) (s : State) (pa : Nat) (l : List Byte) : Silent s (storeFrames n s pa l) := by
  induction n generalizing s pa l with
  | zero => exact .refl s
  | succ n ih =>
    simp only [storeFrames]
    split
    · exact .refl s
    · refine Silent.trans ?_ (ih _ _ _)
      split
      · exact .refl s
      · exact silent_storeHome s _ _ _ _

theorem silent_traceRecord (s : State) (unit type src : Nat) (body : List Byte) : Silent s (traceRecord s unit type src body) := by
  dsimp only [traceRecord]
  split
  · exact .refl s
  · exact ((silent_storeFrames 2 s _ _).trans (silent_storeFrames 2 _ _ _)).trans (silent_of_eq rfl rfl rfl)

theorem silent_errorRecord (s : State) (unit : Nat) (record : List Byte) : Silent s (errorRecord s unit record) :=
  silent_traceRecord s unit 2 unit _

theorem silent_rollbackRecord (s : State) (gh : Nat) : Silent s (rollbackRecord s gh) := by
  unfold rollbackRecord
  split
  · exact .refl s
  · exact silent_errorRecord s _ _

/-! ### Kills and rollbacks of a group alone -/

/-- A group killed: its lanes have exited, and nothing of it waits, is held or stands under a checkpoint (R234). -/
structure Killed (g' : Group) : Prop where
  waits : g'.waits = []
  held : g'.held = []
  ck : g'.ck = none
  lanes : ∀ j, liveLane (laneAt g' j) = false

/-- A kill of the only group ends it, and touches no core (R183, R234). -/
theorem killWhole_lone {s : State} {gh : Nat} {g : Group} (hw : s.NoWaits) (hg : s.groups = [(gh, g)]) (code : Nat) :
    ∃ g', (killWhole s gh code).groups = [(gh, g')] ∧ Killed g' ∧ (killWhole s gh code).cores = s.cores := by
  have hfind : mfind s.groups gh = some g := by simp [hg, mfind]
  simp only [killWhole, killGroup, hfind]
  obtain ⟨-, hrec, hcores⟩ := silent_errorRecord s _ _ hw
  refine ⟨_, by rw [setGroup_groups, hrec, hg]; simp [mput]; rfl, ⟨rfl, rfl, rfl, fun j => ?_⟩, hcores⟩
  refine nthD_all (fun l => liveLane l = false) _ _ j rfl fun l hl => ?_
  obtain ⟨l', -, rfl⟩ := List.mem_map.1 hl
  simp [liveLane]

/-- A group rolled back to its checkpoint (R183). -/
structure RolledBack (g : Group) (k : Checkpoint) (g' : Group) : Prop where
  waits : g'.waits = g.waits.filter fun w => w.ticket < k.ticket
  held : g'.held = []
  ck : g'.ck = g.ck
  vregs : g'.vregs = k.vregs
  sregs : g'.sregs = k.sregs
  preds : g'.preds = k.preds
  tiles : g'.tiles = k.tiles
  spad : g'.spad = k.spad
  pitw : g'.pitw = k.pitw
  latches : g'.latches = []
  lanes : g'.lanes.map (fun l => (l.pos, l.frames, l.saved, l.trec, l.exited)) =
    k.lanes.map (fun l => (l.pos, l.frames, l.saved, l.trec, l.exited))
  pend : g'.pend = g.pend.filter fun a => a.ticket < k.ticket

/-- A core from which work has been taken: in its place as before, its queued matrix entries among those before. -/
structure Trimmed (x y : Core) : Prop where
  fenced : y.fenced = x.fenced
  failing : y.failing = x.failing
  mq : ∀ e ∈ y.mq, e ∈ x.mq

theorem Trimmed.refl (x : Core) : Trimmed x x := ⟨rfl, rfl, fun _ h => h⟩

theorem Trimmed.trans {x y z : Core} (h : Trimmed x y) (h' : Trimmed y z) : Trimmed x z :=
  ⟨h'.fenced.trans h.fenced, h'.failing.trans h.failing, fun e he => h.mq e (h'.mq e he)⟩

theorem trimmed_enqueue (x : Core) (r : List BankReq) : Trimmed x (enqueue x r) := by
  dsimp only [enqueue]
  split <;> exact ⟨rfl, rfl, fun _ h => h⟩

theorem trimmed_feedPort (x : Core) : Trimmed x (feedPort x) :=
  List.foldlRecOn (motive := Trimmed x) _ _ ⟨rfl, rfl, fun _ h => h⟩ fun y h r _ => h.trans (trimmed_enqueue y r)

theorem trimmed_keepEntries (x : Core) (f : MatEntry → Bool) : Trimmed x (keepEntries x f) :=
  ⟨rfl, rfl, fun _ h => (List.mem_filter.1 h).1⟩

/-- A core without what a group issued from a ticket on; the requests that stay enter the room that is left (R175, R183). -/
def prunedCore (gh ticket : Nat) (x : Core) : Core :=
  let keep := fun r : List BankReq => match r with | q :: _ => !(q.gh == gh && q.ticket ≥ ticket) | [] => false
  feedPort (keepEntries
    { x with banks := (x.banks.map fun b => (b.1, b.2.filter keep)).filter (fun b => !b.2.isEmpty),
             port := x.port.filter keep } fun e => !(e.gh == gh && e.ticket ≥ ticket))

theorem trimmed_prunedCore (gh ticket : Nat) (x : Core) : Trimmed x (prunedCore gh ticket x) := by
  refine .trans ?_ (trimmed_feedPort _)
  refine .trans ?_ (trimmed_keepEntries _ _)
  exact ⟨rfl, rfl, fun _ h => h⟩

/-- The table's cores each trimmed: every core of the part is. -/
theorem trimmed_foldl_setCore {s : State} (h : swf Core.reset s.cores = true) {f : Core → Core} (hf : ∀ x, Trimmed x (f x)) :
    let t := s.cores.foldl (fun st p => setCore st p.1 (f p.2)) s
    swf Core.reset t.cores = true ∧ t.groups = s.groups ∧ t.subs = s.subs ∧ ∀ c, Trimmed (coreAt s c) (coreAt t c) := by
  refine List.foldlRecOn (motive := fun t : State => swf Core.reset t.cores = true ∧ t.groups = s.groups ∧
    t.subs = s.subs ∧ ∀ c, Trimmed (coreAt s c) (coreAt t c)) _ _ ⟨h, rfl, rfl, fun c => .refl _⟩ fun t ht p hp => ?_
  obtain ⟨hs, hg, hsub, hc⟩ := ht
  refine ⟨swf_sset _ _ _ _ hs, hg, hsub, fun c => ?_⟩
  rw [coreAt_setCore hs]
  split
  · next hcp =>
    subst hcp
    have hp2 : coreAt s p.1 = p.2 := sget_of_mem h hp
    rw [hp2]
    exact hf p.2
  · exact hc c

/-- The rollback of a group without waits: every core is pruned, and the group goes back (R183). -/
theorem rollback_eq (s : State) (gh : Nat) {g : Group} (hg : g.waits = []) (k : Checkpoint) :
    ∃ g', RolledBack g k g' ∧ rollback s gh g k =
      setGroup (s.cores.foldl (fun st p => setCore st p.1 (prunedCore gh k.ticket p.2)) s) gh g' := by
  simp only [rollback, hg, List.filter_nil, List.foldl_nil]
  refine ⟨_, ?_, rfl⟩
  refine ⟨by simp [hg], rfl, rfl, rfl, rfl, rfl, rfl, rfl, rfl, rfl, ?_, rfl⟩
  have hzip : (List.zip (upFrom k.lanes.length 0) k.lanes).map Prod.snd = k.lanes :=
    List.map_snd_zip (Nat.le_of_eq (length_upFrom _ _).symm)
  refine List.map_map.trans (.trans ?_ (congrArg (List.map _) hzip))
  refine .trans ?_ List.map_map.symm
  rfl

/-! ### The matrix arrays after a rollback -/

/-- The queued multiplications of a core have their operands (R384). -/
def Fetched (x : Core) : Prop :=
  ∀ e ∈ x.mq, e.fetched = none → ∀ ty cz ha a hb b, e.op ≠ .mma ty cz ha a hb b

theorem Fetched.trimmed {x y : Core} (h : Fetched x) (ht : Trimmed x y) : Fetched y := fun e he => h e (ht.mq e he)

/-- Where every listed core has fetched its operands, so has each core of the part. -/
theorem fetched_coreAt {s : State} (h : ∀ p ∈ s.cores, Fetched p.2) (c : Nat) : Fetched (coreAt s c) := by
  rcases sget_mem_or Core.reset s.cores c with hm | hr
  · exact h _ hm
  · intro e he
    rw [coreAt, hr] at he
    exact absurd he List.not_mem_nil

theorem fetchEntry_of_fetched {s : State} {c : Nat} (h : Fetched (coreAt s c)) (k : Nat) : fetchEntry s c k = s := by
  unfold fetchEntry
  split
  · rfl
  · next e he =>
    split
    · next hop hf => exact absurd hop (h e (List.mem_of_getElem? he) hf _ _ _ _ _ _)
    · rfl

theorem fetchNext_of_fetched {s : State} {c : Nat} (h : Fetched (coreAt s c)) : fetchNext s c = s := by
  rw [fetchNext, fetchEntry_of_fetched h, fetchEntry_of_fetched h]

/-- With every operand fetched, the arrays fetch nothing. -/
theorem foldl_fetchNext {s : State} (h : ∀ c, Fetched (coreAt s c)) (l : List (Nat × Core)) :
    l.foldl (fun st p => fetchNext st p.1) s = s :=
  List.foldlRecOn (motive := fun t => t = s) _ _ rfl fun t ht p _ => by rw [ht, fetchNext_of_fetched (h p.1)]

/-! ### An uncorrectable error in a group's core -/

/-- What an uncorrectable error in its core makes of a group: back at its checkpoint where that is intact, or killed (R183). -/
structure Struck (g : Group) (intact : Bool) (g' : Group) : Prop where
  waits : g'.waits = []
  held : g'.held = []
  back : ∀ k, g.ck = some k → intact = true → RolledBack g k g'
  dead : g.ck = none ∨ intact = false → Killed g'

/-- Its cores stay, but for the work that a rollback discards. -/
structure CoresTrimmed (s t : State) : Prop where
  canon : swf Core.reset t.cores = true
  cores : ∀ c, Trimmed (coreAt s c) (coreAt t c)

theorem coresTrimmed_of_eq {s t : State} (hs : swf Core.reset s.cores = true) (h : t.cores = s.cores) : CoresTrimmed s t :=
  ⟨h ▸ hs, fun c => coreAt_congr h c ▸ .refl _⟩

/-- The only group, live in its core, is struck (R183). -/
theorem hitGroup_lone {s : State} {gh c : Nat} {g : Group} (hs : swf Core.reset s.cores = true) (hw : s.NoWaits)
    (hg : s.groups = [(gh, g)]) (hc : coreOf g = some c) (hl : g.lanes.any liveLane = true)
    (hf : ∀ p ∈ s.cores, Fetched p.2) (intact : Bool) :
    ∃ g', (hitGroup s gh intact).groups = [(gh, g')] ∧ Struck g intact g' ∧ CoresTrimmed s (hitGroup s gh intact) := by
  have hfind : mfind s.groups gh = some g := by simp [hg, mfind]
  have hnone : g.waits = [] := hw.1 (gh, g) (by simp [hg])
  have hin : ((coreOf g).isNone || !(g.lanes.any liveLane)) = false := by simp [hc, hl]
  have hkill : (g.ck = none ∨ intact = false) → hitGroup s gh intact = killWhole s gh 0x20 := fun h => by
    simp only [hitGroup, hfind, hin, Bool.false_eq_true, if_false]
    rcases h with h | h
    · rw [h]
    · rw [h]
      cases g.ck <;> rfl
  cases hck : g.ck with
  | none =>
    obtain ⟨g', hgr, hk, hcores⟩ := killWhole_lone hw hg 0x20
    rw [hkill (.inl hck)]
    exact ⟨g', hgr, ⟨hk.waits, hk.held, fun k h => by simp [hck] at h, fun _ => hk⟩, coresTrimmed_of_eq hs hcores⟩
  | some k =>
    cases intact with
    | false =>
      obtain ⟨g', hgr, hk, hcores⟩ := killWhole_lone hw hg 0x20
      rw [hkill (.inr rfl)]
      exact ⟨g', hgr, ⟨hk.waits, hk.held, fun _ _ h => by simp at h, fun _ => hk⟩, coresTrimmed_of_eq hs hcores⟩
    | true =>
      obtain ⟨g', hback, heq⟩ := rollback_eq s gh hnone k
      obtain ⟨hcanon, hgroups, hsubs, hcores⟩ := trimmed_foldl_setCore hs (trimmed_prunedCore gh k.ticket)
      have hwaits : g'.waits = [] := by rw [hback.waits, hnone, List.filter_nil]
      have hgr : (rollback s gh g k).groups = [(gh, g')] := by
        rw [heq, setGroup_groups, hgroups, hg]
        simp [mput]
      have hcr : CoresTrimmed s (rollback s gh g k) := by
        rw [heq]
        exact ⟨hcanon, hcores⟩
      have hquiet : (rollback s gh g k).NoWaits := by
        refine ⟨fun p hp => ?_, ?_⟩
        · rw [hgr, List.mem_singleton] at hp
          rw [hp, hwaits]
        · rw [heq]
          exact hsubs ▸ hw.2
      have hfold := foldl_fetchNext (fun c => (fetched_coreAt hf c).trimmed (hcr.cores c)) (rollback s gh g k).cores
      have hhit : hitGroup s gh true = rollbackRecord (rollback s gh g k) gh := by
        simp only [hitGroup, hfind, hin, hck, Bool.false_eq_true, if_false, hfold]
      obtain ⟨-, hrg, hrc⟩ := silent_rollbackRecord (rollback s gh g k) gh hquiet
      refine ⟨g', by rw [hhit, hrg, hgr], ⟨hwaits, hback.held, fun k' h _ => ?_, fun h => by simp [hck] at h⟩, ?_⟩
      · rw [hck] at h
        cases h
        exact hback
      · rw [hhit]
        exact ⟨hrc ▸ hcr.canon, fun c => coreAt_congr hrc c ▸ hcr.cores c⟩

/-! ### O27: failures, spares and errors -/

/-- The Pod of a core has a spare that is not used up and that no other core waits for (R26, R435). -/
def spareFor (s : State) (c : Nat) : Bool :=
  !(sget false (layerAt s (c / 32)).spareUsed (c % 32 / 8) || sget false (layerAt s (c / 32)).noSpare (c % 32 / 8)
    || (List.range 8).any fun k => (coreAt s (c / 8 * 8 + k)).failing)

/-- The Pod's eight cores, counted from its first or numbered within it. -/
theorem spareAwaited_eq (s : State) (c : Nat) :
    spareAwaited s c = (List.range 8).any fun k => (coreAt s (c / 8 * 8 + k)).failing := by
  rw [Bool.eq_iff_iff, spareAwaited, List.any_eq_true, List.any_eq_true]
  constructor
  · rintro ⟨k, hk, hfail⟩
    rw [mem_upFrom] at hk
    have hsum : c / 8 * 8 + (k - c / 8 * 8) = k := by omega
    exact ⟨k - c / 8 * 8, List.mem_range.2 (by omega), by rw [hsum]; exact hfail⟩
  · rintro ⟨k, hk, hfail⟩
    rw [List.mem_range] at hk
    exact ⟨c / 8 * 8 + k, mem_upFrom.2 (by omega), hfail⟩

/-- The groups that a core's failure strikes. -/
def struckBy (s : State) (c : Nat) : List (Nat × Group) :=
  s.groups.filter fun p => coreOf p.2 == some c && p.2.lanes.any liveLane

/-- The failure of a core in service: the spare is awaited, or the core is fenced (R26, R27, R183). -/
theorem exec_coreFailure {s : State} {c : Nat} (damaged : List Nat) (hc : c < 256) (hn : (coreAt s c).fenced = false)
    (hf : (coreAt s c).failing = false) : exec (.coreFailure ⟨c, damaged⟩) s = .next (wake
      (if spareFor s c then
        let s1 := (struckBy s c).foldl (fun st p => hitGroup st p.1 (!damaged.contains p.1)) s
        setCore s1 c { coreAt s1 c with failing := true }
      else fenceCore ((struckBy s c).foldl (fun st p => killWhole st p.1 0x20) s) c)) := by
  have hfew : ¬ 256 ≤ c := by omega
  have hspare : (sget false (layerAt s (layerOfCore c)).spareUsed (podOf c) ||
      sget false (layerAt s (layerOfCore c)).noSpare (podOf c) || spareAwaited s c) = !spareFor s c := by
    rw [spareFor, Bool.not_not, spareAwaited_eq]
    rfl
  change execCoreFailure ⟨c, damaged⟩ s = _
  simp only [execCoreFailure, ge_iff_le, hfew, hn, hf, decide_false, Bool.or_self, Bool.false_eq_true, if_false, hspare]
  cases spareFor s c <;> rfl

theorem exec_uncorrectableError_group (s : State) (gh : Nat) (intact : Bool) :
    exec (.uncorrectableError (.group gh intact)) s = .next (wake (hitGroup s gh intact)) := rfl

theorem waits_of_lone {s : State} {gh : Nat} {g : Group} (hg : s.groups = [(gh, g)]) (hw : g.waits = []) :
    ∀ p ∈ s.groups, p.2.waits = [] := by simp [hg, hw]

/-- A core marked as failing or fenced: its mark, the other cores, and no wait to re-check. -/
theorem wake_setCore {s : State} (h : swf Core.reset s.cores = true) (hw : ∀ p ∈ s.groups, p.2.waits = []) (c : Nat) (x : Core) :
    wake (setCore s c x) = setCore s c x ∧ coreAt (setCore s c x) c = x ∧
      ∀ k, k ≠ c → coreAt (setCore s c x) k = coreAt s k :=
  ⟨wake_of_noWaits hw, by simp [coreAt_setCore h], fun k hk => by simp [coreAt_setCore h, hk]⟩

/-- The failure of a core that no group is resident on marks the core alone (R26, R27). -/
theorem coreFailure_idle {s : State} {c : Nat} (damaged : List Nat) (hs : swf Core.reset s.cores = true) (hw : s.NoWaits)
    (hc : c < 256) (hn : (coreAt s c).fenced = false) (hf : (coreAt s c).failing = false)
    (hg : ∀ p ∈ s.groups, coreOf p.2 ≠ some c) :
    ∃ t, exec (.coreFailure ⟨c, damaged⟩) s = .next t ∧ (coreAt t c).failing = spareFor s c ∧
      (coreAt t c).fenced = !spareFor s c ∧ (∀ k, k ≠ c → coreAt t k = coreAt s k) ∧ { t with cores := s.cores } = s := by
  have hnone : struckBy s c = [] := by
    rw [struckBy, List.filter_eq_nil_iff]
    exact fun p hp => by simp [hg p hp]
  have hexec := exec_coreFailure damaged hc hn hf
  rw [hnone] at hexec
  cases hsp : spareFor s c with
  | true =>
    obtain ⟨hwake, hat, hother⟩ := wake_setCore hs hw.1 c { coreAt s c with failing := true }
    simp only [hsp, if_true, List.foldl_nil, hwake] at hexec
    refine ⟨_, hexec, by rw [hat], by rw [hat]; exact hn, hother, rfl⟩
  | false =>
    obtain ⟨hwake, hat, hother⟩ := wake_setCore hs hw.1 c { coreAt s c with fenced := true, failing := false }
    simp only [hsp, Bool.false_eq_true, if_false, List.foldl_nil, fenceCore, hwake] at hexec
    exact ⟨_, hexec, by rw [hat], by rw [hat]; rfl, hother, rfl⟩

/-- The failure of a core strikes the only group, live on it, and marks the core (R26, R27, R183). -/
theorem coreFailure_lone {s : State} {gh c : Nat} {g : Group} (damaged : List Nat) (hs : swf Core.reset s.cores = true)
    (hw : s.NoWaits) (hc : c < 256) (hn : (coreAt s c).fenced = false) (hf : (coreAt s c).failing = false)
    (hg : s.groups = [(gh, g)]) (hcore : coreOf g = some c) (hl : g.lanes.any liveLane = true)
    (hq : ∀ p ∈ s.cores, Fetched p.2) :
    ∃ t g', exec (.coreFailure ⟨c, damaged⟩) s = .next t ∧ t.groups = [(gh, g')] ∧
      Struck g (spareFor s c && !damaged.contains gh) g' ∧ (coreAt t c).failing = spareFor s c ∧
      (coreAt t c).fenced = !spareFor s c := by
  have hone : struckBy s c = [(gh, g)] := by simp [struckBy, hg, hcore, hl]
  have hexec := exec_coreFailure damaged hc hn hf
  rw [hone] at hexec
  cases hsp : spareFor s c with
  | true =>
    obtain ⟨g', hgr, hstruck, hcr⟩ := hitGroup_lone hs hw hg hcore hl hq (!damaged.contains gh)
    obtain ⟨hwake, hat, -⟩ := wake_setCore hcr.canon (waits_of_lone hgr hstruck.waits) c
      { coreAt (hitGroup s gh (!damaged.contains gh)) c with failing := true }
    simp only [hsp, if_true, List.foldl_cons, List.foldl_nil, hwake] at hexec
    exact ⟨_, g', hexec, hgr, hstruck, by rw [hat], by rw [hat]; exact (hcr.cores c).fenced.trans hn⟩
  | false =>
    obtain ⟨g', hgr, hkill, hcores⟩ := killWhole_lone hw hg 0x20
    obtain ⟨hwake, hat, -⟩ := wake_setCore (coresTrimmed_of_eq hs hcores).canon (waits_of_lone hgr hkill.waits) c
      { coreAt (killWhole s gh 0x20) c with fenced := true, failing := false }
    simp only [hsp, Bool.false_eq_true, if_false, List.foldl_cons, List.foldl_nil, fenceCore, hwake] at hexec
    exact ⟨_, g', hexec, hgr, ⟨hkill.waits, hkill.held, fun _ _ h => by simp at h, fun _ => hkill⟩, by rw [hat],
      by rw [hat]; rfl⟩

/-- An uncorrectable error in the core of the only group strikes it (R183, R235). -/
theorem uncorrectableError_lone {s : State} {gh c : Nat} {g : Group} (hs : swf Core.reset s.cores = true) (hw : s.NoWaits)
    (hg : s.groups = [(gh, g)]) (hcore : coreOf g = some c) (hl : g.lanes.any liveLane = true)
    (hq : ∀ p ∈ s.cores, Fetched p.2) (intact : Bool) :
    ∃ t g', exec (.uncorrectableError (.group gh intact)) s = .next t ∧ t.groups = [(gh, g')] ∧ Struck g intact g' := by
  obtain ⟨g', hgr, hstruck, -⟩ := hitGroup_lone hs hw hg hcore hl hq intact
  refine ⟨_, g', exec_uncorrectableError_group s gh intact, ?_, hstruck⟩
  rw [wake_of_noWaits (waits_of_lone hgr hstruck.waits), hgr]

/-- The spare of a failing core takes its place, with empty caches, and is used up (R26). -/
theorem spareTakeover_spec {s : State} {c : Nat} (hs : swf Core.reset s.cores = true) (hl : swf Layer.reset s.layers = true)
    (hf : (coreAt s c).failing = true) : ∃ t, exec (.spareTakeover c) s = .next t ∧ t.groups = s.groups ∧
      coreAt t c = { coreAt s c with failing := false, icache := [], nodes := [], keptA := none, keptB := none } ∧
      layerAt t (c / 32) = { layerAt s (c / 32) with
        spareUsed := sset false (layerAt s (c / 32)).spareUsed (c % 32 / 8) true } := by
  have h : exec (.spareTakeover c) s = execSpareTakeover c s := rfl
  rw [execSpareTakeover, if_pos hf] at h
  exact ⟨_, h, rfl, (coreAt_setCore hs c _ c).trans (if_pos rfl), layerAt_setLayer_same hl _ _⟩

/-- An uncorrectable error in memory marks its line (R235). -/
theorem exec_uncorrectableError_line {s : State} {pa : Nat} (h : isMemory (region s pa) = true) :
    exec (.uncorrectableError (.line pa)) s = .next { s with poison := sset false s.poison (pa / 64) true } := by
  change execUncorrectableError (.line pa) s = _
  simp only [execUncorrectableError, h, if_true]

/-- Settles O27: a failure strikes the group of its core through `hitGroup` or `killWhole`, and marks the core. -/
theorem failures : Obligations.Failures := by
  unfold Obligations.Failures
  intro s c damaged hc hw h256
  refine ⟨fun hn hf hg => coreFailure_idle damaged hc.cores hw h256 hn hf hg, fun gh g i intact hg hcore hl hq hi => ?_,
    fun hf => ?_, fun pa hm hp => ?_, _, rfl, rfl, rfl⟩
  · have hstruck : ∃ t g', exec i s = .next t ∧ t.groups = [(gh, g')] ∧ Struck g intact g' ∧
        (i = .coreFailure ⟨c, damaged⟩ → (coreAt t c).failing = spareFor s c ∧ (coreAt t c).fenced = !spareFor s c) := by
      rcases hi with rfl | ⟨hn, hf, rfl, rfl⟩
      · obtain ⟨t, g', ht, hgr, hst⟩ := uncorrectableError_lone hc.cores hw hg hcore hl hq intact
        exact ⟨t, g', ht, hgr, hst, fun h => by cases h⟩
      · obtain ⟨t, g', ht, hgr, hst, hfail, hfence⟩ := coreFailure_lone damaged hc.cores hw h256 hn hf hg hcore hl hq
        exact ⟨t, g', ht, hgr, hst, fun _ => ⟨hfail, hfence⟩⟩
    obtain ⟨t, g', ht, hgr, hst, hmark⟩ := hstruck
    refine ⟨t, g', ht, by simp [hgr, mfind], hst.held, fun k hk hin => ?_, fun h => ?_, hmark⟩
    · have hb := hst.back k hk hin
      exact ⟨hb.ck.trans hk, hb.vregs, hb.sregs, hb.preds, hb.tiles, hb.spad, hb.pitw, hb.latches, hb.lanes, fun x => by
        rw [hb.pend, List.mem_filter, decide_eq_true_eq]⟩
    · exact ⟨(hst.dead h).ck, (hst.dead h).lanes⟩
  · obtain ⟨t, ht, hgr, hcore, hlayer⟩ := spareTakeover_spec hc.cores hc.layers hf
    refine ⟨t, ht, ?_⟩
    rw [hcore, hlayer]
    exact ⟨rfl, rfl, rfl, rfl, rfl, hgr, fun hsp => by simp [sget_sset _ _ _ _ _ hsp]⟩
  · refine ⟨_, exec_uncorrectableError_line hm, ?_, rfl, fun x hx => ?_⟩
    · simp [poisoned, sget_sset _ _ _ _ _ hp]
    · simp [poisoned, sget_sset _ _ _ _ _ hp, hx]

end Sys2Proof.Proofs

/-! Valob links (02 R31 to R43; family O29 to O31). -/

namespace Sys2Proof.Proofs

open Sys2Proof.Machine Sys2Proof.Laws

/-! ### Ports and key slots after a write -/

theorem portAt_setPort {s : State} (h : swf Port.reset s.ports = true) (n : Nat) (x : Port) (k : Nat) :
    portAt (setPort s n x) k = if k = n then x else portAt s k := sget_sset _ _ _ _ _ h

theorem portAt_setPort_same {s : State} (h : swf Port.reset s.ports = true) (n : Nat) (x : Port) :
    portAt (setPort s n x) n = x := by rw [portAt_setPort h, if_pos rfl]

theorem ports_canon_setPort {s : State} (h : swf Port.reset s.ports = true) (n : Nat) (x : Port) :
    swf Port.reset (setPort s n x).ports = true := swf_sset _ _ _ _ h

theorem portUp_iff {s : State} {n : Nat} :
    portUp s n = true ↔ n < 16 ∧ (portAt s n).state = .up ∧ portsRun s = true := by
  simp [portUp, and_assoc]

/-- A write that leaves a port's state leaves the port running (R38, R40). -/
theorem portUp_setPort {s : State} (h : swf Port.reset s.ports = true) {n : Nat} {x : Port}
    (hup : portUp s n = true) (hx : x.state = (portAt s n).state) : portUp (setPort s n x) n = true := by
  obtain ⟨hn, hstate, hrun⟩ := portUp_iff.1 hup
  refine portUp_iff.2 ⟨hn, ?_, hrun⟩
  rw [portAt_setPort_same h, hx, hstate]

theorem slotAt_setSlot {l : List KeySlot} (h : l.length = 2) (b a : Bool) (x : KeySlot) :
    slotAt (setSlot l b x) a = if a = b then x else slotAt l a := by
  have hlt : flag b < l.length := by cases b <;> simp [flag, h]
  have hinj : flag a = flag b ↔ a = b := by cases a <;> cases b <;> simp [flag]
  simp [slotAt, setSlot, nthD_setNth, hlt, hinj]

@[simp] theorem slotAt_reset (k : Bool) : slotAt [KeySlot.reset, KeySlot.reset] k = KeySlot.reset := by cases k <;> rfl

@[simp] theorem length_setSlot (l : List KeySlot) (b : Bool) (x : KeySlot) : (setSlot l b x).length = l.length :=
  length_setNth _ _ _

/-! ### Tables of records -/

/-- What a table holds after a write is the record written, or one that stood there. -/
theorem mem_mput {α : Type} {l : List (Nat × α)} {a : Nat} {x : α} {p : Nat × α} (h : p ∈ mput l a x) :
    p = (a, x) ∨ p ∈ l := by
  induction l with
  | nil => exact .inl (by simpa [mput] using h)
  | cons q r ih =>
    simp only [mput] at h
    split at h
    · exact List.mem_cons.1 h
    · split at h
      · exact (List.mem_cons.1 h).imp_right (List.mem_cons_of_mem q)
      · rcases List.mem_cons.1 h with rfl | h
        · exact .inr List.mem_cons_self
        · exact (ih h).imp_right (List.mem_cons_of_mem q)

/-- In a canonical table a key's only record is the one found, and it lies above the bound. -/
theorem mfind_of_mem {α : Type} {l : List (Nat × α)} {b : Option Nat} {k : Nat} {x : α} (hl : mwfFrom b l = true)
    (h : (k, x) ∈ l) : mfind l k = some x ∧ ∀ m, b = some m → m < k := by
  induction l generalizing b with
  | nil => exact absurd h List.not_mem_nil
  | cons q r ih =>
    obtain ⟨a, y⟩ := q
    simp only [mwfFrom, Bool.and_eq_true] at hl
    obtain ⟨hb, hr⟩ := hl
    have ha : ∀ m, b = some m → m < a := by rintro m rfl; simpa using hb
    rcases List.mem_cons.1 h with he | h
    · cases he
      exact ⟨by simp [mfind], ha⟩
    · obtain ⟨hf, hk⟩ := ih hr h
      have hlt : a < k := hk a rfl
      exact ⟨by simp [mfind, hf, Nat.ne_of_lt hlt, Nat.lt_asymm hlt], fun m hm => Nat.lt_trans (ha m hm) hlt⟩

/-! ### Commands under way over a link that goes down -/

/-- Nothing but memory changes. -/
def MemoryOnly (s t : State) : Prop := ∃ mem lines, t = { s with mem := mem, lines := lines }

theorem MemoryOnly.refl (s : State) : MemoryOnly s s := ⟨s.mem, s.lines, rfl⟩

theorem MemoryOnly.trans {s t u : State} (h : MemoryOnly s t) (h' : MemoryOnly t u) : MemoryOnly s u := by
  obtain ⟨_, _, rfl⟩ := h
  obtain ⟨_, _, rfl⟩ := h'
  exact ⟨_, _, rfl⟩

theorem memoryOnly_writeAs (s : State) (v : LineKey) (pa : Nat) (b : Byte) : MemoryOnly s (writeAs s v pa b) := by
  dsimp only [writeAs]
  (repeat' split) <;> exact ⟨_, _, rfl⟩

theorem memoryOnly_writeSpan (s : State) (v : LineKey) (pa : Nat) (l : List Byte) : MemoryOnly s (writeSpan s v pa l) := by
  induction l generalizing s pa with
  | nil => exact .refl s
  | cons b r ih => exact (memoryOnly_writeAs s v pa b).trans (ih _ _)

theorem memoryOnly_setPins (s : State) (leaf n : Nat) : MemoryOnly s (setPins s leaf n) := by
  unfold setPins
  split
  · exact .refl s
  · exact memoryOnly_writeSpan s _ _ _

/-- Pages are unpinned in their companion words, in memory (R145). -/
theorem memoryOnly_unpinAll (l : List Nat) (s : State) : MemoryOnly s (unpinAll s l) :=
  List.foldlRecOn l unpinLeaf (.refl s) fun t h leaf _ => h.trans (memoryOnly_setPins t leaf _)

/-- No group waits. -/
def Unwaiting (s : State) : Prop := ∀ p ∈ s.groups, p.2.waits = []

theorem wake_setPort {s : State} (hw : Unwaiting s) (n : Nat) (x : Port) : wake (setPort s n x) = setPort s n x :=
  wake_of_noWaits hw

/-- Registers counted off leave a group's waits alone, and touch its record only (R86). -/
theorem markRegs_groups (s : State) (x : Packet) (f : Nat → Nat) :
    ∃ groups, markRegs s x f = { s with groups := groups } ∧ (Unwaiting s → ∀ p ∈ groups, p.2.waits = []) := by
  have hsame : ∃ groups, s = { s with groups := groups } ∧ (Unwaiting s → ∀ p ∈ groups, p.2.waits = []) :=
    ⟨s.groups, rfl, id⟩
  unfold markRegs
  split
  · split
    · next g hg =>
      split
      · refine ⟨_, rfl, fun hw p hp => ?_⟩
        rcases mem_mput hp with rfl | hp
        · exact hw (_, g) (mfind_mem hg)
        · exact hw p hp
      · exact hsame
    · exact hsame
  · exact hsame

/-- A packet's end writes its own record, its queue, and what it had pinned or marked (R76, R83, R102). -/
theorem finish_spec {s : State} {p : Nat} {x : Packet} (hx : mfind s.packets p = some x) (status value : Nat) :
    (∃ y : Packet, y.phase = .finished status value ∧ (finish s p status value).packets = mput s.packets p y) ∧
      (finish s p status value).ports = s.ports ∧ (finish s p status value).pkg = s.pkg ∧
      (Unwaiting s → Unwaiting (finish s p status value)) := by
  obtain ⟨mem, lines, hpins⟩ := memoryOnly_unpinAll x.cmd.pins s
  simp only [finish, hx, hpins]
  by_cases hm : x.cmd.marked = true
  · obtain ⟨groups, hregs, hwait⟩ := markRegs_groups { s with mem := mem, lines := lines } x (· - 1)
    rw [if_pos hm, hregs]
    exact ⟨⟨_, rfl, rfl⟩, rfl, rfl, hwait⟩
  · rw [if_neg hm]
    exact ⟨⟨_, rfl, rfl⟩, rfl, rfl, id⟩

theorem finish_of_absent {s : State} {p : Nat} (hx : mfind s.packets p = none) (status value : Nat) :
    finish s p status value = s := by simp only [finish, hx]

/-- The phase of a packet, if there is one. -/
def phaseOf (s : State) (p : Nat) : Option Phase := (mfind s.packets p).map (·.phase)

/-- A packet's part in its port's going down: a command under way over it ends with LINKDOWN (R39). -/
def dropCommand (n : Nat) (s : State) (x : Nat × Packet) : State := if usesPort n x.2 then finishSeq s x.1 x.2 5 else s

theorem dropCommand_leaves (n : Nat) (s : State) (x : Nat × Packet) : (dropCommand n s x).ports = s.ports ∧
    (dropCommand n s x).pkg = s.pkg ∧ (Unwaiting s → Unwaiting (dropCommand n s x)) := by
  unfold dropCommand finishSeq
  split
  · cases hx : mfind s.packets x.1 with
    | none => rw [finish_of_absent hx]; exact ⟨rfl, rfl, id⟩
    | some y => exact (finish_spec hx _ _).2
  · exact ⟨rfl, rfl, id⟩

theorem phaseOf_dropCommand_same {n : Nat} {s : State} {x : Nat × Packet} (hu : usesPort n x.2 = true)
    (hx : (phaseOf s x.1).isSome) : phaseOf (dropCommand n s x) x.1 = some (.finished 5 (pseqOf x.2.body.toNat)) := by
  obtain ⟨y, hy⟩ : ∃ y, mfind s.packets x.1 = some y := Option.isSome_iff_exists.1 (by simpa [phaseOf] using hx)
  obtain ⟨⟨z, hz, hp⟩, -⟩ := finish_spec hy 5 (pseqOf x.2.body.toNat)
  simp [phaseOf, dropCommand, hu, finishSeq, hp, hz]

theorem phaseOf_dropCommand_other {n : Nat} {s : State} {x : Nat × Packet} {p : Nat} (h : p ≠ x.1) :
    phaseOf (dropCommand n s x) p = phaseOf s p := by
  unfold dropCommand finishSeq
  split
  · cases hx : mfind s.packets x.1 with
    | none => rw [finish_of_absent hx]
    | some y =>
      obtain ⟨⟨z, -, hp⟩, -⟩ := finish_spec hx 5 (pseqOf x.2.body.toNat)
      rw [phaseOf, hp, mfind_mput_other _ _ _ _ h, phaseOf]
  · rfl

/-- Of a list of packets in which a handle names one command, under way over the port, that command has ended once the list
has been gone through, or where it had ended before. -/
theorem phaseOf_dropCommands {n p : Nat} {x : Packet} (hu : usesPort n x = true) {l : List (Nat × Packet)}
    (hl : ∀ y, (p, y) ∈ l → y = x) {s : State} (hs : (phaseOf s p).isSome)
    (h : (p, x) ∈ l ∨ phaseOf s p = some (.finished 5 (pseqOf x.body.toNat))) :
    phaseOf (l.foldl (dropCommand n) s) p = some (.finished 5 (pseqOf x.body.toNat)) := by
  induction l generalizing s with
  | nil => exact h.resolve_left List.not_mem_nil
  | cons a r ih =>
    have hr : ∀ y, (p, y) ∈ r → y = x := fun y hy => hl y (List.mem_cons_of_mem a hy)
    obtain ⟨k, y⟩ := a
    by_cases hk : p = k
    · subst hk
      obtain rfl : y = x := hl y List.mem_cons_self
      have hend := phaseOf_dropCommand_same (x := (p, y)) hu hs
      exact ih hr (by rw [hend]; rfl) (.inr hend)
    · have hsame : phaseOf (dropCommand n s (k, y)) p = phaseOf s p := phaseOf_dropCommand_other hk
      refine ih hr (hsame ▸ hs) (h.imp (fun hx => ?_) fun hx => hsame.trans hx)
      exact (List.mem_cons.1 hx).resolve_left fun he => hk (congrArg Prod.fst he)

/-! ### O29: the states of a port -/

/-- A state with messages added to what has been sent. -/
def withOut (s : State) (l : List Message) : State := { s with pkg := { s.pkg with out := s.pkg.out ++ l } }

theorem withOut_nil (s : State) : withOut s [] = s := by simp only [withOut, List.append_nil]

theorem withOut_emit (s : State) (m : Message) (l : List Message) : withOut (emit s m) l = withOut s (m :: l) := by
  simp only [withOut, emit, List.append_assoc, List.singleton_append]

/-- The same message some times over. -/
theorem foldl_emit_replicate (m : Message) (k : Nat) (s : State) :
    (List.replicate k ()).foldl (fun st _ => emit st m) s = withOut s (List.replicate k m) := by
  induction k generalizing s with
  | zero => exact (withOut_nil s).symm
  | succ k ih => rw [List.replicate_succ, List.foldl_cons, ih, withOut_emit, List.replicate_succ]

/-- The state once every request without a response over a port has ended: those of flits sent with a message each, and the
commands under way (R39). -/
def dropRequests (s : State) (n : Nat) : State :=
  s.packets.foldl (dropCommand n) (withOut s (List.replicate (portAt s n).requests (.linkdown n)))

theorem ports_dropRequests (s : State) (n : Nat) : (dropRequests s n).ports = s.ports :=
  foldl_leaves State.ports (fun t x => (dropCommand_leaves n t x).1) _ _

theorem out_dropRequests (s : State) (n : Nat) :
    (dropRequests s n).pkg.out = s.pkg.out ++ List.replicate (portAt s n).requests (.linkdown n) :=
  congrArg Pkg.out (foldl_leaves State.pkg (fun t x => (dropCommand_leaves n t x).2.1) _ _)

theorem unwaiting_dropRequests {s : State} (hw : Unwaiting s) (n : Nat) : Unwaiting (dropRequests s n) :=
  List.foldlRecOn s.packets (dropCommand n) (motive := Unwaiting) hw fun t ht x _ => (dropCommand_leaves n t x).2.2 ht

theorem phaseOf_dropRequests {s : State} (hc : mwf s.packets = true) {n p : Nat} {x : Packet}
    (hx : mfind s.packets p = some x) (hu : usesPort n x = true) :
    phaseOf (dropRequests s n) p = some (.finished 5 (pseqOf x.body.toNat)) := by
  have hone : ∀ y, (p, y) ∈ s.packets → y = x := fun y hy =>
    Option.some.inj ((mfind_of_mem hc hy).1.symm.trans hx)
  exact phaseOf_dropCommands hu hone (by simp [phaseOf, withOut, hx]) (.inl (mfind_mem hx))

/-- A port that has gone down for a reason: it keeps its counters and what is on the wire, and loses its keys (R33, R39). -/
def lowered (p : Port) (why : Nat) : Port :=
  { Port.reset with enable := p.enable && why != 4, downWhy := why, authFail := p.authFail, rekey := p.rekey, wire := p.wire,
                    got := p.got, rxAsid := p.rxAsid, timeSent := p.timeSent, timeSeen := p.timeSeen }

/-- Both directions' keys are gone (R33, R39). -/
theorem slots_lowered (p : Port) (why : Nat) (k : Bool) :
    slotAt (lowered p why).tx k = KeySlot.reset ∧ slotAt (lowered p why).rx k = KeySlot.reset :=
  ⟨slotAt_reset k, slotAt_reset k⟩

theorem linkDown_eq (s : State) (n why : Nat) :
    linkDown s n why = setPort (dropRequests s n) n (lowered (portAt s n) why) := by
  simp only [linkDown, foldl_emit_replicate]
  rfl

/-- Each cause of a link's going down runs the same operation, and no wait is there to be re-checked (R39). -/
theorem exec_linkDown {s : State} {n why : Nat} {i : Instr} (hw : s.NoWaits)
    (h : exec i s = .next (wake (linkDown s n why))) :
    exec i s = .next (setPort (dropRequests s n) n (lowered (portAt s n) why)) := by
  rw [h, linkDown_eq, wake_setPort (unwaiting_dropRequests hw.1 n)]

theorem exec_portDisable_up {s : State} {n : Nat} (hn : n < 16) (hup : (portAt s n).state = .up) :
    exec (.portDisable n) s = .next (wake (linkDown s n 4)) := by
  change execPortDisable n s = _
  simp [execPortDisable, disablePort, hup, Nat.not_le.2 hn]

theorem exec_phyLockLoss_up {s : State} {n d : Nat} (hn : n < 16) (hup : (portAt s n).state = .up)
    (hd : 10000 * 65536 < d) : exec (.phyLockLoss n d) s = .next (wake (linkDown s n 3)) := by
  change execPhyLockLoss n d s = _
  have hcond : n < 16 ∧ (portAt s n).state ≠ .down ∧ d > 10000 * 65536 := ⟨hn, by simp [hup], hd⟩
  rw [execPhyLockLoss, if_pos hcond]

theorem exec_iclimitTimeout_due {s : State} {n e : Nat} (hup : portUp s n = true) (he : (portAt s n).stopped = some e)
    (hd : 10000000 * 65536 ≤ (s.time.now - BitVec.ofNat 64 e).toNat) :
    exec (.iclimitTimeout n) s = .next (wake (linkDown s n 2)) := by
  change execIclimitTimeout n s = _
  have hdue : decide (10000000 * 65536 ≤ elapsed s e) = true := decide_eq_true hd
  simp only [execIclimitTimeout, he, hup, hdue, Bool.and_self, if_true]

theorem exec_portEnable_down {s : State} {n : Nat} (asid : BitVec 16) (hn : n < 16) (hd : (portAt s n).state = .down) :
    exec (.portEnable n asid) s =
      .next (setPort s n { portAt s n with enable := true, rxAsid := asid, state := .train }) := by
  change execPortEnable n asid s = _
  simp [execPortEnable, enablePort, hd, Nat.not_le.2 hn]

/-- A port that lacks a transmit key stays as it is. -/
theorem keysReady_of_unloaded {p : Port} (h : (slotAt p.tx false).loaded = false) : keysReady p = p := by
  simp [keysReady, h]

/-- A port that has come up: its sequence numbers begin at 0 (R38). -/
def raised (p : Port) : Port :=
  { p with state := .up, sendSeq := 0, wantSeq := 0, ackSeq := 0xFFFF, replay := [], stopped := none }

/-- With both keys loaded at both ends a port in KEYWAIT goes UP (R38). -/
theorem keysReady_of_loaded {p : Port} (hs : p.state = .keywait) (hr : p.peerReady = true)
    (ht : (slotAt p.tx false).loaded = true) (hx : (slotAt p.rx false).loaded = true) :
    keysReady p = raised p := by
  simp [keysReady, raised, hs, hr, ht, hx]

/-- A port with a key in slot 0 of its transmit direction (R33). -/
def keyed (p : Port) (key : BitVec 256) : Port :=
  { p with tx := setSlot p.tx false { KeySlot.reset with key := key, loaded := true } }

/-- A port whose training is done (R38). -/
def trained (p : Port) (ready : Bool) : Port := { p with state := .keywait, peerReady := p.peerReady || ready }

theorem exec_trainDone_train {s : State} {n : Nat} (ready : Bool) (hs : (portAt s n).state = .train)
    (ht : (slotAt (portAt s n).tx false).loaded = false) :
    exec (.trainDone ⟨n, ready⟩) s = .next (setPort s n (trained (portAt s n) ready)) := by
  change execTrainDone ⟨n, ready⟩ s = _
  have hstay : keysReady (trained (portAt s n) ready) = trained (portAt s n) ready := keysReady_of_unloaded ht
  rw [← hstay]
  simp only [execTrainDone, hs, decide_true, Bool.true_or, if_true, trained]

/-- The last of the four keys takes a port in KEYWAIT up with sequence numbers from 0 (R38). -/
theorem exec_valobKeyLoad_up {s : State} {n : Nat} (key : BitVec 256) (hn : n < 16) (hs : (portAt s n).state = .keywait)
    (htx : (portAt s n).tx.length = 2) (hrx : (slotAt (portAt s n).rx false).loaded = true)
    (hr : (portAt s n).peerReady = true) :
    exec (.valobKeyLoad n true false key) s = .next (setPort s n (raised (keyed (portAt s n) key))) := by
  change execValobKeyLoad n true false key s = _
  have hloaded : (slotAt (keyed (portAt s n) key).tx false).loaded = true := by
    rw [keyed, slotAt_setSlot htx, if_pos rfl]
  have hready : keysReady (keyed (portAt s n) key) = raised (keyed (portAt s n) key) :=
    keysReady_of_loaded hs hr hloaded hrx
  rw [← hready]
  simp [execValobKeyLoad, loadPortKey, hs, Nat.not_le.2 hn, keyed]

/-- Settles O29: each change of state writes the port alone, and every way down is the one operation `linkDown`. -/
theorem portStates : Obligations.PortStates := by
  unfold Obligations.PortStates
  refine fun s n hc hn => ⟨fun asid hd => ?_, fun ready hs ht => ?_, fun key hs htx _ hrx hr => ?_,
    fun i why hup hrun hw hcause => ?_⟩
  · exact ⟨_, exec_portEnable_down asid hn hd, portAt_setPort_same hc.ports _ _, rfl⟩
  · exact ⟨_, exec_trainDone_train ready hs ht, portAt_setPort_same hc.ports _ _, rfl⟩
  · refine ⟨_, exec_valobKeyLoad_up key hn hs htx hrx hr, ?_⟩
    rw [portAt_setPort_same hc.ports]
    have hslot : slotAt (raised (keyed (portAt s n) key)).tx false = { KeySlot.reset with key := key, loaded := true } :=
      (slotAt_setSlot htx false false _).trans (if_pos rfl)
    rw [hslot]
    exact ⟨rfl, rfl, rfl, rfl, rfl, rfl, rfl⟩
  · have hexec : exec i s = .next (wake (linkDown s n why)) := by
      rcases hcause with ⟨rfl, rfl⟩ | ⟨d, rfl, hd, rfl⟩ | ⟨e, rfl, he, hd, rfl⟩
      · exact exec_portDisable_up hn hup
      · exact exec_phyLockLoss_up hn hup hd
      · exact exec_iclimitTimeout_due (portUp_iff.2 ⟨hn, hup, hrun⟩) he hd
    have hcan : swf Port.reset (dropRequests s n).ports = true := ports_dropRequests s n ▸ hc.ports
    refine ⟨_, exec_linkDown hw hexec, ?_⟩
    rw [portAt_setPort_same hcan]
    refine ⟨rfl, rfl, rfl, fun k => ?_, out_dropRequests s n, fun p x hx hu => phaseOf_dropRequests hc.packets hx hu,
      fun k hk => ?_⟩
    · obtain ⟨htx, hrx⟩ := slots_lowered (portAt s n) why k
      rw [htx, hrx]
      exact ⟨rfl, rfl⟩
    · rw [portAt_setPort hcan, if_neg hk, portAt, ports_dropRequests, portAt]

/-! ### A flit sent -/

/-- The flit that a port sends next under a slot (R31, R34). -/
def nextFlit (p : Port) (slot : Bool) (kind cls : Nat) (payload : List Byte) : WireFlit :=
  makeFlit (slotAt p.tx slot).key
    { kind := kind, kslot := slot, cls := cls, seq := if kind ≤ 1 then p.sendSeq else 0,
      ackSeq := (p.wantSeq + 65535) % 65536, len := if kind = 0 then payload.length else 0, ic := (slotAt p.tx slot).ic }
    payload

/-- A port p has become q by sending a flit under a slot: the IC of the slot advances, and a numbered flit takes the next SEQ
and stays for replay (R31, R34, R37). -/
structure Sent (p q : Port) (slot : Bool) (kind cls : Nat) (payload : List Byte) : Prop where
  wire : q.wire = p.wire ++ [nextFlit p slot kind cls payload]
  tx : q.tx = setSlot p.tx slot { slotAt p.tx slot with ic := (slotAt p.tx slot).ic + 1 }
  sendSeq : q.sendSeq = if kind ≤ 1 then (p.sendSeq + 1) % 65536 else p.sendSeq
  replay : q.replay = if kind ≤ 1 then
    p.replay ++ [{ seq := p.sendSeq, flit := nextFlit p slot kind cls payload, resent := 0, marker := kind == 1 }] else p.replay
  txSlot : q.txSlot = p.txSlot
  swBusy : q.swBusy = p.swBusy
  wantSeq : q.wantSeq = p.wantSeq
  authFail : q.authFail = p.authFail
  got : q.got = p.got
  requests : q.requests = p.requests

/-- Sending writes the port, and perhaps a message. -/
theorem sendFlit_writes (s : State) (n : Nat) (slot : Bool) (kind cls : Nat) (payload : List Byte) :
    ∃ q, Sent (portAt s n) q slot kind cls payload ∧
      (sendFlit s n slot kind cls payload).ports = (setPort s n q).ports ∧
      ((slotAt (portAt s n).tx slot).ic + 1 < 2 ^ 43 → sendFlit s n slot kind cls payload = setPort s n q) := by
  by_cases hk : kind ≤ 1
  all_goals
    dsimp only [sendFlit]
    simp only [hk, if_true, if_false]
    refine ⟨_, ?_, ?_, fun hic => if_neg (Nat.ne_of_lt hic)⟩
    · constructor <;> simp only [nextFlit, hk, if_true, if_false]
    · split <;> rfl

section
variable {s : State} (hs : swf Port.reset s.ports = true)
include hs

theorem sent_sendFlit (n : Nat) (slot : Bool) (kind cls : Nat) (payload : List Byte) :
    Sent (portAt s n) (portAt (sendFlit s n slot kind cls payload) n) slot kind cls payload := by
  obtain ⟨q, hq, hports, -⟩ := sendFlit_writes s n slot kind cls payload
  have hsame : portAt (sendFlit s n slot kind cls payload) n = q := by
    rw [portAt, hports]
    exact portAt_setPort_same hs n q
  exact hsame ▸ hq

theorem ports_canon_sendFlit (n : Nat) (slot : Bool) (kind cls : Nat) (payload : List Byte) :
    swf Port.reset (sendFlit s n slot kind cls payload).ports = true := by
  obtain ⟨q, -, hports, -⟩ := sendFlit_writes s n slot kind cls payload
  exact hports ▸ ports_canon_setPort hs n q

end

/-- Below 2^43 sending writes nothing but ports (R34). -/
theorem sendFlit_ports_only {s : State} {n : Nat} {slot : Bool} (kind cls : Nat) (payload : List Byte)
    (hic : (slotAt (portAt s n).tx slot).ic + 1 < 2 ^ 43) :
    { sendFlit s n slot kind cls payload with ports := s.ports } = s := by
  obtain ⟨q, -, -, h⟩ := sendFlit_writes s n slot kind cls payload
  rw [h hic]
  rfl

/-! ### The MARKER of a switch-over -/

theorem sendMarker_of_not_due {s : State} {n : Nat} (h : (portAt s n).markerDue = false) : sendMarker s n = s := by
  simp [sendMarker, h]

theorem sendMarker_of_full {s : State} {n : Nat} (h : 512 ≤ (portAt s n).replay.length) : sendMarker s n = s := by
  simp [sendMarker, Nat.not_lt.2 h]

/-- A port p has become q by sending its MARKER: it stays for replay, and later flits use the slot it came under (R35). -/
structure MarkerSent (p q : Port) : Prop where
  wire : q.wire = p.wire ++ [nextFlit p (!p.txSlot) 1 3 []]
  replay : q.replay = p.replay ++ [{ seq := p.sendSeq, flit := nextFlit p (!p.txSlot) 1 3 [], resent := 0, marker := true }]
  txSlot : q.txSlot = !p.txSlot
  swBusy : q.swBusy = p.swBusy
  markerDue : q.markerDue = false

theorem markerSent_sendMarker {s : State} {n : Nat} (hs : swf Port.reset s.ports = true) (hup : portUp s n = true)
    (hdue : (portAt s n).markerDue = true) (hroom : (portAt s n).replay.length < 512) :
    MarkerSent (portAt s n) (portAt (sendMarker s n) n) := by
  have hsent := sent_sendFlit hs n (!(portAt s n).txSlot) 1 3 []
  have hcan := ports_canon_sendFlit hs n (!(portAt s n).txSlot) 1 3 []
  simp only [sendMarker, hdue, hup, hroom, decide_true, Bool.and_self, if_true, portAt_setPort_same hcan]
  exact ⟨hsent.wire, hsent.replay, rfl, hsent.swBusy, rfl⟩

/-! ### Resending -/

/-- A buffered flit that has been resent once more. -/
def resentOnce (k : Kept) : Kept := { k with resent := k.resent + 1 }

/-- A port that has resent what is outstanding, in order (R37). -/
def resending (p : Port) : Port :=
  { p with replay := p.replay.map resentOnce, wire := p.wire ++ (p.replay.map resentOnce).map (·.flit) }

theorem wire_resending (p : Port) : (resending p).wire = p.wire ++ p.replay.map (·.flit) := by
  simp [resending, Function.comp_def, resentOnce]

/-- Below eight resends of each SEQ the link stays up (R37). -/
theorem resendAll_eq {s : State} {n : Nat} (h : ∀ x ∈ (portAt s n).replay, x.resent < 7) :
    resendAll n s = setPort s n (resending (portAt s n)) := by
  have hfew : ¬ ((portAt s n).replay.map resentOnce).any (fun k => decide (k.resent ≥ 8)) = true := by
    simp only [List.any_eq_true, List.mem_map, decide_eq_true_eq]
    rintro ⟨_, ⟨x, hx, rfl⟩, hge⟩
    have hlt := h x hx
    simp only [resentOnce] at hge
    omega
  exact if_neg hfew

/-! ### O30: flits sent -/

/-- A request is one more without a response (R39). -/
def countRequest (s : State) (n : Nat) (cls : BitVec 2) : State :=
  if cls = 0 then setPort s n { portAt s n with requests := (portAt s n).requests + 1 } else s

theorem portAt_countRequest {s : State} (hs : swf Port.reset s.ports = true) (n : Nat) (cls : BitVec 2) :
    portAt (countRequest s n cls) n =
      { portAt s n with requests := (portAt s n).requests + if cls = 0 then 1 else 0 } := by
  unfold countRequest
  split
  · exact portAt_setPort_same hs n _
  · rfl

theorem countRequest_ports_only (s : State) (n : Nat) (cls : BitVec 2) (l : List (Nat × Port)) :
    { countRequest s n cls with ports := l } = { s with ports := l } := by
  unfold countRequest
  split <;> rfl

section
variable {s : State} {n : Nat} (hup : portUp s n = true)
include hup

theorem exec_flitSend_data {cls : BitVec 2} {payload : List Byte} (hstop : (portAt s n).stopped = none)
    (hroom : (portAt s n).replay.length < 512) (hlen : payload.length ≤ 256) :
    exec (.flitSend n { kind := 0, cls := cls, payload := payload }) s =
      .next (countRequest (sendFlit s n (portAt s n).txSlot 0 cls.toNat payload) n cls) := by
  change execFlitSend n _ s = _
  simp [execFlitSend, hup, hstop, Nat.not_le.2 hroom, Nat.not_lt.2 hlen, countRequest]

/-- A port whose switch-over has begun (R35). -/
def switching (p : Port) : Port := { p with swBusy := true, markerDue := true }

theorem exec_switch_begins (hb : (portAt s n).swBusy = false)
    (hl : (slotAt (portAt s n).tx (!(portAt s n).txSlot)).loaded = true) :
    exec (.switch n) s = .next (sendMarker (setPort s n (switching (portAt s n))) n) := by
  obtain ⟨hn, hstate, -⟩ := portUp_iff.1 hup
  change execSwitch n s = _
  simp [execSwitch, switchPort, Nat.not_le.2 hn, hstate, hb, hl, switching]

/-- A port from whose last acknowledgement time runs anew. -/
def rearmed (p : Port) (now : Nat) : Port := { p with lastAck := now }

theorem exec_replayTimeout_due (hs : swf Port.reset s.ports = true) (hw : s.NoWaits) (hr : (portAt s n).replay ≠ [])
    (hd : 4000 * 65536 ≤ (s.time.now - BitVec.ofNat 64 (portAt s n).lastAck).toNat)
    (hx : ∀ x ∈ (portAt s n).replay, x.resent < 7) : ∃ t, exec (.replayTimeout n) s = .next t ∧
      portAt t n = resending (rearmed (portAt s n) s.time.now.toNat) := by
  have hdue : decide (4000 * 65536 ≤ elapsed s (portAt s n).lastAck) = true := decide_eq_true hd
  have h : exec (.replayTimeout n) s = execReplayTimeout n s := rfl
  have hsame := portAt_setPort_same hs n (rearmed (portAt s n) s.time.now.toNat)
  have hresent : resendAll n (setPort s n (rearmed (portAt s n) s.time.now.toNat)) = _ :=
    resendAll_eq (by rw [hsame]; exact hx)
  simp only [rearmed] at hresent
  simp only [execReplayTimeout, hup, hdue, hr, ne_eq, not_false_eq_true, decide_true, Bool.and_self, if_true, hresent] at h
  refine ⟨_, h, ?_⟩
  rw [wake_setPort (s := setPort s n _) hw.1, portAt_setPort_same (ports_canon_setPort hs n _)]
  exact congrArg resending hsame

theorem exec_timeExchange_port (d : Int) (hsrc : s.time.tsrc = 2) (hport : s.time.tport = n)
    (hstop : (portAt s n).stopped = none) :
    exec (.timeExchange (.port n) d) s = .next (sendFlit s n (portAt s n).txSlot 2 3 []) := by
  change execTimeExchange (.port n) d s = _
  simp [execTimeExchange, hup, hsrc, hport, hstop]

end

/-- Settles O30: every clause is one flit sent, the MARKER's with its slot, or what is outstanding sent again. -/
theorem flitsSent : Obligations.FlitsSent := by
  unfold Obligations.FlitsSent
  intro s n hc hw hup htx p k head
  have hs := hc.ports
  refine ⟨fun cls payload hstop hroom hlen hic => ?_, fun hb hl hroom _ => ?_, fun hb hl hfull => ?_,
    fun hr hd hx => ?_, fun hsrc hport hstop _ => ?_⟩
  · have hsent := sent_sendFlit hs n p.txSlot 0 cls.toNat payload
    have hcan := ports_canon_sendFlit hs n p.txSlot 0 cls.toNat payload
    refine ⟨_, exec_flitSend_data hup hstop hroom hlen, ?_⟩
    rw [portAt_countRequest hcan, countRequest_ports_only]
    refine ⟨hsent.wire, hsent.sendSeq, hsent.replay, ?_, hsent.txSlot, by rw [hsent.requests],
      sendFlit_ports_only 0 cls.toNat payload hic⟩
    rw [hsent.tx, slotAt_setSlot htx, if_pos rfl]
  · have hsame := portAt_setPort_same hs n (switching p)
    have hsent := markerSent_sendMarker (ports_canon_setPort hs n (switching p)) (portUp_setPort hs hup rfl)
      (by rw [hsame]; rfl) (by rw [hsame]; exact hroom)
    rw [hsame] at hsent
    exact ⟨_, exec_switch_begins hup hb hl, hsent.txSlot, hsent.swBusy, hsent.wire, hsent.replay⟩
  · have hsame := portAt_setPort_same hs n (switching p)
    rw [exec_switch_begins hup hb hl, sendMarker_of_full (by rw [hsame]; exact hfull)]
    rfl
  · obtain ⟨t, ht, hport⟩ := exec_replayTimeout_due hup hs hw hr hd hx
    refine ⟨t, ht, ?_⟩
    rw [hport, wire_resending]
    exact ⟨rfl, rfl, (portUp_iff.1 hup).2.1⟩
  · have hsent := sent_sendFlit hs n p.txSlot 2 3 []
    exact ⟨_, exec_timeExchange_port hup 0 hsrc hport hstop, hsent.replay, hsent.wire, hsent.sendSeq⟩

/-! ### Acknowledgements -/

/-- A port whose buffered flits up to a SEQ have been acknowledged (R37). -/
def acked (p : Port) (now seq : Nat) (r : List Kept) : Port := { p with replay := r, ackSeq := seq, lastAck := now }

section
variable {s : State} (hs : swf Port.reset s.ports = true)
include hs

/-- With nothing outstanding an ACKSEQ covers nothing (R37). -/
theorem takeAck_of_empty (n : Nat) {p : Port} (h : p.replay = []) (seq : Nat) :
    takeAck (setPort s n p) n seq = setPort s n p := by
  simp [takeAck, portAt_setPort_same hs, h, ackTo]

/-- The acknowledgement of the first buffered flit, no MARKER, retires it, and a MARKER that waited is sent (R35, R37). -/
theorem takeAck_of_first (n : Nat) {p : Port} {x : Kept} {r : List Kept} (hr : p.replay = x :: r)
    (hm : x.marker = false) : takeAck (setPort s n p) n x.seq =
      sendMarker (setPort (setPort s n p) n (acked p s.time.now.toNat x.seq r)) n := by
  simp [takeAck, portAt_setPort_same hs, hr, ackTo, hm, acked]

end

/-! ### Received flits that pass -/

/-- The port after a control flit was accepted (R36). -/
def noteControl (p : Port) (h : FlitHead) : Port :=
  { p with rx := setSlot p.rx h.kslot { slotAt p.rx h.kslot with seenCtl := some h.ic } }

/-- The port after a payload was taken; a response (class 1) ends one open request (R36, R39). -/
def tookData (p : Port) (h : FlitHead) (b : List Byte) : Port :=
  { noteData p h with got := p.got ++ [b], requests := if h.cls = 1 then p.requests - 1 else p.requests }

/-- A port that receives under another slot than before, the old one retired (R35). -/
def movedTo (p : Port) (k : Bool) : Port := { p with rx := setSlot p.rx p.rxSlot KeySlot.reset, rxSlot := k }

section
variable {s : State} {n : Nat} {f : WireFlit} (hup : portUp s n = true)
include hup

theorem exec_dataFlit_accepted {b : List Byte} (hk : (headFields f.header).kind = 0)
    (ha : acceptNumbered (portAt s n) f = some b) (hr : (portAt s n).replay = []) (hs : swf Port.reset s.ports = true) :
    exec (.dataFlit n f) s = .next (setPort s n (tookData (portAt s n) (headFields f.header) b)) := by
  have hack := takeAck_of_empty hs n (p := tookData (portAt s n) (headFields f.header) b) hr (headFields f.header).ackSeq
  rw [← hack]
  change execDataFlit n f s = _
  simp [execDataFlit, hup, hk, ha, tookData, noteData]

theorem exec_dataFlit_discarded (hk : (headFields f.header).kind = 0) (ha : acceptNumbered (portAt s n) f = none) :
    exec (.dataFlit n f) s = .next (discardNak s n) := by
  change execDataFlit n f s = _
  simp [execDataFlit, hup, hk, ha]

theorem exec_markerFlit_accepted {b : List Byte} (hk : (headFields f.header).kind = 1)
    (ha : acceptNumbered (portAt s n) f = some b) (hr : (portAt s n).replay = [])
    (hslot : (headFields f.header).kslot ≠ (portAt s n).rxSlot) (hs : swf Port.reset s.ports = true) :
    exec (.markerFlit n f) s =
      .next (setPort s n (movedTo (noteData (portAt s n) (headFields f.header)) (headFields f.header).kslot)) := by
  have hack := takeAck_of_empty hs n
    (p := movedTo (noteData (portAt s n) (headFields f.header)) (headFields f.header).kslot) hr (headFields f.header).ackSeq
  have hslot' : (headFields f.header).kslot ≠ (noteData (portAt s n) (headFields f.header)).rxSlot := hslot
  rw [← hack]
  change execMarkerFlit n f s = _
  simp [execMarkerFlit, hup, hk, ha, hslot', movedTo]

/-- A control flit that passes is noted, its ACKSEQ taken, and then it acts (R36). -/
theorem runControl_accepted {kind : Nat} (act : State → State) (hk : (headFields f.header).kind = kind)
    (ha : acceptControl (portAt s n) f = true) : runControl n kind f act s =
      act (takeAck (setPort s n (noteControl (portAt s n) (headFields f.header))) n (headFields f.header).ackSeq) := by
  simp [runControl, hup, hk, ha, noteControl]

theorem runControl_of_empty {kind : Nat} (act : State → State) (hk : (headFields f.header).kind = kind)
    (ha : acceptControl (portAt s n) f = true) (hr : (portAt s n).replay = []) (hs : swf Port.reset s.ports = true) :
    runControl n kind f act s = act (setPort s n (noteControl (portAt s n) (headFields f.header))) := by
  rw [runControl_accepted hup act hk ha]
  exact congrArg act (takeAck_of_empty hs n (p := noteControl _ _) hr _)

theorem exec_reservedKindFlit_reserved (hk : 6 ≤ (headFields f.header).kind) :
    exec (.reservedKindFlit n f) s = .next (setPort s n (countDiscard (portAt s n))) := by
  change execReservedKindFlit n f s = _
  simp [execReservedKindFlit, hup, hk]

end

/-- The state after a control flit that acknowledges the first buffered flit, before a MARKER that waits is sent. -/
def afterAck (s : State) (n : Nat) (h : FlitHead) (r : List Kept) : State :=
  setPort (setPort s n (noteControl (portAt s n) h)) n
    (acked (noteControl (portAt s n) h) s.time.now.toNat h.ackSeq r)

theorem portAt_afterAck {s : State} (hs : swf Port.reset s.ports = true) (n : Nat) (h : FlitHead) (r : List Kept) :
    portAt (afterAck s n h r) n = acked (noteControl (portAt s n) h) s.time.now.toNat h.ackSeq r :=
  portAt_setPort_same (ports_canon_setPort hs n _) n _

theorem ports_canon_afterAck {s : State} (hs : swf Port.reset s.ports = true) (n : Nat) (h : FlitHead) (r : List Kept) :
    swf Port.reset (afterAck s n h r).ports = true := ports_canon_setPort (ports_canon_setPort hs n _) n _

theorem portUp_afterAck {s : State} {n : Nat} (hs : swf Port.reset s.ports = true) (hup : portUp s n = true)
    (h : FlitHead) (r : List Kept) : portUp (afterAck s n h r) n = true :=
  portUp_setPort (ports_canon_setPort hs n _) (portUp_setPort hs hup rfl) (by rw [portAt_setPort_same hs]; rfl)

theorem runControl_of_first {s : State} {n : Nat} {f : WireFlit} {kind : Nat} {x : Kept} {r : List Kept}
    (act : State → State) (hs : swf Port.reset s.ports = true) (hup : portUp s n = true)
    (hk : (headFields f.header).kind = kind) (ha : acceptControl (portAt s n) f = true)
    (hr : (portAt s n).replay = x :: r) (hx : x.seq = (headFields f.header).ackSeq) (hm : x.marker = false) :
    runControl n kind f act s = act (sendMarker (afterAck s n (headFields f.header) r) n) := by
  rw [runControl_accepted hup act hk ha, afterAck, ← hx]
  exact congrArg act (takeAck_of_first hs n (p := noteControl _ _) hr hm)

/-! ### O31: flits received -/

/-- A discarded numbered flit is counted and answered NAK under the transmit slot (R36). -/
theorem sent_discardNak {s : State} (hs : swf Port.reset s.ports = true) (n : Nat) :
    Sent (countDiscard (portAt s n)) (portAt (discardNak s n) n) (portAt s n).txSlot 4 3 [] := by
  have hsame := portAt_setPort_same hs n (countDiscard (portAt s n))
  have hsent := sent_sendFlit (ports_canon_setPort hs n (countDiscard (portAt s n))) n (portAt s n).txSlot 4 3 []
  rw [hsame] at hsent
  simp only [discardNak, hsame]
  exact hsent

/-- A MARKER retires the receive slot that it does not name (R35). -/
theorem slotAt_movedTo {p : Port} (hp : p.rx.length = 2) (k : Bool) :
    slotAt (movedTo p k).rx p.rxSlot = KeySlot.reset := by
  rw [movedTo, slotAt_setSlot hp, if_pos rfl]

section
variable {s : State} {n : Nat} {f : WireFlit} (hs : swf Port.reset s.ports = true) (hup : portUp s n = true)
  (ha : acceptControl (portAt s n) f = true)
include hs hup ha

theorem exec_ackFlit_first {x : Kept} {r : List Kept} (hk : (headFields f.header).kind = 3)
    (hr : (portAt s n).replay = x :: r) (hx : x.seq = (headFields f.header).ackSeq) (hm : x.marker = false) :
    exec (.ackFlit n f) s = .next (sendMarker (afterAck s n (headFields f.header) r) n) := by
  change execAckFlit n f s = _
  rw [execAckFlit, runControl_of_first _ hs hup hk ha hr hx hm]

/-- A NAK that acknowledges the first buffered flit has the others resent (R37). -/
theorem exec_nakFlit_first {x : Kept} {r : List Kept} (hw : s.NoWaits) (hk : (headFields f.header).kind = 4)
    (hr : (portAt s n).replay = x :: r) (hx : x.seq = (headFields f.header).ackSeq) (hm : x.marker = false)
    (hdue : (portAt s n).markerDue = false) (hfew : ∀ y ∈ r, y.resent < 7) : ∃ t, exec (.nakFlit n f) s = .next t ∧
      portAt t n = resending (acked (noteControl (portAt s n) (headFields f.header)) s.time.now.toNat
        (headFields f.header).ackSeq r) := by
  have hport := portAt_afterAck hs n (headFields f.header) r
  have h : exec (.nakFlit n f) s = execNakFlit n f s := rfl
  rw [execNakFlit, runControl_of_first _ hs hup hk ha hr hx hm,
    sendMarker_of_not_due (by rw [hport]; exact hdue), resendAll_eq (by rw [hport]; exact hfew),
    wake_setPort (s := afterAck s n _ r) hw.1, hport] at h
  exact ⟨_, h, portAt_setPort_same (ports_canon_afterAck hs n _ r) n _⟩

theorem exec_idleFlit_accepted (hk : (headFields f.header).kind = 5) (hr : (portAt s n).replay = []) :
    exec (.idleFlit n f) s = .next (setPort s n (noteControl (portAt s n) (headFields f.header))) := by
  change execIdleFlit n f s = _
  rw [execIdleFlit, runControl_of_empty hup _ hk ha hr hs, id]

/-- A TIME flit of the selected source disciplines the time (R43). -/
theorem exec_timeFlit_selected {d : Int} (hk : (headFields f.header).kind = 2) (hr : (portAt s n).replay = [])
    (hsrc : s.time.tsrc = 2) (hport : s.time.tport = n) :
    ∃ u, u.time = s.time ∧ exec (.timeFlit n f d) s = .next (discipline u d) := by
  have h : exec (.timeFlit n f d) s = execTimeFlit n f d s := rfl
  rw [execTimeFlit, runControl_of_empty hup _ hk ha hr hs] at h
  simp only [setPort_time, hsrc, hport, and_self, if_true] at h
  exact ⟨_, by rfl, h⟩

end

/-- Settles O31: a numbered flit is taken or answered NAK; a control flit is noted, its ACKSEQ taken, and acts by its kind. -/
theorem flitsReceived : Obligations.FlitsReceived := by
  unfold Obligations.FlitsReceived
  intro s n f hc hw hup hrx p h k
  have hs := hc.ports
  refine ⟨fun b hk ha hr => ?_, fun hk ha => ?_, fun b hk ha hr hslot => ?_, fun ha => ⟨fun x r hk hr hx hm hdue hroom => ?_,
    fun x r hk hr hx hm hdue => ?_, fun x r hk hr hx hm hdue hfew => ?_, fun hk hr => ?_, fun d hk hr hsrc hport hd => ?_⟩,
    fun hk => ?_⟩
  · refine ⟨_, exec_dataFlit_accepted hup hk ha hr hs, ?_⟩
    rw [portAt_setPort_same hs]
    refine ⟨rfl, rfl, ?_, rfl, rfl⟩
    exact congrArg KeySlot.seenData ((slotAt_setSlot hrx h.kslot h.kslot _).trans (if_pos rfl))
  · have hsent := sent_discardNak hs n
    exact ⟨_, exec_dataFlit_discarded hup hk ha, hsent.got, hsent.wantSeq, hsent.authFail,
      by rw [hsent.wire, List.length_append]; rfl, hsent.replay⟩
  · refine ⟨_, exec_markerFlit_accepted hup hk ha hr hslot hs, ?_⟩
    rw [portAt_setPort_same hs]
    refine ⟨rfl, ?_, rfl, rfl⟩
    exact congrArg KeySlot.loaded (slotAt_movedTo (p := noteData p h) ((length_setSlot _ _ _).trans hrx) h.kslot)
  · have hafter := portAt_afterAck hs n h r
    have hsent := markerSent_sendMarker (ports_canon_afterAck hs n h r) (portUp_afterAck hs hup h r)
      (by rw [hafter]; exact hdue) (by rw [hafter]; exact hroom)
    rw [hafter] at hsent
    refine ⟨_, exec_ackFlit_first hs hup ha hk hr hx hm, hsent.markerDue, hsent.txSlot, ?_, ?_⟩
    · rw [hsent.wire, List.length_append]; rfl
    · rw [hsent.replay, List.length_append]; rfl
  · have hafter := portAt_afterAck hs n h r
    have hexec := exec_ackFlit_first hs hup ha hk hr hx hm
    rw [sendMarker_of_not_due (by rw [hafter]; exact hdue)] at hexec
    refine ⟨_, hexec, ?_⟩
    rw [hafter]
    refine ⟨rfl, rfl, rfl, ?_⟩
    exact congrArg KeySlot.seenCtl ((slotAt_setSlot hrx h.kslot h.kslot _).trans (if_pos rfl))
  · obtain ⟨t, ht, hport⟩ := exec_nakFlit_first hs hup ha hw hk hr hx hm hdue hfew
    refine ⟨t, ht, ?_⟩
    rw [hport, wire_resending]
    exact ⟨rfl, rfl⟩
  · exact ⟨_, exec_idleFlit_accepted hs hup ha hk hr, portAt_setPort_same hs n _, rfl⟩
  · obtain ⟨u, hu, ht⟩ := exec_timeFlit_selected (d := d) hs hup ha hk hr hsrc hport
    obtain ⟨hsync, hnow, hslew, -⟩ := time_discipline u d
    rw [if_neg (Int.not_lt.2 hd)] at hnow hslew
    exact ⟨_, ht, hslew, hsync, hnow.trans (by rw [hu])⟩
  · exact ⟨_, exec_reservedKindFlit_reserved hup hk, portAt_setPort_same hs n _, rfl⟩

end Sys2Proof.Proofs
